-- ==== Sys2Proof/Word.lean ====
section
/-!
DEFINITION. The words of RXSYNC: bytes of BUF, 32-bit CSRs, binary64 bit patterns and complex samples
(00_scope.md R7, R10; 20_memory.md R85).
-/
namespace Sys2Proof

/-- One byte of BUF (20_memory.md R81). -/
abbrev Byte := BitVec 8

/-- One CSR, argument register or command word: 32 bits (10_state.md section 4). -/
abbrev Word := BitVec 32

/-- The 64 bits of an IEEE 754 binary64 value; `F64(w)` of R10 is the reading of these bits, and
`bits(x)` is this word itself. -/
abbrev F64 := BitVec 64

/-- A complex value: a pair of binary64 (00_scope.md R10, 20_memory.md R85). -/
structure Sample where
  re : F64
  im : F64
deriving DecidableEq, Repr, Inhabited

/-- The complex `(+0.0, +0.0)`. -/
def Sample.zero : Sample := ⟨0, 0⟩

end Sys2Proof
end

