-- ==== Sys2Proof/Config.lean ====
section
/-!
DEFINITION. What an instance of RXSYNC fixes and the spec leaves open: the functions COS, SIN and MAG
(00_scope.md R6, R15), the power-up contents of BUF (70_reset_and_hazards.md R451), and the default
values of the two numeric parameters. The functions have no body, so nothing can be proved of their values.
-/
namespace Sys2Proof.Config

/-- `COS` of R6 and R15: any function of its argument (93 I3). Free. -/
opaque cos : F64 → F64

/-- `SIN` of R6 and R15: any function of its argument (93 I3). Free. -/
opaque sin : F64 → F64

/-- `MAG` of R6 and R15 where its second argument is not a zero: any function of its arguments (93 I4).
Free; the required value at a zero second argument is in `F64.mag`. -/
opaque magFree : F64 → F64 → F64

/-- What the byte at a BUF offset holds from power-up until something writes it: any value, per byte
(70_reset_and_hazards.md R451, 93 I6). Free. -/
opaque powerUpByte : Nat → Byte

/-- Default of `BUF_BYTES` (R6). -/
def defaultBufBytes : Nat := 0x100000

/-- Default of `WRAP_LIMIT` (R6). -/
def defaultWrapLimit : Nat := 1048576

/-- The most `BUF_BYTES` may be (R6). -/
def maxBufBytes : Nat := 0x00F00000

/-- `INTERP` of R6: the interpolation factor of the timing loop. -/
def interp : Nat := 16

/-- `MAX_PRE` of R6. -/
def maxPre : Nat := 64

/-- `MAX_KEY` of R6. -/
def maxKey : Nat := 32

end Sys2Proof.Config

namespace Sys2Proof

/-- The parameters of an instance (00_scope.md R6): the numbers that differ between instances. -/
structure Params where
  /-- `BUF_BYTES`. -/
  bufBytes : Nat
  /-- `WRAP_LIMIT`. -/
  wrapLimit : Nat
deriving DecidableEq, Repr

/-- The instance with the spec's default values (R6). -/
def Params.default : Params := ⟨Config.defaultBufBytes, Config.defaultWrapLimit⟩

end Sys2Proof
end

