-- ==== Sys2Proof/Syntax.lean ====
section
/-!
DEFINITION. The instructions of RXSYNC (30_encoding.md R111, R112, R117: one constructor per row of
spec/opcode_table.json) and the host's transactions, of which its programs are made (R118, 20_memory.md R86).
-/
namespace Sys2Proof

/-- One constructor per row of the opcode table. No instruction carries an operand: operands are read
from captured registers (30_encoding.md R115). -/
inductive Instr where
  /-- `NOP`, command word 0x00000000 (40_command.md R142). -/
  | nop
  /-- `TR_MM`, command word 0x00000001 (41_timing_recovery.md R175). -/
  | trMm
  /-- `COSTAS`, command word 0x00000002 (42_costas.md R200). -/
  | costas
  /-- `IQCORR`, command word 0x00000003 (43_iq_imbalance.md R231). -/
  | iqcorr
  /-- `FSYNC`, command word 0x00000004 (44_preamble_correlator.md R262). -/
  | fsync
  /-- `DEMAP.OOK`, command word 0x00000005 (45_demapper.md R288). -/
  | demapOok
  /-- `DEMAP.BPSK`, command word 0x00000105 (45_demapper.md R289). -/
  | demapBpsk
  /-- `DEMAP.QPSK`, command word 0x00000205 (45_demapper.md R290). -/
  | demapQpsk
  /-- `DEMAP.QAM16`, command word 0x00000305 (45_demapper.md R291). -/
  | demapQam16
  /-- `CRCCHK`, command word 0x00000006 (46_crc.md R316). -/
  | crcchk
  /-- `CRCENC`, command word 0x00000007 (46_crc.md R317). -/
  | crcenc
  /-- `SRST`, a CTRL write with bit 0 = 1 (70_reset_and_hazards.md R452). -/
  | srst
  /-- `ABORT`, a CTRL write with bit 1 = 1 and bit 0 = 0 (40_command.md R138). -/
  | abort
deriving DecidableEq, Repr

/-- The register a host write reaches an instruction through: the two formats of the opcode table
(30_encoding.md R110, R117). -/
inductive Port where
  /-- Format CMD32: a word written to CMD. -/
  | cmd
  /-- Format CTRL: a value written to CTRL. -/
  | ctrl
deriving DecidableEq, Repr

/-- Where an instruction is written. -/
def Instr.port : Instr → Port
  | .nop | .trMm | .costas | .iqcorr | .fsync => .cmd
  | .demapOok | .demapBpsk | .demapQpsk | .demapQam16 => .cmd
  | .crcchk | .crcenc => .cmd
  | .srst | .abort => .ctrl

/-- The widths of a host transaction (20_memory.md R86). -/
inductive Width where
  | b1 | b2 | b4 | b8
deriving DecidableEq, Repr

/-- A width in bytes. -/
def Width.bytes : Width → Nat
  | .b1 => 1
  | .b2 => 2
  | .b4 => 4
  | .b8 => 8

/-- One host bus transaction: a read or a write at an offset of the 16 MiB host window (20_memory.md R82, R86).
A write carries its bytes in the low `width` bytes of `data`. -/
inductive Access where
  | read (offset : BitVec 24) (width : Width)
  | write (offset : BitVec 24) (width : Width) (data : BitVec 64)
deriving DecidableEq, Repr

/-- The bus response to a transaction (20_memory.md R86, 60_exceptions.md R407). -/
inductive Response where
  /-- OKAY to a read, with the bytes read, zero-extended. -/
  | readOkay (data : BitVec 64)
  /-- OKAY to a write. -/
  | writeOkay
  /-- ERROR: the transaction had no effect. -/
  | error
deriving DecidableEq, Repr

/-- Who moves next. A list of turns is a program of the host together with one interleaving of it
with the engine's steps (00_scope.md R20; DESIGN CHOICE, log 2). -/
inductive Turn where
  /-- The host makes one transaction. -/
  | host (a : Access)
  /-- The engine takes its next step (nothing happens when it is idle). -/
  | engine
  /-- `WAIT` of 30_encoding.md R118: read STATUS, and again after an engine step while BUSY = 1 (log 18). -/
  | wait
  /-- The reset input changes to asserted or deasserted (70_reset_and_hazards.md R450). -/
  | resetPin (asserted : Bool)
deriving DecidableEq, Repr

end Sys2Proof
end

