-- ==== Sys2Proof/WellFormed.lean ====
section
/-!
DEFINITION. What a program and an instance must satisfy: which 32-bit words are legal command words
(30_encoding.md R110 to R113, R116), which host transactions are naturally aligned (20_memory.md R83, R87),
and the constraints on the instance parameters (00_scope.md R6). An `Instr` carries no operand, so every
term of it is well-formed; what can be ill-formed is a word, a transaction or a parameter.
-/
namespace Sys2Proof

/-- The OPCODE field, bits 7:0 (R110). -/
def opcodeField (w : Word) : BitVec 8 := w.extractLsb' 0 8

/-- The SUB field, bits 11:8 (R110). -/
def subField (w : Word) : BitVec 4 := w.extractLsb' 8 4

/-- The RSVD field, bits 31:12 (R110). -/
def rsvdField (w : Word) : BitVec 20 := w.extractLsb' 12 20

/-- The opcodes R111 gives an operation. -/
def legalOpcodes : List (BitVec 8) := [0x00, 0x01, 0x02, 0x03, 0x04, 0x05, 0x06, 0x07]

/-- RSVD must be 0 (R110). -/
def rsvdOk (w : Word) : Bool := rsvdField w == 0

/-- OPCODE must be one of R111's; 0x08 (the Gardner slot) and 0x09-0xFF are reserved (R116). -/
def opcodeOk (w : Word) : Bool := legalOpcodes.contains (opcodeField w)

/-- SUB must be 0, or at most 3 for DEMAP (R110, R112). -/
def subOk (w : Word) : Bool :=
  if opcodeField w == 0x05 then decide (subField w ≤ 3) else subField w == 0

/-- A legal command word (R113, R116). -/
def legalCommandWord (w : Word) : Bool := rsvdOk w && opcodeOk w && subOk w

/-- A transaction's offset. -/
def Access.offset : Access → BitVec 24
  | .read o _ => o
  | .write o _ _ => o

/-- A transaction's width. -/
def Access.width : Access → Width
  | .read _ w => w
  | .write _ w _ => w

/-- The transaction is naturally aligned (20_memory.md R83, R87). -/
def Access.aligned (a : Access) : Bool := a.offset.toNat % a.width.bytes == 0

/-- `BUF_BYTES` is a multiple of 16 (R6). -/
def Params.bufMultiple (p : Params) : Bool := p.bufBytes % 16 == 0

/-- `BUF_BYTES` fits the window (R6). -/
def Params.bufFits (p : Params) : Bool := decide (p.bufBytes ≤ Config.maxBufBytes)

/-- `WRAP_LIMIT` is positive (92_eei_decisions.md, open parameters). -/
def Params.wrapPositive (p : Params) : Bool := decide (0 < p.wrapLimit)

/-- An instance the spec allows. -/
def Params.wf (p : Params) : Bool := p.bufMultiple && p.bufFits && p.wrapPositive

end Sys2Proof
end

