-- ==== Sys2Proof/Decode.lean ====
section
/-!
DEFINITION. The decoder of command words and CTRL values (30_encoding.md R114, R117), total and
rejecting by name, and the encoder (R113, R117).
-/
namespace Sys2Proof

/-- Why a word is no instruction. To the machine every one of them on CMD is the spec's ILLEGAL
(30_encoding.md R116); the names only say which clause of R116 holds. -/
inductive DecodeError where
  /-- RSVD is not zero. -/
  | rsvdNotZero
  /-- DEMAP with SUB 4 to 15. -/
  | schemeReserved
  /-- SUB is not zero on an opcode other than DEMAP's. -/
  | subNotZero
  /-- Opcode 0x08, the slot reserved for a Gardner loop. -/
  | gardnerSlot
  /-- Opcodes 0x09 to 0xFF. -/
  | opcodeReserved
  /-- A CTRL value with bits 1:0 = 00 names no operation (10_state.md R34). -/
  | noCtrlOperation
  /-- Fewer bytes than one 32-bit word. -/
  | tooShort
deriving DecidableEq, Repr

/-- R112: the scheme in SUB. -/
def decodeDemap (sub : BitVec 4) : Except DecodeError Instr :=
  if sub = 0 then .ok .demapOok
  else if sub = 1 then .ok .demapBpsk
  else if sub = 2 then .ok .demapQpsk
  else if sub = 3 then .ok .demapQam16
  else .error .schemeReserved

/-- R111: the opcodes other than DEMAP's, with SUB zero. -/
def decodeOpcode (op : BitVec 8) : Except DecodeError Instr :=
  if op = 0x00 then .ok .nop
  else if op = 0x01 then .ok .trMm
  else if op = 0x02 then .ok .costas
  else if op = 0x03 then .ok .iqcorr
  else if op = 0x04 then .ok .fsync
  else if op = 0x06 then .ok .crcchk
  else if op = 0x07 then .ok .crcenc
  else if op = 0x08 then .error .gardnerSlot
  else .error .opcodeReserved

/-- R114: the operation a word written to CMD names. -/
def decodeCmd (w : Word) : Except DecodeError Instr :=
  if rsvdField w ≠ 0 then .error .rsvdNotZero
  else if opcodeField w = 0x05 then decodeDemap (subField w)
  else if subField w ≠ 0 then .error .subNotZero
  else decodeOpcode (opcodeField w)

/-- R117: the operation a value written to CTRL names. SRST wins over ABORT (10_state.md R34). -/
def decodeCtrl (v : Word) : Except DecodeError Instr :=
  if v.getLsbD 0 then .ok .srst
  else if v.getLsbD 1 then .ok .abort
  else .error .noCtrlOperation

/-- The operation a word names, by the register it is written to. -/
def decodeWord : Port → Word → Except DecodeError Instr
  | .cmd => decodeCmd
  | .ctrl => decodeCtrl

/-- A 32-bit word from its four bytes, least significant first (20_memory.md R84). -/
def wordOfBytes (b0 b1 b2 b3 : Byte) : Word := b3 ++ b2 ++ b1 ++ b0

/-- The decoder on bytes: one instruction is one 32-bit word (R110: there is no other length), and the
rest of the bytes is given back. -/
def decode (p : Port) : List Byte → Except DecodeError (Instr × List Byte)
  | b0 :: b1 :: b2 :: b3 :: rest =>
    match decodeWord p (wordOfBytes b0 b1 b2 b3) with
    | .ok i => .ok (i, rest)
    | .error r => .error r
  | _ => .error .tooShort

/-- R113 and R117: the word of an instruction (for CTRL, the value that sets its bit alone). -/
def encode : Instr → Word
  | .nop => 0x00000000
  | .trMm => 0x00000001
  | .costas => 0x00000002
  | .iqcorr => 0x00000003
  | .fsync => 0x00000004
  | .demapOok => 0x00000005
  | .demapBpsk => 0x00000105
  | .demapQpsk => 0x00000205
  | .demapQam16 => 0x00000305
  | .crcchk => 0x00000006
  | .crcenc => 0x00000007
  | .srst => 0x00000001
  | .abort => 0x00000002

/-- The bytes of a word, least significant first (20_memory.md R84). -/
def bytesOfWord (w : Word) : List Byte :=
  [w.extractLsb' 0 8, w.extractLsb' 8 8, w.extractLsb' 16 8, w.extractLsb' 24 8]

/-- The register a table row's bits are written to: the command words fix all 32 bits, the CTRL rows
fix one or two bits and so come with fewer than 32 (DEDUCED, log 4). -/
def tablePort (nbits : Nat) : Port := if nbits < 32 then .ctrl else .cmd

/-- The instruction the decoder reads from a table row's bits `w`, the bits above them 0. A word is
32 bits (R110), so anything wider is no instruction. -/
def decodeTableWord (nbits w : Nat) : Option Instr :=
  if w < 2 ^ 32 then
    match decode (tablePort nbits) (bytesOfWord (BitVec.ofNat 32 w)) with
    | .ok (i, _) => some i
    | .error _ => none
  else none

end Sys2Proof
end

