-- ==== Sys2Proof/Machine/Memory.lean ====
section
/-!
DEFINITION. BUF as data: the bytes written since power-up, a list of (offset, byte) pairs with rising offsets.
An unlisted offset holds no known value: it reads as the free power-up byte of Config (70_reset_and_hazards.md
R451, log 8). Wider accesses are built from bytes here, little-endian (20_memory.md R84).
-/
namespace Sys2Proof.Machine

/-- The bytes of BUF written since power-up. -/
abbrev Memory := List Host.Cell

/-- The byte last written at an offset, if any. An unlisted offset gives `none`, which no entry equals. -/
def Memory.find? : Memory → Nat → Option Byte
  | [], _ => none
  | (k, b) :: rest, a => if k = a then some b else Memory.find? rest a

/-- What an offset reads as: the last byte written, or its power-up byte (R451). -/
def Memory.readByte (m : Memory) (a : Nat) : Byte :=
  match m.find? a with
  | some b => b
  | none => Config.powerUpByte a

/-- Write one byte, keeping the offsets rising. -/
def Memory.writeByte : Memory → Nat → Byte → Memory
  | [], a, v => [(a, v)]
  | (k, b) :: rest, a, v =>
    if a < k then (a, v) :: (k, b) :: rest
    else if a = k then (a, v) :: rest
    else (k, b) :: Memory.writeByte rest a v

/-- `MemRead(a, n)` of R84: the value of `n` bytes, least significant at `a`. -/
def Memory.read (m : Memory) : Nat → Nat → Nat
  | _, 0 => 0
  | a, n + 1 => (m.readByte a).toNat + 256 * Memory.read m (a + 1) n

/-- `MemWrite(a, n, v)` of R84: the low `n` bytes of `v`, least significant at `a`. -/
def Memory.write : Memory → Nat → Nat → Nat → Memory
  | m, _, 0, _ => m
  | m, a, n + 1, v => Memory.write (m.writeByte a (BitVec.ofNat 8 v)) (a + 1) n (v / 256)

/-- The canonical form: offsets strictly rising. With it, memories that list the same bytes are equal data. -/
def Memory.wf : Memory → Bool
  | [] => true
  | [_] => true
  | (a, _) :: (b, y) :: rest => decide (a < b) && Memory.wf ((b, y) :: rest)

/-- Every listed offset lies in a BUF of `limit` bytes (20_memory.md R81). -/
def Memory.within (limit : Nat) (m : Memory) : Bool := m.all (fun c => decide (c.1 < limit))

end Sys2Proof.Machine
end

