-- ==== Sys2Proof/Machine/Registers.lean ====
section
/-!
DEFINITION. The register records of RXSYNC (10_state.md): the argument registers, the configuration
registers, the result registers and STATUS, each with its reset value (R79) and its read and write by name,
and the CSR map of R79 from offsets to names.
-/
namespace Sys2Proof.Machine

/-- The argument registers A0 to A7 (10_state.md R31). -/
structure Args where
  a0 : Word
  a1 : Word
  a2 : Word
  a3 : Word
  a4 : Word
  a5 : Word
  a6 : Word
  a7 : Word
deriving DecidableEq, Repr

/-- A0 to A7 after reset (R31). -/
def Args.reset : Args := ⟨0, 0, 0, 0, 0, 0, 0, 0⟩

/-- Register Ai. -/
def Args.get (r : Args) : Fin 8 → Word
  | 0 => r.a0
  | 1 => r.a1
  | 2 => r.a2
  | 3 => r.a3
  | 4 => r.a4
  | 5 => r.a5
  | 6 => r.a6
  | 7 => r.a7

/-- Write register Ai. -/
def Args.set (r : Args) (i : Fin 8) (v : Word) : Args :=
  match i with
  | 0 => { r with a0 := v }
  | 1 => { r with a1 := v }
  | 2 => { r with a2 := v }
  | 3 => { r with a3 := v }
  | 4 => { r with a4 := v }
  | 5 => { r with a5 := v }
  | 6 => { r with a6 := v }
  | 7 => { r with a7 := v }

/-- The configuration registers of 10_state.md R73. A 64-bit register is stored once; its two CSRs are
its halves (R41). -/
structure ConfigRegs where
  /-- `TR_SPS` (R42). -/
  trSps : F64
  /-- `TR_GAIN` (R43). -/
  trGain : F64
  /-- `CO_ALPHA` (R44). -/
  coAlpha : F64
  /-- `CO_BETA` (R45). -/
  coBeta : F64
  /-- `CO_FS` (R46). -/
  coFs : F64
  /-- `CO_PHASE0` (R47). -/
  coPhase0 : F64
  /-- `CO_FREQ0` (R48). -/
  coFreq0 : F64
  /-- `DM_GAIN` (R49). -/
  dmGain : F64
  /-- `PRE_LO` (R50). -/
  preLo : Word
  /-- `PRE_HI` (R50). -/
  preHi : Word
  /-- `PRE_CFG` (R51). -/
  preCfg : Word
  /-- `CRC_KEY` (R52). -/
  crcKey : Word
  /-- `CRC_CFG` (R53). -/
  crcCfg : Word
  /-- `IQ_CFG` (R54). -/
  iqCfg : Word
  /-- `TR_CFG` (R55). -/
  trCfg : Word
  /-- `CO_CFG` (R56). -/
  coCfg : Word
deriving DecidableEq, Repr

/-- The configuration registers after reset (R79). -/
def ConfigRegs.reset : ConfigRegs where
  trSps := 0x4020000000000000
  trGain := 0x3FD3333333333333
  coAlpha := 0x3EEBAEB22F9294C3
  coBeta := 0x3F186E8BCED5BB89
  coFs := 0x41E2410110000000
  coPhase0 := 0
  coFreq0 := 0
  dmGain := 0x3FF0000000000000
  preLo := 0
  preHi := 0
  preCfg := 0x0000003C
  crcKey := 0x00000987
  crcCfg := 0x0000000C
  iqCfg := 0
  trCfg := 0
  coCfg := 0

/-- The names of the 64-bit configuration registers. -/
inductive Cfg64 where
  | trSps | trGain | coAlpha | coBeta | coFs | coPhase0 | coFreq0 | dmGain
deriving DecidableEq, Repr

/-- The names of the 32-bit configuration registers. -/
inductive Cfg32 where
  | preLo | preHi | preCfg | crcKey | crcCfg | iqCfg | trCfg | coCfg
deriving DecidableEq, Repr

/-- Read a 64-bit configuration register. -/
def ConfigRegs.get64 (c : ConfigRegs) : Cfg64 → F64
  | .trSps => c.trSps
  | .trGain => c.trGain
  | .coAlpha => c.coAlpha
  | .coBeta => c.coBeta
  | .coFs => c.coFs
  | .coPhase0 => c.coPhase0
  | .coFreq0 => c.coFreq0
  | .dmGain => c.dmGain

/-- Write a 64-bit configuration register: any bit pattern is stored as written (R41). -/
def ConfigRegs.set64 (c : ConfigRegs) (r : Cfg64) (v : F64) : ConfigRegs :=
  match r with
  | .trSps => { c with trSps := v }
  | .trGain => { c with trGain := v }
  | .coAlpha => { c with coAlpha := v }
  | .coBeta => { c with coBeta := v }
  | .coFs => { c with coFs := v }
  | .coPhase0 => { c with coPhase0 := v }
  | .coFreq0 => { c with coFreq0 := v }
  | .dmGain => { c with dmGain := v }

/-- Read a 32-bit configuration register. -/
def ConfigRegs.get32 (c : ConfigRegs) : Cfg32 → Word
  | .preLo => c.preLo
  | .preHi => c.preHi
  | .preCfg => c.preCfg
  | .crcKey => c.crcKey
  | .crcCfg => c.crcCfg
  | .iqCfg => c.iqCfg
  | .trCfg => c.trCfg
  | .coCfg => c.coCfg

/-- The bits of a 32-bit configuration register that are not reserved (R50 to R56). -/
def Cfg32.writable : Cfg32 → Word
  | .preLo => 0xFFFFFFFF
  | .preHi => 0xFFFFFFFF
  | .preCfg => 0x0000017F
  | .crcKey => 0xFFFFFFFF
  | .crcCfg => 0x0000003F
  | .iqCfg => 0x00000001
  | .trCfg => 0x00000001
  | .coCfg => 0x00000001

/-- Write a 32-bit configuration register; reserved bits ignore the write (R40). -/
def ConfigRegs.set32 (c : ConfigRegs) (r : Cfg32) (v : Word) : ConfigRegs :=
  let v := v &&& r.writable
  match r with
  | .preLo => { c with preLo := v }
  | .preHi => { c with preHi := v }
  | .preCfg => { c with preCfg := v }
  | .crcKey => { c with crcKey := v }
  | .crcCfg => { c with crcCfg := v }
  | .iqCfg => { c with iqCfg := v }
  | .trCfg => { c with trCfg := v }
  | .coCfg => { c with coCfg := v }

/-- `PRE_CFG.PRE_LEN`, bits 6:0 (R51). -/
def ConfigRegs.preLen (c : ConfigRegs) : Nat := (c.preCfg.extractLsb' 0 7).toNat

/-- `PRE_CFG.PRE_MAP`, bit 8 (R51). -/
def ConfigRegs.preMap (c : ConfigRegs) : Bool := c.preCfg.getLsbD 8

/-- `PRE = {PRE_HI, PRE_LO}` (R50). -/
def ConfigRegs.pre (c : ConfigRegs) : BitVec 64 := c.preHi ++ c.preLo

/-- `CRC_CFG.KEY_LEN`, bits 5:0 (R53). -/
def ConfigRegs.keyLen (c : ConfigRegs) : Nat := (c.crcCfg.extractLsb' 0 6).toNat

/-- `IQ_CFG.SRC_SEL`, bit 0 (R54). -/
def ConfigRegs.srcSel (c : ConfigRegs) : Bool := c.iqCfg.getLsbD 0

/-- `TR_CFG.LOG`, bit 0 (R55). -/
def ConfigRegs.trLog (c : ConfigRegs) : Bool := c.trCfg.getLsbD 0

/-- `CO_CFG.LOG`, bit 0 (R56). -/
def ConfigRegs.coLog (c : ConfigRegs) : Bool := c.coCfg.getLsbD 0

/-- The result registers (10_state.md R57 to R72). -/
structure ResultRegs where
  /-- `TR_MU` (R57). -/
  trMu : F64
  /-- `TR_IIN` (R58). -/
  trIin : Word
  /-- `TR_IOUT` (R59). -/
  trIout : Word
  /-- `CO_PHASE` (R60). -/
  coPhase : F64
  /-- `CO_FREQ` (R61). -/
  coFreq : F64
  /-- `IQ_A` (R62). -/
  iqA : F64
  /-- `IQ_SIN` (R63). -/
  iqSin : F64
  /-- `IQ_COS` (R64). -/
  iqCos : F64
  /-- `FS_IDX` (R65). -/
  fsIdx : Word
  /-- `FS_INFO` (R66): bit 0 SHORT, bit 1 DEGEN. -/
  fsInfo : Word
  /-- `FS_PEAK` (R67). -/
  fsPeak : F64
  /-- `FS_FULL_LEN` (R68). -/
  fsFullLen : Word
  /-- `FS_PAY_LEN` (R69). -/
  fsPayLen : Word
  /-- `OUT_LEN` (R70). -/
  outLen : Word
  /-- `CRC_REM` (R71). -/
  crcRem : Word
  /-- `CRC_RES` (R72): bit 0 PASS. -/
  crcRes : Word
deriving DecidableEq, Repr

/-- The result registers after reset (R79). -/
def ResultRegs.reset : ResultRegs where
  trMu := 0
  trIin := 0
  trIout := 0
  coPhase := 0
  coFreq := 0
  iqA := 0
  iqSin := 0
  iqCos := 0
  fsIdx := 0
  fsInfo := 0
  fsPeak := 0
  fsFullLen := 0
  fsPayLen := 0
  outLen := 0
  crcRem := 0
  crcRes := 0

/-- The names of the 64-bit result registers. -/
inductive Res64 where
  | trMu | coPhase | coFreq | iqA | iqSin | iqCos | fsPeak
deriving DecidableEq, Repr

/-- The names of the 32-bit result registers. -/
inductive Res32 where
  | trIin | trIout | fsIdx | fsInfo | fsFullLen | fsPayLen | outLen | crcRem | crcRes
deriving DecidableEq, Repr

/-- Read a 64-bit result register. -/
def ResultRegs.get64 (r : ResultRegs) : Res64 → F64
  | .trMu => r.trMu
  | .coPhase => r.coPhase
  | .coFreq => r.coFreq
  | .iqA => r.iqA
  | .iqSin => r.iqSin
  | .iqCos => r.iqCos
  | .fsPeak => r.fsPeak

/-- Read a 32-bit result register. -/
def ResultRegs.get32 (r : ResultRegs) : Res32 → Word
  | .trIin => r.trIin
  | .trIout => r.trIout
  | .fsIdx => r.fsIdx
  | .fsInfo => r.fsInfo
  | .fsFullLen => r.fsFullLen
  | .fsPayLen => r.fsPayLen
  | .outLen => r.outLen
  | .crcRem => r.crcRem
  | .crcRes => r.crcRes

/-- The stored bits of STATUS (10_state.md R35). BUSY is not among them: it is 1 exactly while the
engine's record exists (R75, log 13). -/
structure Status where
  /-- `STATUS[1]`. -/
  done : Bool
  /-- `STATUS[2]`. -/
  err : Bool
  /-- `STATUS[3]`. -/
  hostconf : Bool
  /-- `STATUS[15:8]`. -/
  errcode : BitVec 8
deriving DecidableEq, Repr

/-- STATUS after reset (R35). -/
def Status.reset : Status := ⟨false, false, false, 0⟩

/-- The CSRs by name (10_state.md R79). -/
inductive Csr where
  | id
  | ctrl
  | status
  | irqEn
  | cmd
  | bufSize
  | param
  | arg (i : Fin 8)
  | cfgLo (r : Cfg64)
  | cfgHi (r : Cfg64)
  | cfg (r : Cfg32)
  | resLo (r : Res64)
  | resHi (r : Res64)
  | res (r : Res32)
deriving DecidableEq, Repr

/-- The CSR map of R79: every assigned offset and its register. -/
def csrMap : List (Nat × Csr) :=
  [(0x000, .id), (0x004, .ctrl), (0x008, .status), (0x00C, .irqEn), (0x010, .cmd), (0x014, .bufSize), (0x018, .param)] ++
  [(0x020, .arg 0), (0x024, .arg 1), (0x028, .arg 2), (0x02C, .arg 3),
   (0x030, .arg 4), (0x034, .arg 5), (0x038, .arg 6), (0x03C, .arg 7)] ++
  [(0x040, .cfgLo .trSps), (0x044, .cfgHi .trSps), (0x048, .cfgLo .trGain), (0x04C, .cfgHi .trGain),
   (0x050, .cfgLo .coAlpha), (0x054, .cfgHi .coAlpha), (0x058, .cfgLo .coBeta), (0x05C, .cfgHi .coBeta),
   (0x060, .cfgLo .coFs), (0x064, .cfgHi .coFs), (0x068, .cfgLo .coPhase0), (0x06C, .cfgHi .coPhase0),
   (0x070, .cfgLo .coFreq0), (0x074, .cfgHi .coFreq0), (0x078, .cfgLo .dmGain), (0x07C, .cfgHi .dmGain)] ++
  [(0x080, .cfg .preLo), (0x084, .cfg .preHi), (0x088, .cfg .preCfg), (0x08C, .cfg .crcKey),
   (0x090, .cfg .crcCfg), (0x094, .cfg .iqCfg), (0x098, .cfg .trCfg), (0x09C, .cfg .coCfg)] ++
  [(0x0A0, .resLo .trMu), (0x0A4, .resHi .trMu), (0x0A8, .res .trIin), (0x0AC, .res .trIout),
   (0x0B0, .resLo .coPhase), (0x0B4, .resHi .coPhase), (0x0B8, .resLo .coFreq), (0x0BC, .resHi .coFreq),
   (0x0C0, .resLo .iqA), (0x0C4, .resHi .iqA), (0x0C8, .resLo .iqSin), (0x0CC, .resHi .iqSin),
   (0x0D0, .resLo .iqCos), (0x0D4, .resHi .iqCos), (0x0D8, .res .fsIdx), (0x0DC, .res .fsInfo),
   (0x0E0, .resLo .fsPeak), (0x0E4, .resHi .fsPeak), (0x0E8, .res .fsFullLen), (0x0EC, .res .fsPayLen),
   (0x0F0, .res .outLen), (0x0F4, .res .crcRem), (0x0F8, .res .crcRes)]

/-- Look an offset up in a map. -/
def csrLookup : List (Nat × Csr) → Nat → Option Csr
  | [], _ => none
  | (k, r) :: rest, o => if k = o then some r else csrLookup rest o

/-- The register at an offset of the CSR space; `none` at a reserved offset (R40). -/
def Csr.ofOffset (o : Nat) : Option Csr := csrLookup csrMap o

/-- The offset of a register in a map (0 where the register is not listed; every register is). -/
def offsetLookup : List (Nat × Csr) → Csr → Nat
  | [], _ => 0
  | (k, r) :: rest, c => if r = c then k else offsetLookup rest c

/-- The offset of a register (R79). -/
def Csr.offset (c : Csr) : Nat := offsetLookup csrMap c

end Sys2Proof.Machine
end

