-- ==== Sys2Proof/Machine/State.lean ====
section
/-!
DEFINITION. The state of one RXSYNC instance (10_state.md R30): its registers, BUF, the engine's internal state
while a command runs (R75 to R78), the reset input, and the host's side of the bus as plain data.
-/
namespace Sys2Proof.Machine

/-- TR_MM loop state (10_state.md R76). -/
structure TrLoop where
  mu : F64
  iIn : Int
  iOut : Nat
  out1 : Sample
  out2 : Sample
  rail1 : Sample
  rail2 : Sample
deriving DecidableEq, Repr

/-- COSTAS loop state (10_state.md R77). -/
structure CoLoop where
  phase : F64
  freq : F64
  i : Nat
deriving DecidableEq, Repr

/-- Where IQCORR stands (43_iq_imbalance.md R231). -/
inductive IqStage where
  /-- N = 0: nothing to do but complete (R232). -/
  | empty
  /-- Pass 1, iteration `k`; after its last iteration the estimate is the next step. -/
  | estimate
  /-- Pass 2, iteration `k`. -/
  | correct
deriving DecidableEq, Repr

/-- IQCORR loop state (10_state.md R78; 43_iq_imbalance.md R223 to R228). `prime` holds the bias-removed
samples `(I'[k], Q'[k])`. -/
structure IqLoop where
  stage : IqStage
  k : Nat
  prime : List Sample
  s2 : F64
  sIQ : F64
  a : F64
  sinPsi : F64
  cosPsi : F64
  c1 : F64
  c2 : F64
deriving DecidableEq, Repr

/-- Where FSYNC stands (44_preamble_correlator.md R262). -/
inductive FsStage where
  /-- The sum of magnitudes; after its last iteration the scale is the next step. -/
  | magnitude
  /-- The rescale. -/
  | rescale
  /-- The lag sums; after the last one the start of the peak scan is the next step. -/
  | lags
  /-- The peak scan; after its last iteration the window is the next step. -/
  | scan
  /-- The copy of the window; after its last iteration the payload count is the next step. -/
  | copyFull
  /-- The copy of the payload. -/
  | copyPay
  /-- The input is degenerate (R255): only completion is left. -/
  | degenerate
deriving DecidableEq, Repr

/-- FSYNC loop state (10_state.md R78; 44_preamble_correlator.md R254 to R260). `i` is the index of the loop
the stage is in; `v` and `c` hold the rescaled values and the lag sums formed so far. -/
structure FsLoop where
  stage : FsStage
  i : Nat
  sa : F64
  scale : F64
  d : F64
  v : List F64
  c : List F64
  idx : Nat
  peak : F64
  start : Nat
  full : Nat
  short : Bool
  pay : Nat
deriving DecidableEq, Repr

/-- DEMAP loop state: the symbol index. The output bit counter `t` of 10_state.md R78 is `i * bps + j` (log 14). -/
structure DmLoop where
  i : Nat
deriving DecidableEq, Repr

/-- Where CRCCHK or CRCENC stands (46_crc.md R316, R317). -/
inductive CrcStage where
  /-- Feeding bits, the appended zero bits of CRCENC included; then the remainder is the next step. -/
  | divide
  /-- CRCENC pass 2 and the appended remainder; for CRCCHK only completion is left. -/
  | output
deriving DecidableEq, Repr

/-- CRCCHK and CRCENC loop state: the division register (10_state.md R78, 46_crc.md R313), the bit index
and the remainder. -/
structure CrcLoop where
  stage : CrcStage
  i : Nat
  r : Word
  rem : Word
deriving DecidableEq, Repr

/-- How far the running command has come (40_command.md R137): its check step is still to come, or its
operation is under way with the loop state of 10_state.md R76 to R78. -/
inductive Progress where
  | check
  | nop
  | trMm (l : TrLoop)
  | costas (l : CoLoop)
  | iqcorr (l : IqLoop)
  | fsync (l : FsLoop)
  | demap (l : DmLoop)
  | crc (l : CrcLoop)
deriving DecidableEq, Repr

/-- The engine's internal state, which exists only while BUSY = 1 (10_state.md R75). -/
structure Engine where
  /-- `eng.cmd`. -/
  cmd : Word
  /-- `eng.args`: the captured argument registers. -/
  args : Args
  /-- `eng.args`: the captured configuration registers. -/
  cfg : ConfigRegs
  /-- `eng.abort_req`. -/
  abortReq : Bool
  /-- `eng.written`. -/
  written : Nat
  /-- The loop state. -/
  progress : Progress
deriving DecidableEq, Repr

/-- What stops the model where the spec says the situation cannot arise. All three are safe: the spec's
machine never gets there from reset, and the model claims nothing about what would happen. -/
inductive Fault where
  /-- An engine access outside BUF. Raised by the engine's loads and stores. 40_command.md R135 refuses such a
  command before it runs. Safe (log 10). -/
  | outsideBuf
  /-- `floor` of a non-finite value. Raised by TR_MM's iteration. 00_scope.md R14 says it is never applied to
  one. Safe (log 11). -/
  | floorNonFinite
  /-- The engine's loop state is not one of the command that runs. Raised by every command's meaning. Safe (log 12). -/
  | loopMismatch
deriving DecidableEq, Repr

/-- Why an instruction has no meaning. -/
inductive Refusal where
  /-- Not modelled. Raised by no arm of `exec`. Safe. -/
  | notModelled (mnemonic : String)
deriving DecidableEq, Repr

/-- The state of one RXSYNC instance. -/
structure State where
  /-- The instance's parameters (00_scope.md R6), constants that no step writes (log 5). -/
  params : Params
  /-- A0 to A7 (10_state.md R31). -/
  args : Args
  /-- The configuration registers (10_state.md R42 to R56). -/
  cfg : ConfigRegs
  /-- The result registers (10_state.md R57 to R72). -/
  results : ResultRegs
  /-- STATUS but for BUSY (10_state.md R35). -/
  status : Status
  /-- IRQ_EN (10_state.md R36). -/
  irqEn : Word
  /-- CMD (10_state.md R37). -/
  cmd : Word
  /-- BUF (20_memory.md R81). -/
  buf : Memory
  /-- The engine while it runs a command; `none` when idle (10_state.md R75). -/
  eng : Option Engine
  /-- The reset input is asserted (70_reset_and_hazards.md R450). -/
  resetAsserted : Bool
  /-- The MODEL's own: the turns still to come (log 2). -/
  agenda : List Turn
  /-- The MODEL's own: the bus responses given so far, newest first (log 16). -/
  responses : List Response
deriving DecidableEq, Repr

/-- The state right after reset (70_reset_and_hazards.md R450, 10_state.md R79) of the instance with the
default parameters: registers at their reset values, BUF not reset and nothing yet written to it since
power-up (R451), the engine idle. -/
def State.reset : State where
  params := Params.default
  args := Args.reset
  cfg := ConfigRegs.reset
  results := ResultRegs.reset
  status := Status.reset
  irqEn := 0
  cmd := 0
  buf := []
  eng := none
  resetAsserted := false
  agenda := []
  responses := []

end Sys2Proof.Machine
end

