-- ==== Sys2Proof/Machine/Flags.lean ====
section
/-!
DEFINITION. The flags of RXSYNC: the STATUS word and its bits (10_state.md R35), the error codes of ERRCODE
(60_exceptions.md R400), the interrupt output (R410), and the bits of FS_INFO, CRC_RES and TR_IIN.
-/
namespace Sys2Proof.Machine

/-- The error completions of 60_exceptions.md R400. -/
inductive ErrCode where
  | illegalCmd
  | badArg
  | align
  | range
  | overlap
  | aborted
  | trIndex
  | trNonfinite
  | coNonfinite
  | coWrap
  | iqRange
  | iqDegenerate
  | dmNonfinite
  | crcBitval
deriving DecidableEq, Repr

/-- The value of ERRCODE for each error (R400). -/
def ErrCode.code : ErrCode → BitVec 8
  | .illegalCmd => 0x01
  | .badArg => 0x02
  | .align => 0x03
  | .range => 0x04
  | .overlap => 0x05
  | .aborted => 0x06
  | .trIndex => 0x10
  | .trNonfinite => 0x11
  | .coNonfinite => 0x20
  | .coWrap => 0x21
  | .iqRange => 0x30
  | .iqDegenerate => 0x31
  | .dmNonfinite => 0x50
  | .crcBitval => 0x60

/-- `STATUS.BUSY` (10_state.md R35): the engine's state exists (R75). -/
def State.busy (s : State) : Bool := s.eng.isSome

/-- A bit as a word with that bit at a place. -/
def bitAt (b : Bool) (place : Nat) : Word := (BitVec.ofBool b).setWidth 32 <<< place

/-- STATUS as a 32-bit read gives it (R35). -/
def State.statusWord (s : State) : Word :=
  bitAt s.busy 0 ||| bitAt s.status.done 1 ||| bitAt s.status.err 2 ||| bitAt s.status.hostconf 3 |||
    (s.status.errcode.setWidth 32 <<< 8)

/-- The effect of writing `v` to STATUS: W1C of DONE, ERR with ERRCODE, and HOSTCONF (60_exceptions.md R405). -/
def Status.clear (st : Status) (v : Word) : Status where
  done := st.done && !v.getLsbD 1
  err := st.err && !v.getLsbD 2
  hostconf := st.hostconf && !v.getLsbD 3
  errcode := if v.getLsbD 2 then 0 else st.errcode

/-- STATUS at issue: DONE, ERR and ERRCODE cleared, HOSTCONF kept (40_command.md R131). -/
def Status.issued (st : Status) : Status := { st with done := false, err := false, errcode := 0 }

/-- STATUS at a successful completion (40_command.md R139). -/
def Status.completed (st : Status) : Status := { st with done := true }

/-- STATUS at an error completion (60_exceptions.md R404). -/
def Status.failed (st : Status) (c : ErrCode) : Status :=
  { st with done := true, err := true, errcode := c.code }

/-- STATUS after a refused host access (10_state.md R73, 20_memory.md R92). -/
def Status.conflict (st : Status) : Status := { st with hostconf := true }

/-- The bits of IRQ_EN that are not reserved (10_state.md R36). -/
def irqEnWritable : Word := 0x00000007

/-- The interrupt output (60_exceptions.md R410). -/
def State.irq (s : State) : Bool :=
  (s.status.done && s.irqEn.getLsbD 0) || (s.status.err && s.irqEn.getLsbD 1) ||
    (s.status.hostconf && s.irqEn.getLsbD 2)

/-- FS_INFO of a completed FSYNC (10_state.md R66). -/
def fsInfoWord (short degen : Bool) : Word := bitAt short 0 ||| bitAt degen 1

/-- CRC_RES of a completed CRCCHK or CRCENC (10_state.md R72). -/
def crcResWord (pass : Bool) : Word := bitAt pass 0

/-- TR_IIN: an integer clamped to 32-bit two's complement (10_state.md R58, 41_timing_recovery.md R174). -/
def clamp32 (n : Int) : Word := BitVec.ofInt 32 (max (-(2 ^ 31)) (min n (2 ^ 31 - 1)))

end Sys2Proof.Machine
end

