-- ==== Sys2Proof/Machine/Float.lean ====
section
/-!
DEFINITION. IEEE 754 binary64 arithmetic as 00_scope.md R10 to R19 and R21 fix it: every operation forms the
exact real result and rounds it once, roundTiesToEven, with gradual underflow and overflow to infinity.
A finite binary64 is an integer multiple of 2^-1074; magnitudes below are counted in that unit.
-/
namespace Sys2Proof.F64

/-- The canonical quiet NaN of R21, the NaN every arithmetic operation produces. -/
def nan : F64 := 0x7FF8000000000000

/-- `1.0` (R19). -/
def one : F64 := 0x3FF0000000000000

/-- `2.0`. -/
def two : F64 := 0x4000000000000000

/-- `16.0`, the interpolation factor (R6) as a binary64. -/
def sixteen : F64 := 0x4030000000000000

/-- `TWO_PI` (R16). -/
def twoPi : F64 := 0x401921FB54442D18

/-- The bits of `+infinity` as a number: the rounded magnitude at which R11 overflows. -/
def infMagBits : Nat := 0x7FF0000000000000

/-- The sign bit. -/
def sign (x : F64) : Bool := x.getLsbD 63

/-- The bits below the sign. -/
def magBits (x : F64) : Nat := x.toNat % 2 ^ 63

/-- The biased exponent field. -/
def expField (x : F64) : Nat := magBits x / 2 ^ 52

/-- The fraction field. -/
def fracField (x : F64) : Nat := magBits x % 2 ^ 52

/-- `isfinite` of R13: neither infinite nor NaN. -/
def isFinite (x : F64) : Bool := expField x != 2047

/-- A NaN, of any payload. -/
def isNaN (x : F64) : Bool := expField x == 2047 && fracField x != 0

/-- An infinity of either sign. -/
def isInf (x : F64) : Bool := expField x == 2047 && fracField x == 0

/-- A zero of either sign. -/
def isZero (x : F64) : Bool := magBits x == 0

/-- The magnitude of a finite value in units of 2^-1074: a subnormal's fraction, or a normal's significand
shifted to its exponent. -/
def mag1074 (x : F64) : Nat :=
  if expField x = 0 then fracField x else (2 ^ 52 + fracField x) <<< (expField x - 1)

/-- The value of a finite binary64 in units of 2^-1074. -/
def toInt (x : F64) : Int := if sign x then -(mag1074 x : Int) else (mag1074 x : Int)

/-- One unit, 1.0, counted in 2^-1074. -/
def unit1074 : Nat := 1 <<< 1074

/-- `RN` of R11 on the magnitude `n / d` counted in 2^-1074 (`d > 0`), as the low 63 bits of the result.
`e` is how far the last place of the result lies above 2^-1074; adding the significand, hidden bit
included, to `e * 2^52` forms exponent and fraction fields at once, and lets a carry out of the
significand raise the exponent. -/
def roundMag (n d : Nat) : Nat :=
  let e := Nat.log2 (n / d) - 52
  let w := d <<< e
  let m := n / w
  let r := n % w
  let m' := if w < 2 * r || (w == 2 * r && m % 2 == 1) then m + 1 else m
  let b := e * 2 ^ 52 + m'
  if b < infMagBits then b else infMagBits

/-- A binary64 from its sign and its low 63 bits. -/
def pack (neg : Bool) (mag : Nat) : F64 := BitVec.ofNat 64 (if neg then 2 ^ 63 + mag else mag)

/-- The binary64 nearest to `t` units of 2^-1074 (R11), `+0.0` for 0. -/
def roundInt (t : Int) : F64 := pack (decide (t < 0)) (roundMag t.natAbs 1)

/-- Negation (R13): flips the sign bit. -/
def neg (x : F64) : F64 := x ^^^ 0x8000000000000000

/-- `abs` (R13): clears the sign bit. -/
def abs (x : F64) : F64 := x &&& 0x7FFFFFFFFFFFFFFF

/-- `a + b` (R11). A sum that is exactly zero is `-0.0` only when both operands are negative
zeros (IEEE 754 roundTiesToEven). -/
def add (x y : F64) : F64 :=
  if isNaN x || isNaN y then nan
  else if isInf x then (if isInf y && sign x != sign y then nan else x)
  else if isInf y then y
  else
    let t := toInt x + toInt y
    if t = 0 then pack (sign x && sign y) 0 else roundInt t

/-- `a - b` (R11): the sum with the exact negation. -/
def sub (x y : F64) : F64 := add x (neg y)

/-- `a * b` (R11). -/
def mul (x y : F64) : F64 :=
  let s := sign x != sign y
  if isNaN x || isNaN y then nan
  else if isInf x || isInf y then (if isZero x || isZero y then nan else pack s infMagBits)
  else pack s (roundMag (mag1074 x * mag1074 y) unit1074)

/-- `a / b` (R11). -/
def div (x y : F64) : F64 :=
  let s := sign x != sign y
  if isNaN x || isNaN y then nan
  else if isInf x then (if isInf y then nan else pack s infMagBits)
  else if isInf y then pack s 0
  else if isZero y then (if isZero x then nan else pack s infMagBits)
  else pack s (roundMag (mag1074 x * unit1074) (mag1074 y))

/-- The integer square root, one bit at a time from bit `k - 1` down. `r` is the part already found. -/
def isqrtFrom (n : Nat) : Nat → Nat → Nat
  | 0, r => r
  | k + 1, r =>
    let c := r + 2 ^ k
    match Nat.ble (c * c) n with
    | true => isqrtFrom n k c
    | false => isqrtFrom n k r

/-- The greatest `r` with `r * r ≤ n`. -/
def isqrt (n : Nat) : Nat := isqrtFrom n (Nat.log2 n / 2 + 1) 0

/-- `SQRT` of R15, correctly rounded. The root in units of 2^-1074 is that of `mag1074 x * 2^1074`. Its
integer part has far more bits than a significand, so the exact root and `s` with a half for a nonzero
remainder lie on the same side of every midpoint and round alike. -/
def sqrt (x : F64) : F64 :=
  if isNaN x then nan
  else if isZero x then x
  else if sign x then nan
  else if isInf x then x
  else
    let n := mag1074 x * unit1074
    let s := isqrt n
    pack false (roundMag (2 * s + (if s * s = n then 0 else 1)) 2)

/-- An integer that orders the non-NaN values as IEEE 754 does; both zeros are at 0 (R13). -/
def orderKey (x : F64) : Int := if sign x then -(magBits x : Int) else (magBits x : Int)

/-- `<` of R13, a quiet comparison. -/
def lt (x y : F64) : Bool := !isNaN x && !isNaN y && decide (orderKey x < orderKey y)

/-- `<=` of R13. -/
def le (x y : F64) : Bool := !isNaN x && !isNaN y && decide (orderKey x ≤ orderKey y)

/-- `==` of R13. -/
def eq (x y : F64) : Bool := !isNaN x && !isNaN y && decide (orderKey x = orderKey y)

/-- `>` of R13. -/
def gt (x y : F64) : Bool := lt y x

/-- `>=` of R13. -/
def ge (x y : F64) : Bool := le y x

/-- `floor` of R14, of a finite value. -/
def floor (x : F64) : Int := toInt x / (unit1074 : Int)

/-- `I2F` of R17, and the binary64 operand that R14 makes of a floor: the integer's own value, which is
exact wherever the spec applies it; 0 gives `+0.0` (DEDUCED, log 17). -/
def ofInt (n : Int) : F64 := roundInt (n * (unit1074 : Int))

/-- `MAG` of R15: `abs(re)` where the second argument is a zero, a free function elsewhere (log 7). -/
def mag (re im : F64) : F64 := if isZero im then abs re else Config.magFree re im

/-- `csub` of R18. -/
def csub (p q : Sample) : Sample := ⟨sub p.re q.re, sub p.im q.im⟩

/-- `re_mul_conj` of R18: the real part of `p * conj(q)`. -/
def reMulConj (p q : Sample) : F64 := add (mul p.re q.re) (mul p.im q.im)

/-- `rot` of R18: `z * (c - j s)`. -/
def rot (z : Sample) (c s : F64) : Sample :=
  ⟨add (mul z.re c) (mul z.im s), sub (mul z.im c) (mul z.re s)⟩

end Sys2Proof.F64
end

