-- ==== Sys2Proof/Machine/Operands.lean ====
section
/-!
DEFINITION. The operands of every command (30_encoding.md R115): what the captured registers mean, the regions of
BUF a command names (40_command.md R133), the pre-checks on them (R132, R134, R135, R136), the preamble
coefficients (44_preamble_correlator.md R252), the reference points (45_demapper.md R282) and the CRC key
(46_crc.md R312).
-/
namespace Sys2Proof.Machine

/-- A0: the source base of every command that reads BUF (R115). -/
def Engine.src (e : Engine) : Nat := e.args.a0.toNat

/-- A1: the primary destination base (R115). -/
def Engine.dst (e : Engine) : Nat := e.args.a1.toNat

/-- A2: the element count N (n for CRC) (R115). -/
def Engine.count (e : Engine) : Nat := e.args.a2.toNat

/-- A3: the log base of TR_MM and COSTAS, the payload base of FSYNC (R115). -/
def Engine.aux (e : Engine) : Nat := e.args.a3.toNat

/-- A4: P of IQCORR, M of FSYNC, S of DEMAP (R115). -/
def Engine.scalar (e : Engine) : Nat := e.args.a4.toNat

/-- The element types of a region (40_command.md R133). -/
inductive Elem where
  | real | complex | bit
deriving DecidableEq, Repr

/-- The direction of a region (R133). -/
inductive Dir where
  | read | write
deriving DecidableEq, Repr

/-- A region of BUF a command names (R133); the size is a mathematical integer, in bytes. -/
structure Region where
  base : Nat
  size : Nat
  elem : Elem
  dir : Dir
deriving DecidableEq, Repr

/-- What the check step of one command tests (40_command.md R132). -/
structure CheckPlan where
  /-- Check 2 fails: a configuration value is outside its legal range. -/
  badArg : Bool
  /-- The regions of checks 3 to 5. -/
  regions : List Region
  /-- Source and destination may be identical (COSTAS, R136). -/
  inPlace : Bool
deriving DecidableEq, Repr

/-- R134: a real or complex region of size > 0 must have a base that is a multiple of 8. -/
def Region.misaligned (r : Region) : Bool := r.elem != .bit && r.size != 0 && r.base % 8 != 0

/-- R135: a region of size > 0 must end inside BUF. -/
def Region.outOfRange (limit : Nat) (r : Region) : Bool := r.size != 0 && decide (limit < r.base + r.size)

/-- R136: two regions share a byte. -/
def Region.overlaps (r q : Region) : Bool :=
  r.size != 0 && q.size != 0 && decide (r.base < q.base + q.size) && decide (q.base < r.base + r.size)

/-- R136's one exception: a source and a destination that are identical. -/
def Region.identical (r q : Region) : Bool :=
  r.dir == .read && q.dir == .write && r.base == q.base && r.size == q.size && r.elem == q.elem

/-- Two regions overlap in a way R136 forbids. -/
def Region.clash (inPlace : Bool) (r q : Region) : Bool := r.overlaps q && !(inPlace && r.identical q)

/-- Some two regions of a list overlap in a way R136 forbids. -/
def anyClash (inPlace : Bool) : List Region → Bool
  | [] => false
  | r :: rest => rest.any (r.clash inPlace) || anyClash inPlace rest

/-- Checks 2 to 5 of 40_command.md R132, in order; the first that fails is the command's error. Check 1 is
made where the word is decoded. -/
def CheckPlan.firstError (limit : Nat) (p : CheckPlan) : Option ErrCode :=
  if p.badArg then some .badArg
  else if p.regions.any Region.misaligned then some .align
  else if p.regions.any (Region.outOfRange limit) then some .range
  else if anyClash p.inPlace p.regions then some .overlap
  else none

/-- NOP names no region and has no operand (R133, R142). -/
def nopPlan : CheckPlan := ⟨false, [], false⟩

/-- The regions of TR_MM (R133, 41_timing_recovery.md R161). -/
def trMmPlan (e : Engine) : CheckPlan where
  badArg := false
  regions :=
    [⟨e.src, 256 * e.count, .complex, .read⟩, ⟨e.dst, 16 * (e.count - 2), .complex, .write⟩] ++
      (if e.cfg.trLog then [⟨e.aux, 8 * (e.count - 2), .real, .write⟩] else [])
  inPlace := false

/-- The regions of COSTAS (R133, 42_costas.md R190). -/
def costasPlan (e : Engine) : CheckPlan where
  badArg := false
  regions :=
    [⟨e.src, 16 * e.count, .complex, .read⟩, ⟨e.dst, 16 * e.count, .complex, .write⟩] ++
      (if e.cfg.coLog then [⟨e.aux, 8 * e.count, .real, .write⟩] else [])
  inPlace := true

/-- The regions of IQCORR (R133, 43_iq_imbalance.md R221). -/
def iqcorrPlan (e : Engine) : CheckPlan where
  badArg := false
  regions := [⟨e.src, 16 * e.count, .complex, .read⟩, ⟨e.dst, 16 * e.count, .complex, .write⟩]
  inPlace := false

/-- The regions of FSYNC (R133) and its length check (44_preamble_correlator.md R251). -/
def fsyncPlan (e : Engine) : CheckPlan where
  badArg := e.cfg.preLen == 0 || decide (Config.maxPre < e.cfg.preLen)
  regions :=
    [⟨e.src, 16 * e.count, .complex, .read⟩,
     ⟨e.dst, 16 * (e.cfg.preLen + e.scalar), .complex, .write⟩,
     ⟨e.aux, 16 * e.scalar, .complex, .write⟩]
  inPlace := false

/-- The regions of DEMAP (R133) and its gain check (45_demapper.md R281). -/
def demapPlan (bps : Nat) (e : Engine) : CheckPlan where
  badArg := !F64.isFinite e.cfg.dmGain
  regions := [⟨e.src, 16 * e.count, .complex, .read⟩, ⟨e.dst, e.count * bps - e.scalar, .bit, .write⟩]
  inPlace := false

/-- KEY_LEN outside 2 to MAX_KEY (46_crc.md R311). -/
def keyLenBad (c : ConfigRegs) : Bool := decide (c.keyLen < 2) || decide (Config.maxKey < c.keyLen)

/-- The region of CRCCHK (R133) and its key check (46_crc.md R311). -/
def crcchkPlan (e : Engine) : CheckPlan where
  badArg := keyLenBad e.cfg
  regions := [⟨e.src, e.count, .bit, .read⟩]
  inPlace := false

/-- The regions of CRCENC (R133) and its key check (46_crc.md R311). -/
def crcencPlan (e : Engine) : CheckPlan where
  badArg := keyLenBad e.cfg
  regions := [⟨e.src, e.count, .bit, .read⟩, ⟨e.dst, e.count + e.cfg.keyLen - 1, .bit, .write⟩]
  inPlace := false

/-- The correlation coefficient `p[i]` (44_preamble_correlator.md R252). -/
def ConfigRegs.coefficient (c : ConfigRegs) (i : Nat) : F64 :=
  if c.pre.getLsbD i then F64.one
  else if c.preMap then F64.neg F64.one
  else 0

/-- The modulation schemes of DEMAP (30_encoding.md R112). -/
inductive Scheme where
  | ook | bpsk | qpsk | qam16
deriving DecidableEq, Repr

/-- Bits per symbol (R112, 45_demapper.md R280). -/
def Scheme.bps : Scheme → Nat
  | .ook => 1
  | .bpsk => 1
  | .qpsk => 2
  | .qam16 => 4

/-- The Gray level map G of 45_demapper.md R282: `G(0,0) = -3`, `G(0,1) = -1`, `G(1,1) = +1`, `G(1,0) = +3`. -/
def grayLevel : Bool → Bool → Int
  | false, false => -3
  | false, true => -1
  | true, true => 1
  | true, false => 3

/-- The unscaled levels `(lr[k], li[k])` of reference point `k` (45_demapper.md R282). -/
def Scheme.levels : Scheme → Nat → Int × Int
  | .ook, k => (if k.testBit 0 then 1 else 0, 0)
  | .bpsk, k => (if k.testBit 0 then 1 else -1, 0)
  | .qpsk, k => (if k.testBit 0 then 1 else -1, if k.testBit 1 then 1 else -1)
  | .qam16, k => (grayLevel (k.testBit 1) (k.testBit 0), grayLevel (k.testBit 3) (k.testBit 2))

/-- The scaled reference point `ref[k]` (45_demapper.md R283). -/
def Scheme.ref (sch : Scheme) (g : F64) (k : Nat) : Sample :=
  ⟨F64.mul (F64.ofInt (sch.levels k).1) g, F64.mul (F64.ofInt (sch.levels k).2) g⟩

/-- Bit `j` of the label of point `k`, most significant first (45_demapper.md R282, R287). -/
def Scheme.labelBit (sch : Scheme) (k j : Nat) : Bool := k.testBit (sch.bps - 1 - j)

/-- The word of `m` ones: the mask `2^m - 1` of an `m`-bit register (46_crc.md R313). -/
def lowMask (m : Nat) : Word := BitVec.ofNat 32 (2 ^ m - 1)

/-- The key value `K` (46_crc.md R312). -/
def ConfigRegs.key (c : ConfigRegs) : Word := c.crcKey &&& lowMask c.keyLen

end Sys2Proof.Machine
end

