-- ==== Sys2Proof/Machine/Ops.lean ====
section
/-!
DEFINITION. The shared operations: the engine's accesses to BUF (00_scope.md R9), issue (40_command.md R131), the check
step (R132), successful completion (R139), TAKING AN ERROR COMPLETION (60_exceptions.md R404) and its acknowledgement
(R405), reset (70_reset_and_hazards.md R450, R452), the refused host write (10_state.md R73), and the frame every
command's meaning runs in.
-/
namespace Sys2Proof.Machine

/-- What a meaning answers. -/
abbrev Out := Host.Outcome State Fault Refusal

/-! ### The engine's accesses to BUF -/

/-- One binary64 of BUF: an 8-byte engine read (00_scope.md R9, 20_memory.md R89). -/
def loadF64 (s : State) (addr : Nat) : Option F64 :=
  if addr + 8 ≤ s.params.bufBytes then some (BitVec.ofNat 64 (s.buf.read addr 8)) else none

/-- An 8-byte engine write. -/
def storeF64 (s : State) (addr : Nat) (v : F64) : Option State :=
  if addr + 8 ≤ s.params.bufBytes then some { s with buf := s.buf.write addr 8 v.toNat } else none

/-- `LoadC(base, k)` of R9. -/
def loadC (s : State) (base k : Nat) : Option Sample :=
  match loadF64 s (base + 16 * k), loadF64 s (base + 16 * k + 8) with
  | some re, some im => some ⟨re, im⟩
  | _, _ => none

/-- `StoreC(base, k, z)` of R9: the real part, then the imaginary part. -/
def storeC (s : State) (base k : Nat) (z : Sample) : Option State :=
  match storeF64 s (base + 16 * k) z.re with
  | some s' => storeF64 s' (base + 16 * k + 8) z.im
  | none => none

/-- `StoreR(base, k, x)` of R9. -/
def storeR (s : State) (base k : Nat) (x : F64) : Option State := storeF64 s (base + 8 * k) x

/-- `LoadB(base, k)` of R9. -/
def loadB (s : State) (base k : Nat) : Option Byte :=
  if base + k < s.params.bufBytes then some (s.buf.readByte (base + k)) else none

/-- `StoreB(base, k, b)` of R9. -/
def storeB (s : State) (base k : Nat) (b : Bool) : Option State :=
  if base + k < s.params.bufBytes then
    some { s with buf := s.buf.writeByte (base + k) (BitVec.ofBool b |>.setWidth 8) }
  else none

/-- Go on with what an access gave; an access outside BUF stops the model (log 10). -/
def orFault {α : Type} (o : Option α) (k : α → Out) : Out :=
  match o with
  | some a => k a
  | none => .fault .outsideBuf

/-- A log entry, where the log is enabled (41_timing_recovery.md R172, 42_costas.md R197). -/
def storeLog (enabled : Bool) (s : State) (base k : Nat) (x : F64) : Option State :=
  if enabled then storeR s base k x else some s

/-! ### Issue, completion, error completion, acknowledgement, reset -/

/-- Operand capture and a fresh engine at issue (40_command.md R131, R144). -/
def State.captured (s : State) (w : Word) : Engine where
  cmd := w
  args := s.args
  cfg := s.cfg
  abortReq := false
  written := 0
  progress := .check

/-- Issue of a word as a command (R131): legal or not (R130). -/
def issue (w : Word) (s : State) : State :=
  { s with cmd := w, status := s.status.issued, eng := some (s.captured w) }

/-- The engine moves on within its command. -/
def State.withEng (s : State) (e : Engine) : State := { s with eng := some e }

/-- The engine after a step that wrote `n` elements to the primary output (R141). -/
def Engine.wrote (e : Engine) (n : Nat) : Engine := { e with written := e.written + n }

/-- The engine at another point of its command. -/
def Engine.goto (e : Engine) (p : Progress) : Engine := { e with progress := p }

/-- Successful completion (R139): the command's result registers are written by `f` (10_state.md R74), OUT_LEN is
`eng.written`, BUSY falls with the engine's state, DONE rises. -/
def complete (f : ResultRegs → ResultRegs) (e : Engine) (s : State) : State :=
  { s with
    results := { f s.results with outLen := BitVec.ofNat 32 e.written }
    status := s.status.completed
    eng := none }

/-- TAKING THE EXCEPTION of this block: the error completion of 60_exceptions.md R404. OUT_LEN is `eng.written`, ERRCODE
the code, ERR and DONE rise, BUSY falls and the engine's state is discarded; every result register but
OUT_LEN, and BUF, stay. -/
def takeError (c : ErrCode) (e : Engine) (s : State) : State :=
  { s with
    results := { s.results with outLen := BitVec.ofNat 32 e.written }
    status := s.status.failed c
    eng := none }

/-- THE RETURN FROM IT: the host's acknowledgement, a write of `v` to STATUS (60_exceptions.md R405). -/
def acknowledge (v : Word) (s : State) : State := { s with status := s.status.clear v }

/-- The effect of reset on every CSR and on the engine (70_reset_and_hazards.md R450, R452). BUF keeps its contents
(R451); the instance, the reset input and the host's side of the bus are not the block's to reset. -/
def resetBlock (s : State) : State :=
  { s with
    args := Args.reset
    cfg := ConfigRegs.reset
    results := ResultRegs.reset
    status := Status.reset
    irqEn := 0
    cmd := 0
    eng := none }

/-- A host access the busy block refuses: no register or byte changes, HOSTCONF rises (10_state.md R73, 20_memory.md R92). -/
def hostConflict (s : State) : State := { s with status := s.status.conflict }

/-- An abort request (40_command.md R138): it is recorded while BUSY = 1 and has no effect otherwise (10_state.md R34). -/
def requestAbort (s : State) : State :=
  match s.eng with
  | some e => s.withEng { e with abortReq := true }
  | none => s

/-! ### The frame of a command's meaning -/

/-- The check step (40_command.md R132, checks 2 to 5): the first failing check ends the command with its error;
otherwise the operation starts with its initial loop state (log 9). No BUF access is made. -/
def checkStep (plan : CheckPlan) (start : Progress) (s : State) (e : Engine) : Out :=
  match plan.firstError s.params.bufBytes with
  | some c => .next (takeError c e s)
  | none => .next (s.withEng (e.goto start))

/-- One transition of command `i` (log 1). Idle block: its issue (40_command.md R130). Command `i` in flight: its
check step, or, after it, the abort if one is pending (R138), else its next operation or completion step. Another
command in flight: the write of `i` to CMD is refused (10_state.md R73). -/
def command (i : Instr) (check body : State → Engine → Out) (s : State) : Out :=
  match s.eng with
  | none => .next (issue (encode i) s)
  | some e =>
    if e.cmd = encode i then
      match e.progress with
      | .check => check s e
      | _ => if e.abortReq then .next (takeError .aborted e s) else body s e
    else .next (hostConflict s)

end Sys2Proof.Machine
end

