-- ==== Sys2Proof/Machine/Control.lean ====
section
/-!
DEFINITION. The two operations of CTRL: SRST (70_reset_and_hazards.md R452) and ABORT (40_command.md R138).
-/
namespace Sys2Proof.Machine

/-- SRST: a soft reset, whether or not a command runs; a running command ends with no completion record (R452). -/
def execSrst (s : State) : Out := .next (resetBlock s)

/-- ABORT: requests an abort of the running command; no effect while BUSY = 0 (R138, 10_state.md R34). -/
def execAbort (s : State) : Out := .next (requestAbort s)

end Sys2Proof.Machine
end

