-- ==== Sys2Proof/Machine/Costas.lean ====
section
/-!
DEFINITION. COSTAS, the Costas carrier loop (42_costas.md R190 to R203).
-/
namespace Sys2Proof.Machine

/-- The loop state at the start of every COSTAS (R191). -/
def CoLoop.initial (c : ConfigRegs) : CoLoop := ⟨c.coPhase0, c.coFreq0, 0⟩

/-- The subtraction loop of R198. The first argument is how many wrap steps are left of WRAP_LIMIT; the answer
is the steps still left and the phase, or nothing where more steps would be needed (R201). -/
def wrapDown : Nat → F64 → Option (Nat × F64)
  | 0, p => if F64.ge p F64.twoPi then none else some (0, p)
  | n + 1, p => if F64.ge p F64.twoPi then wrapDown n (F64.sub p F64.twoPi) else some (n + 1, p)

/-- The addition loop of R198, with the steps the subtraction loop left. -/
def wrapUp : Nat → F64 → Option F64
  | 0, p => if F64.lt p 0 then none else some p
  | n + 1, p => if F64.lt p 0 then wrapUp n (F64.add p F64.twoPi) else some p

/-- The wrap of R198: subtraction first, then addition, one counter for both; `none` is CO_WRAP (R201). -/
def wrapPhase (limit : Nat) (p : F64) : Option F64 :=
  match wrapDown limit p with
  | some (left, p') => wrapUp left p'
  | none => none

/-- The rotated sample (R192), with the configuration functions COS and SIN of the phase. -/
def CoLoop.rotated (l : CoLoop) (z : Sample) : Sample := F64.rot z (Config.cos l.phase) (Config.sin l.phase)

/-- The error of an output sample (R194). -/
def coError (o : Sample) : F64 := F64.mul o.re o.im

/-- The frequency update (R195). -/
def coFreqNext (c : ConfigRegs) (freq err : F64) : F64 := F64.add freq (F64.mul c.coBeta err)

/-- The log entry: the updated frequency in Hz (R197). DESIGN CHOICE, log 27: with a CO_FS that is not finite, which R41
stores and no rule refuses, this can be a NaN in an iteration that goes on, although R21 names only those that raise
CO_NONFINITE. -/
def coLogEntry (c : ConfigRegs) (freq : F64) : F64 := F64.div (F64.mul freq c.coFs) F64.twoPi

/-- The phase update, from the updated frequency (R196). -/
def coPhaseNext (c : ConfigRegs) (phase freq err : F64) : F64 :=
  F64.add phase (F64.add freq (F64.mul c.coAlpha err))

/-- What follows the updates of an iteration: the non-finite check (R199), the wrap (R198, R201), the advance. -/
def costasFinish (e : Engine) (i : Nat) (freq phase : F64) (s : State) : Out :=
  if F64.isFinite freq && F64.isFinite phase then
    match wrapPhase s.params.wrapLimit phase with
    | some p => .next (s.withEng (e.goto (.costas ⟨p, freq, i + 1⟩)))
    | none => .next (takeError .coWrap e s)
  else .next (takeError .coNonfinite e s)

/-- One iteration: rotate and store (R192), update the frequency (R195), log it (R197), update the phase
(R196), check and wrap. -/
def costasIteration (e : Engine) (l : CoLoop) (s : State) : Out :=
  orFault (loadC s e.src l.i) fun z =>
    let o := l.rotated z
    orFault (storeC s e.dst l.i o) fun s1 =>
      let freq := coFreqNext e.cfg l.freq (coError o)
      orFault (storeLog e.cfg.coLog s1 e.aux l.i (coLogEntry e.cfg freq)) fun s2 =>
        costasFinish (e.wrote 1) l.i freq (coPhaseNext e.cfg l.phase freq (coError o)) s2

/-- The result registers of a completed COSTAS (R202). -/
def costasResults (l : CoLoop) (r : ResultRegs) : ResultRegs := { r with coPhase := l.phase, coFreq := l.freq }

/-- COSTAS (R200). -/
def execCostas (s : State) : Out :=
  command .costas (fun s e => checkStep (costasPlan e) (.costas (CoLoop.initial e.cfg)) s e)
    (fun s e =>
      match e.progress with
      | .costas l => if l.i < e.count then costasIteration e l s else .next (complete (costasResults l) e s)
      | _ => .fault .loopMismatch) s

end Sys2Proof.Machine
end

