-- ==== Sys2Proof/Machine/Crc.lean ====
section
/-!
DEFINITION. CRCCHK and CRCENC, the CRC checker and encoder (46_crc.md R310 to R319).
-/
namespace Sys2Proof.Machine

/-- The loop state at the start of both commands: R = 0 (R313). -/
def CrcLoop.initial : CrcLoop := ⟨.divide, 0, 0, 0⟩

/-- Feed one bit into the `m`-bit division register with key `K` (R313). -/
def crcFeed (m : Nat) (key r : Word) (b : Bool) : Word :=
  let r' := ((r <<< 1) ||| (BitVec.ofBool b).setWidth 32) &&& lowMask m
  if r'.getLsbD (m - 1) then r' ^^^ key else r'

/-- The remainder: the low `m - 1` bits of the register (R313). -/
def crcRemainder (m : Nat) (r : Word) : Word := r &&& lowMask (m - 1)

/-- Feed a whole bit sequence, in order (R313). -/
def crcFeedAll (m : Nat) (key : Word) : Word → List Bool → Word
  | r, [] => r
  | r, b :: bs => crcFeedAll m key (crcFeed m key r b) bs

/-- One feed step of the loop. -/
def crcAdvance (e : Engine) (l : CrcLoop) (b : Bool) (s : State) : Out :=
  .next (s.withEng (e.goto (.crc { l with i := l.i + 1, r := crcFeed e.cfg.keyLen e.cfg.key l.r b })))

/-- One bit of the source: validated (R314), then fed (R313). -/
def crcFeedBit (e : Engine) (l : CrcLoop) (s : State) : Out :=
  orFault (loadB s e.src l.i) fun b =>
    if 1 < b.toNat then .next (takeError .crcBitval e s) else crcAdvance e l (b.getLsbD 0) s

/-- The step that takes the remainder from the register (R316, R317). -/
def crcTakeRemainder (e : Engine) (l : CrcLoop) (s : State) : Out :=
  .next (s.withEng (e.goto (.crc { l with stage := .output, i := 0, rem := crcRemainder e.cfg.keyLen l.r })))

/-- The result registers of a completed CRCCHK (R316). -/
def crcchkResults (l : CrcLoop) (r : ResultRegs) : ResultRegs :=
  { r with crcRem := l.rem, crcRes := crcResWord (l.rem == 0) }

/-- The result registers of a completed CRCENC (R317). -/
def crcencResults (l : CrcLoop) (r : ResultRegs) : ResultRegs :=
  { r with crcRem := l.rem, crcRes := crcResWord false }

/-- CRCCHK (R316). -/
def execCrcchk (s : State) : Out :=
  command .crcchk (fun s e => checkStep (crcchkPlan e) (.crc CrcLoop.initial) s e)
    (fun s e =>
      match e.progress with
      | .crc l =>
        match l.stage with
        | .divide => if l.i < e.count then crcFeedBit e l s else crcTakeRemainder e l s
        | .output => .next (complete (crcchkResults l) e s)
      | _ => .fault .loopMismatch) s

/-- One step of CRCENC's division: the data bits, then `m - 1` zero bits, then the remainder (R317). -/
def crcencDivide (e : Engine) (l : CrcLoop) (s : State) : Out :=
  if l.i < e.count then crcFeedBit e l s
  else if l.i < e.count + e.cfg.keyLen - 1 then crcAdvance e l false s
  else crcTakeRemainder e l s

/-- The codeword's element `i` is stored and the loop advances. -/
def crcencStore (e : Engine) (l : CrcLoop) (o : Option State) : Out :=
  orFault o fun s' => .next (s'.withEng ((e.wrote 1).goto (.crc { l with i := l.i + 1 })))

/-- A data byte copied bit-exact (00_scope.md R21): the byte read is stored as it is. -/
def copyByte (s : State) (dst k : Nat) (b : Byte) : Option State :=
  if dst + k < s.params.bufBytes then some { s with buf := s.buf.writeByte (dst + k) b } else none

/-- One step of CRCENC's output: the data copied, then the remainder, highest power first (R317). -/
def crcencOutput (e : Engine) (l : CrcLoop) (s : State) : Out :=
  if l.i < e.count then
    orFault (loadB s e.src l.i) fun b => crcencStore e l (copyByte s e.dst l.i b)
  else if l.i < e.count + e.cfg.keyLen - 1 then
    crcencStore e l (storeB s e.dst l.i (l.rem.getLsbD (e.cfg.keyLen - 2 - (l.i - e.count))))
  else .next (complete (crcencResults l) e s)

/-- CRCENC (R317). -/
def execCrcenc (s : State) : Out :=
  command .crcenc (fun s e => checkStep (crcencPlan e) (.crc CrcLoop.initial) s e)
    (fun s e =>
      match e.progress with
      | .crc l =>
        match l.stage with
        | .divide => crcencDivide e l s
        | .output => crcencOutput e l s
      | _ => .fault .loopMismatch) s

end Sys2Proof.Machine
end

