-- ==== Sys2Proof/Machine/Demap.lean ====
section
/-!
DEFINITION. DEMAP.OOK, DEMAP.BPSK, DEMAP.QPSK and DEMAP.QAM16, the constellation demapper (45_demapper.md R280 to R292).
-/
namespace Sys2Proof.Machine

/-- The squared distance of a symbol to a reference point (R284). -/
def distance (z ref : Sample) : F64 :=
  let dr := F64.sub z.re ref.re
  let di := F64.sub z.im ref.im
  F64.add (F64.mul dr dr) (F64.mul di di)

/-- The scan of R285 over the points `k, k+1, …`, `left` of them, from the best so far. A later point
replaces it only if strictly closer. -/
def nearestFrom (sch : Scheme) (g : F64) (z : Sample) : Nat → Nat → Nat → F64 → Nat
  | 0, _, best, _ => best
  | left + 1, k, best, bd =>
    let dk := distance z (sch.ref g k)
    if F64.lt dk bd then nearestFrom sch g z left (k + 1) k dk
    else nearestFrom sch g z left (k + 1) best bd

/-- The index of the reference point a symbol is decided for (R285). -/
def nearest (sch : Scheme) (g : F64) (z : Sample) : Nat :=
  nearestFrom sch g z (2 ^ sch.bps - 1) 1 0 (distance z (sch.ref g 0))

/-- The bits `j, j+1, …` of a label, `left` of them, `t` being the sequence number of the first: those with
`t ≥ S` are stored and counted (R287). -/
def emitBits (sch : Scheme) (label dst skip : Nat) : Nat → Nat → Nat → Engine → State → Option (Engine × State)
  | 0, _, _, e, s => some (e, s)
  | left + 1, j, t, e, s =>
    if skip ≤ t then
      match storeB s dst (t - skip) (sch.labelBit label j) with
      | some s' => emitBits sch label dst skip left (j + 1) (t + 1) (e.wrote 1) s'
      | none => none
    else emitBits sch label dst skip left (j + 1) (t + 1) e s

/-- One symbol (45_demapper.md section 5): the finite check (R286), the decision (R283 to R285) and its
bits (R287). -/
def demapIteration (sch : Scheme) (e : Engine) (l : DmLoop) (s : State) : Out :=
  orFault (loadC s e.src l.i) fun z =>
    if F64.isFinite z.re && F64.isFinite z.im then
      orFault (emitBits sch (nearest sch e.cfg.dmGain z) e.dst e.scalar sch.bps 0 (l.i * sch.bps) e s)
        fun (e', s') => .next (s'.withEng (e'.goto (.demap ⟨l.i + 1⟩)))
    else .next (takeError .dmNonfinite e s)

/-- One transition of DEMAP with a scheme (45_demapper.md section 5): DEMAP owns no result register. -/
def demap (i : Instr) (sch : Scheme) (s : State) : Out :=
  command i (fun s e => checkStep (demapPlan sch.bps e) (.demap ⟨0⟩) s e)
    (fun s e =>
      match e.progress with
      | .demap l => if l.i < e.count then demapIteration sch e l s else .next (complete id e s)
      | _ => .fault .loopMismatch) s

/-- DEMAP.OOK (R288). -/
def execDemapOok (s : State) : Out := demap .demapOok .ook s

/-- DEMAP.BPSK (R289). -/
def execDemapBpsk (s : State) : Out := demap .demapBpsk .bpsk s

/-- DEMAP.QPSK (R290). -/
def execDemapQpsk (s : State) : Out := demap .demapQpsk .qpsk s

/-- DEMAP.QAM16 (R291). -/
def execDemapQam16 (s : State) : Out := demap .demapQam16 .qam16 s

end Sys2Proof.Machine
end

