-- ==== Sys2Proof/Machine/FrameSync.lean ====
section
/-!
DEFINITION. FSYNC, the preamble correlator and frame extraction (44_preamble_correlator.md R250 to R263).
-/
namespace Sys2Proof.Machine

/-- The loop state at the start of every FSYNC: the sum from +0.0 (R254); with N = 0 the input is
degenerate (R255). -/
def FsLoop.initial (n : Nat) : FsLoop where
  stage := if n = 0 then .degenerate else .magnitude
  i := 0
  sa := 0
  scale := 0
  d := 0
  v := []
  c := []
  idx := 0
  peak := 0
  start := 0
  full := 0
  short := false
  pay := 0

/-- The engine at another point of FSYNC. -/
def fsGoto (e : Engine) (l : FsLoop) (s : State) : Out := .next (s.withEng (e.goto (.fsync l)))

/-- One iteration of the sum of magnitudes (R254). -/
def fsMagnitude (e : Engine) (l : FsLoop) (s : State) : Out :=
  orFault (loadC s e.src l.i) fun x =>
    fsGoto e { l with i := l.i + 1, sa := F64.add l.sa (F64.mag x.re x.im) } s

/-- `scale` (R254). -/
def fsScale (n : Nat) (sa : F64) : F64 := F64.div sa (F64.ofInt n)

/-- `d` (R254). -/
def fsDivisor (scale : F64) : F64 := F64.mul F64.two scale

/-- The step between the sum and the rescale: `scale`, `d` and the tests of R255 on them. -/
def fsScaleStep (e : Engine) (l : FsLoop) (s : State) : Out :=
  let scale := fsScale e.count l.sa
  let d := fsDivisor scale
  if F64.eq scale 0 || !F64.isFinite scale || !F64.isFinite d then fsGoto e { l with stage := .degenerate } s
  else fsGoto e { l with stage := .rescale, i := 0, scale := scale, d := d } s

/-- The rescaled value of a sample (R256). -/
def fsRescaled (l : FsLoop) (x : Sample) : F64 := F64.div (F64.add x.re l.scale) l.d

/-- One iteration of the rescale; a non-finite value makes the input degenerate (R255, R256). The lag loop
follows the last iteration with no code between. -/
def fsRescale (e : Engine) (l : FsLoop) (s : State) : Out :=
  orFault (loadC s e.src l.i) fun x =>
    let v := fsRescaled l x
    if F64.isFinite v then
      if l.i + 1 < e.count then fsGoto e { l with i := l.i + 1, v := l.v ++ [v] } s
      else fsGoto e { l with stage := .lags, i := 0, v := l.v ++ [v] } s
    else fsGoto e { l with stage := .degenerate } s

/-- The lag sum of R257: the terms `i, i+1, …` of lag `k`, `left` of them, onto `acc`; terms whose sample index
`k - L + 1 + i` falls outside the samples are skipped. -/
def lagSum (v : List F64) (p : Nat → F64) (len k : Nat) : Nat → Nat → F64 → F64
  | 0, _, acc => acc
  | left + 1, i, acc =>
    lagSum v p len k left (i + 1)
      (if len ≤ k + 1 + i then
        match v[k + 1 + i - len]? with
        | some x => F64.add acc (F64.mul x (p i))
        | none => acc
      else acc)

/-- The full cross-correlation at lag `k` (R257). -/
def correlation (c : ConfigRegs) (v : List F64) (k : Nat) : F64 := lagSum v c.coefficient c.preLen k c.preLen 0 0

/-- The number of lags, `N + L - 1` (R257). -/
def lagCount (e : Engine) : Nat := e.count + e.cfg.preLen - 1

/-- One iteration of the lag loop (R257). -/
def fsLag (e : Engine) (l : FsLoop) (s : State) : Out :=
  fsGoto e { l with i := l.i + 1, c := l.c ++ [correlation e.cfg l.v l.i] } s

/-- The start of the peak scan: `idx <- 0; peak <- c[0]` (R258). -/
def fsScanStart (e : Engine) (l : FsLoop) (s : State) : Out :=
  match l.c[0]? with
  | some c0 => fsGoto e { l with stage := .scan, i := 1, idx := 0, peak := c0 } s
  | none => .fault .loopMismatch

/-- One iteration of the peak scan: a later lag wins only if strictly greater (R258). -/
def fsScan (e : Engine) (l : FsLoop) (s : State) : Out :=
  match l.c[l.i]? with
  | some ck =>
    if F64.gt ck l.peak then fsGoto e { l with i := l.i + 1, idx := l.i, peak := ck } s
    else fsGoto e { l with i := l.i + 1 } s
  | none => .fault .loopMismatch

/-- The window of R259 for a peak at `idx`: where it starts, how many samples it has, and whether it was cut. -/
def fsWindow (n len m idx : Nat) : Nat × Nat × Bool :=
  if idx + 1 < len then (0, 0, true)
  else
    let start := idx + 1 - len
    let stop := idx + m + 1
    (start, min stop n - start, decide (n < stop))

/-- The step that fixes the window (R259). -/
def fsWindowStep (e : Engine) (l : FsLoop) (s : State) : Out :=
  let w := fsWindow e.count e.cfg.preLen e.scalar l.idx
  fsGoto e { l with stage := .copyFull, i := 0, start := w.1, full := w.2.1, short := w.2.2 } s

/-- One iteration of the window copy, from the original samples (R259). -/
def fsCopyFull (e : Engine) (l : FsLoop) (s : State) : Out :=
  orFault (loadC s e.src (l.start + l.i)) fun x =>
    orFault (storeC s e.dst l.i x) fun s' => fsGoto (e.wrote 1) { l with i := l.i + 1 } s'

/-- The step that fixes the payload count (R260). -/
def fsPayStep (e : Engine) (l : FsLoop) (s : State) : Out :=
  fsGoto e { l with stage := .copyPay, i := 0, pay := l.full - e.cfg.preLen } s

/-- One iteration of the payload copy (R260); the payload is not the primary output (40_command.md R141). -/
def fsCopyPay (e : Engine) (l : FsLoop) (s : State) : Out :=
  orFault (loadC s e.src (l.start + e.cfg.preLen + l.i)) fun x =>
    orFault (storeC s e.aux l.i x) fun s' => fsGoto e { l with i := l.i + 1 } s'

/-- The result registers of a completed, non-degenerate FSYNC (R261). -/
def fsyncResults (l : FsLoop) (r : ResultRegs) : ResultRegs :=
  { r with
    fsIdx := BitVec.ofNat 32 l.idx
    fsPeak := l.peak
    fsInfo := fsInfoWord l.short false
    fsFullLen := BitVec.ofNat 32 l.full
    fsPayLen := BitVec.ofNat 32 l.pay }

/-- The result registers of a degenerate FSYNC (R255). -/
def fsyncDegenerate (r : ResultRegs) : ResultRegs :=
  { r with fsIdx := 0, fsPeak := 0, fsInfo := fsInfoWord false true, fsFullLen := 0, fsPayLen := 0 }

/-- One step of FSYNC after its check step (R262). -/
def fsyncStep (e : Engine) (l : FsLoop) (s : State) : Out :=
  match l.stage with
  | .magnitude => if l.i < e.count then fsMagnitude e l s else fsScaleStep e l s
  | .rescale => fsRescale e l s
  | .lags => if l.i < lagCount e then fsLag e l s else fsScanStart e l s
  | .scan => if l.i < lagCount e then fsScan e l s else fsWindowStep e l s
  | .copyFull => if l.i < l.full then fsCopyFull e l s else fsPayStep e l s
  | .copyPay => if l.i < l.pay then fsCopyPay e l s else .next (complete (fsyncResults l) e s)
  | .degenerate => .next (complete fsyncDegenerate e s)

/-- FSYNC (R262). -/
def execFsync (s : State) : Out :=
  command .fsync (fun s e => checkStep (fsyncPlan e) (.fsync (FsLoop.initial e.count)) s e)
    (fun s e =>
      match e.progress with
      | .fsync l => fsyncStep e l s
      | _ => .fault .loopMismatch) s

end Sys2Proof.Machine
end

