-- ==== Sys2Proof/Machine/IqImbalance.lean ====
section
/-!
DEFINITION. IQCORR, the IQ-imbalance corrector (43_iq_imbalance.md R220 to R233).
-/
namespace Sys2Proof.Machine

/-- The loop state at the start of every IQCORR: all sums from +0.0 (R231, 70_reset_and_hazards.md R453); with
N = 0 nothing is left but to complete (R232). -/
def IqLoop.initial (n : Nat) : IqLoop where
  stage := if n = 0 then .empty else .estimate
  k := 0
  prime := []
  s2 := 0
  sIQ := 0
  a := 0
  sinPsi := 0
  cosPsi := 0
  c1 := 0
  c2 := 0

/-- The first index of the window of sample `k` (R223). -/
def windowLo (p k : Nat) : Nat := k - p

/-- The last index of the window of sample `k` (R223). -/
def windowHi (n p k : Nat) : Nat := min (n - 1) (k + p)

/-- The number of samples in the window (R223). -/
def windowCount (n p k : Nat) : Nat := windowHi n p k + 1 - windowLo p k

/-- The window sums of I and Q over the `cnt` samples from index `m`, left to right onto `sI` and `sQ` (R223). -/
def windowSums (s : State) (src : Nat) : Nat → Nat → F64 → F64 → Option (F64 × F64)
  | 0, _, sI, sQ => some (sI, sQ)
  | cnt + 1, m, sI, sQ =>
    match loadC s src m with
    | some x => windowSums s src cnt (m + 1) (F64.add sI x.re) (F64.add sQ x.im)
    | none => none

/-- The bias-removed sample `(I'[k], Q'[k])` (R223, R224). DESIGN CHOICE, log 28: the rounded mean of a constant input can
differ from the constant, so that `a` (R225) is not 0 and the command goes on, although R233 gives every constant input
a = 0. -/
def biasRemoved (s : State) (src n p k : Nat) : Option Sample :=
  match loadC s src k, windowSums s src (windowCount n p k) (windowLo p k) 0 0 with
  | some x, some (sI, sQ) =>
    let cnt := F64.ofInt (windowCount n p k)
    some ⟨F64.sub x.re (F64.div sI cnt), F64.sub x.im (F64.div sQ cnt)⟩
  | _, _ => none

/-- One iteration of pass 1 (R231): the sums take `I'[k] * I'[k]` and `I'[k] * Q'[k]` (R225, R226). -/
def iqEstimateIteration (e : Engine) (l : IqLoop) (s : State) : Out :=
  orFault (biasRemoved s e.src e.count e.scalar l.k) fun x =>
    .next (s.withEng (e.goto (.iqcorr
      { l with
        k := l.k + 1
        prime := l.prime ++ [x]
        s2 := F64.add l.s2 (F64.mul x.re x.re)
        sIQ := F64.add l.sIQ (F64.mul x.re x.im) })))

/-- The amplitude `a` (R225). -/
def iqAmplitude (n : Nat) (s2 : F64) : F64 := F64.sqrt (F64.mul F64.two (F64.div s2 (F64.ofInt n)))

/-- `sin_psi` (R226). -/
def iqSinPsi (n : Nat) (a sIQ : F64) : F64 := F64.mul (F64.div F64.two a) (F64.div sIQ (F64.ofInt n))

/-- `cos_psi` (R227). -/
def iqCosPsi (sinPsi : F64) : F64 := F64.sqrt (F64.sub F64.one (F64.mul sinPsi sinPsi))

/-- The correction coefficient `c1` (R228). -/
def iqC1 (a sinPsi cosPsi : F64) : F64 := F64.div (F64.neg sinPsi) (F64.mul a cosPsi)

/-- The correction coefficient `c2` (R228). -/
def iqC2 (cosPsi : F64) : F64 := F64.div F64.one cosPsi

/-- The estimate step: `a`, `sin_psi`, `cos_psi` and the coefficients, with their checks in the order of
60_exceptions.md R403(4); pass 2 follows (R225 to R228). -/
def iqEstimate (e : Engine) (l : IqLoop) (s : State) : Out :=
  let a := iqAmplitude e.count l.s2
  let sinPsi := iqSinPsi e.count a l.sIQ
  let cosPsi := iqCosPsi sinPsi
  let c1 := iqC1 a sinPsi cosPsi
  let c2 := iqC2 cosPsi
  if F64.eq a 0 || !F64.isFinite a then .next (takeError .iqDegenerate e s)
  else if !F64.isFinite sinPsi then .next (takeError .iqDegenerate e s)
  else if F64.gt (F64.abs sinPsi) F64.one then .next (takeError .iqRange e s)
  else if F64.eq cosPsi 0 then .next (takeError .iqDegenerate e s)
  else if !(F64.isFinite c1 && F64.isFinite c2) then .next (takeError .iqDegenerate e s)
  else
    .next (s.withEng (e.goto (.iqcorr
      { l with stage := .correct, k := 0, a := a, sinPsi := sinPsi, cosPsi := cosPsi, c1 := c1, c2 := c2 })))

/-- The corrected sample (R230). -/
def iqCorrected (l : IqLoop) (x : Sample) : Sample :=
  ⟨F64.div x.re l.a, F64.add (F64.mul l.c1 x.re) (F64.mul l.c2 x.im)⟩

/-- The sample the matrix is applied to: the original, or with SRC_SEL = 1 the bias-removed one (R229). -/
def iqSource (e : Engine) (l : IqLoop) (s : State) (k : Sample → Out) : Out :=
  if e.cfg.srcSel then
    match l.prime[l.k]? with
    | some x => k x
    | none => .fault .loopMismatch
  else orFault (loadC s e.src l.k) k

/-- One iteration of pass 2 (R229, R230). -/
def iqCorrectIteration (e : Engine) (l : IqLoop) (s : State) : Out :=
  iqSource e l s fun x =>
    orFault (storeC s e.dst l.k (iqCorrected l x)) fun s' =>
      .next (s'.withEng ((e.wrote 1).goto (.iqcorr { l with k := l.k + 1 })))

/-- The result registers of a completed IQCORR with N > 0 (R231, 10_state.md R74). -/
def iqcorrResults (l : IqLoop) (r : ResultRegs) : ResultRegs :=
  { r with iqA := l.a, iqSin := l.sinPsi, iqCos := l.cosPsi }

/-- IQCORR (R231). -/
def execIqcorr (s : State) : Out :=
  command .iqcorr (fun s e => checkStep (iqcorrPlan e) (.iqcorr (IqLoop.initial e.count)) s e)
    (fun s e =>
      match e.progress with
      | .iqcorr l =>
        match l.stage with
        | .empty => .next (complete id e s)
        | .estimate => if l.k < e.count then iqEstimateIteration e l s else iqEstimate e l s
        | .correct => if l.k < e.count then iqCorrectIteration e l s else .next (complete (iqcorrResults l) e s)
      | _ => .fault .loopMismatch) s

end Sys2Proof.Machine
end

