-- ==== Sys2Proof/Machine/Nop.lean ====
section
/-!
DEFINITION. NOP (40_command.md R142).
-/
namespace Sys2Proof.Machine

/-- NOP: after its check step it completes with nothing written (R142). -/
def execNop (s : State) : Out :=
  command .nop (checkStep nopPlan .nop)
    (fun s e =>
      match e.progress with
      | .nop => .next (complete id e s)
      | _ => .fault .loopMismatch) s

end Sys2Proof.Machine
end

