-- ==== Sys2Proof/Machine/TimingRecovery.lean ====
section
/-!
DEFINITION. TR_MM, the Mueller & Mueller timing-recovery loop (41_timing_recovery.md R160 to R177).
-/
namespace Sys2Proof.Machine

/-- The loop state at the start of every TR_MM (R162). -/
def TrLoop.initial : TrLoop where
  mu := 0
  iIn := 0
  iOut := 2
  out1 := Sample.zero
  out2 := Sample.zero
  rail1 := Sample.zero
  rail2 := Sample.zero

/-- The rail of one component: 1.0 where it is above zero, else 0.0 (R163). -/
def railBit (x : F64) : F64 := if F64.gt x 0 then F64.one else 0

/-- The rail of a sample (R163). -/
def rail (z : Sample) : Sample := ⟨railBit z.re, railBit z.im⟩

/-- The loop condition (R164). -/
def TrLoop.running (l : TrLoop) (n : Nat) : Bool := decide (l.iOut < n) && decide (l.iIn + 16 < (n : Int))

/-- The fetch index `j` (R165). -/
def TrLoop.fetchIndex (l : TrLoop) : Int := 16 * l.iIn + F64.floor (F64.mul F64.sixteen l.mu)

/-- The timing-error metric of R168, with the source's signs (90_conflicts.md C1). -/
def TrLoop.error (l : TrLoop) (z : Sample) : F64 :=
  F64.sub (F64.reMulConj (F64.csub z l.out2) l.rail1) (F64.reMulConj (F64.csub (rail z) l.rail2) l.out1)

/-- mu after the update of R169, before its reduction. -/
def TrLoop.updated (l : TrLoop) (sps gain : F64) (z : Sample) : F64 :=
  F64.add l.mu (F64.add sps (F64.mul gain (l.error z)))

/-- The reduced mu of R171. -/
def reduceMu (mu : F64) : F64 := F64.sub mu (F64.ofInt (F64.floor mu))

/-- The loop state after an iteration that fetched `z` and updated mu to `mu` (R171, R173). -/
def TrLoop.advance (l : TrLoop) (z : Sample) (mu : F64) : TrLoop where
  mu := reduceMu mu
  iIn := l.iIn + F64.floor mu
  iOut := l.iOut + 1
  out1 := z
  out2 := l.out1
  rail1 := rail z
  rail2 := l.rail1

/-- What follows the output write of an iteration: the update, its check, the log and the advance
(R168 to R173). -/
def trMmUpdate (e : Engine) (l : TrLoop) (z : Sample) (s : State) : Out :=
  let mu := l.updated e.cfg.trSps e.cfg.trGain z
  if F64.isFinite mu then
    let l' := l.advance z mu
    orFault (storeLog e.cfg.trLog s e.aux (l.iOut - 2) l'.mu) fun s' => .next (s'.withEng (e.goto (.trMm l')))
  else .next (takeError .trNonfinite e s)

/-- One iteration (R165 to R173). -/
def trMmIteration (e : Engine) (l : TrLoop) (s : State) : Out :=
  if F64.isFinite l.mu then
    if l.fetchIndex < 0 then .next (takeError .trIndex e s)
    else
      orFault (loadC s e.src l.fetchIndex.toNat) fun z =>
        orFault (storeC s e.dst (l.iOut - 2) z) fun s' => trMmUpdate (e.wrote 1) l z s'
  else .fault .floorNonFinite

/-- The result registers of a completed TR_MM (R174). -/
def trMmResults (l : TrLoop) (r : ResultRegs) : ResultRegs :=
  { r with trMu := l.mu, trIin := clamp32 l.iIn, trIout := BitVec.ofNat 32 l.iOut }

/-- TR_MM (R175). -/
def execTrMm (s : State) : Out :=
  command .trMm (fun s e => checkStep (trMmPlan e) (.trMm TrLoop.initial) s e)
    (fun s e =>
      match e.progress with
      | .trMm l => if l.running e.count then trMmIteration e l s else .next (complete (trMmResults l) e s)
      | _ => .fault .loopMismatch) s

end Sys2Proof.Machine
end

