-- ==== Sys2Proof/Machine/Dispatch.lean ====
section
/-! DEFINITION. One arm per instruction: its meaning. -/
namespace Sys2Proof.Machine

def exec (i : Instr) (s : State) : Host.Outcome State Fault Refusal :=
  match i with
  | .nop => Sys2Proof.Machine.execNop s
  | .trMm => Sys2Proof.Machine.execTrMm s
  | .costas => Sys2Proof.Machine.execCostas s
  | .iqcorr => Sys2Proof.Machine.execIqcorr s
  | .fsync => Sys2Proof.Machine.execFsync s
  | .demapOok => Sys2Proof.Machine.execDemapOok s
  | .demapBpsk => Sys2Proof.Machine.execDemapBpsk s
  | .demapQpsk => Sys2Proof.Machine.execDemapQpsk s
  | .demapQam16 => Sys2Proof.Machine.execDemapQam16 s
  | .crcchk => Sys2Proof.Machine.execCrcchk s
  | .crcenc => Sys2Proof.Machine.execCrcenc s
  | .srst => Sys2Proof.Machine.execSrst s
  | .abort => Sys2Proof.Machine.execAbort s

end Sys2Proof.Machine
end

