-- ==== Sys2Proof/Machine/Bus.lean ====
section
/-!
DEFINITION. The bus and the turns: host reads and writes of the window (20_memory.md R82 to R92, 10_state.md R73), the
engine's turn (40_command.md R137), WAIT (30_encoding.md R118), the reset input (70_reset_and_hazards.md R450), and
which of them comes next (00_scope.md R20).
-/
namespace Sys2Proof.Machine

/-- The low 32 bits of a 64-bit register: its `_LO` CSR (10_state.md R41). -/
def loHalf (x : F64) : Word := x.extractLsb' 0 32

/-- The high 32 bits of a 64-bit register: its `_HI` CSR (10_state.md R41). -/
def hiHalf (x : F64) : Word := x.extractLsb' 32 32

/-- A 64-bit register with its low half written (10_state.md R41). -/
def withLo (x : F64) (v : Word) : F64 := hiHalf x ++ v

/-- A 64-bit register with its high half written (10_state.md R41). -/
def withHi (x : F64) (v : Word) : F64 := v ++ loHalf x

/-- The value of ID (10_state.md R33). -/
def idWord : Word := 0x52580001

/-- The value of PARAM (10_state.md R39). -/
def paramWord : Word := 0x00402010

/-- What a read of a CSR gives; it has no side effect (10_state.md R33 to R72, 20_memory.md R90). -/
def csrRead (s : State) : Csr → Word
  | .id => idWord
  | .ctrl => 0
  | .status => s.statusWord
  | .irqEn => s.irqEn
  | .cmd => s.cmd
  | .bufSize => BitVec.ofNat 32 s.params.bufBytes
  | .param => paramWord
  | .arg i => s.args.get i
  | .cfgLo r => loHalf (s.cfg.get64 r)
  | .cfgHi r => hiHalf (s.cfg.get64 r)
  | .cfg r => s.cfg.get32 r
  | .resLo r => loHalf (s.results.get64 r)
  | .resHi r => hiHalf (s.results.get64 r)
  | .res r => s.results.get32 r

/-- A write that only an idle block accepts: CMD, the argument and the configuration registers (10_state.md R73). -/
def whenIdle (s s' : State) : Out := if s.busy then .next (hostConflict s) else .next s'

/-- A write to CMD (10_state.md R37, 40_command.md R130): on an idle block the word is issued, whether or not it is
legal; on a busy one the write is refused (10_state.md R73). -/
def writeCmd (w : Word) (s : State) : Out :=
  if s.busy then .next (hostConflict s)
  else
    match decodeCmd w with
    | .ok i => exec i s
    | .error _ => .next (issue w s)

/-- A write to CTRL (10_state.md R34, 30_encoding.md R117): accepted whether or not the engine is busy. -/
def writeCtrl (v : Word) (s : State) : Out :=
  match decodeCtrl v with
  | .ok i => exec i s
  | .error _ => .next s

/-- A write of a CSR (10_state.md R33 to R73): read-only registers ignore it. -/
def csrWrite (s : State) (c : Csr) (v : Word) : Out :=
  match c with
  | .ctrl => writeCtrl v s
  | .status => .next (acknowledge v s)
  | .irqEn => .next { s with irqEn := v &&& irqEnWritable }
  | .cmd => writeCmd v s
  | .arg i => whenIdle s { s with args := s.args.set i v }
  | .cfgLo r => whenIdle s { s with cfg := s.cfg.set64 r (withLo (s.cfg.get64 r) v) }
  | .cfgHi r => whenIdle s { s with cfg := s.cfg.set64 r (withHi (s.cfg.get64 r) v) }
  | .cfg r => whenIdle s { s with cfg := s.cfg.set32 r v }
  | .id | .bufSize | .param | .resLo _ | .resHi _ | .res _ => .next s

/-- What an offset of the host window reaches (20_memory.md R82). -/
inductive Target where
  | csr (o : Nat)
  | buf (o : Nat)
  | unmapped
deriving DecidableEq, Repr

/-- The host window map (20_memory.md R82). -/
def State.target (s : State) (offset : BitVec 24) : Target :=
  let o := offset.toNat
  if o < 0x1000 then .csr o
  else if o < 0x100000 then .unmapped
  else if o < 0x100000 + s.params.bufBytes then .buf (o - 0x100000)
  else .unmapped

/-- A CSR access must be 32-bit at a multiple of 4 (20_memory.md R83). -/
def csrAccessOk (o : Nat) (w : Width) : Bool := w == .b4 && o % 4 == 0

/-- A BUF access must be naturally aligned and lie inside BUF (20_memory.md R87, R88). -/
def State.bufAccessOk (s : State) (o : Nat) (w : Width) : Bool :=
  o % w.bytes == 0 && decide (o + w.bytes ≤ s.params.bufBytes)

/-- The host gets a response. -/
def respond (r : Response) (s : State) : State := { s with responses := r :: s.responses }

/-- A host read (20_memory.md R82 to R88, R92; 10_state.md R40: a reserved offset reads 0). -/
def hostRead (offset : BitVec 24) (w : Width) (s : State) : State :=
  match s.target offset with
  | .csr o =>
    if csrAccessOk o w then
      match Csr.ofOffset o with
      | some c => respond (.readOkay ((csrRead s c).setWidth 64)) s
      | none => respond (.readOkay 0) s
    else respond .error s
  | .buf o =>
    if s.bufAccessOk o w then
      if s.busy then respond (.readOkay 0) (hostConflict s)
      else respond (.readOkay (BitVec.ofNat 64 (s.buf.read o w.bytes))) s
    else respond .error s
  | .unmapped => respond .error s

/-- A host write (20_memory.md R82 to R88, R92; 10_state.md R40: a reserved offset ignores it). -/
def hostWrite (offset : BitVec 24) (w : Width) (data : BitVec 64) (s : State) : Out :=
  match s.target offset with
  | .csr o =>
    if csrAccessOk o w then
      match Csr.ofOffset o with
      | some c => csrWrite (respond .writeOkay s) c (data.setWidth 32)
      | none => .next (respond .writeOkay s)
    else .next (respond .error s)
  | .buf o =>
    if s.bufAccessOk o w then
      if s.busy then .next (respond .writeOkay (hostConflict s))
      else .next (respond .writeOkay { s with buf := s.buf.write o w.bytes data.toNat })
    else .next (respond .error s)
  | .unmapped => .next (respond .error s)

/-- One host transaction (20_memory.md R93). -/
def hostAccess (a : Access) (s : State) : Out :=
  match a with
  | .read o w => .next (hostRead o w s)
  | .write o w d => hostWrite o w d s

/-- The engine's turn (40_command.md R137): the command in flight takes its next step. A word that decodes to ILLEGAL
ends at its check step with ILLEGAL_CMD (R132 check 1, 60_exceptions.md R401). An idle engine does nothing (R425). -/
def engineTurn (s : State) : Out :=
  match s.eng with
  | none => .next s
  | some e =>
    match decodeCmd e.cmd with
    | .ok i => exec i s
    | .error _ => .next (takeError .illegalCmd e s)

/-- The read of STATUS that WAIT repeats (30_encoding.md R118). -/
def pollStatus (s : State) : State := hostRead 0x000008 .b4 s

/-- One round of WAIT (30_encoding.md R118): read STATUS; while it shows BUSY, an engine step and another round follow
(DESIGN CHOICE, log 18). -/
def waitTurn (s : State) : State :=
  if s.busy then { pollStatus s with agenda := .engine :: .wait :: s.agenda } else pollStatus s

/-- The reset input changes (70_reset_and_hazards.md R450): its effect on the block comes with deassertion. -/
def setResetPin (asserted : Bool) (s : State) : State :=
  if asserted then { s with resetAsserted := true }
  else if s.resetAsserted then { resetBlock s with resetAsserted := false }
  else s

/-- One turn. While reset is asserted a host transaction gets no response and the engine takes no step
(70_reset_and_hazards.md R450, log 15). -/
def takeTurn (t : Turn) (s : State) : Out :=
  match t with
  | .resetPin b => .next (setResetPin b s)
  | .host a => if s.resetAsserted then .next s else hostAccess a s
  | .engine => if s.resetAsserted then .next s else engineTurn s
  | .wait => if s.resetAsserted then .next s else .next (waitTurn s)

/-- One transition of the machine: the next turn of the agenda; with none left, the engine's turn, which is the
weak fairness of 70_reset_and_hazards.md R466 (DESIGN CHOICE, log 2). -/
def transition (s : State) : Out :=
  match s.agenda with
  | [] => if s.resetAsserted then .next s else engineTurn s
  | t :: rest => takeTurn t { s with agenda := rest }

/-- The host write that reaches an instruction through a port: a 32-bit write of the word to CMD or to CTRL. -/
def portWrite (p : Port) (w : Word) : Access :=
  match p with
  | .cmd => .write (BitVec.ofNat 24 (Csr.offset .cmd)) .b4 (w.setWidth 64)
  | .ctrl => .write (BitVec.ofNat 24 (Csr.offset .ctrl)) .b4 (w.setWidth 64)

/-- The state whose next turn is the host's write of an instruction word (log 3). -/
def queueWord (p : Port) (w : Word) (s : State) : State :=
  { s with agenda := .host (portWrite p w) :: s.agenda }

end Sys2Proof.Machine
end

