-- ==== Sys2Proof/Machine/Step.lean ====
section
/-!
DEFINITION. One step of the machine, and the state in which a given instruction word is the next thing to run.
-/
namespace Sys2Proof.Machine

/-- One step: one host transaction, one engine step, or one change of the reset input (00_scope.md R20). -/
def step (s : State) : Host.Outcome State Fault Refusal := transition s

/-- `s` with an instruction word placed where the next step fetches it: the block fetches no code (10_state.md R32), so the
word is the host's next write to CMD, or to CTRL for a row of fewer than 32 bits (log 3, log 4). -/
def State.withFetchWord (s : State) (nbits w : Nat) : State :=
  queueWord (tablePort nbits) (BitVec.ofNat 32 w) s

end Sys2Proof.Machine
end

