-- ==== Sys2Proof/Machine/Script.lean ====
section
/-!
DEFINITION. The host-script notation of 30_encoding.md R118 and its pseudo-instructions (R119), as functions that
build the turns of an agenda. A script is these lists joined by `++`.
-/
namespace Sys2Proof.Machine.Script

/-- The window offset of BUF (20_memory.md R82). -/
def bufWindow : Nat := 0x100000

/-- One host write. -/
def write (offset : Nat) (w : Width) (data : BitVec 64) : Turn := .host (.write (BitVec.ofNat 24 offset) w data)

/-- One host read. -/
def read (offset : Nat) (w : Width) : Turn := .host (.read (BitVec.ofNat 24 offset) w)

/-- `WR <CSR>, <u32>`. -/
def wr (c : Csr) (v : Word) : List Turn := [write c.offset .b4 (v.setWidth 64)]

/-- `WRD <REG64>, <f64>`: the low half, then the high half. -/
def wrd (r : Cfg64) (x : F64) : List Turn := wr (.cfgLo r) (loHalf x) ++ wr (.cfgHi r) (hiHalf x)

/-- `RD <CSR>`. -/
def rd (c : Csr) : List Turn := [read c.offset .b4]

/-- `RDD` of a configuration register: the low half, then the high half. -/
def rddCfg (r : Cfg64) : List Turn := rd (.cfgLo r) ++ rd (.cfgHi r)

/-- `RDD` of a result register: the low half, then the high half. -/
def rddRes (r : Res64) : List Turn := rd (.resLo r) ++ rd (.resHi r)

/-- `BUFW <off>, f64 …`. -/
def bufwF64 : Nat → List F64 → List Turn
  | _, [] => []
  | off, x :: xs => write (bufWindow + off) .b8 x :: bufwF64 (off + 8) xs

/-- `BUFW <off>, c64 …`: 16 bytes a sample, real part first. -/
def bufwC64 : Nat → List Sample → List Turn
  | _, [] => []
  | off, z :: zs => bufwF64 off [z.re, z.im] ++ bufwC64 (off + 16) zs

/-- `BUFW <off>, bits …`: one byte a bit. -/
def bufwBits : Nat → List Bool → List Turn
  | _, [] => []
  | off, b :: bs => write (bufWindow + off) .b1 ((BitVec.ofBool b).setWidth 64) :: bufwBits (off + 1) bs

/-- `BUFR <off>, f64 x<count>`. -/
def bufrF64 : Nat → Nat → List Turn
  | _, 0 => []
  | off, n + 1 => read (bufWindow + off) .b8 :: bufrF64 (off + 8) n

/-- `BUFR <off>, c64 x<count>`. -/
def bufrC64 (off n : Nat) : List Turn := bufrF64 off (2 * n)

/-- `BUFR <off>, bits x<count>`. -/
def bufrBits : Nat → Nat → List Turn
  | _, 0 => []
  | off, n + 1 => read (bufWindow + off) .b1 :: bufrBits (off + 1) n

/-- `CMD <MNEMONIC>`: the word of a command written to CMD. -/
def cmd (i : Instr) : List Turn := wr .cmd (encode i)

/-- `WAIT`. -/
def wait : List Turn := [.wait]

/-- `ARG i, v`. -/
def arg (i : Fin 8) (v : Word) : List Turn := wr (.arg i) v

/-- `RUN <MNEMONIC>`. -/
def run (i : Instr) : List Turn := cmd i ++ wait

/-- `CLR`: clears DONE, ERR, ERRCODE and HOSTCONF. -/
def clr : List Turn := wr .status 0x0000000E

/-- `SRST`. -/
def srst : List Turn := wr .ctrl (encode .srst)

/-- `ABORT`. -/
def abort : List Turn := wr .ctrl (encode .abort)

/-- `CHECK_OK`: the read of STATUS it makes. -/
def checkOk : List Turn := rd .status

/-- What `CHECK_OK` requires of the STATUS it read: ERR clear and DONE set. -/
def checkOkHolds (status : Word) : Bool := !status.getLsbD 2 && status.getLsbD 1

end Sys2Proof.Machine.Script
end

