-- ==== Sys2Proof/Safety.lean ====
section
/-!
DEFINITION. What the statements about RXSYNC are said in: the commands and their tables, what the engine's arrays in BUF
hold, what the host reads at each CSR offset, what a rounding is, which command runs and where it stands, the frame of a
step, the invariant that every step keeps, and the step
bounds of 70_reset_and_hazards.md R466.
-/
namespace Sys2Proof.Machine

/-! ### The commands -/

/-- The checks of a command's check step (40_command.md R132, R133); the two CTRL operations have none. -/
def planOf (i : Instr) (e : Engine) : CheckPlan :=
  match i with
  | .nop | .srst | .abort => nopPlan
  | .trMm => trMmPlan e
  | .costas => costasPlan e
  | .iqcorr => iqcorrPlan e
  | .fsync => fsyncPlan e
  | .demapOok => demapPlan Scheme.ook.bps e
  | .demapBpsk => demapPlan Scheme.bpsk.bps e
  | .demapQpsk => demapPlan Scheme.qpsk.bps e
  | .demapQam16 => demapPlan Scheme.qam16.bps e
  | .crcchk => crcchkPlan e
  | .crcenc => crcencPlan e

/-- Where a command stands when its check step has passed (70_reset_and_hazards.md R453). -/
def startOf (i : Instr) (e : Engine) : Progress :=
  match i with
  | .nop | .srst | .abort => .nop
  | .trMm => .trMm TrLoop.initial
  | .costas => .costas (CoLoop.initial e.cfg)
  | .iqcorr => .iqcorr (IqLoop.initial e.count)
  | .fsync => .fsync (FsLoop.initial e.count)
  | .demapOok | .demapBpsk | .demapQpsk | .demapQam16 => .demap ⟨0⟩
  | .crcchk | .crcenc => .crc CrcLoop.initial

/-- The command word of a DEMAP scheme's instruction (30_encoding.md R112). -/
def Scheme.instr : Scheme → Instr
  | .ook => .demapOok
  | .bpsk => .demapBpsk
  | .qpsk => .demapQpsk
  | .qam16 => .demapQam16

/-- Command `i` is in flight with engine record `e`. -/
def InFlight (i : Instr) (s : State) (e : Engine) : Prop := s.eng = some e ∧ e.cmd = encode i

/-- Command `i` is in flight, past its check step, at `p`, with no abort pending. -/
def RunningAt (i : Instr) (s : State) (e : Engine) (p : Progress) : Prop :=
  InFlight i s e ∧ e.progress = p ∧ e.abortReq = false

/-- The command's check step passed. -/
def Checked (i : Instr) (s : State) (e : Engine) : Prop := (planOf i e).firstError s.params.bufBytes = none

/-! ### Arrays in BUF (00_scope.md R9) -/

/-- The binary64 at an offset. -/
def realAt (m : Memory) (a : Nat) : F64 := BitVec.ofNat 64 (m.read a 8)

/-- Sample `k` of the array at `base`. -/
def sampleAt (m : Memory) (base k : Nat) : Sample := ⟨realAt m (base + 16 * k), realAt m (base + 16 * k + 8)⟩

/-- The memory with sample `k` of the array at `base` stored. -/
def putSample (m : Memory) (base k : Nat) (z : Sample) : Memory :=
  (m.write (base + 16 * k) 8 z.re.toNat).write (base + 16 * k + 8) 8 z.im.toNat

/-- The memory with real `k` of the array at `base` stored. -/
def putReal (m : Memory) (base k : Nat) (x : F64) : Memory := m.write (base + 8 * k) 8 x.toNat

/-- The memory with a log entry stored where the log is enabled. -/
def putLog (on : Bool) (m : Memory) (base k : Nat) (x : F64) : Memory := if on then putReal m base k x else m

/-- The bits of a source bit array, as Booleans: bit 0 of each byte. -/
def bitsAt (m : Memory) (base : Nat) : Nat → List Bool
  | 0 => []
  | n + 1 => bitsAt m base n ++ [(m.readByte (base + n)).getLsbD 0]

/-! ### The registers as the host reads them -/

/-- The CSR map of 10_state.md R79 with what each assigned offset reads in state `s`: the constants of R33 and R39, CTRL as 0,
every register by its own field, a 64-bit one as two halves, the low half first (R41). The bits of the word at 0x008 are those
of `Obligations.StatusWordAndInterrupt` (R35). -/
def csrTable (s : State) : List (Nat × Word) :=
  let lo := fun x : F64 => x.extractLsb' 0 32
  let hi := fun x : F64 => x.extractLsb' 32 32
  [(0x000, 0x52580001), (0x004, 0x00000000), (0x008, s.statusWord), (0x00C, s.irqEn), (0x010, s.cmd),
   (0x014, BitVec.ofNat 32 s.params.bufBytes), (0x018, 0x00402010)] ++
  [(0x020, s.args.a0), (0x024, s.args.a1), (0x028, s.args.a2), (0x02C, s.args.a3),
   (0x030, s.args.a4), (0x034, s.args.a5), (0x038, s.args.a6), (0x03C, s.args.a7)] ++
  [(0x040, lo s.cfg.trSps), (0x044, hi s.cfg.trSps), (0x048, lo s.cfg.trGain), (0x04C, hi s.cfg.trGain),
   (0x050, lo s.cfg.coAlpha), (0x054, hi s.cfg.coAlpha), (0x058, lo s.cfg.coBeta), (0x05C, hi s.cfg.coBeta),
   (0x060, lo s.cfg.coFs), (0x064, hi s.cfg.coFs), (0x068, lo s.cfg.coPhase0), (0x06C, hi s.cfg.coPhase0),
   (0x070, lo s.cfg.coFreq0), (0x074, hi s.cfg.coFreq0), (0x078, lo s.cfg.dmGain), (0x07C, hi s.cfg.dmGain)] ++
  [(0x080, s.cfg.preLo), (0x084, s.cfg.preHi), (0x088, s.cfg.preCfg), (0x08C, s.cfg.crcKey),
   (0x090, s.cfg.crcCfg), (0x094, s.cfg.iqCfg), (0x098, s.cfg.trCfg), (0x09C, s.cfg.coCfg)] ++
  [(0x0A0, lo s.results.trMu), (0x0A4, hi s.results.trMu), (0x0A8, s.results.trIin), (0x0AC, s.results.trIout),
   (0x0B0, lo s.results.coPhase), (0x0B4, hi s.results.coPhase), (0x0B8, lo s.results.coFreq), (0x0BC, hi s.results.coFreq),
   (0x0C0, lo s.results.iqA), (0x0C4, hi s.results.iqA), (0x0C8, lo s.results.iqSin), (0x0CC, hi s.results.iqSin),
   (0x0D0, lo s.results.iqCos), (0x0D4, hi s.results.iqCos), (0x0D8, s.results.fsIdx), (0x0DC, s.results.fsInfo),
   (0x0E0, lo s.results.fsPeak), (0x0E4, hi s.results.fsPeak), (0x0E8, s.results.fsFullLen), (0x0EC, s.results.fsPayLen),
   (0x0F0, s.results.outLen), (0x0F4, s.results.crcRem), (0x0F8, s.results.crcRes)]

/-- What the CSR space holds at an offset: the table's word, and 0 at a reserved offset (R40). -/
def csrWord (s : State) (o : Nat) : Word := ((csrTable s).lookup o).getD 0

/-- The bits that a write keeps at an offset of the argument and configuration registers (R40, R50 to R56). -/
def csrMask (o : Nat) : Word :=
  if o = 0x088 then 0x0000017F else if o = 0x090 then 0x0000003F
  else if o = 0x094 ∨ o = 0x098 ∨ o = 0x09C then 0x00000001 else 0xFFFFFFFF

/-! ### Exact values and their rounding (00_scope.md R11) -/

/-- `r` is R11's rounding of the exact value of magnitude `n / d` and sign `neg`, counted in units of 2^-1074: an infinity from
half a unit above the largest finite value on; below that a finite value of that sign that no finite value of that sign is
nearer than, and in a tie the one with the even significand. -/
def RoundsTo (neg : Bool) (n d : Nat) (r : F64) : Prop :=
  let top := (2 ^ 53 - 1) * 2 ^ 2045 + 2 ^ 2044
  let dist := fun z : F64 => |(n : Int) - d * (F64.toInt z).natAbs|
  F64.sign r = neg ∧
    (d * top ≤ n → F64.isInf r = true) ∧
    (n < d * top → F64.isFinite r = true ∧ ∀ z : F64, F64.isFinite z = true → F64.sign z = neg →
      dist r ≤ dist z ∧ (dist r = dist z → z = r ∨ r.getLsbD 0 = false))

/-! ### Frames -/

/-- No step of the engine writes what is the host's or the environment's: the parameters, A0 to A7, the
configuration registers, IRQ_EN, CMD, the reset input, the agenda and the responses (10_state.md R31, R144 of 40_command.md). -/
def SameHostSide (s t : State) : Prop :=
  t.params = s.params ∧ t.args = s.args ∧ t.cfg = s.cfg ∧ t.irqEn = s.irqEn ∧ t.cmd = s.cmd ∧
    t.resetAsserted = s.resetAsserted ∧ t.agenda = s.agenda ∧ t.responses = s.responses

/-- Every byte of BUF reads as before. -/
def SameBuf (s t : State) : Prop := ∀ a, t.buf.readByte a = s.buf.readByte a

/-- Every byte of BUF outside the `n` bytes at `lo` reads as before. -/
def SameBufOutside (s t : State) (lo n : Nat) : Prop :=
  ∀ a, a < lo ∨ lo + n ≤ a → t.buf.readByte a = s.buf.readByte a

/-- Every byte of BUF outside two ranges reads as before. -/
def SameBufOutside2 (s t : State) (lo n lo' n' : Nat) : Prop :=
  ∀ a, a < lo ∨ lo + n ≤ a → a < lo' ∨ lo' + n' ≤ a → t.buf.readByte a = s.buf.readByte a

/-- A step inside a command: the engine record moves, no result register and no status bit does. -/
def StillRunning (s t : State) (e' : Engine) : Prop :=
  SameHostSide s t ∧ t.results = s.results ∧ t.status = s.status ∧ t.eng = some e'

/-- The error completion of 60_exceptions.md R404: OUT_LEN counts `n` elements, the code is reported, the engine is
idle, HOSTCONF and every other result register stay. -/
def EndsInError (c : ErrCode) (n : Nat) (s t : State) : Prop :=
  SameHostSide s t ∧
    t.results = { s.results with outLen := BitVec.ofNat 32 n } ∧
    t.status.done = true ∧ t.status.err = true ∧ t.status.errcode = c.code ∧ t.status.hostconf = s.status.hostconf ∧
    t.eng = none

/-- The successful completion of 40_command.md R139, with the result registers `r` and the count `n` in OUT_LEN; ERR and
ERRCODE stay, as does HOSTCONF. -/
def EndsWell (r : ResultRegs) (n : Nat) (s t : State) : Prop :=
  SameHostSide s t ∧ t.results = { r with outLen := BitVec.ofNat 32 n } ∧
    t.status.done = true ∧ t.status.err = s.status.err ∧ t.status.errcode = s.status.errcode ∧
    t.status.hostconf = s.status.hostconf ∧ t.eng = none ∧ t.buf = s.buf

/-! ### The invariant -/

/-- A finite value in the closed interval from 0 to 1 (41_timing_recovery.md R165, R171). -/
def inUnit (x : F64) : Bool := F64.isFinite x && F64.le 0 x && F64.le x F64.one

/-- A rail has components 0.0 and 1.0 only (10_state.md R76). -/
def isRail (z : Sample) : Bool := (z.re == 0 || z.re == F64.one) && (z.im == 0 || z.im == F64.one)

/-- TR_MM's loop state (41_timing_recovery.md R165, R167, R174). -/
def trLoopOk (e : Engine) (l : TrLoop) : Bool :=
  inUnit l.mu && isRail l.rail1 && isRail l.rail2 && decide (2 ≤ l.iOut) && decide (l.iOut ≤ max e.count 2) &&
    e.written == l.iOut - 2

/-- COSTAS's loop state: one output element for each sample done (42_costas.md R192). -/
def coLoopOk (e : Engine) (l : CoLoop) : Bool := decide (l.i ≤ e.count) && e.written == l.i

/-- IQCORR's loop state: nothing is written before pass 2 (43_iq_imbalance.md R231). -/
def iqLoopOk (e : Engine) (l : IqLoop) : Bool :=
  match l.stage with
  | .empty => e.count == 0 && e.written == 0
  | .estimate => decide (0 < e.count) && decide (l.k ≤ e.count) && l.prime.length == l.k && e.written == 0
  | .correct => decide (0 < e.count) && decide (l.k ≤ e.count) && l.prime.length == e.count && e.written == l.k

/-- FSYNC's loop state (44_preamble_correlator.md R254 to R260). -/
def fsLoopOk (e : Engine) (l : FsLoop) : Bool :=
  match l.stage with
  | .magnitude =>
    decide (0 < e.count) && decide (l.i ≤ e.count) && l.v.length == 0 && l.c.length == 0 && e.written == 0
  | .rescale => decide (l.i < e.count) && l.v.length == l.i && l.c.length == 0 && e.written == 0
  | .lags =>
    decide (0 < e.count) && decide (l.i ≤ lagCount e) && l.v.length == e.count && l.c.length == l.i && e.written == 0
  | .scan =>
    decide (0 < e.count) && decide (1 ≤ l.i) && decide (l.i ≤ lagCount e) && l.c.length == lagCount e &&
      decide (l.idx < l.i) && e.written == 0
  | .copyFull =>
    decide (0 < e.count) && decide (l.i ≤ l.full) && decide (l.start + l.full ≤ e.count) &&
      decide (l.full ≤ e.cfg.preLen + e.scalar) && decide (l.idx < lagCount e) && e.written == l.i
  | .copyPay =>
    decide (0 < e.count) && decide (l.i ≤ l.pay) && decide (l.start + l.full ≤ e.count) &&
      decide (l.full ≤ e.cfg.preLen + e.scalar) && decide (l.idx < lagCount e) && l.pay == l.full - e.cfg.preLen &&
      e.written == l.full
  | .degenerate => e.written == 0

/-- DEMAP's loop state: the bits of the symbols done, less those skipped, are written (45_demapper.md R287). -/
def dmLoopOk (bps : Nat) (e : Engine) (l : DmLoop) : Bool :=
  decide (l.i ≤ e.count) && e.written == l.i * bps - e.scalar

/-- The division register has `m` bits and the remainder `m - 1` (46_crc.md R313). -/
def crcWordsOk (e : Engine) (l : CrcLoop) : Bool :=
  decide (l.r.toNat < 2 ^ e.cfg.keyLen) && decide (l.rem.toNat < 2 ^ (e.cfg.keyLen - 1))

/-- CRCCHK's loop state: it writes nothing (46_crc.md R316). -/
def crcchkLoopOk (e : Engine) (l : CrcLoop) : Bool :=
  crcWordsOk e l && decide (l.i ≤ e.count) && e.written == 0

/-- CRCENC's loop state: nothing is written before the remainder is known (46_crc.md R314, R317). -/
def crcencLoopOk (e : Engine) (l : CrcLoop) : Bool :=
  crcWordsOk e l && decide (l.i ≤ e.count + e.cfg.keyLen - 1) &&
    match l.stage with
    | .divide => e.written == 0
    | .output => e.written == l.i

/-- Command `i` is the one in flight and its check step passed. -/
def passed (limit : Nat) (i : Instr) (e : Engine) : Bool :=
  e.cmd == encode i && (planOf i e).firstError limit == none

/-- The loop state in flight is one the command in flight can reach. -/
def Engine.progressOk (limit : Nat) (e : Engine) : Bool :=
  match e.progress with
  | .check => e.written == 0
  | .nop => passed limit .nop e && e.written == 0
  | .trMm l => passed limit .trMm e && trLoopOk e l
  | .costas l => passed limit .costas e && coLoopOk e l
  | .iqcorr l => passed limit .iqcorr e && iqLoopOk e l
  | .fsync l => passed limit .fsync e && fsLoopOk e l
  | .demap l =>
    [Scheme.ook, Scheme.bpsk, Scheme.qpsk, Scheme.qam16].any fun sch =>
      passed limit sch.instr e && dmLoopOk sch.bps e l
  | .crc l => (passed limit .crcchk e && crcchkLoopOk e l) || (passed limit .crcenc e && crcencLoopOk e l)

/-- The reserved bits of every 32-bit configuration register are 0 (10_state.md R40, R50 to R56). -/
def ConfigRegs.reservedZero (c : ConfigRegs) : Bool :=
  [Cfg32.preLo, .preHi, .preCfg, .crcKey, .crcCfg, .iqCfg, .trCfg, .coCfg].all fun r =>
    c.get32 r &&& ~~~r.writable == 0

/-- The reserved bits of FS_INFO and CRC_RES are 0 (10_state.md R66, R72), and no bit of CRC_REM at or above the most a
remainder can have is set (R71: m - 1 bits, m at most 32). -/
def ResultRegs.reservedZero (r : ResultRegs) : Bool :=
  r.fsInfo &&& 0xFFFFFFFC == 0 && r.crcRes &&& 0xFFFFFFFE == 0 && r.crcRem &&& 0x80000000 == 0

/-- The codes ERRCODE can hold after an error (60_exceptions.md R400). -/
def allErrCodes : List ErrCode :=
  [.illegalCmd, .badArg, .align, .range, .overlap, .aborted, .trIndex, .trNonfinite, .coNonfinite, .coWrap, .iqRange,
   .iqDegenerate, .dmNonfinite, .crcBitval]

/-- ERRCODE is 0 whenever ERR = 0, and one of the listed codes otherwise (10_state.md R35, 60_exceptions.md R400). -/
def Status.errcodeOk (st : Status) : Bool :=
  if st.err then (allErrCodes.map ErrCode.code).contains st.errcode else st.errcode == 0

/-- What holds while a command runs: DONE and ERR are 0 (10_state.md R35), the captured operands equal the live registers
(40_command.md R144), CMD is the word that runs (10_state.md R37), and the loop state is the command's. -/
def State.engineOk (s : State) : Bool :=
  match s.eng with
  | none => true
  | some e =>
    !s.status.done && !s.status.err && e.args == s.args && e.cfg == s.cfg && e.cmd == s.cmd &&
      e.progressOk s.params.bufBytes

/-- THE INVARIANT: what holds of every state a run from reset reaches. -/
def State.good (s : State) : Bool :=
  s.params.wf && s.buf.wf && s.buf.within s.params.bufBytes && s.cfg.reservedZero && s.results.reservedZero &&
    s.irqEn &&& ~~~irqEnWritable == 0 && s.status.errcodeOk && s.engineOk

/-- The bounds of 70_reset_and_hazards.md R466 on the number of steps of the command in flight, its check and completion
steps included; an illegal word takes its check step only (60_exceptions.md R401). -/
def stepBound (e : Engine) : Nat :=
  match decodeCmd e.cmd with
  | .error _ => 1
  | .ok .nop => 2
  | .ok .trMm => (e.count - 2) + 2
  | .ok .costas => e.count + 2
  | .ok .iqcorr => 2 * e.count + 3
  | .ok .fsync => 4 * e.count + 3 * e.cfg.preLen + 2 * e.scalar + 6
  | .ok .demapOok | .ok .demapBpsk | .ok .demapQpsk | .ok .demapQam16 => e.count + 2
  | .ok .crcchk => e.count + 3
  | .ok .crcenc => 2 * e.count + 2 * e.cfg.keyLen + 1
  | .ok .srst | .ok .abort => 0

/-! ### A5, A6 and A7, which no command reads (30_encoding.md R115) -/

/-- A0 to A7 with A5, A6 and A7 changed. -/
def Args.withSpare (r : Args) (x y z : Word) : Args := { r with a5 := x, a6 := y, a7 := z }

/-- The state with A5, A6 and A7 changed, the live registers and the captured ones. -/
def State.withSpare (s : State) (x y z : Word) : State :=
  { s with
    args := s.args.withSpare x y z
    eng := s.eng.map fun e => { e with args := e.args.withSpare x y z } }

/-- An outcome with its next state changed. -/
def mapNext (f : State → State) (o : Out) : Out :=
  match o with
  | .next t => .next (f t)
  | .fault r => .fault r
  | .refused r => .refused r

/-! ### CRC, as the host sees it -/

/-- The remainder of a bit sequence under a key of `m` bits (46_crc.md R313). -/
def crcRem (m : Nat) (key : Word) (bits : List Bool) : Word := crcRemainder m (crcFeedAll m key 0 bits)

/-- The remainder's bits in sequence order, highest power first (46_crc.md R313, R317). -/
def remainderBits (m : Nat) (rem : Word) : List Bool := (List.range (m - 1)).map fun j => rem.getLsbD (m - 2 - j)

/-- The codeword of 46_crc.md R317: the data, then the remainder of the data followed by `m - 1` zero bits. -/
def crcCodeword (m : Nat) (key : Word) (bits : List Bool) : List Bool :=
  bits ++ remainderBits m (crcRem m key (bits ++ List.replicate (m - 1) false))

end Sys2Proof.Machine
end

