-- ==== Sys2Proof/Certificates/Slice0/Obligations.lean ====
section
/-!
DEFINITION. The statements for the provers, from the numbered rules of spec/. A docstring names the rules a statement
formalises; the model's choices it rests on are named by their log entry.
-/
open Sys2Proof Sys2Proof.Machine

/-! ### Encoding and decoding -/

/-- Decoding the bytes of an instruction's word gives the instruction and the rest of the bytes (30_encoding.md R113, R114,
R117). -/
def Obligations.DecodeOfEncode : Prop :=
  ∀ (i : Instr) (rest : List Byte), decode i.port (bytesOfWord (encode i) ++ rest) = .ok (i, rest)

/-- R113: the complete list of legal command words, with the operation of each. -/
def Obligations.ListedWordsOnly : Prop :=
  ∀ (w : Word) (i : Instr), decodeCmd w = .ok i ↔
    (w, i) ∈ [((0x00000000 : Word), Instr.nop), (0x00000001, .trMm), (0x00000002, .costas), (0x00000003, .iqcorr),
      (0x00000004, .fsync), (0x00000005, .demapOok), (0x00000105, .demapBpsk), (0x00000205, .demapQpsk),
      (0x00000305, .demapQam16), (0x00000006, .crcchk), (0x00000007, .crcenc)]

/-- R116: which words are illegal, by their fields. -/
def Obligations.IllegalWordsByField : Prop :=
  ∀ w : Word, (∃ err, decodeCmd w = .error err) ↔
    w >>> 12 ≠ 0 ∨ (w &&& 0xFF ≠ 0x05 ∧ (w >>> 8) &&& 0xF ≠ 0) ∨ (w &&& 0xFF = 0x05 ∧ 4 ≤ ((w >>> 8) &&& 0xF).toNat) ∨
      w &&& 0xFF = 0x08 ∨ 0x09 ≤ (w &&& 0xFF).toNat

/-- R117: the two operations of CTRL, by match and mask; every other value names none. -/
def Obligations.CtrlOperations : Prop :=
  ∀ v : Word, (decodeCtrl v = .ok .srst ↔ v &&& 0x00000001 = 0x00000001) ∧
    (decodeCtrl v = .ok .abort ↔ v &&& 0x00000003 = 0x00000002) ∧
    ((∃ err, decodeCtrl v = .error err) ↔ v &&& 0x00000003 = 0)

/-- Words written out from the encoding tables decode to their operations (a sanity statement; 30_encoding.md R110 to R112,
R117). -/
def Obligations.SampleWordsDecode : Prop :=
  decode .cmd [0x00, 0x00, 0x00, 0x00] = .ok (.nop, []) ∧ decode .cmd [0x01, 0x00, 0x00, 0x00] = .ok (.trMm, []) ∧
    decode .cmd [0x02, 0x00, 0x00, 0x00] = .ok (.costas, []) ∧ decode .cmd [0x04, 0x00, 0x00, 0x00] = .ok (.fsync, []) ∧
    decode .cmd [0x05, 0x03, 0x00, 0x00] = .ok (.demapQam16, []) ∧
    decode .cmd [0x05, 0x04, 0x00, 0x00] = .error .schemeReserved ∧
    decode .cmd [0x07, 0x00, 0x00, 0x00] = .ok (.crcenc, []) ∧
    decode .cmd [0x08, 0x00, 0x00, 0x00] = .error .gardnerSlot ∧
    decode .ctrl [0x03, 0x00, 0x00, 0x00] = .ok (.srst, []) ∧ decode .ctrl [0xFE, 0xFF, 0xFF, 0xFF] = .ok (.abort, [])

/-! ### A step runs the decoded instruction -/

/-- A step runs the decoded instruction. A host write of a word to CMD (idle block) or to CTRL is one step, and that step is
the meaning of the decoded word in the state that has moved past the transaction and answered it; the engine's step of a
command in flight is the meaning of its word, whether the agenda gives the engine its turn or is empty; and the word of every
instruction, placed where the next step fetches it, is what the next step runs (40_command.md R130, R137, 30_encoding.md R117;
the agenda, the place a word is fetched from and the trace of responses are the model's, log 2, log 3 and log 16). -/
def Obligations.StepRunsDecodedInstruction : Prop :=
  (∀ (i : Instr) (s : State) (rest : List Turn) (data : BitVec 64),
    s.resetAsserted = false → (i.port = .cmd → s.eng = none) →
    s.agenda = .host (.write (if i.port = .cmd then 0x000010 else 0x000004) .b4 data) :: rest →
    decodeWord i.port (data.setWidth 32) = .ok i →
    step s = exec i { s with agenda := rest, responses := .writeOkay :: s.responses }) ∧
  (∀ (i : Instr) (s : State) (e : Engine), s.resetAsserted = false → s.eng = some e → decodeCmd e.cmd = .ok i →
    (s.agenda = [] → step s = exec i s) ∧
    ∀ rest, s.agenda = .engine :: rest → step s = exec i { s with agenda := rest }) ∧
  ∀ (i : Instr) (s : State) (nbits : Nat), s.resetAsserted = false → s.eng = none →
    (if i.port = .cmd then nbits = 32 else nbits < 32) →
    step (s.withFetchWord nbits (encode i).toNat) = exec i { s with responses := .writeOkay :: s.responses }

/-! ### Issue -/

/-- R131: what the issue of any word does, legal or not, in the one step of its CMD write. -/
def Obligations.IssueOfAnyWord : Prop :=
  ∀ (s : State) (rest : List Turn) (data : BitVec 64), s.resetAsserted = false → s.eng = none →
    s.agenda = .host (.write 0x000010 .b4 data) :: rest →
    ∃ t, step s = .next t ∧ t.cmd = data.setWidth 32 ∧
      t.status.done = false ∧ t.status.err = false ∧ t.status.errcode = 0 ∧ t.busy = true ∧
      t.status.hostconf = s.status.hostconf ∧
      t.eng = some { cmd := data.setWidth 32, args := s.args, cfg := s.cfg, abortReq := false, written := 0,
                     progress := .check } ∧
      t.results = s.results ∧ t.args = s.args ∧ t.cfg = s.cfg ∧ t.irqEn = s.irqEn ∧ t.buf = s.buf ∧
      t.params = s.params ∧ (t.irq = true → s.irq = true)

/-- On an idle block the meaning of every command word is its issue (40_command.md R130, R131, R144; that one meaning is
both the issue and the steps is the model's, log 1). -/
def Obligations.ExecOnIdleIssues : Prop :=
  ∀ (i : Instr) (s : State), i.port = .cmd → s.eng = none →
    exec i s = .next { s with
      cmd := encode i
      status := { done := false, err := false, hostconf := s.status.hostconf, errcode := 0 }
      eng := some { cmd := encode i, args := s.args, cfg := s.cfg, abortReq := false, written := 0, progress := .check } }

/-- R73: which CSR writes a busy block refuses, which it accepts, which are ignored, and that reads are free: each is answered
with the register's present value. -/
def Obligations.RegisterWritesWhileBusy : Prop :=
  ∀ (s : State) (rest : List Turn) (o : Nat) (data : BitVec 64), s.resetAsserted = false → o % 4 = 0 → o < 0x1000 →
    (s.agenda = .host (.write (BitVec.ofNat 24 o) .b4 data) :: rest →
      let s' : State := { s with agenda := rest, responses := .writeOkay :: s.responses }
      let v : Word := data.setWidth 32
      (s.busy = true → (o = 0x010 ∨ (0x020 ≤ o ∧ o < 0x0A0)) →
        step s = .next { s' with status := { s.status with hostconf := true } }) ∧
      (o = 0x004 → step s = .next
        (if v.getLsbD 0 then resetBlock s' else if v.getLsbD 1 then requestAbort s' else s')) ∧
      (o = 0x008 → step s = .next { s' with status := s.status.clear v }) ∧
      (o = 0x00C → step s = .next { s' with irqEn := v &&& 0x00000007 }) ∧
      ((o = 0x000 ∨ o = 0x014 ∨ o = 0x018 ∨ o = 0x01C ∨ 0x0A0 ≤ o) → step s = .next s')) ∧
    (s.agenda = .host (.read (BitVec.ofNat 24 o) .b4) :: rest →
      step s = .next { s with agenda := rest, responses := .readOkay ((csrWord s o).setWidth 64) :: s.responses })

/-- Which register each offset of the CSR space reaches, through `step`: a 4-byte host read at any aligned offset, busy or not,
answers the present value of the register that R79 puts there, 0 at a reserved offset; and on an idle block a 4-byte write at an
offset from 0x020 to 0x09C is read back there, its reserved bits as 0, while every other offset reads as before (in particular a
half of a 64-bit register leaves the other half) and nothing but the argument and configuration registers changes (10_state.md
R31, R40, R41, R50 to R56, R79). -/
def Obligations.RegisterWriteReadsBack : Prop :=
  (∀ (s : State) (o : Nat) (rest : List Turn), s.resetAsserted = false → o % 4 = 0 → o < 0x1000 →
    s.agenda = .host (.read (BitVec.ofNat 24 o) .b4) :: rest →
    step s = .next { s with agenda := rest, responses := .readOkay ((csrWord s o).setWidth 64) :: s.responses }) ∧
  ∀ (s : State) (o : Nat) (data : BitVec 64) (rest : List Turn), s.resetAsserted = false → s.eng = none →
    o % 4 = 0 → 0x020 ≤ o → o < 0x0A0 →
    s.agenda = .host (.write (BitVec.ofNat 24 o) .b4 data) :: rest →
    ∃ t, step s = .next t ∧
      t = { s with agenda := rest, responses := .writeOkay :: s.responses, args := t.args, cfg := t.cfg } ∧
      csrWord t o = data.setWidth 32 &&& csrMask o ∧
      ∀ o', o' ≠ o → csrWord t o' = csrWord s o'

/-! ### The check step -/

/-- The check step of every command: the first failing check's error with nothing written, or the start of the operation with
its initial loop state, and no abort is tested before it (40_command.md R132, 60_exceptions.md R402, 70_reset_and_hazards.md R453,
41_timing_recovery.md R162, 42_costas.md R191, 43_iq_imbalance.md R225, R226, R232, 44_preamble_correlator.md R254, R255,
46_crc.md R313; that the initial assignments belong to this step is log 9). -/
def Obligations.CheckStepOutcome : Prop :=
  ∀ (i : Instr) (s : State) (e : Engine), i.port = .cmd → InFlight i s e → e.progress = .check → e.written = 0 →
    match (planOf i e).firstError s.params.bufBytes with
    | some c => ∃ t, exec i s = .next t ∧ EndsInError c 0 s t ∧ SameBuf s t
    | none => exec i s = .next { s with eng := some { e with progress :=
        match i with
        | .nop | .srst | .abort => .nop
        | .trMm => .trMm { mu := 0, iIn := 0, iOut := 2, out1 := ⟨0, 0⟩, out2 := ⟨0, 0⟩, rail1 := ⟨0, 0⟩, rail2 := ⟨0, 0⟩ }
        | .costas => .costas { phase := e.cfg.coPhase0, freq := e.cfg.coFreq0, i := 0 }
        | .iqcorr => .iqcorr {
            stage := if e.args.a2 = 0 then .empty else .estimate
            k := 0, prime := [], s2 := 0, sIQ := 0, a := 0, sinPsi := 0, cosPsi := 0, c1 := 0, c2 := 0 }
        | .fsync => .fsync {
            stage := if e.args.a2 = 0 then .degenerate else .magnitude
            i := 0, sa := 0, scale := 0, d := 0, v := [], c := [], idx := 0, peak := 0, start := 0, full := 0, short := false
            pay := 0 }
        | .demapOok | .demapBpsk | .demapQpsk | .demapQam16 => .demap { i := 0 }
        | .crcchk | .crcenc => .crc { stage := .divide, i := 0, r := 0, rem := 0 } } }

/-- Checks 2 to 5 in order, for any table of regions: BAD_ARG, ALIGN, RANGE, OVERLAP; two regions overlap when they share
a byte, but for an identical source and destination where the command may run in place (40_command.md R132 to R136,
60_exceptions.md R403). -/
def Obligations.CheckOrder : Prop :=
  ∀ (p : CheckPlan) (limit : Nat),
    let bad := p.badArg = true
    let align := ∃ r ∈ p.regions, 0 < r.size ∧ r.elem ≠ .bit ∧ r.base % 8 ≠ 0
    let range := ∃ r ∈ p.regions, 0 < r.size ∧ limit < r.base + r.size
    let apart := p.regions.Pairwise fun r q =>
      (∃ a, (r.base ≤ a ∧ a < r.base + r.size) ∧ q.base ≤ a ∧ a < q.base + q.size) →
        p.inPlace = true ∧ r.dir = .read ∧ q.dir = .write ∧ r.base = q.base ∧ r.size = q.size ∧ r.elem = q.elem
    (bad → p.firstError limit = some .badArg) ∧
    (¬ bad → align → p.firstError limit = some .align) ∧
    (¬ bad → ¬ align → range → p.firstError limit = some .range) ∧
    (¬ bad → ¬ align → ¬ range → ¬ apart → p.firstError limit = some .overlap) ∧
    (¬ bad → ¬ align → ¬ range → apart → p.firstError limit = none)

/-- The regions of every command, and its BAD_ARG condition (40_command.md R132, R133). -/
def Obligations.RegionTable : Prop :=
  ∀ e : Engine,
    let A0 := e.args.a0.toNat
    let A1 := e.args.a1.toNat
    let N := e.args.a2.toNat
    let A3 := e.args.a3.toNat
    let A4 := e.args.a4.toNat
    let L := (e.cfg.preCfg &&& 0x7F).toNat
    let m := (e.cfg.crcCfg &&& 0x3F).toNat
    planOf .nop e = ⟨false, [], false⟩ ∧
    planOf .trMm e = ⟨false, [⟨A0, 256 * N, .complex, .read⟩, ⟨A1, 16 * (N - 2), .complex, .write⟩] ++
      (if e.cfg.trCfg.getLsbD 0 then [⟨A3, 8 * (N - 2), .real, .write⟩] else []), false⟩ ∧
    planOf .costas e = ⟨false, [⟨A0, 16 * N, .complex, .read⟩, ⟨A1, 16 * N, .complex, .write⟩] ++
      (if e.cfg.coCfg.getLsbD 0 then [⟨A3, 8 * N, .real, .write⟩] else []), true⟩ ∧
    planOf .iqcorr e = ⟨false, [⟨A0, 16 * N, .complex, .read⟩, ⟨A1, 16 * N, .complex, .write⟩], false⟩ ∧
    planOf .fsync e = ⟨decide (¬ (1 ≤ L ∧ L ≤ 64)),
      [⟨A0, 16 * N, .complex, .read⟩, ⟨A1, 16 * (L + A4), .complex, .write⟩, ⟨A3, 16 * A4, .complex, .write⟩], false⟩ ∧
    (∀ sch : Scheme, planOf sch.instr e = ⟨!F64.isFinite e.cfg.dmGain,
      [⟨A0, 16 * N, .complex, .read⟩,
       ⟨A1, N * (match sch with | .ook => 1 | .bpsk => 1 | .qpsk => 2 | .qam16 => 4) - A4, .bit, .write⟩], false⟩) ∧
    planOf .crcchk e = ⟨decide (¬ (2 ≤ m ∧ m ≤ 32)), [⟨A0, N, .bit, .read⟩], false⟩ ∧
    planOf .crcenc e = ⟨decide (¬ (2 ≤ m ∧ m ≤ 32)), [⟨A0, N, .bit, .read⟩, ⟨A1, N + m - 1, .bit, .write⟩], false⟩

/-- R401: an illegal word is issued, and the engine's next step ends it with ILLEGAL_CMD, an abort pending or not and whatever
the host did meanwhile; no byte of BUF and no result register but OUT_LEN changes, and the word stays readable in CMD. Opcode
0x08 is such a word. -/
def Obligations.IllegalWordEnds : Prop :=
  (∀ (s : State) (data : BitVec 64) (err : DecodeError), s.resetAsserted = false → s.eng = none →
    s.agenda = [.host (.write 0x000010 .b4 data), .engine] → decodeCmd (data.setWidth 32) = .error err →
    ∃ t, core.run 2 s = .next t ∧ t.eng = none ∧ t.status.done = true ∧ t.status.err = true ∧
      t.status.errcode = 0x01 ∧ t.results = { s.results with outLen := 0 } ∧ SameBuf s t ∧
      csrWord t 0x010 = data.setWidth 32) ∧
  (∀ (s : State) (e : Engine) (err : DecodeError), s.resetAsserted = false → s.eng = some e → e.written = 0 →
    decodeCmd e.cmd = .error err →
    (s.agenda = [] → ∃ t, step s = .next t ∧ EndsInError .illegalCmd 0 s t ∧ t.status.errcode = 0x01 ∧ SameBuf s t) ∧
    ∀ rest, s.agenda = .engine :: rest → ∃ t, step s = .next t ∧
      EndsInError .illegalCmd 0 { s with agenda := rest } t ∧ t.status.errcode = 0x01 ∧ SameBuf s t) ∧
  ∀ w : Word, w &&& 0xFF = 0x08 → ∃ err, decodeCmd w = .error err

/-! ### Abort and reset -/

/-- ABORT records the request while a command runs and does nothing else; on an idle block it does nothing. A pending abort
ends any command before its next step after the check step: ABORTED, with the elements already written counted and kept
(10_state.md R34, 40_command.md R138, R143). -/
def Obligations.AbortIsRecordedThenTaken : Prop :=
  (∀ (s : State) (e : Engine), s.eng = some e →
    exec .abort s = .next { s with eng := some { e with abortReq := true } }) ∧
  (∀ s : State, s.eng = none → exec .abort s = .next s) ∧
  ∀ (i : Instr) (s : State) (e : Engine), i.port = .cmd → InFlight i s e → e.progress ≠ .check → e.abortReq = true →
    ∃ t, exec i s = .next t ∧ EndsInError .aborted e.written s t ∧ SameBuf s t

/-- R452: a CTRL write with bit 0 = 1, whatever its other bits and whether or not a command runs, gives every register its
reset value, leaves the engine idle with no completion record, keeps BUF, drops irq and is answered OKAY. -/
def Obligations.SoftReset : Prop :=
  (∀ s : State, ∃ t, exec .srst s = .next t ∧
    t.args = ⟨0, 0, 0, 0, 0, 0, 0, 0⟩ ∧
    t.cfg = ⟨0x4020000000000000, 0x3FD3333333333333, 0x3EEBAEB22F9294C3, 0x3F186E8BCED5BB89, 0x41E2410110000000, 0, 0,
      0x3FF0000000000000, 0, 0, 0x0000003C, 0x00000987, 0x0000000C, 0, 0, 0⟩ ∧
    t.results = ⟨0, 0, 0, 0, 0, 0, 0, 0, 0, 0, 0, 0, 0, 0, 0, 0⟩ ∧
    t.status = ⟨false, false, false, 0⟩ ∧ t.irqEn = 0 ∧ t.cmd = 0 ∧ t.eng = none ∧ t.irq = false ∧
    t.buf = s.buf ∧ SameBuf s t ∧ t.params = s.params ∧ t.agenda = s.agenda ∧ t.responses = s.responses) ∧
  ∀ (s : State) (rest : List Turn) (data : BitVec 64), s.resetAsserted = false → data.getLsbD 0 = true →
    s.agenda = .host (.write 0x000004 .b4 data) :: rest →
    step s = exec .srst { s with agenda := rest, responses := .writeOkay :: s.responses }

/-- The reset input: while it is asserted a host transaction gets no response and nothing moves, neither does the engine;
its deassertion resets every register and the engine and keeps BUF (70_reset_and_hazards.md R450, R451; that a turn of the
agenda made meanwhile is dropped is the model's, log 15). -/
def Obligations.HardwareReset : Prop :=
  (∀ (s : State) (rest : List Turn), s.agenda = .resetPin true :: rest →
    step s = .next { s with agenda := rest, resetAsserted := true }) ∧
  (∀ (s : State) (a : Access) (rest : List Turn), s.resetAsserted = true →
    (s.agenda = .host a :: rest → step s = .next { s with agenda := rest }) ∧
    (s.agenda = .engine :: rest → step s = .next { s with agenda := rest }) ∧
    (s.agenda = [] → step s = .next s)) ∧
  ∀ (s : State) (rest : List Turn), s.resetAsserted = true → s.agenda = .resetPin false :: rest →
    step s = .next { State.reset with
      params := s.params, buf := s.buf, resetAsserted := false, agenda := rest, responses := s.responses }

/-- After a soft reset of any state every CSR reads as the map of R79 says, and every reserved offset reads 0 (10_state.md
R33, R38, R39, R40, R79). -/
def Obligations.ResetReads : Prop :=
  ∀ (s t : State) (o : Nat), exec .srst s = .next t → o % 4 = 0 → o < 0x1000 →
    hostRead (BitVec.ofNat 24 o) .b4 t = { t with
      responses := .readOkay
        (if o = 0x000 then 0x52580001 else if o = 0x014 then (BitVec.ofNat 32 s.params.bufBytes).setWidth 64
         else if o = 0x018 then 0x00402010 else if o = 0x044 then 0x40200000
         else if o = 0x048 then 0x33333333 else if o = 0x04C then 0x3FD33333
         else if o = 0x050 then 0x2F9294C3 else if o = 0x054 then 0x3EEBAEB2
         else if o = 0x058 then 0xCED5BB89 else if o = 0x05C then 0x3F186E8B
         else if o = 0x060 then 0x10000000 else if o = 0x064 then 0x41E24101
         else if o = 0x07C then 0x3FF00000 else if o = 0x088 then 0x0000003C
         else if o = 0x08C then 0x00000987 else if o = 0x090 then 0x0000000C else 0) :: t.responses }

/-! ### Status, interrupt, acknowledgement -/

/-- A write of STATUS clears exactly the bits written as 1, ERRCODE with ERR, in one step, whether or not a command runs, and
changes nothing else (60_exceptions.md R405, 10_state.md R35). -/
def Obligations.AcknowledgeClears : Prop :=
  ∀ (s : State) (rest : List Turn) (data : BitVec 64), s.resetAsserted = false →
    s.agenda = .host (.write 0x000008 .b4 data) :: rest →
    step s = .next { s with
      agenda := rest, responses := .writeOkay :: s.responses
      status := { done := if data.getLsbD 1 then false else s.status.done
                  err := if data.getLsbD 2 then false else s.status.err
                  hostconf := if data.getLsbD 3 then false else s.status.hostconf
                  errcode := if data.getLsbD 2 then 0 else s.status.errcode } }

/-- The layout of STATUS: BUSY, DONE, ERR, HOSTCONF in bits 0 to 3, ERRCODE in bits 15 to 8, 0 elsewhere; the value of ERRCODE
for each error; and irq as the function of six bits of STATUS and IRQ_EN, as the host reads them (10_state.md R35, R36,
60_exceptions.md R400, R410). -/
def Obligations.StatusWordAndInterrupt : Prop :=
  (∀ (s : State) (n : Nat), (csrWord s 0x008).getLsbD n =
    if n = 0 then s.eng.isSome else if n = 1 then s.status.done else if n = 2 then s.status.err
    else if n = 3 then s.status.hostconf else if 8 ≤ n ∧ n < 16 then s.status.errcode.getLsbD (n - 8) else false) ∧
  (∀ c : ErrCode, c.code = match c with
    | .illegalCmd => 0x01 | .badArg => 0x02 | .align => 0x03 | .range => 0x04 | .overlap => 0x05 | .aborted => 0x06
    | .trIndex => 0x10 | .trNonfinite => 0x11 | .coNonfinite => 0x20 | .coWrap => 0x21 | .iqRange => 0x30
    | .iqDegenerate => 0x31 | .dmNonfinite => 0x50 | .crcBitval => 0x60) ∧
  ∀ s : State, s.irq = true ↔
    ((csrWord s 0x008).getLsbD 1 = true ∧ (csrWord s 0x00C).getLsbD 0 = true) ∨
    ((csrWord s 0x008).getLsbD 2 = true ∧ (csrWord s 0x00C).getLsbD 1 = true) ∨
    ((csrWord s 0x008).getLsbD 3 = true ∧ (csrWord s 0x00C).getLsbD 2 = true)

/-- R74: a command writes only the result registers it owns, and only when it completes successfully; whatever else a step
of a command does leaves every result register but OUT_LEN. -/
def Obligations.ResultOwnership : Prop :=
  ∀ (i : Instr) (s t : State), i.port = .cmd → s.good = true → exec i s = .next t →
    ({ t.results with outLen := 0 } ≠ { s.results with outLen := 0 } →
      t.eng = none ∧ t.status.done = true ∧ t.status.err = false) ∧
    (t.results.trMu ≠ s.results.trMu ∨ t.results.trIin ≠ s.results.trIin ∨ t.results.trIout ≠ s.results.trIout →
      i = .trMm) ∧
    (t.results.coPhase ≠ s.results.coPhase ∨ t.results.coFreq ≠ s.results.coFreq → i = .costas) ∧
    (t.results.iqA ≠ s.results.iqA ∨ t.results.iqSin ≠ s.results.iqSin ∨ t.results.iqCos ≠ s.results.iqCos →
      i = .iqcorr ∧ ∃ e, s.eng = some e ∧ 0 < e.args.a2.toNat) ∧
    (t.results.fsIdx ≠ s.results.fsIdx ∨ t.results.fsInfo ≠ s.results.fsInfo ∨ t.results.fsPeak ≠ s.results.fsPeak ∨
      t.results.fsFullLen ≠ s.results.fsFullLen ∨ t.results.fsPayLen ≠ s.results.fsPayLen → i = .fsync) ∧
    (t.results.crcRem ≠ s.results.crcRem ∨ t.results.crcRes ≠ s.results.crcRes → i = .crcchk ∨ i = .crcenc)

/-! ### The host's side of the bus -/

/-- R407: the transactions that get an ERROR response, and that they do nothing else. -/
def Obligations.BusErrors : Prop :=
  ∀ (s : State) (a : Access) (rest : List Turn), s.resetAsserted = false → s.agenda = .host a :: rest →
    (let o := a.offset.toNat
     let n := a.width.bytes
     (o < 0x1000 ∧ (n ≠ 4 ∨ o % 4 ≠ 0)) ∨ (0x1000 ≤ o ∧ o < 0x100000) ∨
       (0x100000 ≤ o ∧ ((o - 0x100000) % n ≠ 0 ∨ s.params.bufBytes < o - 0x100000 + n))) →
    step s = .next { s with agenda := rest, responses := .error :: s.responses }

/-- R92: while a command runs a legal host access to BUF is blocked, answered OKAY, a read with 0, and recorded in HOSTCONF;
an illegal one gets ERROR and is not recorded. -/
def Obligations.BufBlockedWhileBusy : Prop :=
  ∀ (s : State) (rest : List Turn) (a n : Nat) (w : Width) (data : BitVec 64), s.resetAsserted = false →
    s.busy = true → w.bytes = n → s.params.bufBytes ≤ 0xF00000 → a < s.params.bufBytes →
    let off := BitVec.ofNat 24 (0x100000 + a)
    (a % n = 0 → a + n ≤ s.params.bufBytes →
      (s.agenda = .host (.read off w) :: rest → step s = .next { s with
        agenda := rest, responses := .readOkay 0 :: s.responses, status := { s.status with hostconf := true } }) ∧
      (s.agenda = .host (.write off w data) :: rest → step s = .next { s with
        agenda := rest, responses := .writeOkay :: s.responses, status := { s.status with hostconf := true } })) ∧
    (a % n ≠ 0 ∨ s.params.bufBytes < a + n →
      (s.agenda = .host (.read off w) :: rest ∨ s.agenda = .host (.write off w data) :: rest) →
        step s = .next { s with agenda := rest, responses := .error :: s.responses })

/-- A host write to BUF on an idle block changes exactly the addressed bytes, least significant byte lowest, and a read of
any aligned width inside the bytes just written gives their part of the value (20_memory.md R84, R86). -/
def Obligations.BufWriteThenRead : Prop :=
  ∀ (s : State) (rest : List Turn) (a : Nat) (w : Width) (data : BitVec 64), s.resetAsserted = false → s.eng = none →
    s.params.bufBytes ≤ 0xF00000 → a % w.bytes = 0 → a + w.bytes ≤ s.params.bufBytes →
    s.agenda = .host (.write (BitVec.ofNat 24 (0x100000 + a)) w data) :: rest →
    ∃ t, step s = .next t ∧ t = { s with agenda := rest, responses := .writeOkay :: s.responses, buf := t.buf } ∧
      (∀ k, k < w.bytes → t.buf.readByte (a + k) = data.extractLsb' (8 * k) 8) ∧
      SameBufOutside s t a w.bytes ∧
      ∀ (b : Nat) (u : Width) (rest' : List Turn), rest = .host (.read (BitVec.ofNat 24 (0x100000 + b)) u) :: rest' →
        b % u.bytes = 0 → a ≤ b → b + u.bytes ≤ a + w.bytes →
        let d : BitVec 64 := BitVec.ofNat 64 (data.toNat / 256 ^ (b - a) % 256 ^ u.bytes)
        step t = .next { t with agenda := rest', responses := .readOkay d :: t.responses }

/-- R90, R92: every host read, of any offset and width, is one step that only answers, but that a legal read of BUF while a
command runs sets HOSTCONF; and the answer of each. -/
def Obligations.ReadsHaveNoSideEffect : Prop :=
  ∀ (s : State) (offset : BitVec 24) (w : Width) (rest : List Turn), s.resetAsserted = false →
    s.agenda = .host (.read offset w) :: rest →
    let o := offset.toNat
    let n := w.bytes
    let csr := o < 0x1000 ∧ n = 4 ∧ o % 4 = 0
    let buf := 0x100000 ≤ o ∧ (o - 0x100000) % n = 0 ∧ o - 0x100000 + n ≤ s.params.bufBytes
    ∃ r, step s = .next { s with
        agenda := rest, responses := r :: s.responses
        status := { s.status with hostconf := s.status.hostconf || (s.busy && decide buf) } } ∧
      (csr → r = .readOkay ((csrWord s o).setWidth 64)) ∧
      (buf → s.busy = true → r = .readOkay 0) ∧
      (buf → s.busy = false → ∃ d : BitVec 64, r = .readOkay d ∧ d.toNat < 256 ^ n ∧
        ∀ k, k < n → d.extractLsb' (8 * k) 8 = s.buf.readByte (o - 0x100000 + k)) ∧
      (¬ csr → ¬ buf → r = .error)

/-- While a command runs no host transaction but a CTRL write reaches it: BUF, the operand registers and the engine's record
stay as they are (20_memory.md R92, R98, 40_command.md R144). -/
def Obligations.HostCannotDisturbCommand : Prop :=
  ∀ (s : State) (a : Access) (rest : List Turn), s.resetAsserted = false → s.busy = true →
    s.agenda = .host a :: rest → (∀ d, a ≠ .write 0x000004 .b4 d) →
    ∃ t, step s = .next t ∧ t.eng = s.eng ∧ t.buf = s.buf ∧ t.args = s.args ∧ t.cfg = s.cfg ∧ t.cmd = s.cmd ∧
      t.results = s.results ∧ t.params = s.params

/-- R115: A5, A6 and A7 are read by no command: changing them changes no outcome of any command but their own values. -/
def Obligations.SpareArgumentsUnread : Prop :=
  ∀ (i : Instr) (s : State) (x y z : Word), i.port = .cmd →
    exec i (s.withSpare x y z) = mapNext (fun t => t.withSpare x y z) (exec i s)

/-! ### NOP -/

/-- R142: NOP, issued on an idle block and run to its end: DONE alone is set, OUT_LEN is 0, no other result register and no
byte of BUF changes; and its completion step. -/
def Obligations.NopRuns : Prop :=
  (∀ s : State, s.resetAsserted = false → s.eng = none →
    s.agenda = [.host (.write 0x000010 .b4 0x00000000), .engine, .engine] →
    ∃ t, core.run 3 s = .next t ∧ t.results = { s.results with outLen := 0 } ∧ t.eng = none ∧ SameBuf s t ∧
      t.status = ⟨true, false, s.status.hostconf, 0⟩ ∧ (s.status.hostconf = false → csrWord t 0x008 = 0x00000002)) ∧
  ∀ (s : State) (e : Engine), RunningAt .nop s e .nop → ∃ t, exec .nop s = .next t ∧ EndsWell s.results e.written s t

/-! ### TR_MM -/

/-- One iteration of TR_MM: the fetch index and its check, the output, the error metric, the update and its check, the
reduction, the log, the history (41_timing_recovery.md R163 to R173). Which zero a floor of 0 is as an operand is the model's
(log 17). -/
def Obligations.TrMmIteration : Prop :=
  ∀ (s : State) (e : Engine) (l : TrLoop), RunningAt .trMm s e (.trMm l) → Checked .trMm s e → trLoopOk e l = true →
    l.iOut < e.args.a2.toNat → l.iIn + 16 < (e.args.a2.toNat : Int) →
    let D := e.args.a1.toNat
    let G := e.args.a3.toNat
    let j : Int := 16 * l.iIn + F64.floor (F64.mul 0x4030000000000000 l.mu)
    (j < 0 → ∃ t, exec .trMm s = .next t ∧ EndsInError .trIndex e.written s t ∧ SameBuf s t) ∧
    (0 ≤ j →
      let z := sampleAt s.buf e.args.a0.toNat j.toNat
      let r : Sample := ⟨if F64.gt z.re 0 then 0x3FF0000000000000 else 0, if F64.gt z.im 0 then 0x3FF0000000000000 else 0⟩
      let xr := F64.add (F64.mul (F64.sub r.re l.rail2.re) l.out1.re) (F64.mul (F64.sub r.im l.rail2.im) l.out1.im)
      let yr := F64.add (F64.mul (F64.sub z.re l.out2.re) l.rail1.re) (F64.mul (F64.sub z.im l.out2.im) l.rail1.im)
      let mu := F64.add l.mu (F64.add e.cfg.trSps (F64.mul e.cfg.trGain (F64.sub yr xr)))
      let f := F64.floor mu
      let mu' := F64.sub mu (F64.ofInt f)
      (F64.isFinite mu = false → ∃ t, exec .trMm s = .next t ∧ EndsInError .trNonfinite (e.written + 1) s t ∧
        t.buf = putSample s.buf D (l.iOut - 2) z ∧ SameBufOutside s t (D + 16 * (l.iOut - 2)) 16) ∧
      (F64.isFinite mu = true → ∃ t, exec .trMm s = .next t ∧
        StillRunning s t { e with
          written := e.written + 1
          progress := .trMm { mu := mu', iIn := l.iIn + f, iOut := l.iOut + 1, out1 := z, out2 := l.out1, rail1 := r,
                              rail2 := l.rail1 } } ∧
        t.buf = putLog (e.cfg.trCfg.getLsbD 0) (putSample s.buf D (l.iOut - 2) z) G (l.iOut - 2) mu' ∧
        SameBufOutside2 s t (D + 16 * (l.iOut - 2)) 16 (G + 8 * (l.iOut - 2))
          (if e.cfg.trCfg.getLsbD 0 then 8 else 0)))

/-- TR_MM ends when its loop condition is false: mu, i_in clamped to 32 bits and i_out in its result registers, i_out - 2
elements counted (41_timing_recovery.md R164, R174). -/
def Obligations.TrMmCompletes : Prop :=
  ∀ (s : State) (e : Engine) (l : TrLoop), RunningAt .trMm s e (.trMm l) → trLoopOk e l = true →
    ¬ (l.iOut < e.args.a2.toNat ∧ l.iIn + 16 < (e.args.a2.toNat : Int)) →
    ∃ t iin, exec .trMm s = .next t ∧
      EndsWell { s.results with trMu := l.mu, trIin := iin, trIout := BitVec.ofNat 32 l.iOut } (l.iOut - 2) s t ∧
      2 ≤ l.iOut ∧ l.iOut ≤ max e.args.a2.toNat 2 ∧
      (-(2 ^ 31) ≤ l.iIn → l.iIn ≤ 2 ^ 31 - 1 → iin.toInt = l.iIn) ∧
      (2 ^ 31 - 1 < l.iIn → iin = 0x7FFFFFFF) ∧ (l.iIn < -(2 ^ 31) → iin = 0x80000000)

/-- The floor of a finite value is the greatest integer not above it, exact as a binary64 operand (00_scope.md R14; values
counted in units of 2^-1074); the reduced mu lies in [0.0, 1.0], for every finite mu, and 1.0 is reachable
(41_timing_recovery.md R171; its example of -1e-20). -/
def Obligations.ReducedMuInUnit : Prop :=
  (∀ mu : F64, F64.isFinite mu = true →
    F64.floor mu * 2 ^ 1074 ≤ F64.toInt mu ∧ F64.toInt mu < (F64.floor mu + 1) * 2 ^ 1074 ∧
    F64.isFinite (F64.ofInt (F64.floor mu)) = true ∧ F64.toInt (F64.ofInt (F64.floor mu)) = F64.floor mu * 2 ^ 1074 ∧
    inUnit (F64.sub mu (F64.ofInt (F64.floor mu))) = true) ∧
  F64.sub 0xBBC79CA10C924223 (F64.ofInt (F64.floor 0xBBC79CA10C924223)) = 0x3FF0000000000000

/-! ### COSTAS -/

/-- One iteration of COSTAS: rotation, store, error, frequency, log, phase, the non-finite check and the wrap (42_costas.md R192
to R199, R201). COS and SIN are free (log 6). WrapRange says what `wrapPhase` is. That with a CO_FS that is not finite the log
entry can be a NaN in an iteration that goes on, which 00_scope.md R21 denies, is the model's choice (log 27). -/
def Obligations.CostasIteration : Prop :=
  ∀ (s : State) (e : Engine) (l : CoLoop), RunningAt .costas s e (.costas l) → Checked .costas s e →
    l.i < e.args.a2.toNat →
    let z := sampleAt s.buf e.args.a0.toNat l.i
    let c := Config.cos l.phase
    let sn := Config.sin l.phase
    let o : Sample := ⟨F64.add (F64.mul z.re c) (F64.mul z.im sn), F64.sub (F64.mul z.im c) (F64.mul z.re sn)⟩
    let er := F64.mul o.re o.im
    let freq := F64.add l.freq (F64.mul e.cfg.coBeta er)
    let phase := F64.add l.phase (F64.add freq (F64.mul e.cfg.coAlpha er))
    let on := e.cfg.coCfg.getLsbD 0
    ∃ t, exec .costas s = .next t ∧
      t.buf = putLog on (putSample s.buf e.args.a1.toNat l.i o) e.args.a3.toNat l.i
        (F64.div (F64.mul freq e.cfg.coFs) 0x401921FB54442D18) ∧
      SameBufOutside2 s t (e.args.a1.toNat + 16 * l.i) 16 (e.args.a3.toNat + 8 * l.i) (if on then 8 else 0) ∧
      if F64.isFinite freq = true ∧ F64.isFinite phase = true then
        match wrapPhase s.params.wrapLimit phase with
        | some p => StillRunning s t { e with written := e.written + 1, progress := .costas ⟨p, freq, l.i + 1⟩ }
        | none => EndsInError .coWrap (e.written + 1) s t
      else EndsInError .coNonfinite (e.written + 1) s t

/-- R202: after the last sample, or at once with none, COSTAS completes with its phase and frequency, OUT_LEN being N. -/
def Obligations.CostasCompletes : Prop :=
  ∀ (s : State) (e : Engine) (l : CoLoop), RunningAt .costas s e (.costas l) → coLoopOk e l = true →
    ¬ l.i < e.args.a2.toNat →
    ∃ t, exec .costas s = .next t ∧ EndsWell { s.results with coPhase := l.phase, coFreq := l.freq } e.args.a2.toNat s t ∧
      t.results.outLen = e.args.a2

/-- The wrap of R198, with one count of steps for both loops: a phase of TWO_PI or more takes a subtraction and goes on with one
step less, a negative phase an addition, after which only a phase still negative goes on, with one step less; a phase already in
[0, TWO_PI) is returned as it is, and with no step left a phase outside is refused (R201). A finite phase that the wrap returns
lies in [0, TWO_PI] (42_costas.md R198, R201). -/
def Obligations.WrapRange : Prop :=
  (∀ (limit : Nat) (p q : F64), F64.isFinite p = true → wrapPhase limit p = some q →
    F64.isFinite q = true ∧ F64.le 0 q = true ∧ F64.le q 0x401921FB54442D18 = true) ∧
  (∀ (limit : Nat) (p : F64), F64.le 0 p = true → F64.lt p 0x401921FB54442D18 = true → wrapPhase limit p = some p) ∧
  (∀ p : F64, F64.lt p 0 = true ∨ F64.ge p 0x401921FB54442D18 = true → wrapPhase 0 p = none) ∧
  (∀ (n : Nat) (p : F64), F64.ge p 0x401921FB54442D18 = true →
    wrapPhase (n + 1) p = wrapPhase n (F64.sub p 0x401921FB54442D18)) ∧
  ∀ (n : Nat) (p : F64), F64.lt p 0 = true →
    let q := F64.add p 0x401921FB54442D18
    wrapPhase (n + 1) p = if F64.lt q 0 = true then wrapPhase n q else some q

/-! ### IQCORR -/

/-- One iteration of IQCORR's pass 1: the window means, formed afresh and left to right over the inclusive window cut to the
sequence, the bias removal and the two sums (43_iq_imbalance.md R222 to R226, R231). Nothing is written to BUF. That the rounded mean of a
constant input may differ from it, against R233, is the model's choice (log 28). -/
def Obligations.IqPass1 : Prop :=
  ∀ (s : State) (e : Engine) (l : IqLoop), RunningAt .iqcorr s e (.iqcorr l) → Checked .iqcorr s e →
    l.stage = .estimate → l.k < e.args.a2.toNat →
    let N := e.args.a2.toNat
    let P := e.args.a4.toNat
    let x := fun m => sampleAt s.buf e.args.a0.toNat m
    let lo := max 0 (l.k - P)
    let hi := min (N - 1) (l.k + P)
    let cnt := hi - lo + 1
    let mI := F64.div ((List.range' lo cnt).foldl (fun acc m => F64.add acc (x m).re) 0) (F64.ofInt cnt)
    let mQ := F64.div ((List.range' lo cnt).foldl (fun acc m => F64.add acc (x m).im) 0) (F64.ofInt cnt)
    let I := F64.sub (x l.k).re mI
    let Q := F64.sub (x l.k).im mQ
    exec .iqcorr s = .next { s with eng := some { e with
      progress := .iqcorr { l with
        k := l.k + 1
        prime := l.prime ++ [⟨I, Q⟩]
        s2 := F64.add l.s2 (F64.mul I I)
        sIQ := F64.add l.sIQ (F64.mul I Q) } } }

/-- IQCORR's estimate step: amplitude, sine, cosine and coefficients, with their checks in order; nothing is written to BUF
(43_iq_imbalance.md R225 to R228, 60_exceptions.md R403). That a constant input
whose computed a is not 0 goes on, where R233 says IQ_DEGENERATE, is the model's choice (log 28). -/
def Obligations.IqEstimate : Prop :=
  ∀ (s : State) (e : Engine) (l : IqLoop), RunningAt .iqcorr s e (.iqcorr l) → l.stage = .estimate →
    ¬ l.k < e.args.a2.toNat →
    let n := F64.ofInt e.args.a2.toNat
    let a := F64.sqrt (F64.mul 0x4000000000000000 (F64.div l.s2 n))
    let sinPsi := F64.mul (F64.div 0x4000000000000000 a) (F64.div l.sIQ n)
    let cosPsi := F64.sqrt (F64.sub 0x3FF0000000000000 (F64.mul sinPsi sinPsi))
    let c1 := F64.div (F64.neg sinPsi) (F64.mul a cosPsi)
    let c2 := F64.div 0x3FF0000000000000 cosPsi
    let degenerate := ∃ t, exec .iqcorr s = .next t ∧ EndsInError .iqDegenerate e.written s t ∧ SameBuf s t
    if F64.eq a 0 = true ∨ F64.isFinite a = false then degenerate
    else if F64.isFinite sinPsi = false then degenerate
    else if F64.gt (F64.abs sinPsi) 0x3FF0000000000000 = true then
      ∃ t, exec .iqcorr s = .next t ∧ EndsInError .iqRange e.written s t ∧ SameBuf s t
    else if F64.eq cosPsi 0 = true ∨ F64.isFinite c1 = false ∨ F64.isFinite c2 = false then degenerate
    else exec .iqcorr s = .next { s with eng := some { e with
      progress := .iqcorr { l with
        stage := .correct, k := 0, a := a, sinPsi := sinPsi, cosPsi := cosPsi, c1 := c1, c2 := c2 } } }

/-- One iteration of IQCORR's pass 2, on the original samples or, with SRC_SEL = 1, on the bias-removed ones (43_iq_imbalance.md
R229, R230). -/
def Obligations.IqPass2 : Prop :=
  ∀ (s : State) (e : Engine) (l : IqLoop), RunningAt .iqcorr s e (.iqcorr l) → Checked .iqcorr s e →
    l.stage = .correct → iqLoopOk e l = true → l.k < e.args.a2.toNat →
    ∀ x : Sample,
    (if e.cfg.iqCfg.getLsbD 0 then l.prime[l.k]? = some x else x = sampleAt s.buf e.args.a0.toNat l.k) →
    ∃ t, exec .iqcorr s = .next t ∧
      StillRunning s t { e with written := e.written + 1, progress := .iqcorr { l with k := l.k + 1 } } ∧
      t.buf = putSample s.buf e.args.a1.toNat l.k
        ⟨F64.div x.re l.a, F64.add (F64.mul l.c1 x.re) (F64.mul l.c2 x.im)⟩ ∧
      SameBufOutside s t (e.args.a1.toNat + 16 * l.k) 16

/-- IQCORR's completion: with N > 0 the three estimates and OUT_LEN = N; with N = 0 at once, the estimates unchanged and
OUT_LEN = 0 (43_iq_imbalance.md R231, R232). -/
def Obligations.IqCompletes : Prop :=
  (∀ (s : State) (e : Engine) (l : IqLoop), RunningAt .iqcorr s e (.iqcorr l) → l.stage = .correct →
    iqLoopOk e l = true → ¬ l.k < e.args.a2.toNat →
    ∃ t, exec .iqcorr s = .next t ∧
      EndsWell { s.results with iqA := l.a, iqSin := l.sinPsi, iqCos := l.cosPsi } e.args.a2.toNat s t) ∧
  ∀ (s : State) (e : Engine), InFlight .iqcorr s e → e.progress = .check → e.abortReq = false → e.written = 0 →
    e.args.a2 = 0 → s.resetAsserted = false → s.agenda = [] →
    ∃ t, core.run 2 s = .next t ∧ EndsWell s.results 0 s t

/-! ### FSYNC -/

/-- FSYNC's steps up to the rescale: the sum of magnitudes, the scale and its tests, the rescale and its test. Nothing is
written (44_preamble_correlator.md R254 to R256). MAG is free (log 7) but for a zero imaginary part of either sign, where it is the
absolute value (00_scope.md R15). -/
def Obligations.FsyncScale : Prop :=
  ∀ (s : State) (e : Engine) (l : FsLoop), RunningAt .fsync s e (.fsync l) → Checked .fsync s e →
    let N := e.args.a2.toNat
    let x := fun m => sampleAt s.buf e.args.a0.toNat m
    let goes := fun l' : FsLoop => exec .fsync s = .next { s with eng := some { e with progress := .fsync l' } }
    (l.stage = .magnitude → l.i < N →
      goes { l with i := l.i + 1, sa := F64.add l.sa (F64.mag (x l.i).re (x l.i).im) }) ∧
    (l.stage = .magnitude → ¬ l.i < N →
      let scale := F64.div l.sa (F64.ofInt N)
      let d := F64.mul 0x4000000000000000 scale
      if F64.eq scale 0 = true ∨ F64.isFinite scale = false ∨ F64.isFinite d = false then
        goes { l with stage := .degenerate }
      else goes { l with stage := .rescale, i := 0, scale := scale, d := d }) ∧
    (l.stage = .rescale → l.i < N →
      let v := F64.div (F64.add (x l.i).re l.scale) l.d
      if F64.isFinite v = false then goes { l with stage := .degenerate }
      else if l.i + 1 < N then goes { l with i := l.i + 1, v := l.v ++ [v] }
      else goes { l with stage := .lags, i := 0, v := l.v ++ [v] }) ∧
    ∀ re : F64, F64.mag re 0 = F64.abs re ∧ F64.mag re 0x8000000000000000 = F64.abs re

/-- One lag of the full cross-correlation: the terms in increasing i, those outside the samples skipped, with the coefficients
of PRE and PRE_MAP (44_preamble_correlator.md R252, R257). That a sum which overflows goes on as R11's infinity or NaN, where R257
says that every sum is finite, is the model's choice (log 23). -/
def Obligations.FsyncLagSum : Prop :=
  ∀ (s : State) (e : Engine) (l : FsLoop), RunningAt .fsync s e (.fsync l) → l.stage = .lags →
    fsLoopOk e l = true →
    let N := e.args.a2.toNat
    let L := (e.cfg.preCfg &&& 0x7F).toNat
    let p := fun i : Nat =>
      if (e.cfg.preHi ++ e.cfg.preLo).getLsbD i then (0x3FF0000000000000 : F64)
      else if e.cfg.preCfg.getLsbD 8 then 0xBFF0000000000000 else 0
    l.i < N + L - 1 →
    exec .fsync s = .next { s with eng := some { e with progress := .fsync { l with
      i := l.i + 1
      c := l.c ++ [((List.range L).filter fun i => L ≤ l.i + 1 + i ∧ l.i + 1 + i - L < N).foldl
        (fun acc i => F64.add acc (F64.mul (l.v.getD (l.i + 1 + i - L) 0) (p i))) 0] } } }

/-- From the end of the lag loop the engine scans every lag and stops at the first that reaches the maximum
(44_preamble_correlator.md R258). That the scan takes one engine step for each lag is the model's (log 9, log 22); that no sum is
a NaN is a premise (log 23). -/
def Obligations.FsyncPeakIsFirstMaximum : Prop :=
  ∀ (s : State) (e : Engine) (l : FsLoop), RunningAt .fsync s e (.fsync l) → Checked .fsync s e → l.stage = .lags →
    fsLoopOk e l = true → l.i = lagCount e → (∀ x ∈ l.c, F64.isNaN x = false) →
    s.resetAsserted = false → s.agenda = [] →
    ∃ (t : State) (l' : FsLoop) (pk : F64), core.run (lagCount e) s = .next t ∧
      t = { s with eng := some { e with progress := .fsync l' } } ∧
      l' = { l with stage := .scan, i := lagCount e, idx := l'.idx, peak := pk } ∧
      l.c[l'.idx]? = some pk ∧
      (∀ (k : Nat) (x : F64), l.c[k]? = some x → F64.gt x pk = false) ∧
      ∀ (k : Nat) (x : F64), k < l'.idx → l.c[k]? = some x → F64.lt x pk = true

/-- FSYNC's steps from the peak on: the window, the two copies from the original samples bit for bit, and the completions
(44_preamble_correlator.md R255, R259 to R261). -/
def Obligations.FsyncExtract : Prop :=
  ∀ (s : State) (e : Engine) (l : FsLoop), RunningAt .fsync s e (.fsync l) → Checked .fsync s e → fsLoopOk e l = true →
    let N := e.args.a2.toNat
    let M := e.args.a4.toNat
    let L := (e.cfg.preCfg &&& 0x7F).toNat
    let goes := fun l' : FsLoop => exec .fsync s = .next { s with eng := some { e with progress := .fsync l' } }
    let start : Int := (l.idx : Int) - L + 1
    let stop := l.idx + M + 1
    (l.stage = .scan → l.i = N + L - 1 → start < 0 →
      goes { l with stage := .copyFull, i := 0, start := 0, full := 0, short := true }) ∧
    (l.stage = .scan → l.i = N + L - 1 → 0 ≤ start →
      goes { l with stage := .copyFull, i := 0, start := start.toNat, full := (min stop N : Nat) - start.toNat,
                    short := decide (N < stop) }) ∧
    (l.stage = .copyFull → l.i < l.full → ∃ t, exec .fsync s = .next t ∧
      StillRunning s t { e with written := e.written + 1, progress := .fsync { l with i := l.i + 1 } } ∧
      t.buf = putSample s.buf e.args.a1.toNat l.i (sampleAt s.buf e.args.a0.toNat (l.start + l.i)) ∧
      SameBufOutside s t (e.args.a1.toNat + 16 * l.i) 16) ∧
    (l.stage = .copyFull → ¬ l.i < l.full → goes { l with stage := .copyPay, i := 0, pay := l.full - L }) ∧
    (l.stage = .copyPay → l.i < l.pay → ∃ t, exec .fsync s = .next t ∧
      StillRunning s t { e with progress := .fsync { l with i := l.i + 1 } } ∧
      t.buf = putSample s.buf e.args.a3.toNat l.i (sampleAt s.buf e.args.a0.toNat (l.start + L + l.i)) ∧
      SameBufOutside s t (e.args.a3.toNat + 16 * l.i) 16) ∧
    (l.stage = .copyPay → ¬ l.i < l.pay → ∃ t, exec .fsync s = .next t ∧
      EndsWell { s.results with
        fsIdx := BitVec.ofNat 32 l.idx, fsPeak := l.peak, fsInfo := if l.short then 0x00000001 else 0x00000000
        fsFullLen := BitVec.ofNat 32 l.full, fsPayLen := BitVec.ofNat 32 l.pay } l.full s t) ∧
    (l.stage = .degenerate → ∃ t, exec .fsync s = .next t ∧
      EndsWell { s.results with fsIdx := 0, fsPeak := 0, fsInfo := 0x00000002, fsFullLen := 0, fsPayLen := 0 } 0 s t)

/-! ### DEMAP -/

/-- One symbol of DEMAP, in each of the four schemes: a non-finite symbol ends the command before any of its bits; otherwise
the label bits of the decided point that are not skipped are stored, most significant first, and no other byte
(45_demapper.md R286, R287). -/
def Obligations.DemapIteration : Prop :=
  ∀ (sch : Scheme) (s : State) (e : Engine) (l : DmLoop), RunningAt sch.instr s e (.demap l) →
    Checked sch.instr s e → l.i < e.args.a2.toNat →
    let z := sampleAt s.buf e.args.a0.toNat l.i
    let S := e.args.a4.toNat
    let best := nearest sch e.cfg.dmGain z
    let stored := fun j => j < sch.bps ∧ S ≤ l.i * sch.bps + j
    let place := fun j => e.args.a1.toNat + (l.i * sch.bps + j - S)
    (F64.isFinite z.re = false ∨ F64.isFinite z.im = false → ∃ t, exec sch.instr s = .next t ∧
      EndsInError .dmNonfinite e.written s t ∧ SameBuf s t) ∧
    (F64.isFinite z.re = true → F64.isFinite z.im = true → ∃ t, exec sch.instr s = .next t ∧
      StillRunning s t { e with
        written := e.written + ((l.i + 1) * sch.bps - S - (l.i * sch.bps - S)), progress := .demap ⟨l.i + 1⟩ } ∧
      (∀ j, stored j → t.buf.readByte (place j) = if best.testBit (sch.bps - 1 - j) then 1 else 0) ∧
      ∀ a, (∀ j, stored j → a ≠ place j) → t.buf.readByte a = s.buf.readByte a)

/-- After the last symbol DEMAP completes with OUT_LEN = max(N*bps - S, 0) and owns no other result register
(45_demapper.md section 5). -/
def Obligations.DemapCompletes : Prop :=
  ∀ (sch : Scheme) (s : State) (e : Engine) (l : DmLoop), RunningAt sch.instr s e (.demap l) →
    dmLoopOk sch.bps e l = true → ¬ l.i < e.args.a2.toNat →
    ∃ t, exec sch.instr s = .next t ∧ EndsWell s.results (e.args.a2.toNat * sch.bps - e.args.a4.toNat) s t

/-- The decided point is the closest of the scheme's 2^bps points, and among points equally close the one with the lowest
index (45_demapper.md R284, R285). -/
def Obligations.NearestIsFirstClosest : Prop :=
  ∀ (sch : Scheme) (g : F64) (z : Sample), F64.isFinite g = true → F64.isFinite z.re = true → F64.isFinite z.im = true →
    let d := fun k =>
      let dr := F64.sub z.re (sch.ref g k).re
      let di := F64.sub z.im (sch.ref g k).im
      F64.add (F64.mul dr dr) (F64.mul di di)
    let best := nearest sch g z
    best < 2 ^ sch.bps ∧ (∀ k, k < 2 ^ sch.bps → F64.le (d best) (d k) = true) ∧
      ∀ k, k < best → F64.lt (d best) (d k) = true

/-- The reference lists and their scaling (45_demapper.md R282, R283). -/
def Obligations.ReferenceLists : Prop :=
  (List.range 2).map Scheme.ook.levels = [(0, 0), (1, 0)] ∧
  (List.range 2).map Scheme.bpsk.levels = [(-1, 0), (1, 0)] ∧
  (List.range 4).map Scheme.qpsk.levels = [(-1, -1), (1, -1), (-1, 1), (1, 1)] ∧
  (List.range 16).map Scheme.qam16.levels =
    [(-3, -3), (-1, -3), (3, -3), (1, -3), (-3, -1), (-1, -1), (3, -1), (1, -1),
     (-3, 3), (-1, 3), (3, 3), (1, 3), (-3, 1), (-1, 1), (3, 1), (1, 1)] ∧
  ∀ (sch : Scheme) (g : F64) (k : Nat),
    (sch.ref g k).re = F64.mul (F64.ofInt (sch.levels k).1) g ∧ (sch.ref g k).im = F64.mul (F64.ofInt (sch.levels k).2) g

/-! ### CRC -/

/-- CRCCHK run from its check step to its end, with every bit byte 0 or 1: the remainder of the codeword in CRC_REM, PASS
exactly when it is 0, nothing written, in n + 3 engine steps (46_crc.md R316, 70_reset_and_hazards.md R466); and its completion
step alone. -/
def Obligations.CrcchkRuns : Prop :=
  (∀ (s : State) (e : Engine), InFlight .crcchk s e → e.progress = .check → e.abortReq = false → e.written = 0 →
    Checked .crcchk s e → s.resetAsserted = false → s.agenda = [] →
    (∀ i, i < e.args.a2.toNat → (s.buf.readByte (e.args.a0.toNat + i)).toNat ≤ 1) →
    let m := (e.cfg.crcCfg &&& 0x3F).toNat
    let rem := crcRem m (e.cfg.crcKey &&& BitVec.ofNat 32 (2 ^ m - 1)) (bitsAt s.buf e.args.a0.toNat e.args.a2.toNat)
    ∃ t, core.run (e.args.a2.toNat + 3) s = .next t ∧
      EndsWell { s.results with crcRem := rem, crcRes := if rem = 0 then 1 else 0 } 0 s t) ∧
  ∀ (s : State) (e : Engine) (l : CrcLoop), RunningAt .crcchk s e (.crc l) → l.stage = .output →
    ∃ t, exec .crcchk s = .next t ∧
      EndsWell { s.results with crcRem := l.rem, crcRes := if l.rem = 0 then 1 else 0 } e.written s t

/-- CRCENC run from its check step to its end, with every bit byte 0 or 1: the codeword stored, its remainder in CRC_REM,
PASS = 0, OUT_LEN = n + m - 1, no other byte of BUF changed, in 2n + 2m + 1 engine steps (46_crc.md R317,
70_reset_and_hazards.md R466); and its completion step alone. -/
def Obligations.CrcencRuns : Prop :=
  (∀ (s : State) (e : Engine), InFlight .crcenc s e → e.progress = .check → e.abortReq = false → e.written = 0 →
    Checked .crcenc s e → s.resetAsserted = false → s.agenda = [] →
    (∀ i, i < e.args.a2.toNat → (s.buf.readByte (e.args.a0.toNat + i)).toNat ≤ 1) →
    let n := e.args.a2.toNat
    let m := (e.cfg.crcCfg &&& 0x3F).toNat
    let key := e.cfg.crcKey &&& BitVec.ofNat 32 (2 ^ m - 1)
    let data := bitsAt s.buf e.args.a0.toNat n
    ∃ t, core.run (2 * n + 2 * m + 1) s = .next t ∧ SameHostSide s t ∧ t.eng = none ∧
      t.results = { s.results with
        crcRem := crcRem m key (data ++ List.replicate (m - 1) false), crcRes := 0
        outLen := BitVec.ofNat 32 (n + m - 1) } ∧
      t.status = { s.status with done := true } ∧
      bitsAt t.buf e.args.a1.toNat (n + m - 1) = crcCodeword m key data ∧
      (∀ k, k < n + m - 1 → (t.buf.readByte (e.args.a1.toNat + k)).toNat ≤ 1) ∧
      SameBufOutside s t e.args.a1.toNat (n + m - 1)) ∧
  ∀ (s : State) (e : Engine) (l : CrcLoop), RunningAt .crcenc s e (.crc l) → Checked .crcenc s e →
    l.stage = .output → ¬ l.i < e.args.a2.toNat + (e.cfg.crcCfg &&& 0x3F).toNat - 1 →
    ∃ t, exec .crcenc s = .next t ∧ EndsWell { s.results with crcRem := l.rem, crcRes := 0 } e.written s t

/-- A bit byte other than 0 or 1 ends CRCCHK, and CRCENC in its first pass, with CRC_BITVAL and BUF unchanged; a bit byte of 0
or 1 is fed (46_crc.md R313, R314). -/
def Obligations.CrcBitIsFedOrRefused : Prop :=
  ∀ (i : Instr) (s : State) (e : Engine) (l : CrcLoop), i = .crcchk ∨ i = .crcenc → RunningAt i s e (.crc l) →
    Checked i s e → l.stage = .divide → l.i < e.args.a2.toNat →
    let b := s.buf.readByte (e.args.a0.toNat + l.i)
    let m := (e.cfg.crcCfg &&& 0x3F).toNat
    let shifted := ((l.r <<< 1) ||| b.setWidth 32) &&& BitVec.ofNat 32 (2 ^ m - 1)
    (1 < b.toNat → ∃ t, exec i s = .next t ∧ EndsInError .crcBitval e.written s t ∧ SameBuf s t) ∧
    (b.toNat ≤ 1 → exec i s = .next { s with eng := some { e with progress := .crc { l with
      i := l.i + 1
      r := if shifted.getLsbD (m - 1) then shifted ^^^ (e.cfg.crcKey &&& BitVec.ofNat 32 (2 ^ m - 1)) else shifted } } })

/-- The round trip on bit sequences: for every legal key length, every key and all data, the remainder of the codeword is 0,
a key whose leading bit is 0 included (46_crc.md R318, R319). -/
def Obligations.CrcRoundTrip : Prop :=
  ∀ (m : Nat) (key : Word) (bits : List Bool), 2 ≤ m → m ≤ 32 →
    crcRem m (key &&& BitVec.ofNat 32 (2 ^ m - 1)) (crcCodeword m (key &&& BitVec.ofNat 32 (2 ^ m - 1)) bits) = 0

/-- R315: with a leading key bit of 1 the remainder is the polynomial remainder over GF(2) of the bit sequence by the key, the
first bit of each being the highest power. -/
def Obligations.CrcIsPolynomialRemainder : Prop :=
  ∀ (m : Nat) (key : Word) (bits : List Bool), 2 ≤ m → m ≤ 32 → key.getLsbD (m - 1) = true →
    let poly := fun (n : Nat) (f : Nat → Bool) =>
      ((Finset.range n).sum fun i => if f i then (Polynomial.X : Polynomial (ZMod 2)) ^ i else 0)
    poly (m - 1) (fun i => (crcRem m (key &&& BitVec.ofNat 32 (2 ^ m - 1)) bits).getLsbD i) =
      poly bits.length (fun i => bits.getD (bits.length - 1 - i) false) %ₘ poly m (fun i => key.getLsbD i)

/-- CRCCHK passes on what CRCENC wrote: a CRCENC run to its end, then a CRCCHK of its output with the same key, gives
CRC_REM = 0 and PASS = 1 (46_crc.md R319). -/
def Obligations.EncodedThenCheckedPasses : Prop :=
  ∀ (s s1 s2 : State) (e e2 : Engine) (k : Nat), s.good = true → InFlight .crcenc s e → e.progress = .check →
    e.abortReq = false → s.resetAsserted = false → s.agenda = [] →
    core.run k s = .next s1 → s1.eng = none → s1.status.err = false →
    InFlight .crcchk s2 e2 → e2.progress = .check → e2.abortReq = false → e2.written = 0 → s2.resetAsserted = false →
    s2.agenda = [] → s2.buf = s1.buf → s2.params = s1.params → e2.cfg.crcKey = e.cfg.crcKey →
    e2.cfg.crcCfg = e.cfg.crcCfg → e2.args.a0 = e.args.a1 → e2.args.a2 = s1.results.outLen →
    ∃ t, core.run (e2.args.a2.toNat + 3) s2 = .next t ∧
      EndsWell { s2.results with crcRem := 0, crcRes := 1 } 0 s2 t

/-! ### Arithmetic -/

/-- Each operator forms the exact result and rounds it once, to the nearest binary64, ties to even, with gradual underflow and
overflow to infinity (00_scope.md R11; values counted in units of 2^-1074); what the bits of a binary64 are worth (R10, an
infinity counting as 2^2098, above every finite value); what the comparisons compare, what negation and `abs` do (R13), and the
conversion of an integer (R17). A sum that is exactly zero is -0.0 only of two negative zeros. -/
def Obligations.RoundingIsNearestEven : Prop :=
  (∀ (neg : Bool) (n d : Nat), 0 < d → RoundsTo neg n d (F64.pack neg (F64.roundMag n d))) ∧
  (∀ x y : F64, F64.isFinite x = true → F64.isFinite y = true →
    let a := F64.toInt x
    let b := F64.toInt y
    let apart := x.getLsbD 63 != y.getLsbD 63
    (a + b ≠ 0 → RoundsTo (decide (a + b < 0)) (a + b).natAbs 1 (F64.add x y)) ∧
    (a + b = 0 → F64.add x y = if x = 0x8000000000000000 ∧ y = 0x8000000000000000 then 0x8000000000000000 else 0) ∧
    (a - b ≠ 0 → RoundsTo (decide (a - b < 0)) (a - b).natAbs 1 (F64.sub x y)) ∧
    (a - b = 0 → F64.sub x y = if x = 0x8000000000000000 ∧ y = 0 then 0x8000000000000000 else 0) ∧
    RoundsTo apart (a * b).natAbs (2 ^ 1074) (F64.mul x y) ∧
    (b ≠ 0 → RoundsTo apart (a.natAbs * 2 ^ 1074) b.natAbs (F64.div x y))) ∧
  (∀ x : F64,
    let E := (x.extractLsb' 52 11).toNat
    let f := (x.extractLsb' 0 52).toNat
    let m := if E = 0 then f else (2 ^ 52 + f) * 2 ^ (E - 1)
    F64.toInt x = (if x.getLsbD 63 then -(m : Int) else m) ∧ F64.isFinite x = decide (E ≠ 2047) ∧
    F64.isInf x = decide (E = 2047 ∧ f = 0) ∧ F64.isNaN x = decide (E = 2047 ∧ f ≠ 0) ∧ F64.sign x = x.getLsbD 63) ∧
  (∀ x y : F64,
    let num := F64.isNaN x = false ∧ F64.isNaN y = false
    F64.lt x y = decide (num ∧ F64.toInt x < F64.toInt y) ∧ F64.le x y = decide (num ∧ F64.toInt x ≤ F64.toInt y) ∧
    F64.gt x y = decide (num ∧ F64.toInt y < F64.toInt x) ∧ F64.ge x y = decide (num ∧ F64.toInt y ≤ F64.toInt x) ∧
    F64.eq x y = decide (num ∧ F64.toInt x = F64.toInt y)) ∧
  (∀ (x : F64) (i : Nat), (F64.neg x).getLsbD i = (if i = 63 then !x.getLsbD 63 else x.getLsbD i) ∧
    (F64.abs x).getLsbD i = (if i = 63 then false else x.getLsbD i)) ∧
  ∀ n : Int, |n| ≤ 2 ^ 53 → F64.isFinite (F64.ofInt n) = true ∧ F64.toInt (F64.ofInt n) = n * 2 ^ 1074 ∧
    (n = 0 → F64.ofInt n = 0)

/-- The operators on infinities, NaNs and zero divisors, and that a NaN they produce is the canonical one (00_scope.md R11, R21;
the cases are IEEE 754's, which R11 names). -/
def Obligations.NanIsCanonical : Prop :=
  ∀ x y : F64,
    let nan : F64 := 0x7FF8000000000000
    let inf := fun s : Bool => if s then (0xFFF0000000000000 : F64) else 0x7FF0000000000000
    let zero := fun s : Bool => if s then (0x8000000000000000 : F64) else 0
    let sx := x.getLsbD 63
    let sy := y.getLsbD 63
    let fin := fun z : F64 => F64.isFinite z = true
    ((F64.isNaN (F64.add x y) = true → F64.add x y = nan) ∧ (F64.isNaN (F64.sub x y) = true → F64.sub x y = nan) ∧
      (F64.isNaN (F64.mul x y) = true → F64.mul x y = nan) ∧ (F64.isNaN (F64.div x y) = true → F64.div x y = nan) ∧
      (F64.isNaN (F64.sqrt x) = true → F64.sqrt x = nan)) ∧
    (F64.isNaN x = true ∨ F64.isNaN y = true →
      F64.add x y = nan ∧ F64.sub x y = nan ∧ F64.mul x y = nan ∧ F64.div x y = nan) ∧
    (∀ s u : Bool, F64.add (inf s) (inf u) = (if s = u then inf s else nan) ∧
      F64.sub (inf s) (inf u) = (if s = u then nan else inf s) ∧
      F64.mul (inf s) (inf u) = inf (s != u) ∧ F64.div (inf s) (inf u) = nan) ∧
    (fin y → ∀ s : Bool, F64.add (inf s) y = inf s ∧ F64.add y (inf s) = inf s ∧ F64.sub (inf s) y = inf s ∧
      F64.sub y (inf s) = inf (!s) ∧
      F64.mul (inf s) y = (if F64.toInt y = 0 then nan else inf (s != sy)) ∧
      F64.mul y (inf s) = (if F64.toInt y = 0 then nan else inf (s != sy)) ∧
      F64.div (inf s) y = inf (s != sy) ∧ F64.div y (inf s) = zero (s != sy)) ∧
    (fin x → fin y → F64.toInt y = 0 → F64.div x y = if F64.toInt x = 0 then nan else inf (sx != sy))

/-- The square root of a non-negative finite value is the binary64 nearest to the real root, that of a zero is the zero itself,
-0.0 included, that of a negative value or a NaN is the canonical NaN, and that of +infinity is itself (00_scope.md R15, R21; values
counted in units of 2^-1074, so the root of v units is the root of v * 2^1074). -/
def Obligations.SquareRootIsNearest : Prop :=
  (∀ x z : F64, F64.isFinite x = true → F64.sign x = false → F64.isFinite z = true → F64.sign z = false →
    F64.isFinite (F64.sqrt x) = true ∧ F64.sign (F64.sqrt x) = false ∧
    |(F64.toInt (F64.sqrt x) : ℝ) - Real.sqrt (F64.toInt x * 2 ^ 1074)| ≤
      |(F64.toInt z : ℝ) - Real.sqrt (F64.toInt x * 2 ^ 1074)|) ∧
  F64.sqrt 0x8000000000000000 = 0x8000000000000000 ∧ F64.sqrt 0 = 0 ∧
  F64.sqrt 0x7FF0000000000000 = 0x7FF0000000000000 ∧
  ∀ x : F64, F64.lt x 0 = true ∨ F64.isNaN x = true → F64.sqrt x = 0x7FF8000000000000

/-! ### The whole machine -/

/-- The state after reset meets the invariant. -/
def Obligations.ResetIsGood : Prop := State.reset.good = true

/-- Every step keeps the invariant, from every state that meets it: BUF's canonical form and bounds, the reserved bits,
ERRCODE, the captured operands, the loop state of the command in flight. -/
def Obligations.StepKeepsGood : Prop :=
  ∀ s t : State, s.good = true → step s = .next t → t.good = true

/-- A state that meets the invariant always has a next state: no engine access leaves BUF, floor is never applied to a
non-finite value, and the loop state is the command's own (40_command.md R135, 00_scope.md R14). -/
def Obligations.GoodNeverStops : Prop :=
  ∀ s : State, s.good = true → ∃ t, step s = .next t

/-- A step of a command changes only bytes of the regions the command writes (40_command.md R133, R143, 20_memory.md R99). -/
def Obligations.WritesStayInRegions : Prop :=
  ∀ (i : Instr) (s t : State) (e : Engine) (a : Nat), s.good = true → i.port = .cmd → InFlight i s e →
    exec i s = .next t → t.buf.readByte a ≠ s.buf.readByte a →
    ∃ r ∈ (planOf i e).regions, r.dir = .write ∧ r.base ≤ a ∧ a < r.base + r.size

/-- Every command ends within the number of engine steps the spec bounds it by, idle and with DONE set, when only the engine
moves (70_reset_and_hazards.md R466, 40_command.md R137, 60_exceptions.md R408). -/
def Obligations.CommandFinishes : Prop :=
  ∀ (s : State) (e : Engine), s.good = true → s.eng = some e → e.progress = .check → s.resetAsserted = false →
    s.agenda = [] →
    ∃ k t, k ≤ stepBound e ∧ core.run k s = .next t ∧ t.eng = none ∧ t.status.done = true ∧ SameHostSide s t
end

