-- ==== Sys2Proof/Laws/Memory.lean ====
section
/-!
SUPPORT. The laws of BUF as data: a read after a write, what a write leaves alone, and that every write keeps
the canonical form and the bounds.
-/
namespace Sys2Proof.Machine

@[simp] theorem Memory.find?_writeByte_same (m : Memory) (a : Nat) (v : Byte) :
    (m.writeByte a v).find? a = some v := by
  induction m with
  | nil => simp [Memory.writeByte, Memory.find?]
  | cons c rest ih =>
    obtain ⟨k, b⟩ := c
    by_cases h1 : a < k
    · simp [Memory.writeByte, Memory.find?, h1]
    · by_cases h2 : a = k
      · simp [Memory.writeByte, Memory.find?, h2]
      · simp [Memory.writeByte, Memory.find?, h1, h2, Ne.symm h2, ih]

theorem Memory.find?_writeByte_other (m : Memory) {a x : Nat} (v : Byte) (h : x ≠ a) :
    (m.writeByte a v).find? x = m.find? x := by
  induction m with
  | nil => simp [Memory.writeByte, Memory.find?, Ne.symm h]
  | cons c rest ih =>
    obtain ⟨k, b⟩ := c
    by_cases h1 : a < k
    · simp [Memory.writeByte, Memory.find?, h1, Ne.symm h]
    · by_cases h2 : a = k
      · subst h2; simp [Memory.writeByte, Memory.find?, Ne.symm h]
      · simp [Memory.writeByte, Memory.find?, h1, h2, ih]

@[simp] theorem Memory.readByte_writeByte_same (m : Memory) (a : Nat) (v : Byte) :
    (m.writeByte a v).readByte a = v := by simp [Memory.readByte]

theorem Memory.readByte_writeByte_other (m : Memory) {a x : Nat} (v : Byte) (h : x ≠ a) :
    (m.writeByte a v).readByte x = m.readByte x := by
  simp [Memory.readByte, Memory.find?_writeByte_other m v h]

/-- A write of `n` bytes leaves every byte outside them alone. -/
theorem Memory.readByte_write_outside (n : Nat) : ∀ (m : Memory) (a v x : Nat), x < a ∨ a + n ≤ x →
    (m.write a n v).readByte x = m.readByte x := by
  induction n with
  | zero => intro m a v x _; rfl
  | succ n ih =>
    intro m a v x h
    rw [Memory.write, ih _ _ _ _ (by omega), Memory.readByte_writeByte_other _ _ (by omega)]

/-- Reads that see the same bytes give the same value. -/
theorem Memory.read_congr (n : Nat) : ∀ (m m' : Memory) (a : Nat),
    (∀ x, a ≤ x → x < a + n → m.readByte x = m'.readByte x) → m.read a n = m'.read a n := by
  induction n with
  | zero => intro m m' a _; rfl
  | succ n ih =>
    intro m m' a h
    simp only [Memory.read]
    rw [h a (by omega) (by omega), ih m m' (a + 1) (fun x h1 h2 => h x (by omega) (by omega))]

/-- A read disjoint from a write sees the memory before it. -/
theorem Memory.read_write_disjoint (m : Memory) {a n v b k : Nat} (h : b + k ≤ a ∨ a + n ≤ b) :
    (m.write a n v).read b k = m.read b k :=
  Memory.read_congr k _ _ _ fun x _ _ => Memory.readByte_write_outside n m a v x (by omega)

/-- A read after a write to the same place gives the low `n` bytes of the value written. -/
theorem Memory.read_write_same (n : Nat) : ∀ (m : Memory) (a v : Nat), (m.write a n v).read a n = v % 256 ^ n := by
  induction n with
  | zero => intro m a v; simp [Memory.read, Nat.mod_one]
  | succ n ih =>
    intro m a v
    rw [Memory.write, Memory.read, ih, Memory.readByte_write_outside n _ _ _ _ (Or.inl (Nat.lt_succ_self a))]
    rw [Memory.readByte_writeByte_same, BitVec.toNat_ofNat, Nat.pow_succ 256 n, Nat.mul_comm (256 ^ n) 256, Nat.mod_mul]

/-- A read of `n` bytes is less than `256 ^ n`. -/
theorem Memory.read_lt (n : Nat) : ∀ (m : Memory) (a : Nat), m.read a n < 256 ^ n := by
  induction n with
  | zero => intro m a; simp [Memory.read]
  | succ n ih =>
    intro m a
    have h1 := ih m (a + 1)
    have h2 := (m.readByte a).isLt
    simp only [Memory.read, Nat.pow_succ]
    omega

/-- Every listed offset is above `lo`, and offsets rise. -/
def Memory.above : Nat → Memory → Bool
  | _, [] => true
  | lo, (a, _) :: rest => decide (lo < a) && Memory.above a rest

theorem Memory.wf_cons (a : Nat) (b : Byte) (rest : Memory) :
    Memory.wf ((a, b) :: rest) = Memory.above a rest := by
  induction rest generalizing a b with
  | nil => rfl
  | cons c rest ih =>
    obtain ⟨k, y⟩ := c
    simp only [Memory.wf, Memory.above, ih]

theorem Memory.above_writeByte (m : Memory) {lo a : Nat} (v : Byte) (h : lo < a)
    (hm : Memory.above lo m = true) : Memory.above lo (m.writeByte a v) = true := by
  induction m generalizing lo with
  | nil => simp [Memory.writeByte, Memory.above, h]
  | cons c rest ih =>
    obtain ⟨k, b⟩ := c
    simp only [Memory.above, Bool.and_eq_true, decide_eq_true_eq] at hm
    by_cases h1 : a < k
    · simp [Memory.writeByte, Memory.above, h1, h, hm.2]
    · by_cases h2 : a = k
      · subst h2; simp [Memory.writeByte, Memory.above, h, hm.2]
      · have h3 : k < a := by omega
        simp [Memory.writeByte, Memory.above, h1, h2, hm.1, ih h3 hm.2]

/-- Writing a byte keeps the canonical form. -/
theorem Memory.wf_writeByte (m : Memory) (a : Nat) (v : Byte) (hm : m.wf = true) : (m.writeByte a v).wf = true := by
  cases m with
  | nil => rfl
  | cons c rest =>
    obtain ⟨k, b⟩ := c
    rw [Memory.wf_cons] at hm
    by_cases h1 : a < k
    · simp [Memory.writeByte, h1, Memory.wf_cons, Memory.above, hm]
    · by_cases h2 : a = k
      · subst h2; simp [Memory.writeByte, Memory.wf_cons, hm]
      · have h3 : k < a := by omega
        simp [Memory.writeByte, h1, h2, Memory.wf_cons, Memory.above_writeByte rest v h3 hm]

/-- Every write keeps the canonical form. -/
theorem Memory.wf_write (n : Nat) : ∀ (m : Memory) (a v : Nat), m.wf = true → (m.write a n v).wf = true := by
  induction n with
  | zero => intro m a v h; exact h
  | succ n ih => intro m a v h; exact ih _ _ _ (Memory.wf_writeByte m a _ h)

/-- Writing a byte inside BUF keeps every listed offset inside BUF. -/
theorem Memory.within_writeByte (m : Memory) {limit a : Nat} (v : Byte) (ha : a < limit)
    (hm : m.within limit = true) : (m.writeByte a v).within limit = true := by
  induction m with
  | nil => simp [Memory.writeByte, Memory.within, ha]
  | cons c rest ih =>
    obtain ⟨k, b⟩ := c
    simp only [Memory.within, List.all_cons, Bool.and_eq_true] at hm ih
    by_cases h1 : a < k
    · simpa [Memory.writeByte, Memory.within, h1, ha] using hm
    · by_cases h2 : a = k
      · subst h2
        simpa [Memory.writeByte, Memory.within, ha] using hm.2
      · simp only [Memory.writeByte, h1, h2, if_false, Memory.within, List.all_cons, Bool.and_eq_true]
        exact ⟨hm.1, ih hm.2⟩

/-- A write inside BUF keeps every listed offset inside BUF. -/
theorem Memory.within_write (n : Nat) : ∀ (m : Memory) {limit a : Nat} (v : Nat), a + n ≤ limit →
    m.within limit = true → (m.write a n v).within limit = true := by
  induction n with
  | zero => intro m limit a v _ h; exact h
  | succ n ih =>
    intro m limit a v ha h
    exact ih _ _ (by omega) (Memory.within_writeByte m _ (by omega) h)

/-- An offset that is not listed reads as its power-up byte. -/
theorem Memory.readByte_unlisted (m : Memory) (a : Nat) (h : m.find? a = none) :
    m.readByte a = Config.powerUpByte a := by simp [Memory.readByte, h]

/-- Nothing is listed at or below a bound the list lies above. -/
theorem Memory.find?_above (m : Memory) {lo a : Nat} (hm : Memory.above lo m = true) (h : a ≤ lo) :
    m.find? a = none := by
  induction m generalizing lo with
  | nil => rfl
  | cons c rest ih =>
    obtain ⟨k, b⟩ := c
    simp only [Memory.above, Bool.and_eq_true, decide_eq_true_eq] at hm
    simp [Memory.find?, show k ≠ a by omega, ih hm.2 (by omega)]

/-- Two memories above a bound that list the same bytes are equal data. -/
theorem Memory.above_ext (m m' : Memory) {lo : Nat} (hm : Memory.above lo m = true)
    (hm' : Memory.above lo m' = true) (h : ∀ a, m.find? a = m'.find? a) : m = m' := by
  induction m generalizing m' lo with
  | nil =>
    cases m' with
    | nil => rfl
    | cons c' rest' => have := h c'.1; simp [Memory.find?] at this
  | cons c rest ih =>
    obtain ⟨k, b⟩ := c
    cases m' with
    | nil => have := h k; simp [Memory.find?] at this
    | cons c' rest' =>
      obtain ⟨k', b'⟩ := c'
      simp only [Memory.above, Bool.and_eq_true, decide_eq_true_eq] at hm hm'
      rcases Nat.lt_trichotomy k k' with hlt | heq | hgt
      · have := h k
        simp [Memory.find?, show k' ≠ k by omega, Memory.find?_above rest' hm'.2 (Nat.le_of_lt hlt)] at this
      · subst heq
        have hb : b = b' := by have := h k; simpa [Memory.find?] using this
        subst hb
        have hrest : rest = rest' := by
          refine ih rest' hm.2 hm'.2 fun a => ?_
          by_cases ha : a ≤ k
          · rw [Memory.find?_above rest hm.2 ha, Memory.find?_above rest' hm'.2 ha]
          · have := h a
            simpa [Memory.find?, show k ≠ a by omega] using this
        rw [hrest]
      · have := h k'
        simp [Memory.find?, show k ≠ k' by omega, Memory.find?_above rest hm.2 (Nat.le_of_lt hgt)] at this

/-- The memory of the reset state is in canonical form. -/
theorem reset_buf_wf : Memory.wf State.reset.buf = true := rfl

end Sys2Proof.Machine
end

