-- ==== Sys2Proof/Laws/State.lean ====
section
/-!
SUPPORT. What each update of State, of the engine's record and of STATUS does to each field: true by rfl, so that no
later proof unfolds an update.
-/
namespace Sys2Proof.Machine

@[simp] theorem issue_params (w : Word) (s : State) : (issue w s).params = s.params := rfl
@[simp] theorem issue_args (w : Word) (s : State) : (issue w s).args = s.args := rfl
@[simp] theorem issue_cfg (w : Word) (s : State) : (issue w s).cfg = s.cfg := rfl
@[simp] theorem issue_results (w : Word) (s : State) : (issue w s).results = s.results := rfl
@[simp] theorem issue_status (w : Word) (s : State) : (issue w s).status = s.status.issued := rfl
@[simp] theorem issue_irqEn (w : Word) (s : State) : (issue w s).irqEn = s.irqEn := rfl
@[simp] theorem issue_cmd (w : Word) (s : State) : (issue w s).cmd = w := rfl
@[simp] theorem issue_buf (w : Word) (s : State) : (issue w s).buf = s.buf := rfl
@[simp] theorem issue_eng (w : Word) (s : State) : (issue w s).eng = some (s.captured w) := rfl
@[simp] theorem issue_resetAsserted (w : Word) (s : State) : (issue w s).resetAsserted = s.resetAsserted := rfl
@[simp] theorem issue_agenda (w : Word) (s : State) : (issue w s).agenda = s.agenda := rfl
@[simp] theorem issue_responses (w : Word) (s : State) : (issue w s).responses = s.responses := rfl

@[simp] theorem State.withEng_params (s : State) (e : Engine) : (s.withEng e).params = s.params := rfl
@[simp] theorem State.withEng_args (s : State) (e : Engine) : (s.withEng e).args = s.args := rfl
@[simp] theorem State.withEng_cfg (s : State) (e : Engine) : (s.withEng e).cfg = s.cfg := rfl
@[simp] theorem State.withEng_results (s : State) (e : Engine) : (s.withEng e).results = s.results := rfl
@[simp] theorem State.withEng_status (s : State) (e : Engine) : (s.withEng e).status = s.status := rfl
@[simp] theorem State.withEng_irqEn (s : State) (e : Engine) : (s.withEng e).irqEn = s.irqEn := rfl
@[simp] theorem State.withEng_cmd (s : State) (e : Engine) : (s.withEng e).cmd = s.cmd := rfl
@[simp] theorem State.withEng_buf (s : State) (e : Engine) : (s.withEng e).buf = s.buf := rfl
@[simp] theorem State.withEng_eng (s : State) (e : Engine) : (s.withEng e).eng = some e := rfl
@[simp] theorem State.withEng_resetAsserted (s : State) (e : Engine) : (s.withEng e).resetAsserted = s.resetAsserted := rfl
@[simp] theorem State.withEng_agenda (s : State) (e : Engine) : (s.withEng e).agenda = s.agenda := rfl
@[simp] theorem State.withEng_responses (s : State) (e : Engine) : (s.withEng e).responses = s.responses := rfl

@[simp] theorem complete_params (f : ResultRegs → ResultRegs) (e : Engine) (s : State) : (complete f e s).params = s.params := rfl
@[simp] theorem complete_args (f : ResultRegs → ResultRegs) (e : Engine) (s : State) : (complete f e s).args = s.args := rfl
@[simp] theorem complete_cfg (f : ResultRegs → ResultRegs) (e : Engine) (s : State) : (complete f e s).cfg = s.cfg := rfl
@[simp] theorem complete_results (f : ResultRegs → ResultRegs) (e : Engine) (s : State) : (complete f e s).results = { f s.results with outLen := BitVec.ofNat 32 e.written } := rfl
@[simp] theorem complete_status (f : ResultRegs → ResultRegs) (e : Engine) (s : State) : (complete f e s).status = s.status.completed := rfl
@[simp] theorem complete_irqEn (f : ResultRegs → ResultRegs) (e : Engine) (s : State) : (complete f e s).irqEn = s.irqEn := rfl
@[simp] theorem complete_cmd (f : ResultRegs → ResultRegs) (e : Engine) (s : State) : (complete f e s).cmd = s.cmd := rfl
@[simp] theorem complete_buf (f : ResultRegs → ResultRegs) (e : Engine) (s : State) : (complete f e s).buf = s.buf := rfl
@[simp] theorem complete_eng (f : ResultRegs → ResultRegs) (e : Engine) (s : State) : (complete f e s).eng = none := rfl
@[simp] theorem complete_resetAsserted (f : ResultRegs → ResultRegs) (e : Engine) (s : State) : (complete f e s).resetAsserted = s.resetAsserted := rfl
@[simp] theorem complete_agenda (f : ResultRegs → ResultRegs) (e : Engine) (s : State) : (complete f e s).agenda = s.agenda := rfl
@[simp] theorem complete_responses (f : ResultRegs → ResultRegs) (e : Engine) (s : State) : (complete f e s).responses = s.responses := rfl

@[simp] theorem takeError_params (c : ErrCode) (e : Engine) (s : State) : (takeError c e s).params = s.params := rfl
@[simp] theorem takeError_args (c : ErrCode) (e : Engine) (s : State) : (takeError c e s).args = s.args := rfl
@[simp] theorem takeError_cfg (c : ErrCode) (e : Engine) (s : State) : (takeError c e s).cfg = s.cfg := rfl
@[simp] theorem takeError_results (c : ErrCode) (e : Engine) (s : State) : (takeError c e s).results = { s.results with outLen := BitVec.ofNat 32 e.written } := rfl
@[simp] theorem takeError_status (c : ErrCode) (e : Engine) (s : State) : (takeError c e s).status = s.status.failed c := rfl
@[simp] theorem takeError_irqEn (c : ErrCode) (e : Engine) (s : State) : (takeError c e s).irqEn = s.irqEn := rfl
@[simp] theorem takeError_cmd (c : ErrCode) (e : Engine) (s : State) : (takeError c e s).cmd = s.cmd := rfl
@[simp] theorem takeError_buf (c : ErrCode) (e : Engine) (s : State) : (takeError c e s).buf = s.buf := rfl
@[simp] theorem takeError_eng (c : ErrCode) (e : Engine) (s : State) : (takeError c e s).eng = none := rfl
@[simp] theorem takeError_resetAsserted (c : ErrCode) (e : Engine) (s : State) : (takeError c e s).resetAsserted = s.resetAsserted := rfl
@[simp] theorem takeError_agenda (c : ErrCode) (e : Engine) (s : State) : (takeError c e s).agenda = s.agenda := rfl
@[simp] theorem takeError_responses (c : ErrCode) (e : Engine) (s : State) : (takeError c e s).responses = s.responses := rfl

@[simp] theorem acknowledge_params (v : Word) (s : State) : (acknowledge v s).params = s.params := rfl
@[simp] theorem acknowledge_args (v : Word) (s : State) : (acknowledge v s).args = s.args := rfl
@[simp] theorem acknowledge_cfg (v : Word) (s : State) : (acknowledge v s).cfg = s.cfg := rfl
@[simp] theorem acknowledge_results (v : Word) (s : State) : (acknowledge v s).results = s.results := rfl
@[simp] theorem acknowledge_status (v : Word) (s : State) : (acknowledge v s).status = s.status.clear v := rfl
@[simp] theorem acknowledge_irqEn (v : Word) (s : State) : (acknowledge v s).irqEn = s.irqEn := rfl
@[simp] theorem acknowledge_cmd (v : Word) (s : State) : (acknowledge v s).cmd = s.cmd := rfl
@[simp] theorem acknowledge_buf (v : Word) (s : State) : (acknowledge v s).buf = s.buf := rfl
@[simp] theorem acknowledge_eng (v : Word) (s : State) : (acknowledge v s).eng = s.eng := rfl
@[simp] theorem acknowledge_resetAsserted (v : Word) (s : State) : (acknowledge v s).resetAsserted = s.resetAsserted := rfl
@[simp] theorem acknowledge_agenda (v : Word) (s : State) : (acknowledge v s).agenda = s.agenda := rfl
@[simp] theorem acknowledge_responses (v : Word) (s : State) : (acknowledge v s).responses = s.responses := rfl

@[simp] theorem resetBlock_params (s : State) : (resetBlock s).params = s.params := rfl
@[simp] theorem resetBlock_args (s : State) : (resetBlock s).args = Args.reset := rfl
@[simp] theorem resetBlock_cfg (s : State) : (resetBlock s).cfg = ConfigRegs.reset := rfl
@[simp] theorem resetBlock_results (s : State) : (resetBlock s).results = ResultRegs.reset := rfl
@[simp] theorem resetBlock_status (s : State) : (resetBlock s).status = Status.reset := rfl
@[simp] theorem resetBlock_irqEn (s : State) : (resetBlock s).irqEn = 0 := rfl
@[simp] theorem resetBlock_cmd (s : State) : (resetBlock s).cmd = 0 := rfl
@[simp] theorem resetBlock_buf (s : State) : (resetBlock s).buf = s.buf := rfl
@[simp] theorem resetBlock_eng (s : State) : (resetBlock s).eng = none := rfl
@[simp] theorem resetBlock_resetAsserted (s : State) : (resetBlock s).resetAsserted = s.resetAsserted := rfl
@[simp] theorem resetBlock_agenda (s : State) : (resetBlock s).agenda = s.agenda := rfl
@[simp] theorem resetBlock_responses (s : State) : (resetBlock s).responses = s.responses := rfl

@[simp] theorem hostConflict_params (s : State) : (hostConflict s).params = s.params := rfl
@[simp] theorem hostConflict_args (s : State) : (hostConflict s).args = s.args := rfl
@[simp] theorem hostConflict_cfg (s : State) : (hostConflict s).cfg = s.cfg := rfl
@[simp] theorem hostConflict_results (s : State) : (hostConflict s).results = s.results := rfl
@[simp] theorem hostConflict_status (s : State) : (hostConflict s).status = s.status.conflict := rfl
@[simp] theorem hostConflict_irqEn (s : State) : (hostConflict s).irqEn = s.irqEn := rfl
@[simp] theorem hostConflict_cmd (s : State) : (hostConflict s).cmd = s.cmd := rfl
@[simp] theorem hostConflict_buf (s : State) : (hostConflict s).buf = s.buf := rfl
@[simp] theorem hostConflict_eng (s : State) : (hostConflict s).eng = s.eng := rfl
@[simp] theorem hostConflict_resetAsserted (s : State) : (hostConflict s).resetAsserted = s.resetAsserted := rfl
@[simp] theorem hostConflict_agenda (s : State) : (hostConflict s).agenda = s.agenda := rfl
@[simp] theorem hostConflict_responses (s : State) : (hostConflict s).responses = s.responses := rfl

@[simp] theorem Engine.wrote_cmd (e : Engine) (n : Nat) : (e.wrote n).cmd = e.cmd := rfl
@[simp] theorem Engine.wrote_args (e : Engine) (n : Nat) : (e.wrote n).args = e.args := rfl
@[simp] theorem Engine.wrote_cfg (e : Engine) (n : Nat) : (e.wrote n).cfg = e.cfg := rfl
@[simp] theorem Engine.wrote_abortReq (e : Engine) (n : Nat) : (e.wrote n).abortReq = e.abortReq := rfl
@[simp] theorem Engine.wrote_written (e : Engine) (n : Nat) : (e.wrote n).written = e.written + n := rfl
@[simp] theorem Engine.wrote_progress (e : Engine) (n : Nat) : (e.wrote n).progress = e.progress := rfl

@[simp] theorem Engine.goto_cmd (e : Engine) (p : Progress) : (e.goto p).cmd = e.cmd := rfl
@[simp] theorem Engine.goto_args (e : Engine) (p : Progress) : (e.goto p).args = e.args := rfl
@[simp] theorem Engine.goto_cfg (e : Engine) (p : Progress) : (e.goto p).cfg = e.cfg := rfl
@[simp] theorem Engine.goto_abortReq (e : Engine) (p : Progress) : (e.goto p).abortReq = e.abortReq := rfl
@[simp] theorem Engine.goto_written (e : Engine) (p : Progress) : (e.goto p).written = e.written := rfl
@[simp] theorem Engine.goto_progress (e : Engine) (p : Progress) : (e.goto p).progress = p := rfl

@[simp] theorem State.captured_cmd (s : State) (w : Word) : (s.captured w).cmd = w := rfl
@[simp] theorem State.captured_args (s : State) (w : Word) : (s.captured w).args = s.args := rfl
@[simp] theorem State.captured_cfg (s : State) (w : Word) : (s.captured w).cfg = s.cfg := rfl
@[simp] theorem State.captured_abortReq (s : State) (w : Word) : (s.captured w).abortReq = false := rfl
@[simp] theorem State.captured_written (s : State) (w : Word) : (s.captured w).written = 0 := rfl
@[simp] theorem State.captured_progress (s : State) (w : Word) : (s.captured w).progress = .check := rfl

@[simp] theorem Status.clear_done (st : Status) (v : Word) : (st.clear v).done = (st.done && !v.getLsbD 1) := rfl
@[simp] theorem Status.clear_err (st : Status) (v : Word) : (st.clear v).err = (st.err && !v.getLsbD 2) := rfl
@[simp] theorem Status.clear_hostconf (st : Status) (v : Word) : (st.clear v).hostconf = (st.hostconf && !v.getLsbD 3) := rfl
@[simp] theorem Status.clear_errcode (st : Status) (v : Word) : (st.clear v).errcode = if v.getLsbD 2 then 0 else st.errcode := rfl

@[simp] theorem Status.issued_done (st : Status) : (st.issued).done = false := rfl
@[simp] theorem Status.issued_err (st : Status) : (st.issued).err = false := rfl
@[simp] theorem Status.issued_hostconf (st : Status) : (st.issued).hostconf = st.hostconf := rfl
@[simp] theorem Status.issued_errcode (st : Status) : (st.issued).errcode = 0 := rfl

@[simp] theorem Status.completed_done (st : Status) : (st.completed).done = true := rfl
@[simp] theorem Status.completed_err (st : Status) : (st.completed).err = st.err := rfl
@[simp] theorem Status.completed_hostconf (st : Status) : (st.completed).hostconf = st.hostconf := rfl
@[simp] theorem Status.completed_errcode (st : Status) : (st.completed).errcode = st.errcode := rfl

@[simp] theorem Status.failed_done (st : Status) (c : ErrCode) : (st.failed c).done = true := rfl
@[simp] theorem Status.failed_err (st : Status) (c : ErrCode) : (st.failed c).err = true := rfl
@[simp] theorem Status.failed_hostconf (st : Status) (c : ErrCode) : (st.failed c).hostconf = st.hostconf := rfl
@[simp] theorem Status.failed_errcode (st : Status) (c : ErrCode) : (st.failed c).errcode = c.code := rfl

@[simp] theorem Status.conflict_done (st : Status) : (st.conflict).done = st.done := rfl
@[simp] theorem Status.conflict_err (st : Status) : (st.conflict).err = st.err := rfl
@[simp] theorem Status.conflict_hostconf (st : Status) : (st.conflict).hostconf = true := rfl
@[simp] theorem Status.conflict_errcode (st : Status) : (st.conflict).errcode = st.errcode := rfl

@[simp] theorem issue_busy (w : Word) (s : State) : (issue w s).busy = true := rfl
@[simp] theorem State.withEng_busy (s : State) (e : Engine) : (s.withEng e).busy = true := rfl
@[simp] theorem complete_busy (f : ResultRegs → ResultRegs) (e : Engine) (s : State) : (complete f e s).busy = false := rfl
@[simp] theorem takeError_busy (c : ErrCode) (e : Engine) (s : State) : (takeError c e s).busy = false := rfl
@[simp] theorem resetBlock_busy (s : State) : (resetBlock s).busy = false := rfl

/-- An abort request changes the engine's record alone. -/
theorem requestAbort_eng (s : State) :
    (requestAbort s).eng = s.eng.map fun e => { e with abortReq := true } := by
  unfold requestAbort; cases h : s.eng <;> simp [h]

@[simp] theorem requestAbort_params (s : State) : (requestAbort s).params = s.params := by
  unfold requestAbort; cases s.eng <;> rfl
@[simp] theorem requestAbort_args (s : State) : (requestAbort s).args = s.args := by
  unfold requestAbort; cases s.eng <;> rfl
@[simp] theorem requestAbort_cfg (s : State) : (requestAbort s).cfg = s.cfg := by
  unfold requestAbort; cases s.eng <;> rfl
@[simp] theorem requestAbort_results (s : State) : (requestAbort s).results = s.results := by
  unfold requestAbort; cases s.eng <;> rfl
@[simp] theorem requestAbort_status (s : State) : (requestAbort s).status = s.status := by
  unfold requestAbort; cases s.eng <;> rfl
@[simp] theorem requestAbort_irqEn (s : State) : (requestAbort s).irqEn = s.irqEn := by
  unfold requestAbort; cases s.eng <;> rfl
@[simp] theorem requestAbort_cmd (s : State) : (requestAbort s).cmd = s.cmd := by
  unfold requestAbort; cases s.eng <;> rfl
@[simp] theorem requestAbort_buf (s : State) : (requestAbort s).buf = s.buf := by
  unfold requestAbort; cases s.eng <;> rfl
@[simp] theorem requestAbort_resetAsserted (s : State) : (requestAbort s).resetAsserted = s.resetAsserted := by
  unfold requestAbort; cases s.eng <;> rfl
@[simp] theorem requestAbort_agenda (s : State) : (requestAbort s).agenda = s.agenda := by
  unfold requestAbort; cases s.eng <;> rfl
@[simp] theorem requestAbort_responses (s : State) : (requestAbort s).responses = s.responses := by
  unfold requestAbort; cases s.eng <;> rfl

end Sys2Proof.Machine
end

