-- ==== Sys2Proof/Laws/Ops.lean ====
section
/-!
SUPPORT. For each shared operation, once, everything it can do: the engine's loads and stores, the check step, and
the frame every command's meaning runs in.
-/
namespace Sys2Proof.Machine

/-- An access that went on found what it asked for. -/
theorem orFault_eq_next {α : Type} {o : Option α} {k : α → Out} {t : State} :
    orFault o k = .next t ↔ ∃ a, o = some a ∧ k a = .next t := by
  cases o <;> simp [orFault]

/-- An access that stopped fell outside BUF, or what followed it stopped. -/
theorem orFault_eq_fault {α : Type} {o : Option α} {k : α → Out} {f : Fault} :
    orFault o k = .fault f ↔ (o = none ∧ f = .outsideBuf) ∨ ∃ a, o = some a ∧ k a = .fault f := by
  cases o <;> simp [orFault, eq_comm]

theorem orFault_some {α : Type} (a : α) (k : α → Out) : orFault (some a) k = k a := rfl

theorem loadF64_eq_some {s : State} {a : Nat} {x : F64} :
    loadF64 s a = some x ↔ a + 8 ≤ s.params.bufBytes ∧ x = BitVec.ofNat 64 (s.buf.read a 8) := by
  unfold loadF64; split <;> simp_all [eq_comm]

theorem storeF64_eq_some {s t : State} {a : Nat} {x : F64} :
    storeF64 s a x = some t ↔ a + 8 ≤ s.params.bufBytes ∧ t = { s with buf := s.buf.write a 8 x.toNat } := by
  unfold storeF64; split <;> simp_all [eq_comm]

/-- A complex load gives the two values at its place, and only inside BUF. -/
theorem loadC_eq_some {s : State} {b k : Nat} {z : Sample} :
    loadC s b k = some z ↔ b + 16 * k + 16 ≤ s.params.bufBytes ∧
      z = ⟨BitVec.ofNat 64 (s.buf.read (b + 16 * k) 8), BitVec.ofNat 64 (s.buf.read (b + 16 * k + 8) 8)⟩ := by
  unfold loadC loadF64
  by_cases h1 : b + 16 * k + 8 ≤ s.params.bufBytes <;> by_cases h2 : b + 16 * k + 8 + 8 ≤ s.params.bufBytes <;>
    simp [h1, h2, eq_comm] <;> omega

/-- A complex store writes the two values at its place, and only inside BUF. -/
theorem storeC_eq_some {s t : State} {b k : Nat} {z : Sample} :
    storeC s b k z = some t ↔ b + 16 * k + 16 ≤ s.params.bufBytes ∧
      t = { s with buf := (s.buf.write (b + 16 * k) 8 z.re.toNat).write (b + 16 * k + 8) 8 z.im.toNat } := by
  unfold storeC storeF64
  by_cases h1 : b + 16 * k + 8 ≤ s.params.bufBytes <;> by_cases h2 : b + 16 * k + 8 + 8 ≤ s.params.bufBytes <;>
    simp [h1, h2, eq_comm] <;> omega

theorem storeR_eq_some {s t : State} {b k : Nat} {x : F64} :
    storeR s b k x = some t ↔ b + 8 * k + 8 ≤ s.params.bufBytes ∧
      t = { s with buf := s.buf.write (b + 8 * k) 8 x.toNat } := storeF64_eq_some

theorem loadB_eq_some {s : State} {b k : Nat} {x : Byte} :
    loadB s b k = some x ↔ b + k < s.params.bufBytes ∧ x = s.buf.readByte (b + k) := by
  unfold loadB; split <;> simp_all [eq_comm]

theorem storeB_eq_some {s t : State} {b k : Nat} {x : Bool} :
    storeB s b k x = some t ↔ b + k < s.params.bufBytes ∧
      t = { s with buf := s.buf.writeByte (b + k) ((BitVec.ofBool x).setWidth 8) } := by
  unfold storeB; split <;> simp_all [eq_comm]

theorem copyByte_eq_some {s t : State} {b k : Nat} {x : Byte} :
    copyByte s b k x = some t ↔ b + k < s.params.bufBytes ∧ t = { s with buf := s.buf.writeByte (b + k) x } := by
  unfold copyByte; split <;> simp_all [eq_comm]

theorem storeLog_eq_some {on : Bool} {s t : State} {b k : Nat} {x : F64} :
    storeLog on s b k x = some t ↔
      (on = true ∧ b + 8 * k + 8 ≤ s.params.bufBytes ∧ t = { s with buf := s.buf.write (b + 8 * k) 8 x.toNat }) ∨
        (on = false ∧ t = s) := by
  cases on
  · simp [storeLog, eq_comm]
  · simp [storeLog, storeR_eq_some]

/-- What a complex store put there is what a complex load finds there. -/
theorem loadC_of_storeC {s t : State} {b k : Nat} {z : Sample} (h : storeC s b k z = some t) :
    loadC t b k = some z := by
  obtain ⟨h1, rfl⟩ := storeC_eq_some.1 h
  refine loadC_eq_some.2 ⟨h1, ?_⟩
  have e1 : ∀ x : F64, BitVec.ofNat 64 (x.toNat % 256 ^ 8) = x := fun x => by
    apply BitVec.eq_of_toNat_eq; have := x.isLt; simp; omega
  obtain ⟨re, im⟩ := z
  have a1 := Memory.read_write_disjoint (s.buf.write (b + 16 * k) 8 re.toNat) (a := b + 16 * k + 8) (n := 8)
    (v := im.toNat) (b := b + 16 * k) (k := 8) (by omega)
  simp only [a1, Memory.read_write_same, e1]

/-- The check step either ends the command with the first failing check's error or starts the operation. -/
theorem checkStep_eq (plan : CheckPlan) (start : Progress) (s : State) (e : Engine) :
    (∃ c, plan.firstError s.params.bufBytes = some c ∧ checkStep plan start s e = .next (takeError c e s)) ∨
      (plan.firstError s.params.bufBytes = none ∧ checkStep plan start s e = .next (s.withEng (e.goto start))) := by
  unfold checkStep; cases plan.firstError s.params.bufBytes <;> simp

/-- Everything one transition of a command can be. -/
theorem command_cases (i : Instr) (check body : State → Engine → Out) (s : State) :
    (s.eng = none ∧ command i check body s = .next (issue (encode i) s)) ∨
    (∃ e, s.eng = some e ∧ e.cmd ≠ encode i ∧ command i check body s = .next (hostConflict s)) ∨
    (∃ e, s.eng = some e ∧ e.cmd = encode i ∧ e.progress = .check ∧ command i check body s = check s e) ∨
    (∃ e, s.eng = some e ∧ e.cmd = encode i ∧ e.progress ≠ .check ∧ e.abortReq = true ∧
      command i check body s = .next (takeError .aborted e s)) ∨
    (∃ e, s.eng = some e ∧ e.cmd = encode i ∧ e.progress ≠ .check ∧ e.abortReq = false ∧
      command i check body s = body s e) := by
  unfold command
  rcases hs : s.eng with _ | e
  · simp
  · by_cases hc : e.cmd = encode i
    · cases hp : e.progress <;> cases ha : e.abortReq <;> simp [hc, hp, ha]
    · simp [hc]

/-- A command in flight, past its check step, with no abort pending, takes its operation's next step. -/
theorem command_body {i : Instr} {check body : State → Engine → Out} {s : State} {e : Engine}
    (h : s.eng = some e) (hc : e.cmd = encode i) (hp : e.progress ≠ .check) (ha : e.abortReq = false) :
    command i check body s = body s e := by
  unfold command
  cases hq : e.progress <;> simp_all

/-- A command in flight whose check step is still to come takes it, whether or not an abort is pending. -/
theorem command_check {i : Instr} {check body : State → Engine → Out} {s : State} {e : Engine}
    (h : s.eng = some e) (hc : e.cmd = encode i) (hp : e.progress = .check) :
    command i check body s = check s e := by
  unfold command; simp [h, hc, hp]

/-- A pending abort is taken before any step after the check step. -/
theorem command_abort {i : Instr} {check body : State → Engine → Out} {s : State} {e : Engine}
    (h : s.eng = some e) (hc : e.cmd = encode i) (hp : e.progress ≠ .check) (ha : e.abortReq = true) :
    command i check body s = .next (takeError .aborted e s) := by
  unfold command
  cases hq : e.progress <;> simp_all

end Sys2Proof.Machine
end

