-- ==== Sys2Proof/Laws/Bus.lean ====
section
/-!
SUPPORT. What a turn can do: which turn a step takes, what a host read leaves, what a host write reaches.
-/
namespace Sys2Proof.Machine

/-- With a host transaction at the head of the agenda and the reset input deasserted, a step is that transaction. -/
theorem step_host {s : State} {a : Access} {rest : List Turn} (hr : s.resetAsserted = false)
    (ha : s.agenda = .host a :: rest) : step s = hostAccess a { s with agenda := rest } := by
  simp [step, transition, ha, takeTurn, hr]

/-- With an engine turn at the head of the agenda, or none at all, a step is the engine's. -/
theorem step_engineTurn {s : State} {rest : List Turn} (hr : s.resetAsserted = false)
    (ha : s.agenda = .engine :: rest ∨ (s.agenda = [] ∧ rest = [])) :
    step s = engineTurn { s with agenda := rest } := by
  rcases ha with ha | ⟨ha, rfl⟩
  · simp [step, transition, ha, takeTurn, hr]
  · obtain ⟨p, a, c, r, st, iq, cm, b, en, ra, ag, rs⟩ := s
    simp only at ha hr
    subst ha hr
    rfl

/-- The engine's turn with a legal word in flight is that word's meaning. -/
theorem engineTurn_legal {s : State} {e : Engine} {i : Instr} (he : s.eng = some e) (hd : decodeCmd e.cmd = .ok i) :
    engineTurn s = exec i s := by simp [engineTurn, he, hd]

/-- The engine's turn with an illegal word in flight ends it (60_exceptions.md R401). -/
theorem engineTurn_illegal {s : State} {e : Engine} {r : DecodeError} (he : s.eng = some e)
    (hd : decodeCmd e.cmd = .error r) : engineTurn s = .next (takeError .illegalCmd e s) := by
  simp [engineTurn, he, hd]

/-- Everything a host read can do: one response, and HOSTCONF for a BUF read while a command runs (20_memory.md R90, R92). -/
theorem hostRead_cases (o : BitVec 24) (w : Width) (s : State) :
    ∃ r, hostRead o w s = respond r s ∨ (s.busy = true ∧ hostRead o w s = respond r (hostConflict s)) := by
  unfold hostRead
  split
  · split
    · split
      · exact ⟨_, .inl rfl⟩
      · exact ⟨_, .inl rfl⟩
    · exact ⟨_, .inl rfl⟩
  · split
    · split
      · exact ⟨_, .inr ⟨‹_›, rfl⟩⟩
      · exact ⟨_, .inl rfl⟩
    · exact ⟨_, .inl rfl⟩
  · exact ⟨_, .inl rfl⟩

/-- A 32-bit write at a multiple of 4 below 0x1000 is a write of the register at that offset, or is ignored where the
offset is reserved (10_state.md R40, 20_memory.md R83). -/
theorem hostWrite_csr {o : Nat} (h4 : o % 4 = 0) (ho : o < 0x1000) (d : BitVec 64) (s : State) :
    hostWrite (BitVec.ofNat 24 o) .b4 d s =
      match Csr.ofOffset o with
      | some c => csrWrite (respond .writeOkay s) c (d.setWidth 32)
      | none => .next (respond .writeOkay s) := by
  have e1 : (BitVec.ofNat 24 o).toNat = o := by simp; omega
  have e2 : s.target (BitVec.ofNat 24 o) = .csr o := by simp only [State.target, e1, if_pos ho]
  simp only [hostWrite, e2, csrAccessOk, h4]
  rfl

/-- A 32-bit read at a multiple of 4 below 0x1000 gives the register at that offset, or 0 where the offset is reserved. -/
theorem hostRead_csr {o : Nat} (h4 : o % 4 = 0) (ho : o < 0x1000) (s : State) :
    hostRead (BitVec.ofNat 24 o) .b4 s =
      match Csr.ofOffset o with
      | some c => respond (.readOkay ((csrRead s c).setWidth 64)) s
      | none => respond (.readOkay 0) s := by
  have e1 : (BitVec.ofNat 24 o).toNat = o := by simp; omega
  have e2 : s.target (BitVec.ofNat 24 o) = .csr o := by simp only [State.target, e1, if_pos ho]
  simp only [hostRead, e2, csrAccessOk, h4]
  rfl

/-- The table of R79 is the CSR map with every register read. -/
theorem csrTable_eq (s : State) : csrTable s = csrMap.map fun p => (p.1, csrRead s p.2) := rfl

/-- Looking an offset up in a map and reading the register is looking the offset up in the map of the readings. -/
theorem lookup_map (s : State) (m : List (Nat × Csr)) (o : Nat) :
    (m.map fun p => (p.1, csrRead s p.2)).lookup o = (csrLookup m o).map (csrRead s) := by
  induction m with
  | nil => rfl
  | cons p m ih =>
    obtain ⟨k, c⟩ := p
    by_cases h : o = k
    · subst h; simp [csrLookup]
    · simp [csrLookup, List.lookup, beq_false_of_ne h, Ne.symm h, ih]

/-- What the host reads at an offset of the CSR space (10_state.md R40, R79). -/
theorem csrWord_eq (s : State) (o : Nat) : csrWord s o = ((Csr.ofOffset o).map (csrRead s)).getD 0 := by
  rw [csrWord, csrTable_eq, lookup_map]; rfl

/-- A 32-bit read at a multiple of 4 below 0x1000 is answered with the word of the table. -/
theorem hostRead_csrWord {o : Nat} (h4 : o % 4 = 0) (ho : o < 0x1000) (s : State) :
    hostRead (BitVec.ofNat 24 o) .b4 s = respond (.readOkay ((csrWord s o).setWidth 64)) s := by
  rw [hostRead_csr h4 ho, csrWord_eq]
  cases Csr.ofOffset o <;> rfl

/-- A window offset inside BUF reaches BUF. -/
theorem target_buf {s : State} {a : Nat} (h : s.params.bufBytes ≤ Config.maxBufBytes) (ha : a < s.params.bufBytes) :
    s.target (BitVec.ofNat 24 (0x100000 + a)) = .buf a := by
  simp only [Config.maxBufBytes] at h
  have e1 : (BitVec.ofNat 24 (0x100000 + a)).toNat = 0x100000 + a := by simp; omega
  simp only [State.target, e1]
  rw [if_neg (by omega), if_neg (by omega), if_pos (by omega)]
  simp

/-- Every assigned offset is its register's own: the map has no offset twice and no register twice (10_state.md R79). -/
theorem csrMap_distinct : (csrMap.map Prod.fst).Nodup ∧ (csrMap.map Prod.snd).Nodup := by decide

end Sys2Proof.Machine
end

