-- ==== Sys2Proof/Laws/Commands.lean ====
section
/-!
SUPPORT. For each command, the meaning of `exec` once it runs past its check step; what a passed check step gives its
accesses; and what the two completions leave.
-/
namespace Sys2Proof.Machine

/-! ### What a passed check step gives -/

/-- Every non-empty region of a checked command lies inside BUF (40_command.md R135). -/
theorem Checked.region_inside {i : Instr} {s : State} {e : Engine} (h : Checked i s e) {r : Region}
    (hr : r ∈ (planOf i e).regions) (hs : r.size ≠ 0) : r.base + r.size ≤ s.params.bufBytes := by
  unfold Checked CheckPlan.firstError at h
  split at h
  · simp at h
  split at h
  · simp at h
  split at h
  · simp at h
  rename_i h3
  simp only [List.any_eq_true, Region.outOfRange, Bool.and_eq_true, bne_iff_ne, ne_eq, decide_eq_true_eq, not_exists,
    not_and] at h3
  exact Nat.not_lt.1 (h3 r hr hs)

/-- A checked command's configuration is legal (40_command.md R132 check 2). -/
theorem Checked.argOk {i : Instr} {s : State} {e : Engine} (h : Checked i s e) : (planOf i e).badArg = false := by
  unfold Checked CheckPlan.firstError at h
  split at h
  · simp at h
  · exact Bool.not_eq_true _ ▸ ‹¬(planOf i e).badArg = true›

/-- The plan of a command depends on the captured registers only. -/
theorem planOf_congr (i : Instr) {e e' : Engine} (h1 : e'.args = e.args) (h2 : e'.cfg = e.cfg) :
    planOf i e' = planOf i e := by
  obtain ⟨c, a, cf, ab, w, p⟩ := e
  obtain ⟨c', a', cf', ab', w', p'⟩ := e'
  simp only at h1 h2
  subst h1 h2
  cases i <;> rfl

/-! ### Accesses inside BUF -/

theorem loadC_inside {s : State} {b k : Nat} (h : b + 16 * k + 16 ≤ s.params.bufBytes) :
    loadC s b k = some (sampleAt s.buf b k) := loadC_eq_some.2 ⟨h, rfl⟩

theorem storeC_inside {s : State} {b k : Nat} {z : Sample} (h : b + 16 * k + 16 ≤ s.params.bufBytes) :
    storeC s b k z = some { s with buf := putSample s.buf b k z } := storeC_eq_some.2 ⟨h, rfl⟩

theorem storeLog_inside {on : Bool} {s : State} {b k : Nat} {x : F64}
    (h : on = true → b + 8 * k + 8 ≤ s.params.bufBytes) :
    storeLog on s b k x = some { s with buf := putLog on s.buf b k x } := by
  cases on
  · rfl
  · exact storeLog_eq_some.2 (.inl ⟨rfl, h rfl, rfl⟩)

/-- A stored sample changes its 16 bytes only. -/
theorem putSample_outside (m : Memory) (b k : Nat) (z : Sample) (a : Nat)
    (h : a < b + 16 * k ∨ b + 16 * k + 16 ≤ a) : (putSample m b k z).readByte a = m.readByte a := by
  unfold putSample
  rw [Memory.readByte_write_outside _ _ _ _ _ (by omega), Memory.readByte_write_outside _ _ _ _ _ (by omega)]

/-- A stored log entry changes its 8 bytes only, and nothing where the log is off. -/
theorem putLog_outside (on : Bool) (m : Memory) (b k : Nat) (x : F64) (a : Nat)
    (h : a < b + 8 * k ∨ b + 8 * k + (if on then 8 else 0) ≤ a) : (putLog on m b k x).readByte a = m.readByte a := by
  cases on
  · rfl
  · simp only [putLog, putReal, if_true] at h ⊢
    exact Memory.readByte_write_outside _ _ _ _ _ (by omega)

/-! ### The two completions -/

/-- What `takeError` leaves is an error completion (60_exceptions.md R404). -/
theorem takeError_ends (c : ErrCode) (e : Engine) (s : State) : EndsInError c e.written s (takeError c e s) := by
  simp [EndsInError, SameHostSide, takeError, Status.failed]

/-- What `complete` leaves is a successful completion (40_command.md R139). -/
theorem complete_ends (f : ResultRegs → ResultRegs) (e : Engine) (s : State) :
    EndsWell (f s.results) e.written s (complete f e s) := by
  simp [EndsWell, SameHostSide, complete, Status.completed]

/-! ### A command past its check step -/

theorem exec_nop_running {s : State} {e : Engine} (h : RunningAt .nop s e .nop) :
    exec .nop s = .next (complete id e s) := by
  show execNop s = _
  unfold execNop
  rw [command_body h.1.1 h.1.2 (by rw [h.2.1]; simp) h.2.2, h.2.1]

theorem exec_trMm_running {s : State} {e : Engine} {l : TrLoop} (h : RunningAt .trMm s e (.trMm l)) :
    exec .trMm s =
      if l.running e.count then trMmIteration e l s else .next (complete (trMmResults l) e s) := by
  show execTrMm s = _
  unfold execTrMm
  rw [command_body h.1.1 h.1.2 (by rw [h.2.1]; simp) h.2.2, h.2.1]

theorem exec_costas_running {s : State} {e : Engine} {l : CoLoop} (h : RunningAt .costas s e (.costas l)) :
    exec .costas s = if l.i < e.count then costasIteration e l s else .next (complete (costasResults l) e s) := by
  show execCostas s = _
  unfold execCostas
  rw [command_body h.1.1 h.1.2 (by rw [h.2.1]; simp) h.2.2, h.2.1]

theorem exec_iqcorr_running {s : State} {e : Engine} {l : IqLoop} (h : RunningAt .iqcorr s e (.iqcorr l)) :
    exec .iqcorr s =
      match l.stage with
      | .empty => .next (complete id e s)
      | .estimate => if l.k < e.count then iqEstimateIteration e l s else iqEstimate e l s
      | .correct => if l.k < e.count then iqCorrectIteration e l s else .next (complete (iqcorrResults l) e s) := by
  show execIqcorr s = _
  unfold execIqcorr
  rw [command_body h.1.1 h.1.2 (by rw [h.2.1]; simp) h.2.2, h.2.1] <;> rfl

theorem exec_fsync_running {s : State} {e : Engine} {l : FsLoop} (h : RunningAt .fsync s e (.fsync l)) :
    exec .fsync s = fsyncStep e l s := by
  show execFsync s = _
  unfold execFsync
  rw [command_body h.1.1 h.1.2 (by rw [h.2.1]; simp) h.2.2, h.2.1]

theorem exec_demap_running {sch : Scheme} {s : State} {e : Engine} {l : DmLoop}
    (h : RunningAt sch.instr s e (.demap l)) :
    exec sch.instr s = if l.i < e.count then demapIteration sch e l s else .next (complete id e s) := by
  have he : exec sch.instr s = demap sch.instr sch s := by cases sch <;> rfl
  rw [he]
  unfold demap
  rw [command_body h.1.1 h.1.2 (by rw [h.2.1]; simp) h.2.2, h.2.1]

theorem exec_crcchk_running {s : State} {e : Engine} {l : CrcLoop} (h : RunningAt .crcchk s e (.crc l)) :
    exec .crcchk s =
      match l.stage with
      | .divide => if l.i < e.count then crcFeedBit e l s else crcTakeRemainder e l s
      | .output => .next (complete (crcchkResults l) e s) := by
  show execCrcchk s = _
  unfold execCrcchk
  rw [command_body h.1.1 h.1.2 (by rw [h.2.1]; simp) h.2.2, h.2.1] <;> rfl

theorem exec_crcenc_running {s : State} {e : Engine} {l : CrcLoop} (h : RunningAt .crcenc s e (.crc l)) :
    exec .crcenc s =
      match l.stage with
      | .divide => crcencDivide e l s
      | .output => crcencOutput e l s := by
  show execCrcenc s = _
  unfold execCrcenc
  rw [command_body h.1.1 h.1.2 (by rw [h.2.1]; simp) h.2.2, h.2.1] <;> rfl

/-- Every command's meaning is the shared frame over its own plan and start. -/
theorem exec_eq_command {i : Instr} (hi : i.port = .cmd) :
    ∃ body, ∀ s, exec i s = command i (fun s e => checkStep (planOf i e) (startOf i e) s e) body s := by
  cases i <;> first | (cases hi; done) | exact ⟨_, fun _ => rfl⟩

end Sys2Proof.Machine
end

