-- ==== Sys2Proof/Laws/Float.lean ====
section
/-!
SUPPORT. Lemmas about binary64 values: the value of a magnitude field and its order, what `roundMag` does at and around a
representable value, and the fields of a packed result.
-/
namespace Sys2Proof.F64

/-- The value, in units of 2^-1074, of the low 63 bits `b`. -/
def magVal (b : Nat) : Nat := if b / 2 ^ 52 = 0 then b % 2 ^ 52 else (2 ^ 52 + b % 2 ^ 52) <<< (b / 2 ^ 52 - 1)

theorem mag1074_eq (x : F64) : mag1074 x = magVal (magBits x) := rfl

/-- An exponent and a significand in range, packed as `roundMag` packs them, have the value they say. -/
theorem magVal_pack {e m : Nat} (hm : m ≤ 2 ^ 53) (h : e = 0 ∨ 2 ^ 52 ≤ m) : magVal (e * 2 ^ 52 + m) = m * 2 ^ e := by
  unfold magVal
  by_cases h1 : m < 2 ^ 52
  · have he : e = 0 := by omega
    subst he
    rw [if_pos (by omega)]; simp; omega
  · by_cases h2 : m < 2 ^ 53
    · have a1 : (e * 2 ^ 52 + m) / 2 ^ 52 = e + 1 := by omega
      have a2 : (e * 2 ^ 52 + m) % 2 ^ 52 = m - 2 ^ 52 := by omega
      rw [a1, a2, if_neg (by omega), Nat.shiftLeft_eq, show 2 ^ 52 + (m - 2 ^ 52) = m by omega, show e + 1 - 1 = e by omega]
    · have a0 : m = 2 ^ 53 := by omega
      have a1 : (e * 2 ^ 52 + m) / 2 ^ 52 = e + 2 := by omega
      have a2 : (e * 2 ^ 52 + m) % 2 ^ 52 = 0 := by omega
      rw [a1, a2, if_neg (by omega), Nat.shiftLeft_eq, a0]
      rw [show e + 2 - 1 = e + 1 by omega, Nat.pow_succ]; ring

/-- Every `b` is an exponent and a significand below 2^53. -/
theorem magVal_split (b : Nat) : ∃ e m, b = e * 2 ^ 52 + m ∧ m < 2 ^ 53 ∧ (e = 0 ∨ 2 ^ 52 ≤ m) := by
  by_cases h : b < 2 ^ 53
  · exact ⟨0, b, by omega, h, .inl rfl⟩
  · exact ⟨b / 2 ^ 52 - 1, b - (b / 2 ^ 52 - 1) * 2 ^ 52, by omega, by omega, .inr (by omega)⟩

theorem magVal_lt_succ (b : Nat) : magVal b < magVal (b + 1) := by
  obtain ⟨e, m, rfl, hm, h⟩ := magVal_split b
  rw [Nat.add_assoc, magVal_pack (by omega) h, magVal_pack (by omega) (by omega)]
  exact Nat.mul_lt_mul_of_pos_right (by omega) (by positivity)

theorem magVal_strictMono : StrictMono magVal := strictMono_nat_of_lt_succ magVal_lt_succ

theorem magVal_lt_iff {a b : Nat} : magVal a < magVal b ↔ a < b := magVal_strictMono.lt_iff_lt
theorem magVal_le_iff {a b : Nat} : magVal a ≤ magVal b ↔ a ≤ b := magVal_strictMono.le_iff_le
theorem magVal_inj {a b : Nat} : magVal a = magVal b ↔ a = b := magVal_strictMono.injective.eq_iff

@[simp] theorem magVal_zero : magVal 0 = 0 := rfl

theorem ite_lt_eq_min (b top : Nat) : (if b < top then b else top) = min b top := by split <;> omega

/-- What `roundMag` works with: the representable value at or below `n / d`, the next one, and which is nearer. -/
theorem roundMag_bracket (n d : Nat) (hd : 0 < d) :
    ∃ b, d * magVal b ≤ n ∧ n < d * magVal (b + 1) ∧
      ((roundMag n d = min b infMagBits ∧
          (2 * n < d * (magVal b + magVal (b + 1)) ∨
            2 * n = d * (magVal b + magVal (b + 1)) ∧ b % 2 = 0)) ∨
       (roundMag n d = min (b + 1) infMagBits ∧
          (d * (magVal b + magVal (b + 1)) < 2 * n ∨
            2 * n = d * (magVal b + magVal (b + 1)) ∧ b % 2 = 1))) := by
  obtain ⟨e, he⟩ : ∃ e, e = Nat.log2 (n / d) - 52 := ⟨_, rfl⟩
  obtain ⟨m, hm⟩ : ∃ m, m = n / (d <<< e) := ⟨_, rfl⟩
  obtain ⟨r, hr⟩ : ∃ r, r = n % (d <<< e) := ⟨_, rfl⟩
  have hw : d <<< e = d * 2 ^ e := Nat.shiftLeft_eq d e
  have hwpos : 0 < d * 2 ^ e := by positivity
  have hmq : m = n / d / 2 ^ e := by rw [hm, hw, Nat.div_div_eq_div_mul]
  have hsum : n = d * 2 ^ e * m + r := by
    have := Nat.div_add_mod n (d <<< e)
    rw [hw] at this
    rw [hm, hr, hw]; omega
  have hrlt : r < d * 2 ^ e := by rw [hr, hw]; exact Nat.mod_lt _ hwpos
  have hmlt : m < 2 ^ 53 := by
    rw [hmq]
    apply Nat.div_lt_of_lt_mul
    by_cases h0 : n / d = 0
    · rw [h0]; positivity
    · have h1 := Nat.lt_log2_self (n := n / d)
      have h2 : 2 ^ (Nat.log2 (n / d) + 1) ≤ 2 ^ e * 2 ^ 53 := by
        rw [← Nat.pow_add]; exact Nat.pow_le_pow_right (by norm_num) (by omega)
      omega
  have hme : e = 0 ∨ 2 ^ 52 ≤ m := by
    by_cases h : e = 0
    · exact .inl h
    · right
      rw [hmq, Nat.le_div_iff_mul_le (by positivity)]
      have h0 : n / d ≠ 0 := by
        intro h0
        rw [h0] at he
        have : Nat.log2 0 = 0 := by decide
        omega
      have h1 := Nat.log2_self_le h0
      have h2 : 2 ^ 52 * 2 ^ e = 2 ^ Nat.log2 (n / d) := by
        rw [← Nat.pow_add]; congr 1; omega
      omega
  have v0 : magVal (e * 2 ^ 52 + m) = m * 2 ^ e := magVal_pack (by omega) hme
  have v1 : magVal (e * 2 ^ 52 + m + 1) = (m + 1) * 2 ^ e := by
    rw [Nat.add_assoc]; exact magVal_pack (by omega) (by omega)
  have hround : roundMag n d = min (e * 2 ^ 52 + if (d * 2 ^ e < 2 * r ∨ (d * 2 ^ e = 2 * r ∧ m % 2 = 1)) then m + 1 else m) infMagBits := by
    unfold roundMag
    simp only [← he, ← hm, ← hr, ← hw]
    simp only [Bool.or_eq_true, Bool.and_eq_true, decide_eq_true_eq, beq_iff_eq]
    exact ite_lt_eq_min _ _
  have hpar : (e * 2 ^ 52 + m) % 2 = m % 2 := by omega
  have hD : d * (m * 2 ^ e) = d * 2 ^ e * m := by ring
  have hD1 : d * ((m + 1) * 2 ^ e) = d * 2 ^ e * m + d * 2 ^ e := by ring
  refine ⟨e * 2 ^ 52 + m, ?_, ?_, ?_⟩
  · rw [v0, hD]; omega
  · rw [v1, hD1]; omega
  · rw [v0, v1, Nat.mul_add, hD, hD1, hround, hpar]
    by_cases hup : d * 2 ^ e < 2 * r ∨ (d * 2 ^ e = 2 * r ∧ m % 2 = 1)
    · right; rw [if_pos hup]; exact ⟨by rw [Nat.add_assoc], by omega⟩
    · left; rw [if_neg hup]; exact ⟨rfl, by omega⟩

/-- Rounding does not pass a representable value from below. -/
theorem roundMag_le {n d c : Nat} (hd : 0 < d) (h : n ≤ d * magVal c) : roundMag n d ≤ c := by
  obtain ⟨b, h1, h2, h3⟩ := roundMag_bracket n d hd
  have hbc : b ≤ c := by
    rw [← magVal_le_iff]
    exact Nat.le_of_mul_le_mul_left (Nat.le_trans h1 h) hd
  rcases h3 with ⟨h3, -⟩ | ⟨h3, h4⟩
  · omega
  · by_cases hc : b = c
    · subst hc
      have := magVal_lt_succ b
      have hlt : d * magVal b < d * magVal (b + 1) := Nat.mul_lt_mul_of_pos_left this hd
      rw [Nat.mul_add] at h4
      omega
    · omega

/-- Rounding does not pass a representable value from above. -/
theorem le_roundMag {n d c : Nat} (hd : 0 < d) (hc : c ≤ infMagBits) (h : d * magVal c ≤ n) : c ≤ roundMag n d := by
  obtain ⟨b, h1, h2, h3⟩ := roundMag_bracket n d hd
  have hbc : c ≤ b := by
    have : magVal c < magVal (b + 1) := Nat.lt_of_mul_lt_mul_left (Nat.lt_of_le_of_lt h h2)
    have := magVal_lt_iff.1 this
    omega
  rcases h3 with ⟨h3, -⟩ | ⟨h3, -⟩ <;> omega

/-- A representable value is not changed by rounding. -/
theorem roundMag_exact {d c : Nat} (hd : 0 < d) (hc : c ≤ infMagBits) : roundMag (d * magVal c) d = c :=
  Nat.le_antisymm (roundMag_le hd (Nat.le_refl _)) (le_roundMag hd hc (Nat.le_refl _))

theorem roundMag_le_inf (n d : Nat) : roundMag n d ≤ infMagBits := by
  unfold roundMag
  dsimp only
  generalize (Nat.log2 (n / d) - 52) * 2 ^ 52 + _ = b
  split
  · rename_i h; exact Nat.le_of_lt h
  · exact Nat.le_refl _

/-! ### Fields of a packed value -/

theorem infMagBits_lt : infMagBits < 2 ^ 63 := by decide

@[simp] theorem magBits_pack (s : Bool) {b : Nat} (h : b < 2 ^ 63) : magBits (pack s b) = b := by
  cases s <;> simp [magBits, pack] <;> omega

theorem sign_eq (x : F64) : sign x = decide (2 ^ 63 ≤ x.toNat) := by
  have hx := x.isLt
  unfold sign BitVec.getLsbD
  rw [Nat.testBit_eq_decide_div_mod_eq]
  congr 1
  apply propext
  omega

@[simp] theorem sign_pack (s : Bool) {b : Nat} (h : b < 2 ^ 63) : sign (pack s b) = s := by
  rw [sign_eq]
  cases s
  · simp only [pack, Bool.false_eq_true, if_false, BitVec.toNat_ofNat, decide_eq_false_iff_not]; omega
  · simp only [pack, if_true, BitVec.toNat_ofNat, decide_eq_true_eq]; omega

/-- A binary64 is its sign and its magnitude field. -/
theorem pack_sign_magBits (x : F64) : pack (sign x) (magBits x) = x := by
  have hx := x.isLt
  apply BitVec.eq_of_toNat_eq
  rw [sign_eq]
  unfold pack magBits
  by_cases h : 2 ^ 63 ≤ x.toNat
  · simp only [h, decide_true, if_true, BitVec.toNat_ofNat]; omega
  · simp only [h, decide_false, Bool.false_eq_true, if_false, BitVec.toNat_ofNat]; omega

theorem magBits_lt (x : F64) : magBits x < 2 ^ 63 := Nat.mod_lt _ (by norm_num)

theorem isFinite_iff (x : F64) : isFinite x = true ↔ magBits x < infMagBits := by
  have := magBits_lt x
  have hi : infMagBits = 2047 * 2 ^ 52 := by decide
  simp only [isFinite, expField, bne_iff_ne, ne_eq]
  omega

theorem isNaN_iff (x : F64) : isNaN x = true ↔ infMagBits < magBits x := by
  have := magBits_lt x
  have hi : infMagBits = 2047 * 2 ^ 52 := by decide
  simp only [isNaN, expField, fracField, Bool.and_eq_true, beq_iff_eq, bne_iff_ne, ne_eq]
  omega

theorem isInf_iff (x : F64) : isInf x = true ↔ magBits x = infMagBits := by
  have := magBits_lt x
  have hi : infMagBits = 2047 * 2 ^ 52 := by decide
  simp only [isInf, expField, fracField, Bool.and_eq_true, beq_iff_eq]
  omega

theorem not_isNaN_of_isFinite {x : F64} (h : isFinite x = true) : isNaN x = false := by
  rw [isFinite_iff] at h
  rw [← Bool.not_eq_true, isNaN_iff]; omega

theorem not_isInf_of_isFinite {x : F64} (h : isFinite x = true) : isInf x = false := by
  rw [isFinite_iff] at h
  rw [← Bool.not_eq_true, isInf_iff]; omega

theorem natAbs_toInt (x : F64) : (toInt x).natAbs = magVal (magBits x) := by
  unfold toInt; rw [mag1074_eq]; split <;> simp

/-- On finite values the order of `orderKey` is the order of the values. -/
theorem orderKey_le_iff (x y : F64) : orderKey x ≤ orderKey y ↔ toInt x ≤ toInt y := by
  have h : ∀ a b : Nat, a ≤ b ↔ magVal a ≤ magVal b := fun a b => magVal_le_iff.symm
  have z : ∀ a : Nat, a = 0 ↔ magVal a = 0 := fun a => (magVal_inj (a := a) (b := 0)).symm
  unfold orderKey toInt
  rw [mag1074_eq, mag1074_eq]
  have h1 := h (magBits x) (magBits y)
  have h2 := h (magBits y) (magBits x)
  have z1 := z (magBits x)
  have z2 := z (magBits y)
  split <;> split <;> omega

theorem orderKey_lt_iff (x y : F64) : orderKey x < orderKey y ↔ toInt x < toInt y := by
  rw [← not_le, ← not_le, orderKey_le_iff]

end Sys2Proof.F64
end

