-- ==== Sys2Proof/Laws/PerInstr.lean ====
section
/-!
SUPPORT. Statements made per instruction. `LegalWord`: the word the encoder gives an instruction satisfies the field rules of
the port it is written to.
-/
namespace Sys2Proof.Laws.LegalWord

/-- A command word passes the checks of 30_encoding.md R110 to R112; a CTRL value sets one of bits 1:0 and no reserved bit
(10_state.md R34). -/
def Statement (i : Instr) : Prop :=
  if i.port = .cmd then legalCommandWord (encode i) = true
  else encode i &&& 0xFFFFFFFC = 0 ∧ encode i ≠ 0

theorem nop : Statement .nop := by unfold Statement; decide
theorem trMm : Statement .trMm := by unfold Statement; decide
theorem costas : Statement .costas := by unfold Statement; decide
theorem iqcorr : Statement .iqcorr := by unfold Statement; decide
theorem fsync : Statement .fsync := by unfold Statement; decide
theorem demapOok : Statement .demapOok := by unfold Statement; decide
theorem demapBpsk : Statement .demapBpsk := by unfold Statement; decide
theorem demapQpsk : Statement .demapQpsk := by unfold Statement; decide
theorem demapQam16 : Statement .demapQam16 := by unfold Statement; decide
theorem crcchk : Statement .crcchk := by unfold Statement; decide
theorem crcenc : Statement .crcenc := by unfold Statement; decide
theorem srst : Statement .srst := by unfold Statement; decide
theorem abort : Statement .abort := by unfold Statement; decide

end Sys2Proof.Laws.LegalWord
end

