-- ==== Sys2Proof/Tests/Slice0.lean ====
section
/-!
SUPPORT. The model's own tests: what WellFormed refuses, the decoding of words written out from the encoding tables, one or two
steps of every instruction on a small state (expected values from spec/95_test_vectors.md and the rules' examples), and for
every statement with hypotheses a concrete state and operands that meet them.
-/
namespace Sys2Proof.Tests
open Sys2Proof Sys2Proof.Machine

/-! ### Helpers -/

/-- The next state of an outcome satisfies `f`. -/
def goesOn (o : Out) (f : State → Bool) : Bool :=
  match o with
  | .next t => f t
  | .fault _ => false
  | .refused _ => false

/-- A0 to A4, the rest 0. -/
def ops (a0 a1 a2 a3 a4 : Word) : Args := ⟨a0, a1, a2, a3, a4, 0, 0, 0⟩

/-- BUF with the samples stored from an offset on. -/
def bufOf : Nat → List Sample → Memory
  | _, [] => []
  | o, z :: zs => putSample (bufOf (o + 16) zs) o 0 z

/-- BUF with the bytes stored from an offset on. -/
def bytesOf : Nat → List Byte → Memory
  | _, [] => []
  | o, b :: bs => (bytesOf (o + 1) bs).writeByte o b

/-- The engine record of an instruction in flight. -/
def eng (i : Instr) (a : Args) (c : ConfigRegs) (w : Nat) (p : Progress) : Engine := ⟨encode i, a, c, false, w, p⟩

/-- The state with an instruction in flight and nothing on the agenda. -/
def busyAt (i : Instr) (a : Args) (c : ConfigRegs) (m : Memory) (w : Nat) (p : Progress) : State :=
  { State.reset with args := a, cfg := c, cmd := encode i, buf := m, eng := some (eng i a c w p) }

/-- The state after reset with turns to come. -/
def idleWith (ts : List Turn) : State := { State.reset with agenda := ts }

/-- A NOP in flight, its check step done, and turns to come. -/
def busyWith (ts : List Turn) : State :=
  { busyAt .nop Args.reset ConfigRegs.reset [] 0 .nop with agenda := ts }

def one : F64 := F64.one
def minusOne : F64 := 0xBFF0000000000000
def half : F64 := 0x3FE0000000000000
def quietNaN : F64 := 0x7FF8000000000000

/-- Samples with imaginary part +0.0. -/
def reals (l : List F64) : List Sample := l.map fun x => ⟨x, 0⟩

/-! ### WellFormed: an ill-formed term for each check -/

theorem test_rsvdOk_refuses : rsvdOk 0x00001000 = false ∧ rsvdOk 0x80000002 = false := by decide
theorem test_opcodeOk_refuses : opcodeOk 0x00000008 = false ∧ opcodeOk 0x000000FF = false := by decide
theorem test_subOk_refuses : subOk 0x00000101 = false ∧ subOk 0x00000405 = false ∧ subOk 0x00000F05 = false := by decide
theorem test_legalCommandWord : legalCommandWord 0x00000305 = true ∧ legalCommandWord 0x00000405 = false := by decide
theorem test_aligned_refuses : Access.aligned (.read 0x100004 .b8) = false ∧ Access.aligned (.write 0x000002 .b4 0) = false := by
  decide
theorem test_bufMultiple_refuses : Params.wf ⟨0x100008, 1⟩ = false ∧ Params.bufMultiple ⟨0x100008, 1⟩ = false := by decide
theorem test_bufFits_refuses : Params.bufFits ⟨0x00F00010, 1⟩ = false := by decide
theorem test_wrapPositive_refuses : Params.wrapPositive ⟨0x100000, 0⟩ = false := by decide

/-! ### Decoding: words written out bit by bit, RSVD then SUB then OPCODE (30_encoding.md R110 to R112; EN-1 to EN-18) -/

theorem test_decode_nop : decodeCmd 0b00000000000000000000_0000_00000000 = .ok .nop := by decide
theorem test_decode_tr_mm : decodeCmd 0b00000000000000000000_0000_00000001 = .ok .trMm := by decide
theorem test_decode_costas : decodeCmd 0b00000000000000000000_0000_00000010 = .ok .costas := by decide
theorem test_decode_iqcorr : decodeCmd 0b00000000000000000000_0000_00000011 = .ok .iqcorr := by decide
theorem test_decode_fsync : decodeCmd 0b00000000000000000000_0000_00000100 = .ok .fsync := by decide
theorem test_decode_demap_ook : decodeCmd 0b00000000000000000000_0000_00000101 = .ok .demapOok := by decide
theorem test_decode_demap_bpsk : decodeCmd 0b00000000000000000000_0001_00000101 = .ok .demapBpsk := by decide
theorem test_decode_demap_qpsk : decodeCmd 0b00000000000000000000_0010_00000101 = .ok .demapQpsk := by decide
theorem test_decode_demap_qam16 : decodeCmd 0b00000000000000000000_0011_00000101 = .ok .demapQam16 := by decide
theorem test_decode_crcchk : decodeCmd 0b00000000000000000000_0000_00000110 = .ok .crcchk := by decide
theorem test_decode_crcenc : decodeCmd 0b00000000000000000000_0000_00000111 = .ok .crcenc := by decide
theorem test_decode_srst : decodeCtrl 0x00000001 = .ok .srst ∧ decodeCtrl 0x00000003 = .ok .srst := by decide
theorem test_decode_abort : decodeCtrl 0x00000002 = .ok .abort ∧ decodeCtrl 0x00000006 = .ok .abort := by decide

/-- EN-5 to EN-11 and EN-18: words and values that name no operation, each refused by name. -/
theorem test_decode_refused :
    decodeCmd 0x00000405 = .error .schemeReserved ∧ decodeCmd 0x00000F05 = .error .schemeReserved ∧
      decodeCmd 0x00000101 = .error .subNotZero ∧ decodeCmd 0x00000008 = .error .gardnerSlot ∧
      decodeCmd 0x000000FF = .error .opcodeReserved ∧ decodeCmd 0x00001000 = .error .rsvdNotZero ∧
      decodeCmd 0x80000002 = .error .rsvdNotZero ∧ decodeCtrl 0x00000004 = .error .noCtrlOperation := by decide

/-- The bytes of a word come least significant first, and too few bytes are refused. -/
theorem test_decode_bytes : decode .cmd [0x05, 0x01, 0x00, 0x00, 0xAA] = .ok (.demapBpsk, [0xAA]) ∧
    decode .cmd [0x05, 0x01, 0x00] = .error .tooShort := by decide

/-- The rows of the opcode table: 32 bits go to CMD, fewer to CTRL. -/
theorem test_decode_table : decodeTableWord 32 0x00000001 = some .trMm ∧ decodeTableWord 8 0x01 = some .srst ∧
    decodeTableWord 8 0x02 = some .abort ∧ decodeTableWord 32 0x100000000 = none := by decide

/-! ### Arithmetic (00_scope.md R11 to R17; values of 95_test_vectors.md sections 1 and 4 to 6) -/

/-- R19: 0.7 from TR-2, `1 - 1e-20` from TR-6, the log entry of CO-2, the square root of 2 from IQ-1. -/
theorem test_float : F64.sub 0x401ECCCCCCCCCCCD 0x401C000000000000 = 0x3FE6666666666668 ∧
    F64.add one 0xBBC79CA10C924223 = one ∧
    F64.div (F64.mul 0x8000000000000001 0x41E2410110000000) F64.twoPi = 0x80000000173DDA8B ∧
    F64.sqrt 0x4000000000000000 = 0x3FF6A09E667F3BCD := by decide +kernel

/-- CO-7 and CO-2: four additions of TWO_PI, and the one that rounds to TWO_PI. -/
theorem test_wrap : wrapPhase 8 0xC034000000000000 = some 0x401487ED5110B460 ∧
    wrapPhase 8 0x8000000000000001 = some F64.twoPi := by decide +kernel

/-! ### One step of every instruction -/

/-- EN-1: a NOP's completion leaves STATUS = 0x00000002 and OUT_LEN = 0. -/
theorem test_nop : goesOn (exec .nop (busyWith [])) (fun t => t.statusWord == 0x00000002 && t.results.outLen == 0) = true := by
  decide

/-- The loop state before iteration 2 of TR-2: the first output was (1, 0). -/
def tr2 : TrLoop := ⟨0, 8, 3, ⟨one, 0⟩, Sample.zero, ⟨one, 0⟩, Sample.zero⟩

/-- TR_MM of TR-2 with N = 40, X[0] = 1 and X[128] = -1. -/
def tr2State : State :=
  busyAt .trMm (ops 0 0x3000 40 0 0) ConfigRegs.reset (bufOf 2048 (reals [minusOne])) 1 (.trMm tr2)

/-- TR-2, iteration 2: j = 128, e = -1.0, mu = 0.7000000000000002, i_in = 15. -/
theorem test_tr_mm : goesOn (exec .trMm tr2State) (fun t => match t.eng with
    | some ⟨_, _, _, _, 2, .trMm l⟩ => l.mu == 0x3FE6666666666668 && l.iIn == 15 && l.iOut == 4 &&
        sampleAt t.buf 0x3000 1 == ⟨minusOne, 0⟩
    | _ => false) = true := by decide +kernel

/-- TR_MM of TR-5: X[0] = (+inf, 0). -/
def tr5State : State :=
  busyAt .trMm (ops 0 0x3000 40 0 0) ConfigRegs.reset (bufOf 0 (reals [0x7FF0000000000000])) 0 (.trMm TrLoop.initial)

/-- TR-5: the output is written, then TR_NONFINITE: STATUS = 0x00001106, OUT_LEN = 1. -/
theorem test_tr_mm_nonfinite : goesOn (exec .trMm tr5State) (fun t => t.statusWord == 0x00001106 &&
    t.results.outLen == 1 && sampleAt t.buf 0x3000 0 == ⟨0x7FF0000000000000, 0⟩) = true := by decide +kernel

/-- COSTAS with N = 1 before its only sample. -/
def coState (z : Sample) : State :=
  busyAt .costas (ops 0 0x100 1 0x200 0) ConfigRegs.reset (bufOf 0 [z]) 0 (.costas (CoLoop.initial ConfigRegs.reset))

/-- COSTAS on a NaN sample, whatever COS and SIN are: the canonical NaN is stored, then CO_NONFINITE (42_costas.md R199). -/
theorem test_costas_nonfinite : goesOn (exec .costas (coState ⟨quietNaN, 0⟩)) (fun t => t.statusWord == 0x00002006 &&
    t.results.outLen == 1 && (sampleAt t.buf 0x100 0).re == quietNaN) = true := by decide +kernel

/-- CO-9: N = 0 completes with CO_PHASE = CO_PHASE0 and CO_FREQ = CO_FREQ0. -/
theorem test_costas_empty : goesOn (exec .costas (busyAt .costas (ops 0 0 0 0 0)
      { ConfigRegs.reset with coPhase0 := one, coFreq0 := half } [] 0 (.costas ⟨one, half, 0⟩)))
    (fun t => t.statusWord == 0x00000002 && t.results.coPhase == one && t.results.coFreq == half && t.results.outLen == 0)
    = true := by decide

/-- Log 27: with CO_FS a NaN, or infinite with a frequency of 0, the log entry is the canonical NaN while the frequency is finite
(42_costas.md R197, R199). -/
theorem test_costas_log_nan : coLogEntry { ConfigRegs.reset with coFs := quietNaN } half = quietNaN ∧
    coLogEntry { ConfigRegs.reset with coFs := 0x7FF0000000000000 } 0 = quietNaN := by decide +kernel

/-- IQCORR in pass 2 at sample 0 of IQ-1, with its estimates. -/
def iq1State : State :=
  busyAt .iqcorr (ops 0 0x100 4 0 3) ConfigRegs.reset (bufOf 0 [⟨one, half⟩]) 0
    (.iqcorr ⟨.correct, 0, List.replicate 4 Sample.zero, 0, 0, 0x3FF6A09E667F3BCD, 0x3FDB27247AFF148E, 0x3FECFA2BE7C326A0,
      0xBFD533EE2CB441B7, 0x3FF1AB467A9636C5⟩)

/-- IQ-1, output 0. -/
theorem test_iqcorr : goesOn (exec .iqcorr iq1State) (fun t => sampleAt t.buf 0x100 0 ==
    ⟨0x3FE6A09E667F3BCC, 0x3FCC453D90F057A6⟩) = true := by decide +kernel

/-- IQCORR's loop after its pass 1 with N = 4, for given sums of I'I' and I'Q'. -/
def iqSums (s2 sIQ : F64) : IqLoop := ⟨.estimate, 4, List.replicate 4 Sample.zero, s2, sIQ, 0, 0, 0, 0, 0⟩
def iqEstimateState (s2 sIQ : F64) : State :=
  busyAt .iqcorr (ops 0 0x100 4 0 3) ConfigRegs.reset [] 0 (.iqcorr (iqSums s2 sIQ))

/-- As in IQ-4, a sum of I'Q' twice the sum of I'I' = 4 gives sin_psi > 1: IQ_RANGE, STATUS = 0x00003006. -/
theorem test_iqcorr_range : goesOn (exec .iqcorr (iqEstimateState 0x4010000000000000 0x4020000000000000))
    (fun t => t.statusWord == 0x00003006 && t.results.outLen == 0) = true := by decide +kernel

/-- Log 28: three times (0.1, 0) with P = 1: the rounded mean at k = 1 is one ulp above 0.1, so I'[1] = -2^-56 by R223 and R224. -/
theorem test_iqcorr_constant : biasRemoved { State.reset with buf := bufOf 0 (reals (List.replicate 3 0x3FB999999999999A)) } 0 3 1 1 =
    some ⟨0xBC70000000000000, 0⟩ := by decide +kernel

/-- FSYNC of FS-0 (pre = [1, 0], M = 1, N = 3) with v = [1, 0, 1] at its lag loop. -/
def fs0Cfg : ConfigRegs := { ConfigRegs.reset with preLo := 0x00000001, preCfg := 0x00000002 }
def fs0Loop (st : FsStage) (i idx : Nat) (c : List F64) : FsLoop :=
  ⟨st, i, 0x4008000000000000, one, 0x4000000000000000, [one, 0, one], c, idx, if idx = 0 then 0 else one, 0, 0, false, 0⟩
def fs0State (st : FsStage) (i idx : Nat) (c : List F64) : State :=
  busyAt .fsync (ops 0 0x1000 3 0x2000 1) fs0Cfg (bufOf 0 (reals [one, minusOne, one])) 0 (.fsync (fs0Loop st i idx c))

/-- FS-0, lag 1: c[1] = 1. -/
theorem test_fsync_lag : goesOn (exec .fsync (fs0State .lags 1 0 [0])) (fun t => match t.eng with
    | some ⟨_, _, _, _, _, .fsync l⟩ => l.c == [0, one] && l.i == 2
    | _ => false) = true := by decide +kernel

/-- FS-0, the window of the peak at lag 1: start = 0, F = 3, SHORT = 0. -/
theorem test_fsync_window : goesOn (exec .fsync (fs0State .scan 4 1 [0, one, 0, one])) (fun t => match t.eng with
    | some ⟨_, _, _, _, _, .fsync l⟩ => l.start == 0 && l.full == 3 && l.short == false && l.stage == .copyFull
    | _ => false) = true := by decide

/-- DEMAP with N = 1 before its only symbol. -/
def dmState (sch : Scheme) (z : Sample) : State :=
  busyAt sch.instr (ops 0 0x100 1 0 0) ConfigRegs.reset (bufOf 0 [z]) 0 (.demap ⟨0⟩)

/-- The bytes a one-symbol DEMAP stores at 0x100. -/
def dmBits (sch : Scheme) (z : Sample) (bits : List Byte) : Bool :=
  goesOn (exec sch.instr (dmState sch z)) fun t => (List.range bits.length).map (fun k => t.buf.readByte (0x100 + k)) == bits

/-- DM-1: (0.9, 0.3) is 1, the tie (0.5, 0) is 0. -/
theorem test_demap_ook : dmBits .ook ⟨0x3FECCCCCCCCCCCCD, 0x3FD3333333333333⟩ [1] = true ∧ dmBits .ook ⟨half, 0⟩ [0] = true := by
  decide +kernel

/-- DM-2: (1, 0) is 1, the tie (0, 1) is 0. -/
theorem test_demap_bpsk : dmBits .bpsk ⟨one, 0⟩ [1] = true ∧ dmBits .bpsk ⟨0, one⟩ [0] = true := by decide +kernel

/-- DM-3: (0.8, -0.9) is 0 1. -/
theorem test_demap_qpsk : dmBits .qpsk ⟨0x3FE999999999999A, 0xBFECCCCCCCCCCCCD⟩ [0, 1] = true := by decide +kernel

/-- DM-4: (3.2, -2.9) is 0010. -/
theorem test_demap_qam16 : dmBits .qam16 ⟨0x400999999999999A, 0xC007333333333333⟩ [0, 0, 1, 0] = true := by decide +kernel

/-- The key of CRC-1: 1 0 1 1. -/
def crcCfg1 : ConfigRegs := { ConfigRegs.reset with crcKey := 0x0000000B, crcCfg := 0x00000004 }
def crc1Data : List Bool := [true, true, false, true, false, false, true, true, true, false, true, true, false, false]

/-- CRC-1, CRC-2, CRC-9 and CRC-10 on bit sequences. -/
theorem test_crc_sequences : crcCodeword 4 0xB crc1Data = crc1Data ++ [true, false, false] ∧
    crcRem 4 0xB (crc1Data ++ [true, false, false]) = 0 ∧ crcRem 4 0xB [true, false, true] = 0x5 ∧
    crcRem 4 0x3 ([true, true, false, true, false, true] ++ [false, false, false]) = 0x7 := by decide +kernel

/-- CRCCHK or CRCENC under the key of CRC-1, with n = 2 source bytes. -/
def crcState (i : Instr) (bs : List Byte) (l : CrcLoop) : State :=
  busyAt i (ops 0 0x100 2 0 0) crcCfg1 (bytesOf 0 bs) (if l.stage = .output ∧ i = .crcenc then l.i else 0) (.crc l)

/-- CRC-13: a byte of value 2 is CRC_BITVAL, STATUS = 0x00006006, OUT_LEN = 0. -/
theorem test_crcchk_bitval : goesOn (exec .crcchk (crcState .crcchk [1, 2] ⟨.divide, 1, 1, 0⟩))
    (fun t => t.statusWord == 0x00006006 && t.results.outLen == 0) = true := by decide

/-- CRCCHK's completion with remainder 0: PASS = 1. -/
theorem test_crcchk_pass : goesOn (exec .crcchk (crcState .crcchk [1, 1] ⟨.output, 0, 0, 0⟩))
    (fun t => t.statusWord == 0x00000002 && t.results.crcRes == 1 && t.results.crcRem == 0) = true := by decide

/-- CRCENC writes its remainder highest power first: remainder 1 0 0 gives a 1 at element n. -/
theorem test_crcenc_remainder : goesOn (exec .crcenc (crcState .crcenc [1, 1] ⟨.output, 2, 0, 4⟩))
    (fun t => t.buf.readByte 0x102 == 1) = true := by decide

/-- CRCENC's completion after n + m - 1 = 5 elements: OUT_LEN = 5, PASS = 0. -/
theorem test_crcenc_done : goesOn (exec .crcenc (crcState .crcenc [1, 1] ⟨.output, 5, 0, 4⟩))
    (fun t => t.statusWord == 0x00000002 && t.results.outLen == 5 && t.results.crcRem == 4 && t.results.crcRes == 0) = true := by
  decide

/-- AB-5: SRST while a COSTAS runs leaves STATUS = 0, no engine and the reset values. -/
theorem test_srst : goesOn (exec .srst (coState Sample.zero)) (fun t => t.statusWord == 0 && t.eng == none &&
    t.args == Args.reset && t.cfg.coFs == 0x41E2410110000000) = true := by decide

/-- AB-1 and AB-3: ABORT is recorded while BUSY = 1, and does nothing while BUSY = 0. -/
theorem test_abort : goesOn (exec .abort (coState Sample.zero)) (fun t => match t.eng with
    | some e => e.abortReq
    | none => false) = true ∧ goesOn (exec .abort State.reset) (fun t => t == State.reset) = true := by decide

/-! ### Host access (95_test_vectors.md section 3) -/

/-- HA-1, HA-5, HA-11, HA-12. -/
theorem test_host_reads :
    (hostRead 0x000000 .b4 State.reset).responses = [.readOkay 0x52580001] ∧
      (hostRead 0x000008 .b2 State.reset).responses = [.error] ∧
      (hostRead 0x200000 .b1 State.reset).responses = [.error] ∧
      (hostRead 0x001000 .b4 State.reset).responses = [.error] := by decide

/-- HA-8: 0x1122334455667788 written at BUF 0, 0x11223344 read at BUF 4. -/
theorem test_host_buf : goesOn (hostWrite 0x100000 .b8 0x1122334455667788 State.reset) (fun t =>
    (hostRead 0x100004 .b4 t).responses.head? == some (.readOkay 0x11223344)) = true := by decide +kernel

/-- 10_state.md R39: PARAM holds INTERP, MAX_KEY and MAX_PRE in its low three bytes. -/
theorem test_param : paramWord =
    BitVec.ofNat 32 (Config.maxPre * 2 ^ 16 + Config.maxKey * 2 ^ 8 + Config.interp) := by decide

/-- HA-13 and HA-15: a busy block answers a BUF read with 0 and refuses a write of A0; HOSTCONF rises. -/
theorem test_host_busy : (hostRead 0x100000 .b8 (busyWith [])).responses = [.readOkay 0] ∧
    goesOn (hostWrite 0x000020 .b4 0x40 (busyWith [])) (fun t => t.args.a0 == 0 && t.statusWord == 0x00000009) = true := by decide

/-- The script helpers build the transactions of 30_encoding.md R118 (95_test_vectors.md, P4 lines 7 and 9). -/
theorem test_script : Script.run .iqcorr = [.host (.write 0x000010 .b4 0x00000003), .wait] ∧
    Script.wrd .coAlpha 0x3FF0000000000000 =
      [.host (.write 0x000050 .b4 0), .host (.write 0x000054 .b4 0x3FF00000)] := by decide

/-! ### Witnesses: a concrete state and operands for the hypotheses of every statement that has some

A witness that also runs the step shows where the clause leads. -/

theorem goesOn_spec {o : Out} {f : State → Bool} (h : goesOn o f = true) : ∃ t, o = .next t ∧ f t = true := by
  unfold goesOn at h
  split at h
  · exact ⟨_, rfl, h⟩
  · exact absurd h (by simp)
  · exact absurd h (by simp)

/-- `busyAt` is the state of a command in flight at its loop state, with no abort pending. -/
theorem busyAt_running (i : Instr) (a : Args) (c : ConfigRegs) (m : Memory) (w : Nat) (p : Progress) :
    RunningAt i (busyAt i a c m w p) (eng i a c w p) p := ⟨⟨rfl, rfl⟩, rfl, rfl⟩

theorem witness_StepRunsDecodedInstruction :
    (let s := idleWith [.host (.write 0x000010 .b4 0x00000305)];
      s.resetAsserted = false ∧ s.eng = none ∧ decodeWord Instr.demapQam16.port 0x00000305 = .ok .demapQam16) ∧
    (let s := busyWith [.host (.write 0x000004 .b4 0x00000002), .engine];
      s.resetAsserted = false ∧ Instr.abort.port ≠ .cmd ∧ decodeWord Instr.abort.port 0x00000002 = .ok .abort) ∧
    ((busyWith []).eng = some (eng .nop Args.reset ConfigRegs.reset 0 .nop) ∧
      decodeCmd (eng .nop Args.reset ConfigRegs.reset 0 .nop).cmd = .ok .nop ∧
      (busyWith []).agenda = [] ∧ (busyWith [.engine]).agenda = .engine :: []) ∧
    (State.reset.eng = none ∧ goesOn (step (State.reset.withFetchWord 32 0x00000007)) (fun t => t.cmd == 0x00000007) = true ∧
      goesOn (step (State.reset.withFetchWord 8 0x01)) (fun t => t.responses == [.writeOkay]) = true) := by decide

theorem witness_IssueOfAnyWord :
    (let s := idleWith [.host (.write 0x000010 .b4 0xFFFFFFFF)];
      s.resetAsserted = false ∧ s.eng = none ∧ goesOn (step s) (fun t => t.cmd == 0xFFFFFFFF && t.busy) = true) := by decide

theorem witness_ExecOnIdleIssues : Instr.crcenc.port = .cmd ∧ State.reset.eng = none := by decide

theorem witness_RegisterWritesWhileBusy :
    (∀ o ∈ [0x010, 0x020, 0x09C], o % 4 = 0 ∧ o < 0x1000 ∧ (busyWith [.host (.write (BitVec.ofNat 24 o) .b4 1)]).busy = true ∧
      goesOn (step (busyWith [.host (.write (BitVec.ofNat 24 o) .b4 1)])) (fun t => t.status.hostconf) = true) ∧
    (∀ o ∈ [0x000, 0x004, 0x008, 0x00C, 0x014, 0x018, 0x01C, 0x0A0, 0xFFC], o % 4 = 0 ∧ o < 0x1000 ∧
      goesOn (step (idleWith [.host (.write (BitVec.ofNat 24 o) .b4 1)])) (fun t => !t.status.hostconf) = true) ∧
    (∀ o ∈ [0x000, 0x01C, 0xFFC], o % 4 = 0 ∧
      goesOn (step (busyWith [.host (.read (BitVec.ofNat 24 o) .b4)])) (fun t => !t.status.hostconf) = true) := by decide

/-- Registers with values all different, and a command in flight, for the reads. -/
def distinctState : State :=
  { busyWith [] with
    args := ⟨1, 2, 3, 4, 5, 6, 7, 8⟩
    cfg := { ConfigRegs.reset with coPhase0 := one, coFreq0 := half }
    results := { ResultRegs.reset with trMu := half, iqA := one, outLen := 9, crcRem := 0x7, crcRes := 1 } }

/-- Reads of R79's offsets in any state, reserved ones among them; and on an idle block writes at both ends of the range, of one
half of a 64-bit register and of registers with reserved bits, each read back through the next step. -/
theorem witness_RegisterWriteReadsBack :
    (∀ p ∈ [(0x000, 0x52580001), (0x008, 0x00000001), (0x01C, 0), (0x020, 1), (0x024, 2), (0x03C, 8), (0x06C, 0x3FF00000),
        (0x074, 0x3FE00000), (0x0A4, 0x3FE00000), (0x0C4, 0x3FF00000), (0x0F0, 9), (0x0F4, 7), (0x0F8, 1), (0x0FC, 0), (0xFFC, 0)],
      p.1 % 4 = 0 ∧ p.1 < 0x1000 ∧ distinctState.resetAsserted = false ∧
      goesOn (step { distinctState with agenda := [.host (.read (BitVec.ofNat 24 p.1) .b4)] })
        (fun t => t.responses == [.readOkay p.2]) = true) ∧
    (∀ p ∈ [(0x020, 0xFFFFFFFF), (0x03C, 0xFFFFFFFF), (0x040, 0xFFFFFFFF), (0x044, 0xFFFFFFFF), (0x088, 0x0000017F),
        (0x090, 0x0000003F), (0x09C, 0x00000001)],
      p.1 % 4 = 0 ∧ 0x020 ≤ p.1 ∧ p.1 < 0x0A0 ∧ State.reset.eng = none ∧
      goesOn (core.run 2 (idleWith [.host (.write (BitVec.ofNat 24 p.1) .b4 0xFFFFFFFF), .host (.read (BitVec.ofNat 24 p.1) .b4)]))
        (fun t => t.responses == [.readOkay p.2, .writeOkay]) = true) ∧
    goesOn (step (idleWith [.host (.write 0x000040 .b4 0x12345678)])) (fun t => t.cfg.trSps == 0x4020000012345678) = true := by
  decide

/-- CO-11 and PR-7: a COSTAS whose check step fails with ALIGN, and one that passes; and the start of commands whose check step
passes (41_timing_recovery.md R162, 42_costas.md R191, 43_iq_imbalance.md R232, 44_preamble_correlator.md R255). -/
theorem witness_CheckStepOutcome :
    (let e := eng .costas (ops 4 0x100 1 0 0) ConfigRegs.reset 0 .check;
      InFlight .costas (busyAt .costas (ops 4 0x100 1 0 0) ConfigRegs.reset [] 0 .check) e ∧ e.progress = .check ∧
      e.written = 0 ∧ (planOf .costas e).firstError 0x100000 = some .align) ∧
    (let c := { ConfigRegs.reset with coPhase0 := one, coFreq0 := half };
      let e := eng .costas (ops 8 0x100 1 0 0) c 0 .check;
      InFlight .costas (busyAt .costas (ops 8 0x100 1 0 0) c [] 0 .check) e ∧ e.progress = .check ∧
      e.written = 0 ∧ (planOf .costas e).firstError 0x100000 = none) ∧
    (∀ p ∈ [(Instr.trMm, ops 0 0x3000 3 0 0, Progress.trMm ⟨0, 0, 2, ⟨0, 0⟩, ⟨0, 0⟩, ⟨0, 0⟩, ⟨0, 0⟩⟩),
        (.costas, ops 8 0x100 1 0 0, .costas ⟨one, half, 0⟩),
        (.iqcorr, ops 0 0x100 0 0 0, .iqcorr ⟨.empty, 0, [], 0, 0, 0, 0, 0, 0, 0⟩),
        (.iqcorr, ops 0 0x100 1 0 0, .iqcorr ⟨.estimate, 0, [], 0, 0, 0, 0, 0, 0, 0⟩),
        (.fsync, ops 0 0x1000 0 0x2000 0, .fsync ⟨.degenerate, 0, 0, 0, 0, [], [], 0, 0, 0, 0, false, 0⟩),
        (.fsync, ops 0 0x1000 1 0x2000 0, .fsync ⟨.magnitude, 0, 0, 0, 0, [], [], 0, 0, 0, 0, false, 0⟩),
        (.crcenc, ops 0 0x100 2 0 0, .crc ⟨.divide, 0, 0, 0⟩)],
      goesOn (exec p.1 (busyAt p.1 p.2.1 { ConfigRegs.reset with coPhase0 := one, coFreq0 := half } [] 0 .check))
        (fun t => t.eng == some (eng p.1 p.2.1 { ConfigRegs.reset with coPhase0 := one, coFreq0 := half } 0 p.2.2)) = true) :=
  ⟨⟨⟨rfl, rfl⟩, rfl, rfl, by decide⟩, ⟨⟨rfl, rfl⟩, rfl, rfl, by decide⟩, by decide⟩

/-- PR-2, PR-4, PR-5 and PR-7, CO-10: each check is the first to fail, and an identical source and destination passes. -/
theorem witness_CheckOrder :
    (CheckPlan.mk true [⟨4, 16, .complex, .read⟩] false).firstError 0x100000 = some .badArg ∧
    (CheckPlan.mk false [⟨4, 32, .complex, .read⟩, ⟨0xFFFF8, 32, .complex, .write⟩] true).firstError 0x100000 = some .align ∧
    (CheckPlan.mk false [⟨0, 0x100100, .complex, .read⟩, ⟨0x100, 65520, .complex, .write⟩] false).firstError 0x100000 =
      some .range ∧
    (CheckPlan.mk false [⟨0, 32, .complex, .read⟩, ⟨8, 32, .complex, .write⟩] true).firstError 0x100000 = some .overlap ∧
    (CheckPlan.mk false [⟨0x100, 64, .complex, .read⟩, ⟨0x100, 64, .complex, .write⟩] true).firstError 0x100000 = none ∧
    (CheckPlan.mk false [⟨0xFFFFF, 1, .bit, .read⟩] false).firstError 0x100000 = none := by decide

/-- AB-4: the word of opcode 0x08 issued, and in flight with an abort pending: it ends with ILLEGAL_CMD all the same. -/
theorem witness_IllegalWordEnds : (idleWith [.host (.write 0x000010 .b4 0x00000008), .engine]).eng = none ∧
    decodeCmd 0x00000008 = .error .gardnerSlot ∧ (0x00001108 : Word) &&& 0xFF = 0x08 ∧
    (let e : Engine := ⟨0x00000008, Args.reset, ConfigRegs.reset, true, 0, .check⟩;
      let s := { State.reset with cmd := 0x00000008, eng := some e };
      s.resetAsserted = false ∧ e.written = 0 ∧ s.agenda = [] ∧
      goesOn (step s) (fun t => t.statusWord == 0x00000106) = true ∧
      goesOn (step { s with agenda := [.engine] }) (fun t => t.statusWord == 0x00000106) = true) := by decide

theorem witness_AbortIsRecordedThenTaken :
    (busyWith []).eng = some (eng .nop Args.reset ConfigRegs.reset 0 .nop) ∧ State.reset.eng = none ∧
    (let e := { eng .costas (ops 0 0x100 4 0 0) ConfigRegs.reset 2 (.costas ⟨0, 0, 2⟩) with abortReq := true };
      InFlight .costas { State.reset with eng := some e } e ∧ e.progress ≠ .check ∧ e.abortReq = true) :=
  ⟨rfl, rfl, ⟨rfl, rfl⟩, by simp [eng], rfl⟩

theorem witness_SoftReset : (busyWith [.host (.write 0x000004 .b4 0x00000003)]).resetAsserted = false ∧
    (0x00000003 : BitVec 64).getLsbD 0 = true := by decide

theorem witness_HardwareReset : (idleWith [.resetPin true]).agenda = .resetPin true :: [] ∧
    (let s := { busyWith [.resetPin false] with resetAsserted := true };
      s.resetAsserted = true ∧ goesOn (step s) (fun t => t.eng == none && !t.resetAsserted) = true) ∧
    (let s := { busyWith [.host (.read 0x000000 .b4)] with resetAsserted := true };
      s.resetAsserted = true ∧ goesOn (step s) (fun t => t.responses == []) = true) := by decide

theorem witness_ResetReads : ∃ t, exec .srst (coState Sample.zero) = .next t ∧ (0xFFC % 4 = 0 ∧ 0xFFC < 0x1000) ∧
    (hostRead (BitVec.ofNat 24 0x05C) .b4 t).responses = .readOkay 0x3F186E8B :: t.responses :=
  ⟨_, rfl, by decide, by decide⟩

theorem witness_AcknowledgeClears :
    (let s := { idleWith [.host (.write 0x000008 .b4 0x00000004)] with status := ⟨true, true, true, 0x03⟩ };
      s.resetAsserted = false ∧ s.statusWord = 0x0000030E ∧
      goesOn (step s) (fun t => t.statusWord == 0x0000000A) = true) := by decide

/-- A TR_MM whose loop is over, at the register values of TR-8. -/
def trEnd (iIn : Int) (iOut : Nat) : State :=
  busyAt .trMm (ops 0 0x3000 17 0 0) ConfigRegs.reset [] (iOut - 2)
    (.trMm ⟨half, iIn, iOut, Sample.zero, Sample.zero, Sample.zero, Sample.zero⟩)

/-- Completions that change each family's result registers, from states that meet the invariant. -/
theorem witness_ResultOwnership :
    ((trEnd 8 3).good = true ∧ goesOn (exec .trMm (trEnd 8 3)) (fun t => t.results.trMu == half && t.results.trIin == 8) = true) ∧
    (let s := busyAt .costas (ops 0 0 0 0 0) ConfigRegs.reset [] 0 (.costas ⟨one, half, 0⟩);
      s.good = true ∧ goesOn (exec .costas s) (fun t => t.results.coPhase == one) = true) ∧
    (let s := busyAt .iqcorr (ops 0 0x100 1 0 0) ConfigRegs.reset [] 1 (.iqcorr ⟨.correct, 1, [⟨one, 0⟩], 0, 0, one, 0, one, 0, one⟩);
      s.good = true ∧ goesOn (exec .iqcorr s) (fun t => t.results.iqA == one) = true) ∧
    (let s := busyAt .fsync (ops 0 0x1000 0 0x2000 0) ConfigRegs.reset [] 0 (.fsync (FsLoop.initial 0));
      s.good = true ∧ goesOn (exec .fsync s) (fun t => t.results.fsInfo == 2) = true) ∧
    (let s := crcState .crcchk [1, 1] ⟨.output, 0, 0, 4⟩;
      s.good = true ∧ goesOn (exec .crcchk s) (fun t => t.results.crcRem == 4) = true) := by decide +kernel

/-- HA-5, HA-6, HA-10, HA-11, HA-12 and the boundaries of the ranges: each gets ERROR and nothing else. -/
theorem witness_BusErrors :
    ∀ a ∈ [Access.read 0x000008 .b2, .write 0x000002 .b4 0, .read 0x000FFC .b8, .read 0x001000 .b4, .write 0x0FFFFF .b1 0,
        .write 0x100004 .b8 0, .read 0x1FFFFF .b2, .write 0x200000 .b1 0, .read 0xFFFFFF .b1],
      (let o := a.offset.toNat;
       let n := a.width.bytes;
       (o < 0x1000 ∧ (n ≠ 4 ∨ o % 4 ≠ 0)) ∨ (0x1000 ≤ o ∧ o < 0x100000) ∨
         (0x100000 ≤ o ∧ ((o - 0x100000) % n ≠ 0 ∨ State.reset.params.bufBytes < o - 0x100000 + n))) ∧
      goesOn (step (busyWith [.host a])) (fun t => t == { busyWith [] with responses := [.error] }) = true := by decide

theorem witness_BufBlockedWhileBusy :
    (∀ p ∈ [(0, Width.b8), (0xFFFF8, .b8), (0xFFFFF, .b1)], (busyWith []).busy = true ∧ p.1 < State.reset.params.bufBytes ∧
      p.1 % p.2.bytes = 0 ∧ p.1 + p.2.bytes ≤ State.reset.params.bufBytes ∧
      goesOn (step (busyWith [.host (.read (BitVec.ofNat 24 (0x100000 + p.1)) p.2)])) (fun t => t.status.hostconf) = true) ∧
    (∀ p ∈ [(4, Width.b8), (0xFFFFF, .b2)], p.1 < State.reset.params.bufBytes ∧
      (p.1 % p.2.bytes ≠ 0 ∨ State.reset.params.bufBytes < p.1 + p.2.bytes) ∧
      goesOn (step (busyWith [.host (.read (BitVec.ofNat 24 (0x100000 + p.1)) p.2)])) (fun t => !t.status.hostconf) = true) := by
  decide

theorem witness_BufWriteThenRead :
    (let s := idleWith [.host (.write (BitVec.ofNat 24 (0x100000 + 0xFFFF8)) .b8 0x1122334455667788),
        .host (.read (BitVec.ofNat 24 (0x100000 + 0xFFFFC)) .b4)];
      s.resetAsserted = false ∧ s.eng = none ∧ s.params.bufBytes ≤ 0xF00000 ∧ 0xFFFF8 % Width.b8.bytes = 0 ∧
      0xFFFF8 + Width.b8.bytes ≤ s.params.bufBytes ∧ 0xFFFFC % Width.b4.bytes = 0 ∧
      0xFFFFC + Width.b4.bytes ≤ 0xFFFF8 + Width.b8.bytes) := by decide

/-- Reads while a command runs: of a CSR, of BUF at both ends of it (HOSTCONF rises), and erroneous ones at the boundaries of each
range, which leave HOSTCONF as it is, 0 or 1; and a read of BUF on an idle block. -/
theorem witness_ReadsHaveNoSideEffect :
    (∀ p ∈ [(0x000000, Width.b4, Response.readOkay 0x52580001, false), (0x000FFC, .b4, .readOkay 0, false),
        (0x000FFC, .b8, .error, false), (0x001000, .b4, .error, false), (0x0FFFFF, .b1, .error, false),
        (0x100000, .b8, .readOkay 0, true), (0x1FFFFF, .b1, .readOkay 0, true), (0x1FFFFF, .b2, .error, false),
        (0x100004, .b8, .error, false), (0x200000, .b1, .error, false), (0xFFFFFF, .b1, .error, false)],
      (busyWith []).resetAsserted = false ∧ (busyWith []).busy = true ∧
      ∀ h ∈ [false, true], goesOn (step { busyWith [.host (.read (BitVec.ofNat 24 p.1) p.2.1)] with
          status := ⟨false, false, h, 0⟩ })
        (fun t => t.responses == [p.2.2.1] && t.status.hostconf == (h || p.2.2.2)) = true) ∧
    goesOn (step { idleWith [.host (.read 0x100000 .b2)] with buf := [(0, 0x34), (1, 0x12)] })
      (fun t => t.responses == [.readOkay 0x1234] && !t.status.hostconf) = true := by decide

theorem witness_HostCannotDisturbCommand :
    (let s := busyWith [.host (.write 0x000008 .b4 0x0000000E)];
      s.resetAsserted = false ∧ s.busy = true ∧ ∀ d, Access.write 0x000008 .b4 0x0000000E ≠ .write 0x000004 .b4 d) :=
  ⟨rfl, rfl, by intro d h; injection h with h; exact absurd h (by decide)⟩

theorem witness_SpareArgumentsUnread : Instr.iqcorr.port = .cmd := rfl

theorem witness_NopRuns :
    (let s := idleWith [.host (.write 0x000010 .b4 0x00000000), .engine, .engine];
      s.resetAsserted = false ∧ s.eng = none ∧ s.status.hostconf = false) ∧
    RunningAt .nop (busyWith []) (eng .nop Args.reset ConfigRegs.reset 0 .nop) .nop :=
  ⟨⟨rfl, rfl, rfl⟩, ⟨rfl, rfl⟩, rfl, rfl⟩

/-- TR-2 iteration 2 goes on, TR-5 has a non-finite mu, TR-4 iteration 2 has j = -320. -/
theorem witness_TrMmIteration :
    (RunningAt .trMm tr2State (eng .trMm (ops 0 0x3000 40 0 0) ConfigRegs.reset 1 (.trMm tr2)) (.trMm tr2) ∧
      Checked .trMm tr2State (eng .trMm (ops 0 0x3000 40 0 0) ConfigRegs.reset 1 (.trMm tr2)) ∧
      trLoopOk (eng .trMm (ops 0 0x3000 40 0 0) ConfigRegs.reset 1 (.trMm tr2)) tr2 = true ∧
      tr2.iOut < 40 ∧ tr2.iIn + 16 < 40 ∧ 0 ≤ tr2.fetchIndex) ∧
    (RunningAt .trMm tr5State (eng .trMm (ops 0 0x3000 40 0 0) ConfigRegs.reset 0 (.trMm TrLoop.initial)) (.trMm TrLoop.initial) ∧
      trLoopOk (eng .trMm (ops 0 0x3000 40 0 0) ConfigRegs.reset 0 (.trMm TrLoop.initial)) TrLoop.initial = true ∧
      0 ≤ TrLoop.initial.fetchIndex) ∧
    (let l : TrLoop := ⟨0, -20, 3, ⟨one, 0⟩, Sample.zero, ⟨one, 0⟩, Sample.zero⟩;
      let e := eng .trMm (ops 0 0x3000 40 0 0) ConfigRegs.reset 1 (.trMm l);
      RunningAt .trMm (busyAt .trMm (ops 0 0x3000 40 0 0) ConfigRegs.reset [] 1 (.trMm l)) e (.trMm l) ∧
      trLoopOk e l = true ∧ l.iOut < 40 ∧ l.iIn + 16 < 40 ∧ l.fetchIndex = -320) :=
  ⟨⟨busyAt_running .., by unfold Checked; decide +kernel, by decide +kernel, by decide, by decide, by decide +kernel⟩,
   ⟨busyAt_running .., by decide +kernel, by decide +kernel⟩,
   ⟨busyAt_running .., by decide +kernel, by decide, by decide, by decide +kernel⟩⟩

/-- A loop that is over, with i_in in the 32-bit range, above it and below it. -/
theorem witness_TrMmCompletes : ∀ iIn ∈ [(8 : Int), 2 ^ 31, -(2 ^ 31) - 1],
    (let l : TrLoop := ⟨half, iIn, 17, Sample.zero, Sample.zero, Sample.zero, Sample.zero⟩;
      let e := eng .trMm (ops 0 0x3000 17 0 0) ConfigRegs.reset 15 (.trMm l);
      RunningAt .trMm (trEnd iIn 17) e (.trMm l) ∧ trLoopOk e l = true ∧ ¬ (17 < 17 ∧ iIn + 16 < 17)) ∧
    goesOn (exec .trMm (trEnd iIn 17)) (fun t => t.results.trIin ==
      if iIn = 8 then 8 else if iIn = 2 ^ 31 then 0x7FFFFFFF else 0x80000000) = true := by
  intro iIn h
  simp only [List.mem_cons, List.not_mem_nil, or_false] at h
  rcases h with rfl | rfl | rfl <;> exact ⟨⟨busyAt_running .., by decide +kernel, by decide⟩, by decide +kernel⟩

/-- 7.7 and -1e-20. -/
theorem witness_ReducedMuInUnit : F64.isFinite 0x401ECCCCCCCCCCCD = true ∧ inUnit (reduceMu 0x401ECCCCCCCCCCCD) = true ∧
    F64.floor 0x401ECCCCCCCCCCCD = 7 ∧ F64.floor 0xBBC79CA10C924223 = -1 := by
  decide +kernel

theorem witness_CostasIteration :
    RunningAt .costas (coState ⟨one, 0⟩) (eng .costas (ops 0 0x100 1 0x200 0) ConfigRegs.reset 0
      (.costas (CoLoop.initial ConfigRegs.reset))) (.costas (CoLoop.initial ConfigRegs.reset)) ∧
    Checked .costas (coState ⟨one, 0⟩) (eng .costas (ops 0 0x100 1 0x200 0) ConfigRegs.reset 0
      (.costas (CoLoop.initial ConfigRegs.reset))) ∧ (CoLoop.initial ConfigRegs.reset).i < 1 :=
  ⟨busyAt_running .., by unfold Checked; decide +kernel, by decide⟩

/-- With COS(+0.0) = 1 and SIN(+0.0) = +0.0, the default functions' values, CO-6 goes on: frequency and phase as there. -/
theorem witness_CostasIteration_goesOn (hc : Config.cos 0 = one) (hs : Config.sin 0 = 0) :
    (let o := (CoLoop.initial ConfigRegs.reset).rotated ⟨one, one⟩;
      let f := coFreqNext ConfigRegs.reset 0 (coError o);
      f = 0x3F186E8BCED5BB89 ∧ coPhaseNext ConfigRegs.reset 0 f (coError o) = 0x3F1BE46214C80E21) := by
  have h : (CoLoop.initial ConfigRegs.reset).rotated ⟨one, one⟩ = F64.rot ⟨one, one⟩ one 0 := by
    show F64.rot ⟨one, one⟩ (Config.cos 0) (Config.sin 0) = _
    rw [hc, hs]
  simp only [h]
  decide +kernel

theorem witness_CostasCompletes :
    (let l : CoLoop := ⟨one, half, 1⟩;
      let e := eng .costas (ops 0 0x100 1 0 0) ConfigRegs.reset 1 (.costas l);
      RunningAt .costas (busyAt .costas (ops 0 0x100 1 0 0) ConfigRegs.reset [] 1 (.costas l)) e (.costas l) ∧
      coLoopOk e l = true ∧ ¬ l.i < e.args.a2.toNat) := ⟨busyAt_running .., by decide, by decide⟩

/-- CO-8's phase by subtractions, a phase already in range, one outside with no step left, CO-7's by four additions and not by
three, and CO-2's, whose one addition gives TWO_PI itself. -/
theorem witness_WrapRange : F64.isFinite 0x402A000000000000 = true ∧ wrapPhase 2 0x402A000000000000 = some 0x3FDBC095777A5D00 ∧
    F64.le 0 one = true ∧ F64.lt one 0x401921FB54442D18 = true ∧ F64.ge 0x401921FB54442D18 0x401921FB54442D18 = true ∧
    F64.lt minusOne 0 = true ∧ F64.ge 0x402A000000000000 0x401921FB54442D18 = true ∧ wrapPhase 1 0x402A000000000000 = none ∧
    F64.lt 0xC034000000000000 0 = true ∧ wrapPhase 4 0xC034000000000000 = some 0x401487ED5110B460 ∧
    wrapPhase 3 0xC034000000000000 = none ∧ F64.lt 0x8000000000000001 0 = true ∧
    wrapPhase 1 0x8000000000000001 = some 0x401921FB54442D18 := by decide +kernel

/-- IQCORR with N = 2 at the first and the last sample of pass 1. -/
theorem witness_IqPass1 : ∀ k ∈ [0, 1],
    (let l : IqLoop := { IqLoop.initial 2 with k := k, prime := List.replicate k Sample.zero };
      let e := eng .iqcorr (ops 0 0x100 2 0 1) ConfigRegs.reset 0 (.iqcorr l);
      RunningAt .iqcorr (busyAt .iqcorr (ops 0 0x100 2 0 1) ConfigRegs.reset [] 0 (.iqcorr l)) e (.iqcorr l) ∧
      (planOf .iqcorr e).firstError 0x100000 = none ∧ l.stage = .estimate ∧ l.k < e.args.a2.toNat) := by
  intro k hk
  simp only [List.mem_cons, List.not_mem_nil, or_false] at hk
  rcases hk with rfl | rfl <;> exact ⟨busyAt_running .., by decide, by decide, by decide⟩

/-- Every clause of the estimate: a = 0, sin_psi infinite, sin_psi > 1, cos_psi = 0, and the estimate that goes on. -/
theorem witness_IqEstimate :
    goesOn (exec .iqcorr (iqEstimateState 0 0)) (fun t => t.statusWord == 0x00003106) = true ∧
    goesOn (exec .iqcorr (iqEstimateState 0x4010000000000000 0x7FF0000000000000)) (fun t => t.statusWord == 0x00003106) = true ∧
    goesOn (exec .iqcorr (iqEstimateState 0x4010000000000000 0x4020000000000000)) (fun t => t.statusWord == 0x00003006) = true ∧
    goesOn (exec .iqcorr (iqEstimateState 0x4020000000000000 0x4010000000000000)) (fun t => t.statusWord == 0x00003106) = true ∧
    goesOn (exec .iqcorr (iqEstimateState 0x4010000000000000 0)) (fun t => t.statusWord == 0x00000001) = true := by
  decide +kernel

/-- The hypotheses of the estimate step hold of each of those states. -/
theorem witness_IqEstimate_running (s2 sIQ : F64) :
    RunningAt .iqcorr (iqEstimateState s2 sIQ) (eng .iqcorr (ops 0 0x100 4 0 3) ConfigRegs.reset 0 (.iqcorr (iqSums s2 sIQ)))
      (.iqcorr (iqSums s2 sIQ)) ∧
    (iqSums s2 sIQ).stage = .estimate ∧ ¬ (iqSums s2 sIQ).k < 4 :=
  ⟨busyAt_running .., rfl, Nat.lt_irrefl 4⟩

/-- IQCORR's pass 2 on the original samples and, with SRC_SEL = 1, on the bias-removed ones. -/
theorem witness_IqPass2 : ∀ sel ∈ [(0 : Word), 1],
    (let l : IqLoop := ⟨.correct, 0, [⟨one, 0⟩], 0, 0, one, 0, one, 0, one⟩;
      let c := { ConfigRegs.reset with iqCfg := sel };
      let e := eng .iqcorr (ops 0 0x100 1 0 0) c 0 (.iqcorr l);
      RunningAt .iqcorr (busyAt .iqcorr (ops 0 0x100 1 0 0) c (bufOf 0 [⟨one, 0⟩]) 0 (.iqcorr l)) e (.iqcorr l) ∧
      (planOf .iqcorr e).firstError 0x100000 = none ∧ l.stage = .correct ∧ iqLoopOk e l = true ∧ l.k < e.args.a2.toNat ∧
      (if e.cfg.iqCfg.getLsbD 0 then l.prime[l.k]? = some ⟨one, 0⟩
       else (⟨one, 0⟩ : Sample) = sampleAt (bufOf 0 [⟨one, 0⟩]) e.args.a0.toNat l.k)) := by
  intro sel h
  simp only [List.mem_cons, List.not_mem_nil, or_false] at h
  rcases h with rfl | rfl <;>
    exact ⟨busyAt_running .., by decide, by decide, by decide, by decide, by decide +kernel⟩

theorem witness_IqCompletes :
    (let l : IqLoop := ⟨.correct, 1, [⟨one, 0⟩], 0, 0, one, 0, one, 0, one⟩;
      let e := eng .iqcorr (ops 0 0x100 1 0 0) ConfigRegs.reset 1 (.iqcorr l);
      RunningAt .iqcorr (busyAt .iqcorr (ops 0 0x100 1 0 0) ConfigRegs.reset [] 1 (.iqcorr l)) e (.iqcorr l) ∧
      l.stage = .correct ∧ iqLoopOk e l = true ∧ ¬ l.k < e.args.a2.toNat) ∧
    (let e := eng .iqcorr (ops 0 0x100 0 0 0) ConfigRegs.reset 0 .check;
      InFlight .iqcorr (busyAt .iqcorr (ops 0 0x100 0 0 0) ConfigRegs.reset [] 0 .check) e ∧ e.progress = .check ∧
      e.abortReq = false ∧ e.written = 0 ∧ e.args.a2 = 0) :=
  ⟨⟨busyAt_running .., by decide, by decide, by decide⟩, ⟨rfl, rfl⟩, rfl, rfl, rfl, rfl⟩

/-- FSYNC of FS-0 at any loop state with any count written. -/
def fsEng (w : Nat) (l : FsLoop) : Engine := eng .fsync (ops 0 0x1000 3 0x2000 1) fs0Cfg w (.fsync l)
def fsBusy (w : Nat) (l : FsLoop) : State :=
  busyAt .fsync (ops 0 0x1000 3 0x2000 1) fs0Cfg (bufOf 0 (reals [one, minusOne, one])) w (.fsync l)

/-- It is in flight and checked, with no abort pending. -/
theorem fsBusy_running (w : Nat) (l : FsLoop) :
    RunningAt .fsync (fsBusy w l) (fsEng w l) (.fsync l) ∧ Checked .fsync (fsBusy w l) (fsEng w l) :=
  ⟨busyAt_running .., by
    show (planOf .fsync (eng .fsync (ops 0 0x1000 3 0x2000 1) fs0Cfg 0 .check)).firstError 0x100000 = none
    decide⟩

/-- Each clause up to the rescale: a magnitude summed, the scale of FS-0, a rescaled value in the middle and the last one. -/
theorem witness_FsyncScale :
    (∀ l ∈ [fs0Loop .magnitude 2 0 [], fs0Loop .magnitude 3 0 [], fs0Loop .rescale 1 0 [], fs0Loop .rescale 2 0 []],
      RunningAt .fsync (fsBusy 0 l) (fsEng 0 l) (.fsync l) ∧ Checked .fsync (fsBusy 0 l) (fsEng 0 l)) ∧
    goesOn (exec .fsync (fsBusy 0 (fs0Loop .magnitude 2 0 []))) (fun t => match t.eng with
      | some ⟨_, _, _, _, _, .fsync l⟩ => l.i == 3
      | _ => false) = true ∧
    goesOn (exec .fsync (fsBusy 0 (fs0Loop .magnitude 3 0 []))) (fun t => match t.eng with
      | some ⟨_, _, _, _, _, .fsync l⟩ => l.stage == .rescale && l.scale == one && l.d == 0x4000000000000000
      | _ => false) = true ∧
    goesOn (exec .fsync (fsBusy 0 (fs0Loop .rescale 1 0 []))) (fun t => match t.eng with
      | some ⟨_, _, _, _, _, .fsync l⟩ => l.stage == .rescale && l.v.getLast? == some 0
      | _ => false) = true ∧
    goesOn (exec .fsync (fsBusy 0 (fs0Loop .rescale 2 0 []))) (fun t => match t.eng with
      | some ⟨_, _, _, _, _, .fsync l⟩ => l.stage == .lags && l.v.getLast? == some one
      | _ => false) = true :=
  ⟨fun l _ => fsBusy_running 0 l, by decide +kernel⟩

theorem witness_FsyncLagSum :
    (let l := fs0Loop .lags 3 0 [0, one, 0];
      RunningAt .fsync (fsBusy 0 l) (fsEng 0 l) (.fsync l) ∧ l.stage = .lags ∧ fsLoopOk (fsEng 0 l) l = true ∧ l.i < 3 + 2 - 1) :=
  ⟨(fsBusy_running ..).1, rfl, by decide, by decide⟩

theorem witness_FsyncPeakIsFirstMaximum :
    (let l := fs0Loop .lags 4 0 [0, one, 0, one];
      RunningAt .fsync (fsBusy 0 l) (fsEng 0 l) (.fsync l) ∧ Checked .fsync (fsBusy 0 l) (fsEng 0 l) ∧ l.stage = .lags ∧
      fsLoopOk (fsEng 0 l) l = true ∧ l.i = lagCount (fsEng 0 l) ∧ (∀ x ∈ l.c, F64.isNaN x = false) ∧
      (fsBusy 0 l).resetAsserted = false ∧ (fsBusy 0 l).agenda = []) :=
  ⟨(fsBusy_running ..).1, (fsBusy_running ..).2, rfl, by decide, by decide, by
    intro x hx
    simp only [fs0Loop, List.mem_cons, List.not_mem_nil, or_false] at hx
    rcases hx with rfl | rfl | rfl | rfl <;> decide, rfl, rfl⟩

/-- A stage of the copies with the window of FS-0. -/
def fs0Copy (st : FsStage) (i pay : Nat) : FsLoop := { fs0Loop st i 1 [] with full := 3, pay := pay }

/-- The stages of the extraction, each with its loop state: a start below 0, a start of 0, both copies and their ends, the
degenerate completion. -/
theorem witness_FsyncExtract :
    ∀ p ∈ [(0, fs0Loop .scan 4 0 [one, 0, 0, 0]), (0, fs0Loop .scan 4 1 [0, one, 0, one]), (2, fs0Copy .copyFull 2 0),
        (3, fs0Copy .copyFull 3 0), (3, fs0Copy .copyPay 0 1), (3, fs0Copy .copyPay 1 1), (0, fs0Loop .degenerate 0 0 [])],
      RunningAt .fsync (fsBusy p.1 p.2) (fsEng p.1 p.2) (.fsync p.2) ∧ Checked .fsync (fsBusy p.1 p.2) (fsEng p.1 p.2) ∧
        fsLoopOk (fsEng p.1 p.2) p.2 = true := by
  have h : ∀ p ∈ [(0, fs0Loop .scan 4 0 [one, 0, 0, 0]), (0, fs0Loop .scan 4 1 [0, one, 0, one]), (2, fs0Copy .copyFull 2 0),
      (3, fs0Copy .copyFull 3 0), (3, fs0Copy .copyPay 0 1), (3, fs0Copy .copyPay 1 1), (0, fs0Loop .degenerate 0 0 [])],
      fsLoopOk (fsEng p.1 p.2) p.2 = true := by decide
  exact fun p hp => ⟨(fsBusy_running ..).1, (fsBusy_running ..).2, h p hp⟩

/-- DM-15's two kinds of symbol, in every scheme. -/
theorem witness_DemapIteration : ∀ sch ∈ [Scheme.ook, .bpsk, .qpsk, .qam16],
    RunningAt sch.instr (dmState sch ⟨quietNaN, 0⟩) (eng sch.instr (ops 0 0x100 1 0 0) ConfigRegs.reset 0 (.demap ⟨0⟩))
      (.demap ⟨0⟩) ∧
    (planOf sch.instr (eng sch.instr (ops 0 0x100 1 0 0) ConfigRegs.reset 0 (.demap ⟨0⟩))).firstError 0x100000 = none ∧
    goesOn (exec sch.instr (dmState sch ⟨quietNaN, 0⟩)) (fun t => t.statusWord == 0x00005006) = true ∧
    goesOn (exec sch.instr (dmState sch ⟨one, one⟩)) (fun t => t.busy) = true := by
  intro sch _
  cases sch <;> exact ⟨busyAt_running .., by decide, by decide +kernel, by decide +kernel⟩

/-- DM-8 and DM-9: all symbols done, with bits left and with all of them skipped. -/
theorem witness_DemapCompletes : ∀ p ∈ [((3 : Word), 9), (5, 7), (12, 0), (13, 0)],
    (let e := eng .demapQam16 (ops 0 0x100 3 0 p.1) ConfigRegs.reset p.2 (.demap ⟨3⟩);
      RunningAt Scheme.qam16.instr (busyAt .demapQam16 (ops 0 0x100 3 0 p.1) ConfigRegs.reset [] p.2 (.demap ⟨3⟩)) e (.demap ⟨3⟩) ∧
      dmLoopOk Scheme.qam16.bps e ⟨3⟩ = true ∧ ¬ 3 < e.args.a2.toNat) := by
  have h : ∀ p ∈ [((3 : Word), 9), (5, 7), (12, 0), (13, 0)],
      dmLoopOk Scheme.qam16.bps (eng .demapQam16 (ops 0 0x100 3 0 p.1) ConfigRegs.reset p.2 (.demap ⟨3⟩)) ⟨3⟩ = true := by decide
  exact fun p hp => ⟨busyAt_running .., h p hp, Nat.lt_irrefl 3⟩

theorem witness_NearestIsFirstClosest : F64.isFinite ConfigRegs.reset.dmGain = true ∧ F64.isFinite one = true ∧
    nearest .qam16 ConfigRegs.reset.dmGain ⟨0, 0⟩ = 5 := by decide +kernel

/-- CRCCHK and CRCENC at their check step with two bit bytes, and at their last step. -/
theorem witness_CrcchkRuns :
    (let e := eng .crcchk (ops 0 0x100 2 0 0) crcCfg1 0 .check;
      let s := busyAt .crcchk (ops 0 0x100 2 0 0) crcCfg1 (bytesOf 0 [1, 0]) 0 .check;
      InFlight .crcchk s e ∧ e.progress = .check ∧ e.abortReq = false ∧ e.written = 0 ∧ Checked .crcchk s e ∧
      s.resetAsserted = false ∧ s.agenda = [] ∧ ∀ i, i < e.args.a2.toNat → (s.buf.readByte (e.args.a0.toNat + i)).toNat ≤ 1) ∧
    RunningAt .crcchk (crcState .crcchk [1, 1] ⟨.output, 0, 0, 0⟩)
      (eng .crcchk (ops 0 0x100 2 0 0) crcCfg1 0 (.crc ⟨.output, 0, 0, 0⟩)) (.crc ⟨.output, 0, 0, 0⟩) :=
  ⟨⟨⟨rfl, rfl⟩, rfl, rfl, rfl, by unfold Checked; decide, rfl, rfl, by decide⟩, busyAt_running ..⟩

theorem witness_CrcencRuns :
    (let e := eng .crcenc (ops 0 0x100 2 0 0) crcCfg1 0 .check;
      let s := busyAt .crcenc (ops 0 0x100 2 0 0) crcCfg1 (bytesOf 0 [1, 0]) 0 .check;
      InFlight .crcenc s e ∧ e.progress = .check ∧ e.abortReq = false ∧ e.written = 0 ∧ Checked .crcenc s e ∧
      s.resetAsserted = false ∧ s.agenda = [] ∧ ∀ i, i < e.args.a2.toNat → (s.buf.readByte (e.args.a0.toNat + i)).toNat ≤ 1) ∧
    (let e := eng .crcenc (ops 0 0x100 2 0 0) crcCfg1 5 (.crc ⟨.output, 5, 0, 4⟩);
      RunningAt .crcenc (crcState .crcenc [1, 1] ⟨.output, 5, 0, 4⟩) e (.crc ⟨.output, 5, 0, 4⟩) ∧
      Checked .crcenc (crcState .crcenc [1, 1] ⟨.output, 5, 0, 4⟩) e ∧
      ¬ 5 < e.args.a2.toNat + (e.cfg.crcCfg &&& 0x3F).toNat - 1) :=
  ⟨⟨⟨rfl, rfl⟩, rfl, rfl, rfl, by unfold Checked; decide, rfl, rfl, by decide⟩,
   ⟨⟨rfl, rfl⟩, rfl, rfl⟩, by unfold Checked; decide, by decide⟩

/-- A bit byte of 1, which is fed, and one of 2, which is refused, for both commands. -/
theorem witness_CrcBitIsFedOrRefused : ∀ i ∈ [Instr.crcchk, .crcenc],
    (let e := eng i (ops 0 0x100 2 0 0) crcCfg1 0 (.crc ⟨.divide, 1, 1, 0⟩);
      RunningAt i (crcState i [1, 2] ⟨.divide, 1, 1, 0⟩) e (.crc ⟨.divide, 1, 1, 0⟩) ∧
      (planOf i e).firstError 0x100000 = none ∧ 1 < e.args.a2.toNat ∧
      1 < ((crcState i [1, 2] ⟨.divide, 1, 1, 0⟩).buf.readByte 1).toNat ∧
      ((crcState i [1, 1] ⟨.divide, 1, 1, 0⟩).buf.readByte 1).toNat ≤ 1) := by
  intro i h
  simp only [List.mem_cons, List.not_mem_nil, or_false] at h
  rcases h with rfl | rfl <;> exact ⟨⟨⟨rfl, rfl⟩, rfl, rfl⟩, by decide, by decide, by decide, by decide⟩

/-- Both ends of the key length, and a key with leading bit 0 (CRC-10). -/
theorem witness_CrcRoundTrip : (2 ≤ 2 ∧ 2 ≤ 32 ∧ crcRem 2 0x3 (crcCodeword 2 0x3 [true, false]) = 0) ∧
    (2 ≤ 32 ∧ 32 ≤ 32 ∧ crcRem 32 0x3 (crcCodeword 32 0x3 [true, false]) = 0) ∧
    crcRem 4 0x3 (crcCodeword 4 0x3 [true, true, false, true, false, true]) = 0 := by decide +kernel

theorem witness_CrcIsPolynomialRemainder : (2 ≤ 2 ∧ 2 ≤ 32 ∧ (0x3 : Word).getLsbD (2 - 1) = true) ∧
    (2 ≤ 32 ∧ 32 ≤ 32 ∧ (0x80000001 : Word).getLsbD (32 - 1) = true) := by decide

/-- CRCENC of no data under a key of 2 bits, and the CRCCHK of its one output bit. -/
theorem witness_EncodedThenCheckedPasses :
    (let c := { ConfigRegs.reset with crcKey := 0x00000003, crcCfg := 0x00000002 };
      let e := eng .crcenc (ops 0 0x100 0 0 0) c 0 .check;
      let s := busyAt .crcenc (ops 0 0x100 0 0 0) c [] 0 .check;
      s.good = true ∧ InFlight .crcenc s e ∧ e.progress = .check ∧ e.abortReq = false ∧ s.resetAsserted = false ∧
      s.agenda = [] ∧ ∃ s1, core.run 5 s = .next s1 ∧ s1.eng = none ∧ s1.status.err = false ∧
        (let e2 := eng .crcchk (ops 0x100 0 s1.results.outLen 0 0) c 0 .check;
          let s2 := { busyAt .crcchk (ops 0x100 0 s1.results.outLen 0 0) c s1.buf 0 .check with params := s1.params };
          InFlight .crcchk s2 e2 ∧ e2.progress = .check ∧ e2.abortReq = false ∧ e2.written = 0 ∧ s2.resetAsserted = false ∧
          s2.agenda = [] ∧ s2.buf = s1.buf ∧ s2.params = s1.params ∧ e2.cfg.crcKey = e.cfg.crcKey ∧
          e2.cfg.crcCfg = e.cfg.crcCfg ∧ e2.args.a0 = e.args.a1 ∧ e2.args.a2 = s1.results.outLen)) := by
  have h : goesOn (core.run 5 (busyAt .crcenc (ops 0 0x100 0 0 0)
      { ConfigRegs.reset with crcKey := 0x00000003, crcCfg := 0x00000002 } [] 0 .check))
      (fun t => t.eng == none && !t.status.err) = true := by decide +kernel
  obtain ⟨s1, h1, h2⟩ := goesOn_spec h
  simp only [Bool.and_eq_true, beq_iff_eq, Bool.not_eq_true'] at h2
  exact ⟨by decide, ⟨rfl, rfl⟩, rfl, rfl, rfl, rfl, s1, h1, h2.1, h2.2, ⟨rfl, rfl⟩, rfl, rfl, rfl, rfl, rfl, rfl, rfl, rfl, rfl, rfl,
    rfl⟩

/-- A tie between the two smallest subnormals goes to the even one; the threshold of overflow; a finite result; operands and
results of each operator (R19's 0.3, TR-2's 7.7, halves and sums whose values are exact), the sum of two negative zeros, a
difference that is zero, the smallest subnormal halved; values in order up to the infinities; the largest integer of R17. -/
theorem witness_RoundingIsNearestEven : 0 < 2 ∧ F64.pack false (F64.roundMag 3 2) = 2 ∧
    F64.pack false (F64.roundMag ((2 ^ 53 - 1) * 2 ^ 2045 + 2 ^ 2044) 1) = 0x7FF0000000000000 ∧
    F64.pack false (F64.roundMag ((2 ^ 53 - 1) * 2 ^ 2045 + 2 ^ 2044 - 1) 1) = 0x7FEFFFFFFFFFFFFF ∧
    F64.isFinite one = true ∧ F64.toInt one + F64.toInt minusOne = 0 ∧ F64.add one minusOne = 0 ∧
    F64.add 0x8000000000000000 0x8000000000000000 = 0x8000000000000000 ∧ F64.sub half one = 0xBFE0000000000000 ∧
    F64.toInt 0 = 0 ∧ F64.sub 0x8000000000000000 0 = 0x8000000000000000 ∧ F64.mul minusOne half = 0xBFE0000000000000 ∧
    F64.mul 0x0000000000000001 half = 0 ∧ F64.mul 0x8000000000000001 half = 0x8000000000000000 ∧
    F64.toInt half ≠ 0 ∧ F64.div minusOne half = 0xC000000000000000 ∧
    F64.add 0x7FEFFFFFFFFFFFFF 0x7FEFFFFFFFFFFFFF = 0x7FF0000000000000 ∧
    F64.lt 0x7FEFFFFFFFFFFFFF 0x7FF0000000000000 = true ∧ F64.lt 0xFFF0000000000000 minusOne = true ∧
    F64.eq 0 0x8000000000000000 = true ∧ F64.le quietNaN quietNaN = false ∧ F64.neg one = minusOne ∧
    F64.abs 0xFFF8000000000001 = 0x7FF8000000000001 ∧ F64.ofInt (2 ^ 53) = 0x4340000000000000 := by decide +kernel

/-- Each of the special cases of IEEE 754. -/
theorem witness_NanIsCanonical : F64.isNaN 0xFFF0000000000001 = true ∧ F64.add one 0xFFF0000000000001 = quietNaN ∧
    F64.sub 0x7FF0000000000000 0x7FF0000000000000 = quietNaN ∧ F64.isFinite minusOne = true ∧
    F64.mul 0x7FF0000000000000 0x8000000000000000 = quietNaN ∧ F64.toInt 0x8000000000000000 = 0 ∧
    F64.div 0 0x8000000000000000 = quietNaN ∧ F64.div one 0x8000000000000000 = 0xFFF0000000000000 ∧
    F64.div minusOne 0x7FF0000000000000 = 0x8000000000000000 ∧ F64.div 0x7FF0000000000000 0 = 0x7FF0000000000000 ∧
    F64.add 0xFFF0000000000000 one = 0xFFF0000000000000 ∧ F64.sub one 0x7FF0000000000000 = 0xFFF0000000000000 := by
  decide +kernel

theorem witness_SquareRootIsNearest : F64.isFinite 0x4000000000000000 = true ∧ F64.sign 0x4000000000000000 = false ∧
    F64.isFinite one = true ∧ F64.sign one = false ∧ F64.lt minusOne 0 = true ∧ F64.isNaN 0xFFF0000000000001 = true := by decide

/-- States that meet the invariant: with a WAIT to come, and with a command in its loop; each takes a step. -/
theorem witness_StepKeepsGood : (idleWith [.wait]).good = true ∧
    goesOn (step (idleWith [.wait])) (fun t => t.good) = true ∧
    (crcState .crcenc [1, 1] ⟨.output, 2, 0, 4⟩).good = true ∧
    goesOn (step (crcState .crcenc [1, 1] ⟨.output, 2, 0, 4⟩)) (fun t => t.good) = true := by decide +kernel

theorem witness_GoodNeverStops : (crcState .crcchk [1, 2] ⟨.divide, 1, 1, 0⟩).good = true := by decide

/-- CRCENC's first remainder bit changes the byte at its destination's element n. -/
theorem witness_WritesStayInRegions :
    (let s := { crcState .crcenc [1, 1] ⟨.output, 2, 0, 4⟩ with buf := bytesOf 0 [1, 1] ++ [(0x102, 0)] };
      s.good = true ∧ Instr.crcenc.port = .cmd ∧ s.buf.readByte 0x102 = 0 ∧
      goesOn (exec .crcenc s) (fun t => t.buf.readByte 0x102 == 1) = true) ∧
    InFlight .crcenc (crcState .crcenc [1, 1] ⟨.output, 2, 0, 4⟩)
      (eng .crcenc (ops 0 0x100 2 0 0) crcCfg1 2 (.crc ⟨.output, 2, 0, 4⟩)) := ⟨by decide +kernel, rfl, rfl⟩

/-- A command at its check step in a state that meets the invariant, a legal word and an illegal one. -/
theorem witness_CommandFinishes :
    (let s := busyAt .iqcorr (ops 0 0x100 2 0 0) ConfigRegs.reset [] 0 .check;
      s.good = true ∧ s.eng = some (eng .iqcorr (ops 0 0x100 2 0 0) ConfigRegs.reset 0 .check) ∧ s.resetAsserted = false ∧
      s.agenda = [] ∧ stepBound (eng .iqcorr (ops 0 0x100 2 0 0) ConfigRegs.reset 0 .check) = 7) ∧
    (let e : Engine := ⟨0x00000008, Args.reset, ConfigRegs.reset, false, 0, .check⟩;
      let s := { State.reset with cmd := 0x00000008, eng := some e };
      s.good = true ∧ s.eng = some e ∧ e.progress = .check ∧ stepBound e = 1) := by decide

end Sys2Proof.Tests
end

section
/-!
The sign, the magnitude field and the value of a binary64: each bit operation and each test of `F64`, once, in these terms.
-/
namespace Sys2Proof.F64

/-! ### A binary64 is its sign and its magnitude field -/

theorem ext_of_sign_magBits {x y : F64} (hs : sign x = sign y) (hm : magBits x = magBits y) : x = y := by
  rw [← pack_sign_magBits x, hs, hm, pack_sign_magBits]

theorem magBits_eq_setWidth (x : F64) : magBits x = (x.setWidth 63).toNat := by
  rw [BitVec.toNat_setWidth]; rfl

theorem getLsbD_zero_eq (x : F64) : x.getLsbD 0 = decide (magBits x % 2 = 1) := by
  unfold magBits BitVec.getLsbD
  rw [Nat.testBit_zero]
  exact decide_eq_decide.2 (by omega)

theorem isZero_iff (x : F64) : isZero x = true ↔ magBits x = 0 := by simp [isZero]

/-! ### Negation and absolute value -/

theorem getLsbD_neg (x : F64) (i : Nat) :
    (neg x).getLsbD i = if i = 63 then !x.getLsbD 63 else x.getLsbD i := by
  have h : (0x8000000000000000 : F64) = BitVec.twoPow 64 63 := by decide
  rw [neg, h, BitVec.getLsbD_xor, BitVec.getLsbD_twoPow]
  by_cases hi : i = 63
  · simp [hi]
  · simp [hi, Ne.symm hi]

theorem getLsbD_abs (x : F64) (i : Nat) :
    (abs x).getLsbD i = if i = 63 then false else x.getLsbD i := by
  have h : (0x7FFFFFFFFFFFFFFF : F64) = ~~~BitVec.twoPow 64 63 := by decide
  rw [abs, h, BitVec.getLsbD_and, BitVec.getLsbD_not, BitVec.getLsbD_twoPow]
  by_cases hi : i = 63
  · simp [hi]
  · by_cases h64 : i < 64
    · simp [Ne.symm hi, hi, h64]
    · simp [hi, BitVec.getLsbD_of_ge x i (by omega)]

@[simp] theorem sign_neg (x : F64) : sign (neg x) = !sign x := by simp only [sign, getLsbD_neg, if_true]

@[simp] theorem magBits_neg (x : F64) : magBits (neg x) = magBits x := by
  have h : (neg x).setWidth 63 = x.setWidth 63 := by
    apply BitVec.eq_of_getLsbD_eq
    intro i hi
    simp [getLsbD_neg, show i ≠ 63 by omega]
  rw [magBits_eq_setWidth, h, magBits_eq_setWidth]

@[simp] theorem isFinite_neg (x : F64) : isFinite (neg x) = isFinite x := by
  rw [Bool.eq_iff_iff, isFinite_iff, isFinite_iff, magBits_neg]

@[simp] theorem isNaN_neg (x : F64) : isNaN (neg x) = isNaN x := by
  rw [Bool.eq_iff_iff, isNaN_iff, isNaN_iff, magBits_neg]

@[simp] theorem neg_pack (s : Bool) {b : Nat} (h : b < 2 ^ 63) : neg (pack s b) = pack (!s) b :=
  ext_of_sign_magBits (by rw [sign_neg, sign_pack s h, sign_pack _ h])
    (by rw [magBits_neg, magBits_pack s h, magBits_pack _ h])

/-! ### Values -/

theorem toInt_eq (x : F64) :
    toInt x = if sign x then -(magVal (magBits x) : Int) else (magVal (magBits x) : Int) := rfl

theorem toInt_of_sign_false {x : F64} (h : sign x = false) : toInt x = magVal (magBits x) := by
  rw [toInt_eq, h]; rfl

theorem mag1074_eq_natAbs (x : F64) : mag1074 x = (toInt x).natAbs := (natAbs_toInt x).symm

theorem magVal_eq_zero_iff {b : Nat} : magVal b = 0 ↔ b = 0 := magVal_inj (b := 0)

theorem toInt_eq_zero_iff (x : F64) : toInt x = 0 ↔ magBits x = 0 := by
  rw [← Int.natAbs_eq_zero, natAbs_toInt, magVal_eq_zero_iff]

@[simp] theorem toInt_neg (x : F64) : toInt (neg x) = -toInt x := by
  rw [toInt_eq, toInt_eq, sign_neg, magBits_neg]
  cases sign x <;> simp

theorem unit1074_eq : unit1074 = 2 ^ 1074 := by
  unfold unit1074
  generalize 1074 = k
  exact Nat.one_shiftLeft k

/-- Each zero is told from every other value by its sign and its magnitude field. -/
theorem eq_pack_zero_iff (x : F64) (s : Bool) : x = pack s 0 ↔ sign x = s ∧ magBits x = 0 := by
  constructor
  · rintro rfl
    exact ⟨sign_pack s (by norm_num), magBits_pack s (by norm_num)⟩
  · rintro ⟨hs, hm⟩
    exact ext_of_sign_magBits (by rw [hs, sign_pack s (by norm_num)]) (by rw [hm, magBits_pack s (by norm_num)])

theorem expField_eq_extract (x : F64) : expField x = (x.extractLsb' 52 11).toNat := by
  rw [BitVec.extractLsb'_toNat, Nat.shiftRight_eq_div_pow, expField, magBits]
  omega

theorem fracField_eq_extract (x : F64) : fracField x = (x.extractLsb' 0 52).toNat := by
  rw [BitVec.extractLsb'_toNat, Nat.shiftRight_eq_div_pow, fracField, magBits]
  omega

/-! ### The fields of a rounded result -/

theorem roundMag_lt_sign (n d : Nat) : roundMag n d < 2 ^ 63 := lt_of_le_of_lt (roundMag_le_inf n d) infMagBits_lt

theorem not_isNaN_pack (s : Bool) {b : Nat} (h : b ≤ infMagBits) : isNaN (pack s b) = false := by
  rw [← Bool.not_eq_true, isNaN_iff, magBits_pack s (lt_of_le_of_lt h infMagBits_lt)]
  omega

theorem isFinite_pack_iff (s : Bool) {b : Nat} (h : b < 2 ^ 63) : isFinite (pack s b) = true ↔ b < infMagBits := by
  rw [isFinite_iff, magBits_pack s h]

end Sys2Proof.F64
end

section
/-!
`roundMag` rounds to nearest, ties to even (00_scope.md R11): of the two representable neighbours that `roundMag_bracket`
gives, the one it takes is nearest among all, and the overflow threshold is the midpoint below the infinity.
-/
namespace Sys2Proof.F64
open Sys2Proof.Machine

/-! ### Nearest of two neighbours, in any ordered ring -/

section Neighbours
variable {α : Type*} [CommRing α] [LinearOrder α] [IsStrictOrderedRing α] {t lo hi c : α}

/-- At or below the midpoint of two neighbours, the lower one is as near as any value not between them. -/
theorem abs_sub_lower_le (hlo : lo ≤ t) (hmid : 2 * t ≤ lo + hi) (hc : c ≤ lo ∨ hi ≤ c) : |t - lo| ≤ |t - c| := by
  rw [abs_of_nonneg (sub_nonneg.2 hlo), le_abs]
  rcases hc with hc | hc
  · left; linarith
  · right; linarith

/-- At or above the midpoint, the upper one is. -/
theorem abs_sub_upper_le (hhi : t ≤ hi) (hmid : lo + hi ≤ 2 * t) (hc : c ≤ lo ∨ hi ≤ c) : |t - hi| ≤ |t - c| := by
  rw [abs_sub_comm, abs_of_nonneg (sub_nonneg.2 hhi), le_abs]
  rcases hc with hc | hc
  · left; linarith
  · right; linarith

/-- Strictly below the midpoint, only the lower neighbour itself is as near. -/
theorem eq_lower_of_abs_sub_eq (hlo : lo ≤ t) (hmid : 2 * t < lo + hi) (hc : c ≤ lo ∨ hi ≤ c)
    (h : |t - lo| = |t - c|) : c = lo := by
  rw [abs_of_nonneg (sub_nonneg.2 hlo)] at h
  rcases hc with hc | hc
  · rw [abs_of_nonneg (by linarith)] at h; linarith
  · rw [abs_of_nonpos (by linarith)] at h; linarith

/-- Strictly above the midpoint, only the upper neighbour itself is as near. -/
theorem eq_upper_of_abs_sub_eq (hhi : t ≤ hi) (hmid : lo + hi < 2 * t) (hc : c ≤ lo ∨ hi ≤ c)
    (h : |t - hi| = |t - c|) : c = hi := by
  rw [abs_of_nonpos (sub_nonpos.2 hhi)] at h
  rcases hc with hc | hc
  · rw [abs_of_nonneg (by linarith)] at h; linarith
  · rw [abs_of_nonpos (by linarith)] at h; linarith

end Neighbours

/-! ### The overflow threshold -/

/-- Where overflow begins, in units of 2^-1074: half a unit in the last place above the largest finite value. -/
def overflowMag : Nat := (2 ^ 53 - 1) * 2 ^ 2045 + 2 ^ 2044

theorem magVal_infMagBits : magVal infMagBits = 2 ^ 53 * 2 ^ 2045 := by
  rw [show infMagBits = 2045 * 2 ^ 52 + 2 ^ 53 by decide, magVal_pack (by norm_num) (by norm_num)]

theorem magVal_infMagBits_pred : magVal (infMagBits - 1) = (2 ^ 53 - 1) * 2 ^ 2045 := by
  rw [show infMagBits - 1 = 2045 * 2 ^ 52 + (2 ^ 53 - 1) by decide, magVal_pack (by norm_num) (by norm_num)]

/-- The threshold is the midpoint of the largest finite value and the value 2^1024 that the infinity's bits stand for. -/
theorem two_mul_overflowMag : 2 * overflowMag = magVal (infMagBits - 1) + magVal infMagBits := by
  rw [overflowMag, magVal_infMagBits, magVal_infMagBits_pred, pow_succ 2 2044]
  generalize 2 ^ 2044 = u
  omega

/-- A midpoint of neighbours lies below the threshold exactly where the upper neighbour is finite. -/
theorem midpoint_lt_overflow_iff (b : Nat) : magVal b + magVal (b + 1) < 2 * overflowMag ↔ b + 1 < infMagBits := by
  have hinf : 0 < infMagBits := by decide
  have h1 := magVal_lt_iff (a := b) (b := infMagBits - 1)
  have h2 := magVal_lt_iff (a := b + 1) (b := infMagBits)
  rw [two_mul_overflowMag]
  omega

theorem magVal_infMagBits_pred_lt_overflow : magVal (infMagBits - 1) < overflowMag := by
  have h := magVal_lt_succ (infMagBits - 1)
  rw [show infMagBits - 1 + 1 = infMagBits by decide] at h
  have := two_mul_overflowMag
  omega

theorem overflow_lt_magVal_infMagBits : overflowMag < magVal infMagBits := by
  have := magVal_infMagBits_pred_lt_overflow
  have := two_mul_overflowMag
  omega

/-- From the threshold on, the result is the infinity. -/
theorem roundMag_overflow {n d : Nat} (hd : 0 < d) (h : d * overflowMag ≤ n) : roundMag n d = infMagBits := by
  obtain ⟨b, -, hb, hround⟩ := roundMag_bracket n d hd
  have hfinite : magVal (infMagBits - 1) < magVal (b + 1) :=
    lt_trans magVal_infMagBits_pred_lt_overflow (Nat.lt_of_mul_lt_mul_left (lt_of_le_of_lt h hb))
  have hle : infMagBits - 1 < b + 1 := magVal_lt_iff.1 hfinite
  rcases hround with ⟨hr, hmid⟩ | ⟨hr, -⟩
  · -- Only the largest finite value could be taken, and its midpoint, a tie, does not go to it: it is odd.
    have hne : b ≠ infMagBits - 1 := by
      rintro rfl
      rw [show infMagBits - 1 + 1 = infMagBits by decide, ← two_mul_overflowMag, Nat.mul_left_comm] at hmid
      have hodd : (infMagBits - 1) % 2 = 1 := by decide
      omega
    omega
  · omega

/-- Below the threshold the result is finite, nearest of all magnitudes, and even in a tie. -/
theorem roundMag_nearest {n d : Nat} (hd : 0 < d) (h : n < d * overflowMag) :
    roundMag n d < infMagBits ∧ ∀ k : Nat,
      |(n : Int) - d * magVal (roundMag n d)| ≤ |(n : Int) - d * magVal k| ∧
      (|(n : Int) - d * magVal (roundMag n d)| = |(n : Int) - d * magVal k| →
        k = roundMag n d ∨ roundMag n d % 2 = 0) := by
  obtain ⟨b, hlo, hhi, hround⟩ := roundMag_bracket n d hd
  have hsep : ∀ k, (d * magVal k : Int) ≤ d * magVal b ∨ (d * magVal (b + 1) : Int) ≤ d * magVal k := by
    intro k
    rcases Nat.lt_or_ge b k with hk | hk
    · right; exact_mod_cast Nat.mul_le_mul_left d (magVal_le_iff.2 hk)
    · left; exact_mod_cast Nat.mul_le_mul_left d (magVal_le_iff.2 hk)
  have hinj : ∀ {k c : Nat}, (d * magVal k : Int) = d * magVal c → k = c := by
    intro k c hkc
    exact magVal_inj.1 (Nat.eq_of_mul_eq_mul_left hd (by exact_mod_cast hkc))
  rw [Nat.mul_add] at hround
  zify at hlo hhi
  rcases hround with ⟨hr, hmid⟩ | ⟨hr, hmid⟩
  · have hb : b < infMagBits := by
      have : d * magVal b < d * overflowMag := by zify; zify at h; omega
      exact magVal_lt_iff.1 (lt_trans (Nat.lt_of_mul_lt_mul_left this) overflow_lt_magVal_infMagBits)
    rw [hr, min_eq_left hb.le]
    refine ⟨hb, fun k => ⟨abs_sub_lower_le hlo (by zify at hmid; omega) (hsep k), fun htie => ?_⟩⟩
    rcases hmid with hlt | ⟨-, heven⟩
    · exact .inl (hinj (eq_lower_of_abs_sub_eq hlo (by exact_mod_cast hlt) (hsep k) htie))
    · exact .inr heven
  · have hb : b + 1 < infMagBits := by
      rw [← midpoint_lt_overflow_iff]
      apply Nat.lt_of_mul_lt_mul_left (a := d)
      rw [Nat.mul_add, Nat.mul_left_comm]
      omega
    rw [hr, min_eq_left hb.le]
    refine ⟨hb, fun k => ⟨abs_sub_upper_le hhi.le (by zify at hmid; omega) (hsep k), fun htie => ?_⟩⟩
    rcases hmid with hlt | ⟨-, hodd⟩
    · exact .inl (hinj (eq_upper_of_abs_sub_eq hhi.le (by exact_mod_cast hlt) (hsep k) htie))
    · right; omega

/-- `roundMag` with a sign is R11's rounding. -/
theorem roundsTo_pack_roundMag (neg : Bool) (n d : Nat) (hd : 0 < d) :
    RoundsTo neg n d (pack neg (roundMag n d)) := by
  have hlt := roundMag_lt_sign n d
  refine ⟨sign_pack neg hlt, fun hover => ?_, fun hunder => ?_⟩
  · rw [isInf_iff, magBits_pack neg hlt]
    exact roundMag_overflow hd hover
  · obtain ⟨hfin, hnear⟩ := roundMag_nearest hd hunder
    refine ⟨(isFinite_pack_iff neg hlt).2 hfin, fun z _ hz => ?_⟩
    beta_reduce
    rw [natAbs_toInt, natAbs_toInt, magBits_pack neg hlt]
    refine ⟨(hnear _).1, fun htie => ((hnear _).2 htie).imp (fun hk => ?_) (fun heven => ?_)⟩
    · exact ext_of_sign_magBits (by rw [hz, sign_pack neg hlt]) (by rw [hk, magBits_pack neg hlt])
    · rw [getLsbD_zero_eq, magBits_pack neg hlt, heven]; rfl

end Sys2Proof.F64
end

section
/-!
The operators of 00_scope.md R11 on finite operands, the comparisons and the integer conversion, in terms of `toInt`; with them
the statement that every operator rounds its exact result once.
-/
namespace Sys2Proof.F64
open Sys2Proof.Machine

/-! ### The operators on finite operands -/

section Finite
variable {x y : F64} (hx : isFinite x = true) (hy : isFinite y = true)
include hx hy

theorem add_of_isFinite : add x y =
    if toInt x + toInt y = 0 then pack (sign x && sign y) 0 else roundInt (toInt x + toInt y) := by
  simp [add, not_isNaN_of_isFinite, not_isInf_of_isFinite, hx, hy]

theorem sub_of_isFinite : sub x y =
    if toInt x - toInt y = 0 then pack (sign x && !sign y) 0 else roundInt (toInt x - toInt y) := by
  rw [sub, add_of_isFinite hx (by rw [isFinite_neg, hy]), sign_neg, toInt_neg, ← sub_eq_add_neg]

theorem mul_of_isFinite : mul x y =
    pack (sign x != sign y) (roundMag ((toInt x).natAbs * (toInt y).natAbs) (2 ^ 1074)) := by
  simp [mul, not_isNaN_of_isFinite, not_isInf_of_isFinite, hx, hy, mag1074_eq_natAbs, ← unit1074_eq]

theorem div_of_isFinite : div x y =
    if toInt y = 0 then (if toInt x = 0 then nan else pack (sign x != sign y) infMagBits)
    else pack (sign x != sign y) (roundMag ((toInt x).natAbs * 2 ^ 1074) (toInt y).natAbs) := by
  simp [div, not_isNaN_of_isFinite, not_isInf_of_isFinite, hx, hy, isZero_iff, toInt_eq_zero_iff, mag1074_eq_natAbs,
    ← unit1074_eq]

end Finite

/-- Only two negative zeros are two negative values with the sum zero. -/
theorem signs_of_add_eq_zero {x y : F64} (h : toInt x + toInt y = 0) :
    (sign x && sign y) = true ↔ x = 0x8000000000000000 ∧ y = 0x8000000000000000 := by
  have hzero : (0x8000000000000000 : F64) = pack true 0 := by decide
  rw [hzero, eq_pack_zero_iff, eq_pack_zero_iff, Bool.and_eq_true]
  constructor
  · rintro ⟨hsx, hsy⟩
    rw [toInt_eq, toInt_eq, hsx, hsy] at h
    simp only [if_true] at h
    refine ⟨⟨hsx, ?_⟩, hsy, ?_⟩ <;> (rw [← magVal_eq_zero_iff]; omega)
  · rintro ⟨⟨hsx, -⟩, hsy, -⟩
    exact ⟨hsx, hsy⟩

theorem roundsTo_roundInt (t : Int) : RoundsTo (decide (t < 0)) t.natAbs 1 (roundInt t) :=
  roundsTo_pack_roundMag _ _ _ Nat.one_pos

/-- A zero sum is -0.0 only of two negative zeros. -/
theorem add_eq_of_sum_zero {x y : F64} (hx : isFinite x = true) (hy : isFinite y = true) (h : toInt x + toInt y = 0) :
    add x y = if x = 0x8000000000000000 ∧ y = 0x8000000000000000 then 0x8000000000000000 else 0 := by
  rw [add_of_isFinite hx hy, if_pos h]
  simp only [← signs_of_add_eq_zero h]
  cases sign x && sign y <;> decide

theorem neg_eq_negZero_iff (y : F64) : neg y = 0x8000000000000000 ↔ y = 0 := by
  rw [show (0x8000000000000000 : F64) = pack true 0 by decide, show (0 : F64) = pack false 0 by decide,
    eq_pack_zero_iff, eq_pack_zero_iff, sign_neg, magBits_neg, Bool.not_eq_true']

theorem add_rounds {x y : F64} (hx : isFinite x = true) (hy : isFinite y = true) (h : toInt x + toInt y ≠ 0) :
    RoundsTo (decide (toInt x + toInt y < 0)) (toInt x + toInt y).natAbs 1 (add x y) := by
  rw [add_of_isFinite hx hy, if_neg h]
  exact roundsTo_roundInt _

theorem sub_rounds {x y : F64} (hx : isFinite x = true) (hy : isFinite y = true) (h : toInt x - toInt y ≠ 0) :
    RoundsTo (decide (toInt x - toInt y < 0)) (toInt x - toInt y).natAbs 1 (sub x y) := by
  rw [sub_of_isFinite hx hy, if_neg h]
  exact roundsTo_roundInt _

/-- A zero difference is -0.0 only of -0.0 less +0.0. -/
theorem sub_eq_of_difference_zero {x y : F64} (hx : isFinite x = true) (hy : isFinite y = true)
    (h : toInt x - toInt y = 0) :
    sub x y = if x = 0x8000000000000000 ∧ y = 0 then 0x8000000000000000 else 0 := by
  rw [sub, add_eq_of_sum_zero hx (by rw [isFinite_neg, hy]) (by rw [toInt_neg, ← sub_eq_add_neg, h])]
  simp only [neg_eq_negZero_iff]

theorem mul_rounds {x y : F64} (hx : isFinite x = true) (hy : isFinite y = true) :
    RoundsTo (sign x != sign y) (toInt x * toInt y).natAbs (2 ^ 1074) (mul x y) := by
  rw [mul_of_isFinite hx hy, ← Int.natAbs_mul]
  exact roundsTo_pack_roundMag _ _ _ (pow_pos two_pos _)

theorem div_rounds {x y : F64} (hx : isFinite x = true) (hy : isFinite y = true) (h : toInt y ≠ 0) :
    RoundsTo (sign x != sign y) ((toInt x).natAbs * 2 ^ 1074) (toInt y).natAbs (div x y) := by
  rw [div_of_isFinite hx hy, if_neg h]
  exact roundsTo_pack_roundMag _ _ _ (Int.natAbs_pos.2 h)

/-! ### Fields, comparisons and integers -/

/-- The value of the bits, by exponent and fraction field (00_scope.md R10). -/
theorem toInt_eq_of_fields (x : F64) :
    let E := (x.extractLsb' 52 11).toNat
    let f := (x.extractLsb' 0 52).toNat
    let m := if E = 0 then f else (2 ^ 52 + f) * 2 ^ (E - 1)
    toInt x = if x.getLsbD 63 then -(m : Int) else m := by
  intro E f m
  have hm : mag1074 x = m := by
    rw [mag1074, expField_eq_extract, fracField_eq_extract, Nat.shiftLeft_eq]
  rw [toInt, hm]
  rfl

theorem isFinite_eq_extract (x : F64) : isFinite x = decide ((x.extractLsb' 52 11).toNat ≠ 2047) := by
  rw [isFinite, expField_eq_extract, Bool.eq_iff_iff, bne_iff_ne, decide_eq_true_iff]

theorem isInf_eq_extract (x : F64) :
    isInf x = decide ((x.extractLsb' 52 11).toNat = 2047 ∧ (x.extractLsb' 0 52).toNat = 0) := by
  rw [isInf, expField_eq_extract, fracField_eq_extract, Bool.eq_iff_iff, Bool.and_eq_true, beq_iff_eq, beq_iff_eq,
    decide_eq_true_iff]

theorem isNaN_eq_extract (x : F64) :
    isNaN x = decide ((x.extractLsb' 52 11).toNat = 2047 ∧ (x.extractLsb' 0 52).toNat ≠ 0) := by
  rw [isNaN, expField_eq_extract, fracField_eq_extract, Bool.eq_iff_iff, Bool.and_eq_true, beq_iff_eq, bne_iff_ne,
    decide_eq_true_iff]

theorem lt_eq_toInt (x y : F64) : lt x y = decide ((isNaN x = false ∧ isNaN y = false) ∧ toInt x < toInt y) := by
  simp [lt, orderKey_lt_iff]

theorem le_eq_toInt (x y : F64) : le x y = decide ((isNaN x = false ∧ isNaN y = false) ∧ toInt x ≤ toInt y) := by
  simp [le, orderKey_le_iff]

theorem orderKey_eq_iff (x y : F64) : orderKey x = orderKey y ↔ toInt x = toInt y := by
  rw [le_antisymm_iff, le_antisymm_iff, orderKey_le_iff, orderKey_le_iff]

theorem eq_eq_toInt (x y : F64) : eq x y = decide ((isNaN x = false ∧ isNaN y = false) ∧ toInt x = toInt y) := by
  simp [eq, orderKey_eq_iff]

theorem gt_eq_toInt (x y : F64) : gt x y = decide ((isNaN x = false ∧ isNaN y = false) ∧ toInt y < toInt x) := by
  simp only [gt, lt_eq_toInt, and_comm (a := isNaN y = false)]

theorem ge_eq_toInt (x y : F64) : ge x y = decide ((isNaN x = false ∧ isNaN y = false) ∧ toInt y ≤ toInt x) := by
  simp only [ge, le_eq_toInt, and_comm (a := isNaN y = false)]

/-- A count up to 2^53 of any unit from 2^52 on is representable: its significand is the count shifted to 53 bits. -/
theorem exists_magVal_eq {k p : Nat} (hk : k ≤ 2 ^ 53) (hp : 52 ≤ p) :
    ∃ c ≤ p * 2 ^ 52 + 2 ^ 53, magVal c = k * 2 ^ p := by
  rcases Nat.eq_zero_or_pos k with rfl | hpos
  · exact ⟨0, Nat.zero_le _, by simp⟩
  obtain ⟨s, hs⟩ : ∃ s, s = 52 - Nat.log2 k := ⟨_, rfl⟩
  have hlow : 2 ^ 52 ≤ k * 2 ^ s := by
    calc 2 ^ 52 ≤ 2 ^ (Nat.log2 k + s) := Nat.pow_le_pow_right (by norm_num) (by omega)
      _ = 2 ^ Nat.log2 k * 2 ^ s := Nat.pow_add ..
      _ ≤ k * 2 ^ s := Nat.mul_le_mul_right _ (Nat.log2_self_le hpos.ne')
  have hhigh : k * 2 ^ s ≤ 2 ^ 53 := by
    by_cases h52 : Nat.log2 k ≤ 52
    · calc k * 2 ^ s ≤ 2 ^ (Nat.log2 k + 1) * 2 ^ s := Nat.mul_le_mul_right _ Nat.lt_log2_self.le
        _ = 2 ^ 53 := by rw [← Nat.pow_add]; congr 1; omega
    · rw [hs, Nat.sub_eq_zero_of_le (by omega)]; omega
  refine ⟨(p - s) * 2 ^ 52 + k * 2 ^ s, ?_, ?_⟩
  · exact Nat.add_le_add (Nat.mul_le_mul_right _ (Nat.sub_le p s)) hhigh
  · rw [magVal_pack hhigh (.inr hlow), Nat.mul_assoc, ← Nat.pow_add, Nat.add_sub_cancel' (by omega)]

theorem ofInt_zero : ofInt 0 = 0 := by
  rw [ofInt, Int.zero_mul]
  decide

/-- The conversion of an integer up to 2^53 in magnitude is exact (00_scope.md R17). -/
theorem ofInt_exact {n : Int} (hn : |n| ≤ 2 ^ 53) : isFinite (ofInt n) = true ∧ toInt (ofInt n) = n * 2 ^ 1074 := by
  have hk : n.natAbs ≤ 2 ^ 53 := by rw [Int.abs_eq_natAbs] at hn; omega
  obtain ⟨c, hc, hval⟩ := exists_magVal_eq (p := 1074) hk (by norm_num)
  have hfin : c < infMagBits := lt_of_le_of_lt hc (by decide)
  have hsign : c < 2 ^ 63 := lt_trans hfin infMagBits_lt
  have hneg : n * 2 ^ 1074 < 0 ↔ n < 0 := by
    simpa only [zero_mul] using mul_lt_mul_iff_of_pos_right (b := n) (c := 0) (pow_pos two_pos 1074)
  have hbits : ofInt n = pack (decide (n < 0)) c := by
    rw [ofInt, roundInt, unit1074_eq, Int.natAbs_mul, Int.natAbs_natCast, ← hval, Nat.cast_pow, Nat.cast_ofNat,
      decide_eq_decide.2 hneg,
      ← Nat.one_mul (magVal c), roundMag_exact Nat.one_pos hfin.le]
  rw [hbits, isFinite_pack_iff _ hsign, toInt_eq, sign_pack _ hsign, magBits_pack _ hsign, hval]
  refine ⟨hfin, ?_⟩
  rw [Nat.cast_mul, Nat.cast_natAbs, Nat.cast_pow, Nat.cast_ofNat]
  by_cases h0 : n < 0
  · simp only [h0, decide_true, if_true, abs_of_neg h0, neg_mul, neg_neg, Int.cast_neg, Int.cast_id]
  · simp only [h0, decide_false, Bool.false_eq_true, if_false, abs_of_nonneg (not_lt.1 h0), Int.cast_id]

end Sys2Proof.F64

namespace Sys2Proof.Proofs
open Sys2Proof Sys2Proof.Machine

/-- Settles O53: `roundsTo_pack_roundMag` says that `roundMag` rounds once, and each operator on finite operands is one
`roundMag` of its exact result. -/
theorem roundingIsNearestEven : Obligations.RoundingIsNearestEven := by
  refine ⟨F64.roundsTo_pack_roundMag, fun x y hx hy => ?_, fun x => ?_, fun x y => ?_, fun x i => ?_, fun n hn => ?_⟩
  · exact ⟨F64.add_rounds hx hy, F64.add_eq_of_sum_zero hx hy, F64.sub_rounds hx hy, F64.sub_eq_of_difference_zero hx hy,
      F64.mul_rounds hx hy, F64.div_rounds hx hy⟩
  · exact ⟨F64.toInt_eq_of_fields x, F64.isFinite_eq_extract x, F64.isInf_eq_extract x, F64.isNaN_eq_extract x, rfl⟩
  · exact ⟨F64.lt_eq_toInt x y, F64.le_eq_toInt x y, F64.gt_eq_toInt x y, F64.ge_eq_toInt x y, F64.eq_eq_toInt x y⟩
  · exact ⟨F64.getLsbD_neg x i, F64.getLsbD_abs x i⟩
  · obtain ⟨hfin, hval⟩ := F64.ofInt_exact hn
    exact ⟨hfin, hval, fun h0 => h0 ▸ F64.ofInt_zero⟩

end Sys2Proof.Proofs
end
section
/-!
The operators on NaNs, infinities and zero divisors (00_scope.md R11, R21).
-/
namespace Sys2Proof.F64

/-! ### Infinities and zeros -/

/-- The infinity of a sign. -/
def infinity (s : Bool) : F64 := pack s infMagBits

@[simp] theorem pack_infMagBits (s : Bool) : pack s infMagBits = infinity s := rfl

theorem infinity_eq (s : Bool) : infinity s = if s then 0xFFF0000000000000 else 0x7FF0000000000000 := by
  cases s <;> decide

theorem pack_zero_eq (s : Bool) : pack s 0 = if s then 0x8000000000000000 else 0 := by
  cases s <;> decide

@[simp] theorem sign_infinity (s : Bool) : sign (infinity s) = s := sign_pack s infMagBits_lt

@[simp] theorem magBits_infinity (s : Bool) : magBits (infinity s) = infMagBits := magBits_pack s infMagBits_lt

@[simp] theorem isNaN_infinity (s : Bool) : isNaN (infinity s) = false := not_isNaN_pack s le_rfl

@[simp] theorem isInf_infinity (s : Bool) : isInf (infinity s) = true := (isInf_iff _).2 (magBits_infinity s)

@[simp] theorem isZero_infinity (s : Bool) : isZero (infinity s) = false := by
  rw [isZero, magBits_infinity]; decide

@[simp] theorem neg_infinity (s : Bool) : neg (infinity s) = infinity (!s) := neg_pack s infMagBits_lt

/-! ### A NaN operand -/

section NanOperand
variable {x y : F64} (h : isNaN x = true ∨ isNaN y = true)
include h

theorem add_of_isNaN : add x y = nan := by
  rw [add, if_pos (Bool.or_eq_true _ _ ▸ h)]

theorem sub_of_isNaN : sub x y = nan := add_of_isNaN (by rwa [isNaN_neg])

theorem mul_of_isNaN : mul x y = nan := by
  rw [mul, if_pos (Bool.or_eq_true _ _ ▸ h)]

theorem div_of_isNaN : div x y = nan := by
  rw [div, if_pos (Bool.or_eq_true _ _ ▸ h)]

end NanOperand

/-! ### Infinite operands -/

theorem add_infinity_infinity (s u : Bool) : add (infinity s) (infinity u) = if s = u then infinity s else nan := by
  cases s <;> cases u <;> simp [add]

theorem sub_infinity_infinity (s u : Bool) : sub (infinity s) (infinity u) = if s = u then nan else infinity s := by
  rw [sub, neg_infinity, add_infinity_infinity]
  cases s <;> cases u <;> rfl

theorem mul_infinity_infinity (s u : Bool) : mul (infinity s) (infinity u) = infinity (s != u) := by
  simp [mul]

theorem div_infinity_infinity (s u : Bool) : div (infinity s) (infinity u) = nan := by simp [div]

section InfiniteAndFinite
variable {y : F64} (hy : isFinite y = true) (s : Bool)
include hy

theorem add_infinity_left : add (infinity s) y = infinity s := by
  simp [add, not_isNaN_of_isFinite hy, not_isInf_of_isFinite hy]

theorem add_infinity_right : add y (infinity s) = infinity s := by
  simp [add, not_isNaN_of_isFinite hy, not_isInf_of_isFinite hy]

theorem sub_infinity_left : sub (infinity s) y = infinity s :=
  add_infinity_left (by rw [isFinite_neg, hy]) s

theorem sub_infinity_right : sub y (infinity s) = infinity (!s) := by
  rw [sub, neg_infinity, add_infinity_right hy]

theorem mul_infinity_left : mul (infinity s) y = if toInt y = 0 then nan else infinity (s != sign y) := by
  simp [mul, not_isNaN_of_isFinite hy, ← toInt_eq_zero_iff, isZero_iff]

theorem mul_infinity_right : mul y (infinity s) = if toInt y = 0 then nan else infinity (s != sign y) := by
  simp [mul, not_isNaN_of_isFinite hy, ← toInt_eq_zero_iff, isZero_iff, bne_comm (a := s)]

theorem div_infinity_left : div (infinity s) y = infinity (s != sign y) := by
  simp [div, not_isNaN_of_isFinite hy, not_isInf_of_isFinite hy]

theorem div_infinity_right : div y (infinity s) = pack (s != sign y) 0 := by
  simp [div, not_isNaN_of_isFinite hy, not_isInf_of_isFinite hy, bne_comm (a := s)]

end InfiniteAndFinite

theorem div_zero_of_isFinite {x y : F64} (hx : isFinite x = true) (hy : isFinite y = true) (h : toInt y = 0) :
    div x y = if toInt x = 0 then nan else infinity (sign x != sign y) := by
  rw [div_of_isFinite hx hy, if_pos h]
  rfl

/-! ### No NaN but the canonical one -/

/-- A value that, if it is a NaN, is the canonical one (00_scope.md R21). -/
def CanonicalNaN (z : F64) : Prop := isNaN z = true → z = nan

theorem canonicalNaN_nan : CanonicalNaN nan := fun _ => rfl

theorem canonicalNaN_of_not {z : F64} (h : isNaN z = false) : CanonicalNaN z :=
  fun hn => absurd hn (by rw [h]; decide)

theorem canonicalNaN_pack (s : Bool) {b : Nat} (h : b ≤ infMagBits) : CanonicalNaN (pack s b) :=
  canonicalNaN_of_not (not_isNaN_pack s h)

theorem canonicalNaN_pack_roundMag (s : Bool) (n d : Nat) : CanonicalNaN (pack s (roundMag n d)) :=
  canonicalNaN_pack s (roundMag_le_inf n d)

theorem canonicalNaN_add (x y : F64) : CanonicalNaN (add x y) := by
  unfold add
  split
  · exact canonicalNaN_nan
  rename_i hnan
  simp only [Bool.or_eq_true, not_or, Bool.not_eq_true] at hnan
  split
  · split
    · exact canonicalNaN_nan
    · exact canonicalNaN_of_not hnan.1
  split
  · exact canonicalNaN_of_not hnan.2
  dsimp only
  split
  · exact canonicalNaN_pack _ (Nat.zero_le _)
  · exact canonicalNaN_pack_roundMag _ _ _

theorem canonicalNaN_sub (x y : F64) : CanonicalNaN (sub x y) := canonicalNaN_add x (neg y)

theorem canonicalNaN_mul (x y : F64) : CanonicalNaN (mul x y) := by
  unfold mul
  dsimp only
  split
  · exact canonicalNaN_nan
  split
  · split
    · exact canonicalNaN_nan
    · exact canonicalNaN_pack _ le_rfl
  · exact canonicalNaN_pack_roundMag _ _ _

theorem canonicalNaN_div (x y : F64) : CanonicalNaN (div x y) := by
  unfold div
  dsimp only
  split
  · exact canonicalNaN_nan
  split
  · split
    · exact canonicalNaN_nan
    · exact canonicalNaN_pack _ le_rfl
  split
  · exact canonicalNaN_pack _ (Nat.zero_le _)
  split
  · split
    · exact canonicalNaN_nan
    · exact canonicalNaN_pack _ le_rfl
  · exact canonicalNaN_pack_roundMag _ _ _

theorem canonicalNaN_sqrt (x : F64) : CanonicalNaN (sqrt x) := by
  unfold sqrt
  split
  · exact canonicalNaN_nan
  rename_i hnan
  rw [Bool.not_eq_true] at hnan
  split
  · exact canonicalNaN_of_not hnan
  split
  · exact canonicalNaN_nan
  split
  · exact canonicalNaN_of_not hnan
  · exact canonicalNaN_pack_roundMag _ _ _

end Sys2Proof.F64

namespace Sys2Proof.Proofs
open Sys2Proof

/-- Settles O54, by the case of each operator: a NaN operand, two infinities, an infinity and a finite value, a zero divisor. -/
theorem nanIsCanonical : Obligations.NanIsCanonical := by
  intro x y nan inf zero sx sy fin
  have hinf : ∀ s, inf s = F64.infinity s := fun s => (F64.infinity_eq s).symm
  have hzero : ∀ s, zero s = F64.pack s 0 := fun s => (F64.pack_zero_eq s).symm
  simp only [hinf, hzero]
  refine ⟨?_, fun h => ?_, fun s u => ?_, fun hy s => ?_, F64.div_zero_of_isFinite⟩
  · exact ⟨F64.canonicalNaN_add x y, F64.canonicalNaN_sub x y, F64.canonicalNaN_mul x y, F64.canonicalNaN_div x y,
      F64.canonicalNaN_sqrt x⟩
  · exact ⟨F64.add_of_isNaN h, F64.sub_of_isNaN h, F64.mul_of_isNaN h, F64.div_of_isNaN h⟩
  · exact ⟨F64.add_infinity_infinity s u, F64.sub_infinity_infinity s u, F64.mul_infinity_infinity s u,
      F64.div_infinity_infinity s u⟩
  · exact ⟨F64.add_infinity_left hy s, F64.add_infinity_right hy s, F64.sub_infinity_left hy s,
      F64.sub_infinity_right hy s, F64.mul_infinity_left hy s, F64.mul_infinity_right hy s, F64.div_infinity_left hy s,
      F64.div_infinity_right hy s⟩

end Sys2Proof.Proofs
end

section
/-!
The square root of 00_scope.md R15: `isqrt` is the integer square root, and the exact root and the half-integer that `sqrt`
rounds lie on the same side of every integer, so of every midpoint of neighbours above 2^53.
-/
namespace Sys2Proof.F64

/-! ### The integer square root -/

theorem isqrtFrom_spec {n k r : Nat} (hlo : r * r ≤ n) (hhi : n < (r + 2 ^ k) * (r + 2 ^ k)) :
    isqrtFrom n k r * isqrtFrom n k r ≤ n ∧ n < (isqrtFrom n k r + 1) * (isqrtFrom n k r + 1) := by
  induction k generalizing r with
  | zero => exact ⟨hlo, hhi⟩
  | succ k ih =>
    have hstep : r + 2 ^ (k + 1) = r + 2 ^ k + 2 ^ k := by rw [pow_succ]; omega
    rw [hstep] at hhi
    rw [isqrtFrom]
    cases hc : Nat.ble ((r + 2 ^ k) * (r + 2 ^ k)) n with
    | true => exact ih (Nat.le_of_ble_eq_true hc) hhi
    | false => exact ih hlo (Nat.lt_of_not_le (Nat.not_le_of_not_ble_eq_true (by simp [hc])))

theorem isqrt_eq_sqrt (n : Nat) : isqrt n = Nat.sqrt n := by
  rw [Nat.eq_sqrt]
  refine isqrtFrom_spec (Nat.zero_le _) ?_
  calc n < 2 ^ (Nat.log2 n + 1) := Nat.lt_log2_self
    _ ≤ 2 ^ (Nat.log2 n / 2 + 1 + (Nat.log2 n / 2 + 1)) := Nat.pow_le_pow_right (by norm_num) (by omega)
    _ = (0 + 2 ^ (Nat.log2 n / 2 + 1)) * (0 + 2 ^ (Nat.log2 n / 2 + 1)) := by rw [Nat.zero_add, Nat.pow_add]

/-! ### The half-integer that stands for the root -/

/-- Twice what `sqrt` rounds for the root of `n`: the integer root, and a half for a remainder. -/
def twiceRoot (n : Nat) : Nat := 2 * Nat.sqrt n + if Nat.sqrt n * Nat.sqrt n = n then 0 else 1

/-- It is at or below an integer only where the root is. -/
theorem sqrt_le_of_twiceRoot_le {n m : Nat} (h : twiceRoot n ≤ 2 * m) : Real.sqrt n ≤ m := by
  have hsq : n ≤ m * m := by
    unfold twiceRoot at h
    split at h
    · rename_i hexact
      rw [← hexact]
      exact Nat.mul_self_le_mul_self (by omega)
    · exact (Nat.sqrt_lt.1 (by omega)).le
  rw [Real.sqrt_le_left (Nat.cast_nonneg m), sq]
  exact_mod_cast hsq

/-- It is at or above an integer only where the root is. -/
theorem le_sqrt_of_le_twiceRoot {n m : Nat} (h : 2 * m ≤ twiceRoot n) : (m : ℝ) ≤ Real.sqrt n := by
  have hsq : m * m ≤ n := Nat.le_sqrt.1 (by unfold twiceRoot at h; split at h <;> omega)
  apply Real.le_sqrt_of_sq_le
  rw [sq]
  exact_mod_cast hsq

theorem sqrt_lt_of_twiceRoot_lt {n m : Nat} (h : twiceRoot n < 2 * m) : Nat.sqrt n < m := by
  unfold twiceRoot at h
  omega

/-- Above 2^53 neighbours are an even distance apart or more, so their midpoint is an integer. -/
theorem exists_midpoint {b : Nat} (h : 2 ^ 53 < magVal (b + 1)) : ∃ m, magVal b + magVal (b + 1) = 2 * m := by
  obtain ⟨e, m, rfl, hm, hnorm⟩ := magVal_split b
  rw [Nat.add_assoc, magVal_pack (by omega) (by omega)] at h
  rw [Nat.add_assoc, magVal_pack (by omega) hnorm, magVal_pack (by omega) (by omega)]
  cases e with
  | zero => omega
  | succ e => exact ⟨(2 * m + 1) * 2 ^ e, by rw [pow_succ]; ring⟩

/-- Rounding the half-integer rounds the root, where the root is 2^53 or more and the result does not overflow. -/
theorem roundMag_twiceRoot_nearest {n : Nat} (hbig : 2 ^ 53 ≤ Nat.sqrt n) (hfin : roundMag (twiceRoot n) 2 < infMagBits)
    (c : Nat) :
    |(magVal (roundMag (twiceRoot n) 2) : ℝ) - Real.sqrt n| ≤ |(magVal c : ℝ) - Real.sqrt n| := by
  obtain ⟨b, hlo, hhi, hround⟩ := roundMag_bracket (twiceRoot n) 2 two_pos
  have hsep : (magVal c : ℝ) ≤ magVal b ∨ (magVal (b + 1) : ℝ) ≤ magVal c := by
    rcases Nat.lt_or_ge b c with hc | hc
    · right; exact_mod_cast magVal_le_iff.2 hc
    · left; exact_mod_cast magVal_le_iff.2 hc
  obtain ⟨m, hm⟩ := exists_midpoint (lt_of_le_of_lt hbig (sqrt_lt_of_twiceRoot_lt hhi))
  have hmid : (magVal b : ℝ) + magVal (b + 1) = 2 * m := by exact_mod_cast hm
  rw [hm] at hround
  rw [abs_sub_comm, abs_sub_comm (magVal c : ℝ)]
  rcases hround with ⟨hr, hside⟩ | ⟨hr, hside⟩
  · have hroot : Real.sqrt n ≤ m := sqrt_le_of_twiceRoot_le (by omega)
    rw [hr, min_eq_left (by omega)]
    exact abs_sub_lower_le (le_sqrt_of_le_twiceRoot hlo) (by linarith) hsep
  · have hroot : (m : ℝ) ≤ Real.sqrt n := le_sqrt_of_le_twiceRoot (by omega)
    rw [hr, min_eq_left (by omega)]
    exact abs_sub_upper_le (sqrt_le_of_twiceRoot_le hhi.le) (by linarith) hsep

/-! ### The root of a positive finite value -/

theorem sqrt_of_pos {x : F64} (hx : isFinite x = true) (hs : sign x = false) (hpos : magBits x ≠ 0) :
    sqrt x = pack false (roundMag (twiceRoot (magVal (magBits x) * 2 ^ 1074)) 2) := by
  have hz : isZero x = false := by rwa [← Bool.not_eq_true, isZero_iff]
  simp only [sqrt, not_isNaN_of_isFinite hx, hz, hs, not_isInf_of_isFinite hx, Bool.false_eq_true, if_false,
    isqrt_eq_sqrt, mag1074_eq, unit1074_eq, twiceRoot]

/-- A positive count of a unit from 2^106 on has a root from 2^53 on. -/
theorem le_sqrt_mul_pow {v p : Nat} (hv : 0 < v) (hp : 53 + 53 ≤ p) : 2 ^ 53 ≤ Nat.sqrt (v * 2 ^ p) := by
  rw [Nat.le_sqrt, ← Nat.pow_add]
  exact le_trans (Nat.pow_le_pow_right two_pos hp) (Nat.le_mul_of_pos_left _ hv)

theorem two_pow_lt_magVal_largest {p : Nat} (hlo : 52 ≤ p) (hhi : p < 2044) : 2 ^ p < magVal (infMagBits - 1) := by
  obtain ⟨c, hc, hval⟩ := exists_magVal_eq (k := 1) Nat.one_le_two_pow hlo
  have hinf : infMagBits = 2047 * 2 ^ 52 := by decide
  rw [← Nat.one_mul (2 ^ p), ← hval]
  exact magVal_lt_iff.2 (by omega)

/-- The root of two factors up to the largest finite value, the second below it, does not overflow. -/
theorem roundMag_twiceRoot_lt {v u : Nat} (hv : v ≤ magVal (infMagBits - 1)) (hu : u < magVal (infMagBits - 1)) :
    roundMag (twiceRoot (v * u)) 2 < infMagBits := by
  have hinf : 0 < infMagBits := by decide
  have hroot : Nat.sqrt (v * u) < magVal (infMagBits - 1) :=
    Nat.sqrt_lt.2 (lt_of_le_of_lt (Nat.mul_le_mul_right _ hv) (Nat.mul_lt_mul_of_pos_left hu (by omega)))
  have htwice : twiceRoot (v * u) ≤ 2 * magVal (infMagBits - 1) := by
    unfold twiceRoot
    split <;> omega
  have := roundMag_le two_pos htwice
  omega

theorem sqrt_of_zero {x : F64} (h : magBits x = 0) : sqrt x = x := by
  have hz := (isZero_iff x).2 h
  have hn : isNaN x = false := by rw [← Bool.not_eq_true, isNaN_iff]; omega
  simp [sqrt, hz, hn]

/-- The root of a finite value of sign 0 is finite, of sign 0, and nearest to the real root. -/
theorem sqrt_nearest {x : F64} (hx : isFinite x = true) (hs : sign x = false) :
    isFinite (sqrt x) = true ∧ sign (sqrt x) = false ∧ ∀ z : F64, sign z = false →
      |(toInt (sqrt x) : ℝ) - Real.sqrt (toInt x * 2 ^ 1074)| ≤ |(toInt z : ℝ) - Real.sqrt (toInt x * 2 ^ 1074)| := by
  by_cases h0 : magBits x = 0
  · have hval : toInt x = 0 := (toInt_eq_zero_iff x).2 h0
    rw [sqrt_of_zero h0, hval]
    exact ⟨hx, hs, fun z _ => by simp⟩
  · have hlarge := le_sqrt_mul_pow (p := 1074) (Nat.pos_of_ne_zero (magVal_eq_zero_iff.not.2 h0)) (by norm_num)
    have hfin := roundMag_twiceRoot_lt (magVal_le_iff.2 (Nat.le_sub_one_of_lt ((isFinite_iff x).1 hx)))
      (two_pow_lt_magVal_largest (p := 1074) (by norm_num) (by norm_num))
    have hlt := roundMag_lt_sign (twiceRoot (magVal (magBits x) * 2 ^ 1074)) 2
    have hval : (toInt x : ℝ) * 2 ^ 1074 = (magVal (magBits x) * 2 ^ 1074 : Nat) := by
      rw [toInt_of_sign_false hs, Nat.cast_mul, Nat.cast_pow, Nat.cast_ofNat, Int.cast_natCast]
    have hsign := sign_pack false hlt
    rw [hval, sqrt_of_pos hx hs h0, isFinite_pack_iff false hlt, toInt_of_sign_false hsign, magBits_pack false hlt]
    refine ⟨hfin, hsign, fun z hz => ?_⟩
    rw [toInt_of_sign_false hz]
    exact roundMag_twiceRoot_nearest hlarge hfin (magBits z)

/-! ### The other roots -/

theorem sqrt_posInfinity : sqrt (infinity false) = infinity false := by simp [sqrt]

/-- A negative value, by the comparison with zero, has the sign bit and is no zero. -/
theorem lt_zero_iff (x : F64) : lt x 0 = true ↔ isNaN x = false ∧ sign x = true ∧ isZero x = false := by
  have hzero : toInt 0 = 0 := (toInt_eq_zero_iff 0).2 (by decide)
  have hnan : isNaN 0 = false := by decide
  rw [lt_eq_toInt, decide_eq_true_iff, hzero, hnan, ← Bool.not_eq_true (isZero x), isZero_iff, ← toInt_eq_zero_iff,
    toInt_eq]
  cases sign x
  · simp
  · simp [Nat.pos_iff_ne_zero]

theorem sqrt_of_isNaN {x : F64} (h : isNaN x = true) : sqrt x = nan := by rw [sqrt, if_pos h]

theorem sqrt_of_lt_zero {x : F64} (h : lt x 0 = true) : sqrt x = nan := by
  obtain ⟨hn, hs, hz⟩ := (lt_zero_iff x).1 h
  simp [sqrt, hn, hs, hz]

end Sys2Proof.F64

namespace Sys2Proof.Proofs
open Sys2Proof

/-- Settles O55, by `F64.sqrt_nearest` and the root of each special value. -/
theorem squareRootIsNearest : Obligations.SquareRootIsNearest := by
  refine ⟨fun x z hx hs _ hz => ?_, F64.sqrt_of_zero (by decide), F64.sqrt_of_zero (by decide), ?_, ?_⟩
  · obtain ⟨hfin, hsign, hnear⟩ := F64.sqrt_nearest hx hs
    exact ⟨hfin, hsign, hnear z hz⟩
  · exact F64.sqrt_posInfinity
  · rintro x (h | h)
    · exact F64.sqrt_of_lt_zero h
    · exact F64.sqrt_of_isNaN h

end Sys2Proof.Proofs
end

section
/-!
FSYNC's steps up to the rescale (44_preamble_correlator.md R254 to R256).
-/
namespace Sys2Proof.Machine

/-- Every sample of a checked FSYNC's source lies inside BUF. -/
theorem loadC_of_checked_fsync {s : State} {e : Engine} {k : Nat} (h : Checked .fsync s e) (hk : k < e.count) :
    loadC s e.src k = some (sampleAt s.buf e.src k) := by
  have hmem : (⟨e.src, 16 * e.count, .complex, .read⟩ : Region) ∈ (planOf .fsync e).regions := List.mem_cons_self
  have hin := h.region_inside hmem (by simp only; omega)
  exact loadC_inside (by simp only at hin; omega)

section Steps
variable {s : State} {e : Engine} {l : FsLoop}

theorem fsyncStep_magnitude (hst : l.stage = .magnitude) :
    fsyncStep e l s = if l.i < e.count then fsMagnitude e l s else fsScaleStep e l s := by
  simp only [fsyncStep, hst]

theorem fsyncStep_rescale (hst : l.stage = .rescale) : fsyncStep e l s = fsRescale e l s := by
  simp only [fsyncStep, hst]

/-- While samples are left, FSYNC's first stage adds a magnitude (R254). -/
theorem exec_fsync_magnitude (hr : RunningAt .fsync s e (.fsync l)) (hchk : Checked .fsync s e)
    (hst : l.stage = .magnitude) (hi : l.i < e.count) :
    exec .fsync s =
      fsGoto e { l with
        i := l.i + 1
        sa := F64.add l.sa (F64.mag (sampleAt s.buf e.src l.i).re (sampleAt s.buf e.src l.i).im) } s := by
  rw [exec_fsync_running hr, fsyncStep_magnitude hst, if_pos hi, fsMagnitude, loadC_of_checked_fsync hchk hi, orFault_some]

/-- After the last sample it forms the scale and its double (R254, R255). -/
theorem exec_fsync_scale (hr : RunningAt .fsync s e (.fsync l)) (hst : l.stage = .magnitude) (hi : ¬l.i < e.count) :
    let scale := fsScale e.count l.sa
    let d := fsDivisor scale
    exec .fsync s =
      if F64.eq scale 0 = true ∨ F64.isFinite scale = false ∨ F64.isFinite d = false then
        fsGoto e { l with stage := .degenerate } s
      else fsGoto e { l with stage := .rescale, i := 0, scale := scale, d := d } s := by
  rw [exec_fsync_running hr, fsyncStep_magnitude hst, if_neg hi]
  simp only [fsScaleStep, Bool.or_eq_true, Bool.not_eq_true', or_assoc]

/-- Its second stage appends a rescaled real part, or finds the input degenerate (R255, R256). -/
theorem exec_fsync_rescale (hr : RunningAt .fsync s e (.fsync l)) (hchk : Checked .fsync s e)
    (hst : l.stage = .rescale) (hi : l.i < e.count) :
    let v := fsRescaled l (sampleAt s.buf e.src l.i)
    exec .fsync s =
      if F64.isFinite v = false then fsGoto e { l with stage := .degenerate } s
      else if l.i + 1 < e.count then fsGoto e { l with i := l.i + 1, v := l.v ++ [v] } s
      else fsGoto e { l with stage := .lags, i := 0, v := l.v ++ [v] } s := by
  intro v
  rw [exec_fsync_running hr, fsyncStep_rescale hst, fsRescale, loadC_of_checked_fsync hchk hi, orFault_some]
  cases hv : F64.isFinite v
  · exact if_neg (Bool.eq_false_iff.1 hv)
  · exact if_pos hv

end Steps
end Sys2Proof.Machine

namespace Sys2Proof.F64

/-- MAG at an imaginary part that is a zero of either sign is the absolute value (00_scope.md R15). -/
theorem mag_of_isZero {im : F64} (re : F64) (h : isZero im = true) : mag re im = abs re := by rw [mag, if_pos h]

end Sys2Proof.F64

namespace Sys2Proof.Proofs
open Sys2Proof Sys2Proof.Machine

/-- Settles O39, one stage of the loop state at a time. -/
theorem fsyncScale : Obligations.FsyncScale := by
  intro s e l hr hchk N x goes
  refine ⟨fun hst hi => exec_fsync_magnitude hr hchk hst hi, fun hst hi => ?_, fun hst hi => ?_, fun re => ?_⟩
  · have hexec := exec_fsync_scale hr hst hi
    intro scale d
    split
    · next hdeg => exact hexec.trans (if_pos hdeg)
    · next hdeg => exact hexec.trans (if_neg hdeg)
  · have hexec := exec_fsync_rescale hr hchk hst hi
    intro v
    split
    · next hdeg => exact hexec.trans (if_pos hdeg)
    · next hdeg =>
      have hfinite := hexec.trans (if_neg hdeg)
      split
      · next hmore => exact hfinite.trans (if_pos hmore)
      · next hlast => exact hfinite.trans (if_neg hlast)
  · exact ⟨F64.mag_of_isZero re (by decide), F64.mag_of_isZero re (by decide)⟩

end Sys2Proof.Proofs
end

section
/-!
The reduced timing phase (41_timing_recovery.md R171): the floor of a finite value is an exact binary64, and what is left above it
rounds into the closed unit interval.
-/
namespace Sys2Proof.F64

/-- From 2^53 units of 2^p on a magnitude is a whole number of those units. -/
theorem two_pow_dvd_magVal {b p : Nat} (h : 2 ^ 53 * 2 ^ p ≤ magVal b) : 2 ^ p ∣ magVal b := by
  obtain ⟨e, m, rfl, hm, hnormal⟩ := magVal_split b
  rw [magVal_pack hm.le hnormal] at h ⊢
  have hpow : 2 ^ p < 2 ^ e := by
    refine Nat.lt_of_mul_lt_mul_left (a := 2 ^ 53) (lt_of_le_of_lt h ?_)
    exact Nat.mul_lt_mul_of_pos_right hm (Nat.two_pow_pos e)
  exact Dvd.dvd.mul_left (Nat.pow_dvd_pow 2 ((Nat.pow_lt_pow_iff_right (by norm_num)).1 hpow).le) m

theorem floor_eq (x : F64) : floor x = toInt x / 2 ^ 1074 := by
  rw [floor, unit1074_eq, Nat.cast_pow, Nat.cast_ofNat]

/-- A floor quotient above `k` in magnitude comes from a value of at least `k` divisors. -/
theorem mul_le_abs_of_lt_abs_ediv {t k d : Int} (hd : 0 < d) (h : k < |t / d|) : k * d ≤ |t| := by
  have hlow := Int.mul_ediv_self_le (x := t) hd.ne'
  have hhigh := Int.lt_mul_ediv_self_add (x := t) hd
  rcases abs_cases (t / d) with ⟨habs, -⟩ | ⟨habs, -⟩ <;> rw [habs] at h
  · exact le_trans (by nlinarith) (le_abs_self t)
  · exact le_trans (by nlinarith) (neg_le_abs t)

/-- A finite value that is an integer is the conversion of that integer, but for the sign of a zero. -/
theorem ofInt_of_toInt {x : F64} {n : Int} (hx : isFinite x = true) (hn : toInt x = n * 2 ^ 1074) :
    isFinite (ofInt n) = true ∧ toInt (ofInt n) = n * 2 ^ 1074 := by
  have hlt := (isFinite_iff x).1 hx
  have hbits : ofInt n = pack (decide (toInt x < 0)) (magBits x) := by
    rw [ofInt, roundInt, unit1074_eq, Nat.cast_pow, Nat.cast_ofNat, ← hn, natAbs_toInt, ← Nat.one_mul (magVal (magBits x)),
      roundMag_exact Nat.one_pos hlt.le]
  have hval : toInt (ofInt n) = toInt x := by
    rw [hbits, toInt_eq, sign_pack _ (magBits_lt x), magBits_pack _ (magBits_lt x), toInt_eq]
    cases sign x <;> simp
  refine ⟨?_, hval.trans hn⟩
  rw [hbits, isFinite_pack_iff _ (magBits_lt x)]
  exact hlt

/-- The floor of a finite value is exact as a binary64 (00_scope.md R14): below 2^53 as every integer, above it because the
value is its own floor. -/
theorem ofInt_floor {x : F64} (hx : isFinite x = true) :
    isFinite (ofInt (floor x)) = true ∧ toInt (ofInt (floor x)) = floor x * 2 ^ 1074 := by
  by_cases hsmall : |floor x| ≤ 2 ^ 53
  · exact ofInt_exact hsmall
  have hlarge : 2 ^ 53 * 2 ^ 1074 ≤ magVal (magBits x) := by
    have habs := mul_le_abs_of_lt_abs_ediv (pow_pos two_pos 1074) (floor_eq x ▸ not_le.1 hsmall)
    rw [Int.abs_eq_natAbs, natAbs_toInt] at habs
    exact_mod_cast habs
  have hdvd : (2 : Int) ^ 1074 ∣ toInt x := by
    rw [← Int.dvd_natAbs, natAbs_toInt]
    exact_mod_cast two_pow_dvd_magVal hlarge
  exact ofInt_of_toInt hx (by rw [floor_eq, Int.ediv_mul_cancel hdvd])

end Sys2Proof.F64
namespace Sys2Proof.Machine

theorem magVal_one : F64.magVal 0x3FF0000000000000 = 2 ^ 1074 := by
  rw [show 0x3FF0000000000000 = 1022 * 2 ^ 52 + 2 ^ 52 by norm_num, F64.magVal_pack (by norm_num) (.inr le_rfl),
    ← Nat.pow_add 2 52 1022]

/-- A zero of either sign, and a value without sign up to 1.0, lie in the unit interval. -/
theorem inUnit_pack {s : Bool} {b : Nat} (hs : s = false ∨ b = 0) (hb : b ≤ 0x3FF0000000000000) :
    inUnit (F64.pack s b) = true := by
  have hlt : b < 2 ^ 63 := by omega
  have hinf : b < F64.infMagBits := lt_of_le_of_lt hb (by decide)
  have hkey : F64.orderKey (F64.pack s b) = b := by
    rw [F64.orderKey, F64.sign_pack s hlt, F64.magBits_pack s hlt]
    rcases hs with rfl | rfl <;> simp
  have hone : F64.orderKey F64.one = 0x3FF0000000000000 := by decide
  have hzero : F64.orderKey 0 = 0 := by decide
  simp only [inUnit, F64.le, F64.not_isNaN_pack s hinf.le, (F64.isFinite_pack_iff s hlt).2 hinf, hkey, hone, hzero,
    Bool.and_eq_true, Bool.not_eq_true', decide_eq_true_eq, Int.natCast_nonneg]
  exact ⟨⟨trivial, by decide⟩, ⟨trivial, by decide⟩, by exact_mod_cast hb⟩

/-- The reduced mu of a finite mu lies in the closed unit interval (41_timing_recovery.md R171). -/
theorem inUnit_reduceMu {mu : F64} (h : F64.isFinite mu = true) : inUnit (reduceMu mu) = true := by
  obtain ⟨hfin, hval⟩ := F64.ofInt_floor h
  have hrest : F64.toInt mu - F64.floor mu * 2 ^ 1074 = F64.toInt mu % 2 ^ 1074 := by
    rw [F64.floor_eq, mul_comm, Int.emod_def]
  have hpos : (0 : Int) < 2 ^ 1074 := pow_pos two_pos _
  have hlow := Int.emod_nonneg (F64.toInt mu) hpos.ne'
  have hhigh := Int.emod_lt_of_pos (F64.toInt mu) hpos
  rw [reduceMu, F64.sub_of_isFinite h hfin, hval, hrest]
  split
  · exact inUnit_pack (.inr rfl) (Nat.zero_le _)
  · rw [F64.roundInt, decide_eq_false hlow.not_gt]
    refine inUnit_pack (.inl rfl) (F64.roundMag_le Nat.one_pos ?_)
    rw [magVal_one, one_mul, ← Int.ofNat_le, Int.natAbs_of_nonneg hlow]
    exact_mod_cast hhigh.le

end Sys2Proof.Machine
end

section
/-!
The invariant of Safety.lean as a structure with named parts, and that every update outside a command's own steps keeps it: the
host's writes, the bus, issue, abort and reset.
-/
namespace Sys2Proof.Machine

/-! ### The invariant, by its parts -/

/-- A memory in canonical form, listing only bytes of a BUF of `limit` bytes (20_memory.md R81). -/
structure Memory.Fits (limit : Nat) (m : Memory) : Prop where
  wf : m.wf = true
  within : m.within limit = true

theorem Memory.Fits.writeByte {limit a : Nat} {m : Memory} (h : m.Fits limit) (v : Byte) (ha : a < limit) :
    (m.writeByte a v).Fits limit :=
  ⟨m.wf_writeByte a v h.wf, m.within_writeByte v ha h.within⟩

theorem Memory.Fits.write {limit a n : Nat} {m : Memory} (h : m.Fits limit) (v : Nat) (ha : a + n ≤ limit) :
    (m.write a n v).Fits limit :=
  ⟨m.wf_write n a v h.wf, m.within_write n v ha h.within⟩

/-- What `State.engineOk` asks of the engine's record. -/
structure State.Runs (s : State) (e : Engine) : Prop where
  done : s.status.done = false
  err : s.status.err = false
  args : e.args = s.args
  cfg : e.cfg = s.cfg
  cmd : e.cmd = s.cmd
  progress : e.progressOk s.params.bufBytes = true

theorem engineOk_iff (s : State) : s.engineOk = true ↔ ∀ e, s.eng = some e → s.Runs e := by
  unfold State.engineOk
  cases s.eng with
  | none => simp
  | some e =>
    simp only [Bool.and_eq_true, Bool.not_eq_true', beq_iff_eq, Option.some.injEq, forall_eq']
    exact ⟨fun ⟨⟨⟨⟨⟨hd, he⟩, ha⟩, hcfg⟩, hcmd⟩, hp⟩ => ⟨hd, he, ha, hcfg, hcmd, hp⟩,
      fun h => ⟨⟨⟨⟨⟨h.done, h.err⟩, h.args⟩, h.cfg⟩, h.cmd⟩, h.progress⟩⟩

/-- The parts of `State.good`. -/
structure State.Good (s : State) : Prop where
  params : s.params.wf = true
  buf : s.buf.Fits s.params.bufBytes
  cfg : s.cfg.reservedZero = true
  results : s.results.reservedZero = true
  irqEn : s.irqEn &&& ~~~irqEnWritable = 0
  errcode : s.status.errcodeOk = true
  engine : ∀ e, s.eng = some e → s.Runs e

theorem good_iff (s : State) : s.good = true ↔ s.Good := by
  simp only [State.good, Bool.and_eq_true, beq_iff_eq, engineOk_iff]
  exact ⟨fun ⟨⟨⟨⟨⟨⟨⟨hp, hw⟩, hl⟩, hc⟩, hr⟩, hi⟩, hs⟩, he⟩ => ⟨hp, ⟨hw, hl⟩, hc, hr, hi, hs, he⟩,
    fun h => ⟨⟨⟨⟨⟨⟨⟨h.params, h.buf.wf⟩, h.buf.within⟩, h.cfg⟩, h.results⟩, h.irqEn⟩, h.errcode⟩, h.engine⟩⟩

/-! ### STATUS -/

theorem Status.errcodeOk_clear {st : Status} (h : st.errcodeOk = true) (v : Word) : (st.clear v).errcodeOk = true := by
  cases hv : v.getLsbD 2 with
  | true => simp [Status.errcodeOk, hv]
  | false => simpa only [Status.errcodeOk, Status.clear_err, Status.clear_errcode, hv, Bool.not_false, Bool.and_true, Bool.false_eq_true,
      if_false] using h

theorem Status.errcodeOk_failed (st : Status) (c : ErrCode) : (st.failed c).errcodeOk = true := by
  have hmem : c ∈ allErrCodes := by cases c <;> decide
  simp only [Status.errcodeOk, Status.failed_err, Status.failed_errcode, if_true, List.contains_iff_mem]
  exact List.mem_map_of_mem hmem

/-! ### Configuration registers -/

/-- No bit is both kept and cleared. -/
theorem and_and_not_self (v m : Word) : v &&& m &&& ~~~m = 0 := by
  rw [BitVec.and_assoc, BitVec.and_not_self]
  exact BitVec.and_zero

theorem ConfigRegs.reservedZero_reset : ConfigRegs.reset.reservedZero = true := by decide

theorem ResultRegs.reservedZero_reset : ResultRegs.reset.reservedZero = true := by decide

theorem ConfigRegs.reservedZero_iff (c : ConfigRegs) :
    c.reservedZero = true ↔ ∀ r : Cfg32, c.get32 r &&& ~~~r.writable = 0 := by
  simp only [ConfigRegs.reservedZero, List.all_eq_true, beq_iff_eq]
  exact ⟨fun h r => h r (by cases r <;> decide), fun h r _ => h r⟩

@[simp] theorem ConfigRegs.get32_set64 (c : ConfigRegs) (r : Cfg64) (v : F64) (q : Cfg32) :
    (c.set64 r v).get32 q = c.get32 q := by cases r <;> rfl

@[simp] theorem ConfigRegs.get32_set32_same (c : ConfigRegs) (r : Cfg32) (v : Word) :
    (c.set32 r v).get32 r = v &&& r.writable := by cases r <;> rfl

theorem ConfigRegs.get32_set32_other (c : ConfigRegs) {r q : Cfg32} (v : Word) (h : q ≠ r) :
    (c.set32 r v).get32 q = c.get32 q := by
  revert h
  cases r <;> cases q <;> simp [ConfigRegs.set32, ConfigRegs.get32]

theorem ConfigRegs.reservedZero_set64 {c : ConfigRegs} (h : c.reservedZero = true) (r : Cfg64) (v : F64) :
    (c.set64 r v).reservedZero = true := by
  rw [ConfigRegs.reservedZero_iff] at h ⊢
  simpa only [ConfigRegs.get32_set64] using h

theorem ConfigRegs.reservedZero_set32 {c : ConfigRegs} (h : c.reservedZero = true) (r : Cfg32) (v : Word) :
    (c.set32 r v).reservedZero = true := by
  rw [ConfigRegs.reservedZero_iff] at h ⊢
  intro q
  by_cases hq : q = r
  · rw [hq, ConfigRegs.get32_set32_same, and_and_not_self]
  · rw [ConfigRegs.get32_set32_other c v hq, h q]

/-! ### Updates that keep the invariant -/

section Updates
variable {s : State}

theorem State.Good.withHost (h : s.Good) (asserted : Bool) (agenda : List Turn) (responses : List Response) :
    State.Good { s with resetAsserted := asserted, agenda := agenda, responses := responses } :=
  ⟨h.params, h.buf, h.cfg, h.results, h.irqEn, h.errcode, fun e he =>
    have hr := h.engine e he
    ⟨hr.done, hr.err, hr.args, hr.cfg, hr.cmd, hr.progress⟩⟩

theorem State.Good.respond (h : s.Good) (r : Response) : (respond r s).Good := h.withHost _ _ _

theorem State.Good.hostConflict (h : s.Good) : (hostConflict s).Good :=
  ⟨h.params, h.buf, h.cfg, h.results, h.irqEn, h.errcode, fun e he =>
    have hr := h.engine e he
    ⟨hr.done, hr.err, hr.args, hr.cfg, hr.cmd, hr.progress⟩⟩

theorem State.Good.acknowledge (h : s.Good) (v : Word) : (acknowledge v s).Good :=
  ⟨h.params, h.buf, h.cfg, h.results, h.irqEn, Status.errcodeOk_clear h.errcode v, fun e he =>
    have hr := h.engine e he
    ⟨by simp [hr.done], by simp [hr.err], hr.args, hr.cfg, hr.cmd, hr.progress⟩⟩

theorem State.Good.writeIrqEn (h : s.Good) (v : Word) : State.Good { s with irqEn := v &&& irqEnWritable } :=
  ⟨h.params, h.buf, h.cfg, h.results, and_and_not_self v _, h.errcode, fun e he =>
    have hr := h.engine e he
    ⟨hr.done, hr.err, hr.args, hr.cfg, hr.cmd, hr.progress⟩⟩

/-- On an idle block the operands and BUF are the host's to write. -/
theorem State.Good.writeIdle (h : s.Good) (hidle : s.eng = none) (args : Args) {cfg : ConfigRegs} {m : Memory}
    (hcfg : cfg.reservedZero = true) (hm : m.Fits s.params.bufBytes) :
    State.Good { s with args := args, cfg := cfg, buf := m } :=
  ⟨h.params, hm, hcfg, h.results, h.irqEn, h.errcode, fun e he => by simp [hidle] at he⟩

/-- Issue captures the operands and starts at the check step (40_command.md R131, R144). -/
theorem State.Good.issue (h : s.Good) (w : Word) : (issue w s).Good :=
  ⟨h.params, h.buf, h.cfg, h.results, h.irqEn, rfl, fun e he => by
    obtain rfl : s.captured w = e := Option.some.inj he
    exact ⟨rfl, rfl, rfl, rfl, rfl, rfl⟩⟩

theorem State.Good.resetBlock (h : s.Good) : (resetBlock s).Good :=
  ⟨h.params, h.buf, ConfigRegs.reservedZero_reset, ResultRegs.reservedZero_reset,
    (by decide : (0 : Word) &&& ~~~irqEnWritable = 0), rfl, fun e he => by simp at he⟩

theorem State.Good.requestAbort (h : s.Good) : (requestAbort s).Good := by
  unfold Machine.requestAbort
  split
  · next e he =>
    have hr := h.engine e he
    refine ⟨h.params, h.buf, h.cfg, h.results, h.irqEn, h.errcode, fun e' he' => ?_⟩
    obtain rfl : { e with abortReq := true } = e' := Option.some.inj he'
    exact ⟨hr.done, hr.err, hr.args, hr.cfg, hr.cmd, hr.progress⟩
  · exact h

end Updates
end Sys2Proof.Machine
end

section
/-!
The loop state of the command in flight: what the invariant says of it past the check step, one command at a time.
-/
namespace Sys2Proof.Machine

/-! ### The loop state of a command -/

/-- The part of `Engine.progressOk` that is about the loop state of command `i`. -/
def Engine.loopOk (i : Instr) (e : Engine) : Progress → Bool
  | .check => false
  | .nop => decide (i = .nop) && e.written == 0
  | .trMm l => decide (i = .trMm) && trLoopOk e l
  | .costas l => decide (i = .costas) && coLoopOk e l
  | .iqcorr l => decide (i = .iqcorr) && iqLoopOk e l
  | .fsync l => decide (i = .fsync) && fsLoopOk e l
  | .demap l => [Scheme.ook, .bpsk, .qpsk, .qam16].any fun sch => decide (i = sch.instr) && dmLoopOk sch.bps e l
  | .crc l => (decide (i = .crcchk) && crcchkLoopOk e l) || (decide (i = .crcenc) && crcencLoopOk e l)

theorem decodeCmd_encode {i : Instr} (hi : i.port = .cmd) : decodeCmd (encode i) = .ok i := by
  revert hi
  cases i <;> decide

theorem encode_inj {i j : Instr} (hi : i.port = .cmd) (hj : j.port = .cmd) (h : encode i = encode j) : i = j := by
  have hdec := decodeCmd_encode hi
  rw [h, decodeCmd_encode hj] at hdec
  exact (Except.ok.inj hdec).symm

theorem Scheme.port_instr (sch : Scheme) : sch.instr.port = .cmd := by cases sch <;> rfl

section LoopState
variable {i : Instr} {e : Engine} {limit : Nat}

/-- With command `i` in flight, the command that passed its check step is `i`. -/
theorem passed_iff (hi : i.port = .cmd) (hc : e.cmd = encode i) {j : Instr} (hj : j.port = .cmd) :
    passed limit j e = true ↔ (planOf i e).firstError limit = none ∧ i = j := by
  simp only [passed, hc, Bool.and_eq_true, beq_iff_eq]
  constructor
  · rintro ⟨hcode, hchk⟩
    obtain rfl := encode_inj hi hj hcode
    exact ⟨hchk, rfl⟩
  · rintro ⟨hchk, rfl⟩
    exact ⟨rfl, hchk⟩

/-- Past the check step the invariant says that the check passed and that the loop state is the command's. -/
theorem progressOk_iff (hi : i.port = .cmd) (hc : e.cmd = encode i) (hp : e.progress ≠ .check) :
    e.progressOk limit = true ↔ (planOf i e).firstError limit = none ∧ e.loopOk i e.progress = true := by
  have hpassed (j : Instr) (hj : j.port = .cmd) : passed limit j e = true ↔ _ := passed_iff hi hc hj
  unfold Engine.progressOk
  cases hq : e.progress with
  | check => exact absurd hq hp
  | nop => simp [hpassed .nop rfl, Engine.loopOk, and_assoc]
  | trMm l => simp [hpassed .trMm rfl, Engine.loopOk, and_assoc]
  | costas l => simp [hpassed .costas rfl, Engine.loopOk, and_assoc]
  | iqcorr l => simp [hpassed .iqcorr rfl, Engine.loopOk, and_assoc]
  | fsync l => simp [hpassed .fsync rfl, Engine.loopOk, and_assoc]
  | demap l =>
    simp only [hpassed _ (Scheme.port_instr _), Engine.loopOk, List.any_eq_true, Bool.and_eq_true, decide_eq_true_eq]
    exact ⟨fun ⟨sch, hmem, ⟨hchk, hij⟩, hl⟩ => ⟨hchk, sch, hmem, hij, hl⟩,
      fun ⟨hchk, sch, hmem, hij, hl⟩ => ⟨sch, hmem, ⟨hchk, hij⟩, hl⟩⟩
  | crc l => simp [hpassed .crcchk rfl, hpassed .crcenc rfl, Engine.loopOk, and_assoc, ← and_or_left]

theorem loopOk_demap (sch : Scheme) (e : Engine) (l : DmLoop) :
    e.loopOk sch.instr (.demap l) = dmLoopOk sch.bps e l := by
  cases sch <;> simp [Engine.loopOk, Scheme.instr]

theorem loopOk_nop_inv {p : Progress} (h : e.loopOk .nop p = true) : p = .nop := by
  cases p <;> simp_all [Engine.loopOk, Scheme.instr]

theorem loopOk_trMm_inv {p : Progress} (h : e.loopOk .trMm p = true) : ∃ l, p = .trMm l ∧ trLoopOk e l = true := by
  cases p <;> simp_all [Engine.loopOk, Scheme.instr]

theorem loopOk_costas_inv {p : Progress} (h : e.loopOk .costas p = true) :
    ∃ l, p = .costas l ∧ coLoopOk e l = true := by
  cases p <;> simp_all [Engine.loopOk, Scheme.instr]

theorem loopOk_iqcorr_inv {p : Progress} (h : e.loopOk .iqcorr p = true) :
    ∃ l, p = .iqcorr l ∧ iqLoopOk e l = true := by
  cases p <;> simp_all [Engine.loopOk, Scheme.instr]

theorem loopOk_fsync_inv {p : Progress} (h : e.loopOk .fsync p = true) :
    ∃ l, p = .fsync l ∧ fsLoopOk e l = true := by
  cases p <;> simp_all [Engine.loopOk, Scheme.instr]

theorem loopOk_demap_inv {sch : Scheme} {p : Progress} (h : e.loopOk sch.instr p = true) :
    ∃ l, p = .demap l ∧ dmLoopOk sch.bps e l = true := by
  cases p with
  | demap l => exact ⟨l, rfl, by rwa [loopOk_demap] at h⟩
  | _ => cases sch <;> simp [Engine.loopOk, Scheme.instr] at h

theorem loopOk_crcchk_inv {p : Progress} (h : e.loopOk .crcchk p = true) :
    ∃ l, p = .crc l ∧ crcchkLoopOk e l = true := by
  cases p <;> simp_all [Engine.loopOk, Scheme.instr]

theorem loopOk_crcenc_inv {p : Progress} (h : e.loopOk .crcenc p = true) :
    ∃ l, p = .crc l ∧ crcencLoopOk e l = true := by
  cases p <;> simp_all [Engine.loopOk, Scheme.instr]

end LoopState
end Sys2Proof.Machine
end

section
/-!
What one engine step of a command can answer from a state that meets the invariant: an error completion, a move of the engine's
record to a loop state within its bounds, or a successful completion that writes the command's own result registers. The
invariant and the ownership of the result registers both follow from it.
-/
namespace Sys2Proof.Machine

/-! ### Stores -/

/-- `t` is `s` with another memory that still fits BUF: what the engine's stores do. -/
def State.Stored (s t : State) : Prop := ∃ m : Memory, m.Fits s.params.bufBytes ∧ t = { s with buf := m }

section Stores
variable {s t u : State} {b k : Nat}

theorem State.Stored.refl (h : s.buf.Fits s.params.bufBytes) : s.Stored s := ⟨s.buf, h, rfl⟩

theorem State.Stored.trans (h : s.Stored t) (h' : t.Stored u) : s.Stored u := by
  obtain ⟨m, -, rfl⟩ := h
  obtain ⟨m', hm', rfl⟩ := h'
  exact ⟨m', hm', rfl⟩

theorem State.Stored.fits (h : s.Stored t) : t.buf.Fits t.params.bufBytes := by
  obtain ⟨m, hm, rfl⟩ := h
  exact hm

variable (hs : s.buf.Fits s.params.bufBytes)
include hs

theorem storeC_stored {z : Sample} (h : storeC s b k z = some t) : s.Stored t := by
  obtain ⟨hin, rfl⟩ := storeC_eq_some.1 h
  exact ⟨_, (hs.write _ (by omega)).write _ (by omega), rfl⟩

theorem storeB_stored {x : Bool} (h : storeB s b k x = some t) : s.Stored t := by
  obtain ⟨hin, rfl⟩ := storeB_eq_some.1 h
  exact ⟨_, hs.writeByte _ hin, rfl⟩

theorem copyByte_stored {x : Byte} (h : copyByte s b k x = some t) : s.Stored t := by
  obtain ⟨hin, rfl⟩ := copyByte_eq_some.1 h
  exact ⟨_, hs.writeByte _ hin, rfl⟩

theorem storeLog_stored {on : Bool} {x : F64} (h : storeLog on s b k x = some t) : s.Stored t := by
  obtain ⟨-, hin, rfl⟩ | ⟨-, rfl⟩ := storeLog_eq_some.1 h
  · exact ⟨_, hs.write _ (by omega), rfl⟩
  · exact .refl hs

end Stores

/-! ### Result registers -/

/-- Only result registers that command `i`, of `n` elements, owns differ, OUT_LEN left aside (10_state.md R74). -/
structure ResultRegs.OnlyOwned (i : Instr) (n : Nat) (r r' : ResultRegs) : Prop where
  tr : i ≠ .trMm → r'.trMu = r.trMu ∧ r'.trIin = r.trIin ∧ r'.trIout = r.trIout
  co : i ≠ .costas → r'.coPhase = r.coPhase ∧ r'.coFreq = r.coFreq
  iq : ¬(i = .iqcorr ∧ 0 < n) → r'.iqA = r.iqA ∧ r'.iqSin = r.iqSin ∧ r'.iqCos = r.iqCos
  fs : i ≠ .fsync → r'.fsIdx = r.fsIdx ∧ r'.fsInfo = r.fsInfo ∧ r'.fsPeak = r.fsPeak ∧ r'.fsFullLen = r.fsFullLen ∧
    r'.fsPayLen = r.fsPayLen
  crc : ¬(i = .crcchk ∨ i = .crcenc) → r'.crcRem = r.crcRem ∧ r'.crcRes = r.crcRes

theorem ResultRegs.OnlyOwned.of_eq {i : Instr} {n : Nat} {r r' : ResultRegs}
    (h : ({ r' with outLen := 0 } : ResultRegs) = { r with outLen := 0 }) : ResultRegs.OnlyOwned i n r r' := by
  simp only [ResultRegs.mk.injEq] at h
  constructor <;> simp [h]

/-! ### The engine's step -/

/-- The engine's record still holds the same command with the same operands. -/
structure Engine.SameCommand (e e' : Engine) : Prop where
  cmd : e'.cmd = e.cmd
  args : e'.args = e.args
  cfg : e'.cfg = e.cfg

/-- What an engine step of command `i` in flight with record `e` can answer. -/
inductive EngineStep (i : Instr) (s : State) (e : Engine) : State → Prop
  /-- An error completion (60_exceptions.md R404). -/
  | error (c : ErrCode) (e' : Engine) {s' : State} (hs : s.Stored s') : EngineStep i s e (takeError c e' s')
  /-- A move inside the command, to a loop state within its bounds. -/
  | moves {e' : Engine} {s' : State} (hs : s.Stored s') (he : e.SameCommand e') (hl : e'.loopOk i e'.progress = true) :
      EngineStep i s e (s'.withEng e')
  /-- A successful completion (40_command.md R139). -/
  | completes {f : ResultRegs → ResultRegs} (hown : ResultRegs.OnlyOwned i e.count s.results (f s.results))
      (hres : s.results.reservedZero = true → (f s.results).reservedZero = true) : EngineStep i s e (complete f e s)

@[simp] theorem Engine.wrote_count (e : Engine) (n : Nat) : (e.wrote n).count = e.count := rfl
@[simp] theorem Engine.wrote_scalar (e : Engine) (n : Nat) : (e.wrote n).scalar = e.scalar := rfl
@[simp] theorem Engine.goto_count (e : Engine) (p : Progress) : (e.goto p).count = e.count := rfl
@[simp] theorem Engine.goto_scalar (e : Engine) (p : Progress) : (e.goto p).scalar = e.scalar := rfl

/-- A move that counts no element. -/
theorem EngineStep.stay {i : Instr} {s s' : State} {e : Engine} (p : Progress) (hs : s.Stored s')
    (hl : (e.goto p).loopOk i p = true) : EngineStep i s e (s'.withEng (e.goto p)) :=
  .moves hs ⟨rfl, rfl, rfl⟩ hl

/-- A move that counts `n` elements. -/
theorem EngineStep.goto {i : Instr} {s s' : State} {e : Engine} (n : Nat) (p : Progress) (hs : s.Stored s')
    (hl : ((e.wrote n).goto p).loopOk i p = true) : EngineStep i s e (s'.withEng ((e.wrote n).goto p)) :=
  .moves hs ⟨rfl, rfl, rfl⟩ hl

/-- A completion that writes no result register but OUT_LEN. -/
theorem EngineStep.completesId (i : Instr) (s : State) (e : Engine) : EngineStep i s e (complete id e s) :=
  .completes (.of_eq rfl) id

end Sys2Proof.Machine
end

section
/-!
Each command's step is an `EngineStep`: its iterations keep the bounds of its loop state, and its completion writes its own result
registers.
-/
namespace Sys2Proof.Machine

/-! ### Bounds of the loop states -/

section LoopBounds
variable {e : Engine}

/-- A rail is one of 0.0 and 1.0 in each component (41_timing_recovery.md R163). -/
theorem isRail_rail (z : Sample) : isRail (rail z) = true := by
  have hbit : ∀ x : F64, (railBit x == 0 || railBit x == F64.one) = true := fun x => by
    unfold railBit
    split <;> simp
  simp only [isRail, rail, hbit, Bool.and_self]

/-- An iteration keeps TR_MM's loop state within its bounds: the reduced mu, the shifted rails, one more output. -/
theorem trLoopOk_advance {l : TrLoop} (hl : trLoopOk e l = true) (hrun : l.running e.count = true) (z : Sample) {mu : F64}
    (hmu : F64.isFinite mu = true) (p : Progress) : trLoopOk ((e.wrote 1).goto p) (l.advance z mu) = true := by
  simp only [trLoopOk, TrLoop.running, Bool.and_eq_true, decide_eq_true_eq, beq_iff_eq] at hl hrun ⊢
  obtain ⟨⟨⟨⟨⟨-, hrail1⟩, -⟩, hlow⟩, -⟩, hw⟩ := hl
  refine ⟨⟨⟨⟨⟨inUnit_reduceMu hmu, isRail_rail z⟩, hrail1⟩, ?_⟩, ?_⟩, ?_⟩
  · exact le_trans hlow (Nat.le_succ _)
  · exact le_max_of_le_left hrun.1
  · simp only [Engine.goto_written, Engine.wrote_written, TrLoop.advance]
    omega

@[simp] theorem fsLoopOk_goto (p : Progress) (l : FsLoop) : fsLoopOk (e.goto p) l = fsLoopOk e l := rfl

theorem fsyncResults_reservedZero (l : FsLoop) {r : ResultRegs} (h : r.reservedZero = true) :
    (fsyncResults l r).reservedZero = true := by
  have hinfo : fsInfoWord l.short false &&& 0xFFFFFFFC = 0 := by cases l.short <;> decide
  simp only [ResultRegs.reservedZero, fsyncResults, Bool.and_eq_true, beq_iff_eq] at h ⊢
  exact ⟨⟨hinfo, h.1.2⟩, h.2⟩

theorem fsyncDegenerate_reservedZero {r : ResultRegs} (h : r.reservedZero = true) :
    (fsyncDegenerate r).reservedZero = true := by
  simp only [ResultRegs.reservedZero, fsyncDegenerate, Bool.and_eq_true, beq_iff_eq] at h ⊢
  exact ⟨⟨by decide, h.1.2⟩, h.2⟩

/-- A window that the peak scan's index allows lies inside the samples and has at most `L + M` of them
(44_preamble_correlator.md R259). -/
theorem fsWindow_bounds {n len m idx : Nat} (hidx : idx < n + len - 1) :
    (fsWindow n len m idx).1 + (fsWindow n len m idx).2.1 ≤ n ∧ (fsWindow n len m idx).2.1 ≤ len + m := by
  unfold fsWindow
  split
  · exact ⟨Nat.zero_le _, Nat.zero_le _⟩
  · dsimp only
    omega

theorem toNat_and_lowMask_lt (w : Word) (m : Nat) : (w &&& lowMask m).toNat < 2 ^ m := by
  have hpos := Nat.two_pow_pos m
  calc (w &&& lowMask m).toNat ≤ (lowMask m).toNat := by rw [BitVec.toNat_and]; exact Nat.and_le_right
    _ ≤ 2 ^ m - 1 := by rw [lowMask, BitVec.toNat_ofNat]; exact Nat.mod_le _ _
    _ < 2 ^ m := by omega

/-- The division register keeps its `m` bits (46_crc.md R313). -/
theorem crcFeed_lt (c : ConfigRegs) (r : Word) (b : Bool) : (crcFeed c.keyLen c.key r b).toNat < 2 ^ c.keyLen := by
  simp only [crcFeed]
  split
  · rw [BitVec.toNat_xor]
    exact Nat.xor_lt_two_pow (toNat_and_lowMask_lt _ _) (toNat_and_lowMask_lt _ _)
  · exact toNat_and_lowMask_lt _ _

theorem crcRemainder_lt (m : Nat) (r : Word) : (crcRemainder m r).toNat < 2 ^ (m - 1) := toNat_and_lowMask_lt _ _

/-- The remainder of a checked key has at most 31 bits (10_state.md R71). -/
theorem rem_reserved {m : Nat} {rem : Word} (hm : m ≤ Config.maxKey) (h : rem.toNat < 2 ^ (m - 1)) :
    rem &&& 0x80000000 = 0 := by
  have hlt : rem.toNat < 2 ^ 31 := lt_of_lt_of_le h (Nat.pow_le_pow_right two_pos (by simp only [Config.maxKey] at hm; omega))
  have htop : (0x80000000 : Word).toNat = 2 ^ 31 := by decide
  apply BitVec.eq_of_toNat_eq
  rw [BitVec.toNat_and, htop, Nat.and_two_pow, Nat.testBit_lt_two_pow hlt]
  rfl

theorem crcResults_reservedZero {m : Nat} {rem : Word} (hm : m ≤ Config.maxKey) (hrem : rem.toNat < 2 ^ (m - 1)) (pass : Bool)
    {r : ResultRegs} (h : r.reservedZero = true) :
    ResultRegs.reservedZero { r with crcRem := rem, crcRes := crcResWord pass } = true := by
  have hres : crcResWord pass &&& 0xFFFFFFFE = 0 := by cases pass <;> decide
  simp only [ResultRegs.reservedZero, Bool.and_eq_true, beq_iff_eq] at h ⊢
  exact ⟨⟨h.1.1, hres⟩, rem_reserved hm hrem⟩

theorem keyLen_of_not_bad {c : ConfigRegs} (h : keyLenBad c = false) : 2 ≤ c.keyLen ∧ c.keyLen ≤ Config.maxKey := by
  simp only [keyLenBad, Bool.or_eq_false_iff, decide_eq_false_iff_not] at h
  omega

@[simp] theorem crcWordsOk_goto (p : Progress) (l : CrcLoop) : crcWordsOk (e.goto p) l = crcWordsOk e l := rfl

theorem crcWordsOk_iff {l : CrcLoop} : crcWordsOk e l = true ↔ l.r.toNat < 2 ^ e.cfg.keyLen ∧ l.rem.toNat < 2 ^ (e.cfg.keyLen - 1) := by
  simp only [crcWordsOk, Bool.and_eq_true, decide_eq_true_eq]

theorem loopOk_crcenc_divide {l : CrcLoop} (hst : l.stage = .divide) : e.loopOk .crcenc (.crc l) = true ↔
    crcWordsOk e l = true ∧ l.i ≤ e.count + e.cfg.keyLen - 1 ∧ e.written = 0 := by
  simp [Engine.loopOk, crcencLoopOk, hst, and_assoc]

theorem loopOk_crcenc_output {l : CrcLoop} (hst : l.stage = .output) : e.loopOk .crcenc (.crc l) = true ↔
    crcWordsOk e l = true ∧ l.i ≤ e.count + e.cfg.keyLen - 1 ∧ e.written = l.i := by
  simp [Engine.loopOk, crcencLoopOk, hst, and_assoc]

end LoopBounds

/-! ### The stores of one symbol -/

/-- The bits of a label from sequence number `n` on: only BUF changes, and the bits at or past the skip count are counted
(45_demapper.md R287). -/
theorem emitBits_stored {sch : Scheme} {label dst skip : Nat} : ∀ {left j n : Nat} {e e' : Engine} {s s' : State},
    s.buf.Fits s.params.bufBytes → emitBits sch label dst skip left j n e s = some (e', s') →
    s.Stored s' ∧ ∃ k, e' = e.wrote k ∧ (n - skip) + k = n + left - skip
  | 0, j, n, e, e', s, s', hs, h => by
    cases h
    exact ⟨.refl hs, 0, rfl, rfl⟩
  | left + 1, j, n, e, e', s, s', hs, h => by
    unfold emitBits at h
    split at h
    · next hskip =>
      split at h
      · next s1 hstore =>
        have hs1 := storeB_stored hs hstore
        obtain ⟨hs', k, rfl, hk⟩ := emitBits_stored hs1.fits h
        exact ⟨hs1.trans hs', 1 + k, by simp [Engine.wrote, Nat.add_assoc], by omega⟩
      · cases h
    · obtain ⟨hs', k, rfl, hk⟩ := emitBits_stored hs h
      exact ⟨hs', k, rfl, by omega⟩

/-! ### The tails of the iterations, once the output is stored -/

section AfterStore
variable {s s1 t : State} {e : Engine} (hs1 : s.Stored s1)
include hs1

theorem trMmUpdate_step {l : TrLoop} {z : Sample} (hl : trLoopOk e l = true)
    (hrun : l.running e.count = true) (h : trMmUpdate (e.wrote 1) l z s1 = .next t) :
    EngineStep .trMm s e t := by
  simp only [trMmUpdate] at h
  split at h
  · next hfin =>
    obtain ⟨s2, hlog, h⟩ := orFault_eq_next.1 h
    cases h
    exact .goto 1 _ (hs1.trans (storeLog_stored hs1.fits hlog)) (trLoopOk_advance hl hrun z hfin _)
  · cases h
    exact .error _ _ hs1

theorem costasFinish_step {i : Nat} {freq phase : F64} (hi : i < e.count) (hw : e.written = i)
    (h : costasFinish (e.wrote 1) i freq phase s1 = .next t) : EngineStep .costas s e t := by
  unfold costasFinish at h
  split at h
  · split at h
    · cases h
      refine .goto 1 _ hs1 ?_
      simpa [Engine.loopOk, coLoopOk, hw] using hi
    · cases h
      exact .error _ _ hs1
  · cases h
    exact .error _ _ hs1

theorem fsGoto_step {l : FsLoop} (hl : fsLoopOk e l = true)
    (h : fsGoto e l s1 = .next t) : EngineStep .fsync s e t := by
  cases h
  exact .stay _ hs1 (by simpa [Engine.loopOk] using hl)

end AfterStore

/-! ### NOP -/

theorem nop_step {s t : State} {e : Engine} (hr : RunningAt .nop s e .nop)
    (h : exec .nop s = .next t) : EngineStep .nop s e t := by
  rw [exec_nop_running hr] at h
  cases h
  exact .completesId _ _ _

section Commands
variable {s t : State} {e : Engine} (hs : s.buf.Fits s.params.bufBytes)
include hs

/-! ### TR_MM -/

theorem trMmIteration_step {l : TrLoop} (hl : trLoopOk e l = true) (hrun : l.running e.count = true)
    (h : trMmIteration e l s = .next t) : EngineStep .trMm s e t := by
  unfold trMmIteration at h
  split at h
  · split at h
    · cases h
      exact .error _ _ (.refl hs)
    · obtain ⟨z, -, h⟩ := orFault_eq_next.1 h
      obtain ⟨s1, hstore, h⟩ := orFault_eq_next.1 h
      exact trMmUpdate_step (storeC_stored hs hstore) hl hrun h
  · cases h

theorem trMm_step {l : TrLoop} (hr : RunningAt .trMm s e (.trMm l)) (hl : trLoopOk e l = true)
    (h : exec .trMm s = .next t) : EngineStep .trMm s e t := by
  rw [exec_trMm_running hr] at h
  split at h
  · next hrun => exact trMmIteration_step hs hl hrun h
  · cases h
    exact .completes (by constructor <;> simp [trMmResults]) id

/-! ### COSTAS -/

theorem costas_step {l : CoLoop} (hr : RunningAt .costas s e (.costas l)) (hl : coLoopOk e l = true)
    (h : exec .costas s = .next t) : EngineStep .costas s e t := by
  simp only [coLoopOk, Bool.and_eq_true, beq_iff_eq] at hl
  rw [exec_costas_running hr] at h
  split at h
  · next hi =>
    obtain ⟨z, -, h⟩ := orFault_eq_next.1 h
    obtain ⟨s1, hstore, h⟩ := orFault_eq_next.1 h
    have hs1 := storeC_stored hs hstore
    obtain ⟨s2, hlog, h⟩ := orFault_eq_next.1 h
    exact costasFinish_step (hs1.trans (storeLog_stored hs1.fits hlog)) hi hl.2 h
  · cases h
    exact .completes (by constructor <;> simp [costasResults]) id

/-! ### IQCORR -/

theorem iqEstimate_step {l : IqLoop} (hcount : 0 < e.count) (hprime : l.prime.length = e.count)
    (hw : e.written = 0) (h : iqEstimate e l s = .next t) : EngineStep .iqcorr s e t := by
  simp only [iqEstimate] at h
  iterate 5
    split at h
    · cases h
      exact .error _ _ (.refl hs)
  cases h
  refine .stay _ (.refl hs) ?_
  simp [Engine.loopOk, iqLoopOk, hcount, hprime, hw]

theorem iqCorrectIteration_step {l : IqLoop} (hk : l.k < e.count) (hprime : l.prime.length = e.count)
    (hw : e.written = l.k) (hst : l.stage = .correct) (h : iqCorrectIteration e l s = .next t) :
    EngineStep .iqcorr s e t := by
  have hstore {x : Sample} (h : orFault (storeC s e.dst l.k (iqCorrected l x)) (fun s' =>
      .next (s'.withEng ((e.wrote 1).goto (.iqcorr { l with k := l.k + 1 })))) = .next t) : EngineStep .iqcorr s e t := by
    obtain ⟨s1, hstore, h⟩ := orFault_eq_next.1 h
    cases h
    refine .goto 1 _ (storeC_stored hs hstore) ?_
    simp [Engine.loopOk, iqLoopOk, hst, hprime, hw, Nat.zero_lt_of_lt hk, Nat.succ_le_of_lt hk]
  unfold iqCorrectIteration iqSource at h
  split at h
  · split at h
    · exact hstore h
    · cases h
  · obtain ⟨x, -, h⟩ := orFault_eq_next.1 h
    exact hstore h

theorem iqcorr_step {l : IqLoop} (hr : RunningAt .iqcorr s e (.iqcorr l)) (hl : iqLoopOk e l = true)
    (h : exec .iqcorr s = .next t) : EngineStep .iqcorr s e t := by
  rw [exec_iqcorr_running hr] at h
  cases hst : l.stage <;> simp only [hst] at h
  case empty =>
    cases h
    exact .completesId _ _ _
  all_goals
    simp only [iqLoopOk, hst, Bool.and_eq_true, decide_eq_true_eq, beq_iff_eq] at hl
    obtain ⟨⟨⟨hcount, hk⟩, hprime⟩, hw⟩ := hl
  case estimate =>
    split at h
    · next hlt =>
      obtain ⟨x, -, h⟩ := orFault_eq_next.1 h
      cases h
      refine .stay _ (.refl hs) ?_
      simp [Engine.loopOk, iqLoopOk, hst, hcount, hprime, hw, Nat.succ_le_of_lt hlt]
    · exact iqEstimate_step hs hcount (by omega) hw h
  case correct =>
    split at h
    · next hlt => exact iqCorrectIteration_step hs hlt hprime hw hst h
    · cases h
      exact .completes (by constructor <;> simp [iqcorrResults, hcount]) id

/-! ### FSYNC -/

section FsyncStages
variable {l : FsLoop} (hl : fsLoopOk e l = true)
include hl

theorem fsyncStep_magnitude_step (hst : l.stage = .magnitude) (h : fsyncStep e l s = .next t) :
    EngineStep .fsync s e t := by
  simp only [fsLoopOk, hst, Bool.and_eq_true, decide_eq_true_eq, beq_iff_eq] at hl
  obtain ⟨⟨⟨⟨hcount, -⟩, hv⟩, hc⟩, hw⟩ := hl
  rw [fsyncStep_magnitude hst] at h
  split at h
  · next hi =>
    obtain ⟨x, -, h⟩ := orFault_eq_next.1 h
    exact fsGoto_step (.refl hs) (by simp [fsLoopOk, hst, hcount, hv, hc, hw, Nat.succ_le_of_lt hi]) h
  · simp only [fsScaleStep] at h
    split at h
    · exact fsGoto_step (.refl hs) (by simp [fsLoopOk, hw]) h
    · exact fsGoto_step (.refl hs) (by simp [fsLoopOk, hcount, hv, hc, hw]) h

theorem fsyncStep_rescale_step (hst : l.stage = .rescale) (h : fsyncStep e l s = .next t) :
    EngineStep .fsync s e t := by
  simp only [fsLoopOk, hst, Bool.and_eq_true, decide_eq_true_eq, beq_iff_eq] at hl
  obtain ⟨⟨⟨hi, hv⟩, hc⟩, hw⟩ := hl
  rw [fsyncStep_rescale hst] at h
  obtain ⟨x, -, h⟩ := orFault_eq_next.1 h
  dsimp only at h
  split at h
  · split at h
    · next hmore => exact fsGoto_step (.refl hs) (by simp [fsLoopOk, hst, hmore, hv, hc, hw]) h
    · next hlast =>
      have hfull : l.i + 1 = e.count := by omega
      exact fsGoto_step (.refl hs) (by simp [fsLoopOk, hfull, hv, hc, hw, Nat.zero_lt_of_lt hi]) h
  · exact fsGoto_step (.refl hs) (by simp [fsLoopOk, hw]) h

theorem fsyncStep_lags_step (hst : l.stage = .lags) (h : fsyncStep e l s = .next t) : EngineStep .fsync s e t := by
  simp only [fsLoopOk, hst, Bool.and_eq_true, decide_eq_true_eq, beq_iff_eq] at hl
  obtain ⟨⟨⟨⟨hcount, hle⟩, hv⟩, hc⟩, hw⟩ := hl
  simp only [fsyncStep, hst] at h
  split at h
  · next hi => exact fsGoto_step (.refl hs) (by simp [fsLoopOk, hst, hcount, hv, hc, hw, Nat.succ_le_of_lt hi]) h
  · unfold fsScanStart at h
    split at h
    · next c0 hc0 =>
      have hlags : l.c.length = lagCount e := by omega
      have hpos := (List.getElem?_eq_some_iff.1 hc0).1
      exact fsGoto_step (.refl hs) (by simp [fsLoopOk, hcount, hlags, hw]; omega) h
    · cases h

theorem fsyncStep_scan_step (hst : l.stage = .scan) (h : fsyncStep e l s = .next t) : EngineStep .fsync s e t := by
  simp only [fsLoopOk, hst, Bool.and_eq_true, decide_eq_true_eq, beq_iff_eq] at hl
  obtain ⟨⟨⟨⟨⟨hcount, hone⟩, hle⟩, hc⟩, hidx⟩, hw⟩ := hl
  simp only [fsyncStep, hst] at h
  split at h
  · next hi =>
    unfold fsScan at h
    split at h
    · split at h
      · exact fsGoto_step (.refl hs) (by simp [fsLoopOk, hst, hcount, hc, hw, Nat.succ_le_of_lt hi]) h
      · exact fsGoto_step (.refl hs) (by simp [fsLoopOk, hst, hcount, hc, hw, Nat.succ_le_of_lt hi]; omega) h
    · cases h
  · have hpeak : l.idx < lagCount e := by omega
    obtain ⟨hin, hsize⟩ := fsWindow_bounds (m := e.scalar) hpeak
    exact fsGoto_step (.refl hs) (by simpa [fsLoopOk, hcount, hpeak, hw] using ⟨hin, hsize⟩) h

theorem fsyncStep_copyFull_step (hst : l.stage = .copyFull) (h : fsyncStep e l s = .next t) :
    EngineStep .fsync s e t := by
  simp only [fsLoopOk, hst, Bool.and_eq_true, decide_eq_true_eq, beq_iff_eq] at hl
  obtain ⟨⟨⟨⟨⟨hcount, hle⟩, hin⟩, hsize⟩, hidx⟩, hw⟩ := hl
  simp only [fsyncStep, hst] at h
  split at h
  · next hi =>
    obtain ⟨x, -, h⟩ := orFault_eq_next.1 h
    obtain ⟨s1, hstore, h⟩ := orFault_eq_next.1 h
    cases h
    refine .goto 1 _ (storeC_stored hs hstore) ?_
    simp only [Engine.loopOk, fsLoopOk, hst, Bool.and_eq_true, decide_eq_true_eq, beq_iff_eq]
    exact ⟨trivial, ⟨⟨⟨⟨hcount, hi⟩, hin⟩, hsize⟩, hidx⟩, congrArg (· + 1) hw⟩
  · have hall : e.written = l.full := by omega
    exact fsGoto_step (.refl hs) (by simpa [fsLoopOk, hcount, hin, hidx, hall] using hsize) h

theorem fsyncStep_copyPay_step (hst : l.stage = .copyPay) (h : fsyncStep e l s = .next t) :
    EngineStep .fsync s e t := by
  simp only [fsLoopOk, hst, Bool.and_eq_true, decide_eq_true_eq, beq_iff_eq] at hl
  obtain ⟨⟨⟨⟨⟨⟨hcount, hle⟩, hin⟩, hsize⟩, hidx⟩, hpay⟩, hw⟩ := hl
  simp only [fsyncStep, hst] at h
  split at h
  · next hi =>
    obtain ⟨x, -, h⟩ := orFault_eq_next.1 h
    obtain ⟨s1, hstore, h⟩ := orFault_eq_next.1 h
    refine fsGoto_step (storeC_stored hs hstore) ?_ h
    simp only [fsLoopOk, hst, Bool.and_eq_true, decide_eq_true_eq, beq_iff_eq]
    exact ⟨⟨⟨⟨⟨⟨hcount, hi⟩, hin⟩, hsize⟩, hidx⟩, hpay⟩, hw⟩
  · cases h
    exact .completes (by constructor <;> simp [fsyncResults]) (fsyncResults_reservedZero l)

end FsyncStages

theorem fsync_step {l : FsLoop} (hr : RunningAt .fsync s e (.fsync l)) (hl : fsLoopOk e l = true)
    (h : exec .fsync s = .next t) : EngineStep .fsync s e t := by
  rw [exec_fsync_running hr] at h
  cases hst : l.stage with
  | magnitude => exact fsyncStep_magnitude_step hs hl hst h
  | rescale => exact fsyncStep_rescale_step hs hl hst h
  | lags => exact fsyncStep_lags_step hs hl hst h
  | scan => exact fsyncStep_scan_step hs hl hst h
  | copyFull => exact fsyncStep_copyFull_step hs hl hst h
  | copyPay => exact fsyncStep_copyPay_step hs hl hst h
  | degenerate =>
    simp only [fsyncStep, hst] at h
    cases h
    exact .completes (by constructor <;> simp [fsyncDegenerate]) fsyncDegenerate_reservedZero

/-! ### DEMAP -/

theorem demap_step {sch : Scheme} {l : DmLoop} (hr : RunningAt sch.instr s e (.demap l)) (hl : dmLoopOk sch.bps e l = true)
    (h : exec sch.instr s = .next t) : EngineStep sch.instr s e t := by
  simp only [dmLoopOk, Bool.and_eq_true, decide_eq_true_eq, beq_iff_eq] at hl
  rw [exec_demap_running hr] at h
  split at h
  · next hi =>
    obtain ⟨z, -, h⟩ := orFault_eq_next.1 h
    split at h
    · obtain ⟨⟨e', s'⟩, hemit, h⟩ := orFault_eq_next.1 h
      cases h
      obtain ⟨hs', k, rfl, hk⟩ := emitBits_stored hs hemit
      refine .goto k _ hs' ?_
      simp only [loopOk_demap, dmLoopOk, Bool.and_eq_true, decide_eq_true_eq, beq_iff_eq]
      refine ⟨hi, ?_⟩
      simp only [Engine.goto_written, Engine.wrote_written, hl.2, Engine.goto_scalar, Engine.wrote_scalar, Nat.succ_mul]
      exact hk
    · cases h
      exact .error _ _ (.refl hs)
  · cases h
    exact .completesId _ _ _

/-! ### CRCCHK and CRCENC -/

section Crc
variable {l : CrcLoop}

/-- A feed step of either command ends with CRC_BITVAL or moves on with the next register. -/
theorem crcFeedBit_step {i : Instr}
    (hl : ∀ b, e.loopOk i (.crc { l with i := l.i + 1, r := crcFeed e.cfg.keyLen e.cfg.key l.r b }) = true)
    (h : crcFeedBit e l s = .next t) : EngineStep i s e t := by
  obtain ⟨b, -, h⟩ := orFault_eq_next.1 h
  split at h
  · cases h
    exact .error _ _ (.refl hs)
  · cases h
    exact .stay _ (.refl hs) (hl _)

theorem crcchk_step (hr : RunningAt .crcchk s e (.crc l)) (hchk : Checked .crcchk s e) (hl : crcchkLoopOk e l = true)
    (h : exec .crcchk s = .next t) : EngineStep .crcchk s e t := by
  simp only [crcchkLoopOk, crcWordsOk_iff, Bool.and_eq_true, decide_eq_true_eq, beq_iff_eq] at hl
  obtain ⟨⟨⟨hreg, hrem⟩, hi⟩, hw⟩ := hl
  rw [exec_crcchk_running hr] at h
  split at h
  · split at h
    · next hlt =>
      refine crcFeedBit_step hs (fun b => ?_) h
      simp [Engine.loopOk, crcchkLoopOk, crcWordsOk_iff, crcFeed_lt, hrem, hw, Nat.succ_le_of_lt hlt]
    · cases h
      refine .stay _ (.refl hs) ?_
      simp [Engine.loopOk, crcchkLoopOk, crcWordsOk_iff, hreg, hw, crcRemainder_lt]
  · cases h
    exact .completes (by constructor <;> simp [crcchkResults])
      (crcResults_reservedZero (keyLen_of_not_bad hchk.argOk).2 hrem _)

theorem crcencDivide_step (hst : l.stage = .divide) (hchk : Checked .crcenc s e)
    (hl : e.loopOk .crcenc (.crc l) = true) (h : crcencDivide e l s = .next t) : EngineStep .crcenc s e t := by
  have hkey : 2 ≤ e.cfg.keyLen := (keyLen_of_not_bad hchk.argOk).1
  obtain ⟨hwords, -, hw⟩ := (loopOk_crcenc_divide hst).1 hl
  obtain ⟨hreg, hrem⟩ := crcWordsOk_iff.1 hwords
  have hfed (b : Bool) (hlt : l.i < e.count + e.cfg.keyLen - 1) :
      e.loopOk .crcenc (.crc { l with i := l.i + 1, r := crcFeed e.cfg.keyLen e.cfg.key l.r b }) = true := by
    refine (loopOk_crcenc_divide ?_).2 ⟨crcWordsOk_iff.2 ⟨crcFeed_lt _ _ _, hrem⟩, hlt, hw⟩
    exact hst
  unfold crcencDivide at h
  split at h
  · exact crcFeedBit_step hs (fun b => hfed b (by omega)) h
  split at h
  · next hlt =>
    cases h
    exact .stay _ (.refl hs) (hfed false hlt)
  · cases h
    refine .stay _ (.refl hs) ((loopOk_crcenc_output rfl).2 ⟨?_, Nat.zero_le _, hw⟩)
    exact crcWordsOk_iff.2 ⟨hreg, crcRemainder_lt _ _⟩

theorem crcencOutput_step (hst : l.stage = .output) (hchk : Checked .crcenc s e)
    (hl : e.loopOk .crcenc (.crc l) = true) (h : crcencOutput e l s = .next t) : EngineStep .crcenc s e t := by
  obtain ⟨hkey, hmax⟩ := keyLen_of_not_bad (c := e.cfg) hchk.argOk
  obtain ⟨hwords, -, hw⟩ := (loopOk_crcenc_output hst).1 hl
  have hmove {s' : State} (hs' : s.Stored s') (hlt : l.i < e.count + e.cfg.keyLen - 1) :
      EngineStep .crcenc s e (s'.withEng ((e.wrote 1).goto (.crc { l with i := l.i + 1 }))) := by
    refine .goto 1 _ hs' ((loopOk_crcenc_output ?_).2 ⟨hwords, hlt, congrArg (· + 1) hw⟩)
    exact hst
  unfold crcencOutput at h
  split at h
  · obtain ⟨b, -, h⟩ := orFault_eq_next.1 h
    obtain ⟨s', hcopy, h⟩ := orFault_eq_next.1 h
    cases h
    exact hmove (copyByte_stored hs hcopy) (by omega)
  split at h
  · next hlt =>
    obtain ⟨s', hstore, h⟩ := orFault_eq_next.1 h
    cases h
    exact hmove (storeB_stored hs hstore) hlt
  · cases h
    exact .completes (by constructor <;> simp [crcencResults])
      (crcResults_reservedZero hmax (crcWordsOk_iff.1 hwords).2 _)

theorem crcenc_step (hr : RunningAt .crcenc s e (.crc l)) (hchk : Checked .crcenc s e) (hl : crcencLoopOk e l = true)
    (h : exec .crcenc s = .next t) : EngineStep .crcenc s e t := by
  have hloop : e.loopOk .crcenc (.crc l) = true := by simpa [Engine.loopOk] using hl
  rw [exec_crcenc_running hr] at h
  split at h
  · next hst => exact crcencDivide_step hs hst hchk hloop h
  · next hst => exact crcencOutput_step hs hst hchk hloop h

end Crc

end Commands
end Sys2Proof.Machine
end

section
/-!
Every step keeps the invariant: each command's step is an `EngineStep`, each kind of `EngineStep` keeps it, and so does every
other turn.
-/
namespace Sys2Proof.Machine

/-! ### A command in flight -/

/-- Where a command stands after its check step is within its bounds (70_reset_and_hazards.md R453). -/
theorem loopOk_startOf {i : Instr} {e : Engine} (hi : i.port = .cmd) (hw : e.written = 0) :
    (e.goto (startOf i e)).loopOk i (startOf i e) = true := by
  have hdemap (sch : Scheme) : (e.goto (.demap ⟨0⟩)).loopOk sch.instr (.demap ⟨0⟩) = true := by
    simp [loopOk_demap, dmLoopOk, hw]
  have hcrc : crcWordsOk e CrcLoop.initial = true := crcWordsOk_iff.2 ⟨Nat.two_pow_pos _, Nat.two_pow_pos _⟩
  cases i with
  | nop => simp [Engine.loopOk, startOf, hw]
  | trMm =>
    have hunit : inUnit 0#64 = true := by decide
    have hrail : isRail Sample.zero = true := by decide
    simp [Engine.loopOk, startOf, trLoopOk, TrLoop.initial, hunit, hrail, hw]
  | costas => simp [Engine.loopOk, startOf, coLoopOk, CoLoop.initial, hw]
  | iqcorr =>
    by_cases hn : e.count = 0
    · simp [Engine.loopOk, startOf, iqLoopOk, IqLoop.initial, hn, hw]
    · simp [Engine.loopOk, startOf, iqLoopOk, IqLoop.initial, hn, hw, Nat.pos_of_ne_zero]
  | fsync =>
    by_cases hn : e.count = 0
    · simp [Engine.loopOk, startOf, fsLoopOk, FsLoop.initial, hn, hw]
    · simp [Engine.loopOk, startOf, fsLoopOk, FsLoop.initial, hn, hw, Nat.pos_of_ne_zero]
  | demapOok => exact hdemap .ook
  | demapBpsk => exact hdemap .bpsk
  | demapQpsk => exact hdemap .qpsk
  | demapQam16 => exact hdemap .qam16
  | crcchk => simpa [Engine.loopOk, startOf, crcchkLoopOk, CrcLoop.initial, hw] using hcrc
  | crcenc => exact (loopOk_crcenc_divide rfl).2 ⟨hcrc, Nat.zero_le _, hw⟩
  | srst | abort => cases hi

section InFlight
variable {i : Instr} {s t : State} {e : Engine} (hi : i.port = .cmd) (hg : s.Good) (hf : InFlight i s e)
include hi hg hf

/-- Past its check step a command of a good state has passed its checks, and its loop state is its own. -/
theorem State.Good.loop (hp : e.progress ≠ .check) : Checked i s e ∧ e.loopOk i e.progress = true :=
  (progressOk_iff hi hf.2 hp).1 (hg.engine e hf.1).progress

/-- A check step starts the command or ends it with the first failing check's error. -/
theorem engineStep_of_check (hp : e.progress = .check) (h : exec i s = .next t) :
    EngineStep i s e t ∧ (t.eng = none ∨ Checked i s e) := by
  have hw : e.written = 0 := by
    have hok := (hg.engine e hf.1).progress
    simpa [Engine.progressOk, hp] using hok
  obtain ⟨body, hexec⟩ := exec_eq_command hi
  rw [hexec, command_check hf.1 hf.2 hp] at h
  obtain ⟨c, -, hfail⟩ | ⟨hpass, hstart⟩ := checkStep_eq (planOf i e) (startOf i e) s e
  · rw [hfail] at h
    cases h
    exact ⟨.error c e (.refl hg.buf), .inl rfl⟩
  · rw [hstart] at h
    cases h
    exact ⟨.stay _ (.refl hg.buf) (loopOk_startOf hi hw), .inr hpass⟩

/-- Past its check step, with no abort pending, a command takes its operation's next step. -/
theorem engineStep_of_running (hp : e.progress ≠ .check) (ha : e.abortReq = false) (h : exec i s = .next t) :
    EngineStep i s e t := by
  obtain ⟨hchk, hl⟩ := hg.loop hi hf hp
  have hr {p : Progress} (hp : e.progress = p) : RunningAt i s e p := ⟨hf, hp, ha⟩
  have hdemap (sch : Scheme) (hsch : i = sch.instr) : EngineStep i s e t := by
    subst hsch
    obtain ⟨l, hp, hl⟩ := loopOk_demap_inv hl
    exact demap_step hg.buf (hr hp) hl h
  cases i with
  | nop => exact nop_step (hr (loopOk_nop_inv hl)) h
  | trMm =>
    obtain ⟨l, hp, hl⟩ := loopOk_trMm_inv hl
    exact trMm_step hg.buf (hr hp) hl h
  | costas =>
    obtain ⟨l, hp, hl⟩ := loopOk_costas_inv hl
    exact costas_step hg.buf (hr hp) hl h
  | iqcorr =>
    obtain ⟨l, hp, hl⟩ := loopOk_iqcorr_inv hl
    exact iqcorr_step hg.buf (hr hp) hl h
  | fsync =>
    obtain ⟨l, hp, hl⟩ := loopOk_fsync_inv hl
    exact fsync_step hg.buf (hr hp) hl h
  | demapOok => exact hdemap .ook rfl
  | demapBpsk => exact hdemap .bpsk rfl
  | demapQpsk => exact hdemap .qpsk rfl
  | demapQam16 => exact hdemap .qam16 rfl
  | crcchk =>
    obtain ⟨l, hp, hl⟩ := loopOk_crcchk_inv hl
    exact crcchk_step hg.buf (hr hp) hchk hl h
  | crcenc =>
    obtain ⟨l, hp, hl⟩ := loopOk_crcenc_inv hl
    exact crcenc_step hg.buf (hr hp) hchk hl h
  | srst | abort => cases hi

/-- Every step of a command in flight is an `EngineStep`, and only a checked command moves on. -/
theorem engineStep_of_exec (h : exec i s = .next t) : EngineStep i s e t ∧ (t.eng = none ∨ Checked i s e) := by
  by_cases hp : e.progress = .check
  · exact engineStep_of_check hi hg hf hp h
  cases ha : e.abortReq with
  | false => exact ⟨engineStep_of_running hi hg hf hp ha h, .inr (hg.loop hi hf hp).1⟩
  | true =>
    obtain ⟨body, hexec⟩ := exec_eq_command hi
    rw [hexec, command_abort hf.1 hf.2 hp ha] at h
    cases h
    exact ⟨.error _ _ (.refl hg.buf), .inl rfl⟩

end InFlight

/-! ### Each kind of engine step keeps the invariant -/

section Keeps
variable {i : Instr} {s t : State} {e : Engine}

theorem State.Good.stored (hg : s.Good) (h : s.Stored t) : t.Good := by
  obtain ⟨m, hm, rfl⟩ := h
  exact ⟨hg.params, hm, hg.cfg, hg.results, hg.irqEn, hg.errcode, fun e he =>
    have hr := hg.engine e he
    ⟨hr.done, hr.err, hr.args, hr.cfg, hr.cmd, hr.progress⟩⟩

theorem State.Stored.runs (h : s.Stored t) (hr : s.Runs e) : t.Runs e := by
  obtain ⟨m, hm, rfl⟩ := h
  exact ⟨hr.done, hr.err, hr.args, hr.cfg, hr.cmd, hr.progress⟩

theorem State.Stored.params (h : s.Stored t) : t.params = s.params := by
  obtain ⟨m, hm, rfl⟩ := h
  rfl

theorem State.Good.takeError (hg : s.Good) (c : ErrCode) (e : Engine) : (takeError c e s).Good :=
  ⟨hg.params, hg.buf, hg.cfg, hg.results, hg.irqEn, Status.errcodeOk_failed _ c, fun e' he' => by cases he'⟩

theorem State.Good.complete (hg : s.Good) {f : ResultRegs → ResultRegs} (e : Engine)
    (hf : s.results.reservedZero = true → (f s.results).reservedZero = true) : (complete f e s).Good :=
  ⟨hg.params, hg.buf, hg.cfg, hf hg.results, hg.irqEn, hg.errcode, fun e' he' => by cases he'⟩

theorem State.Good.withEng (hg : s.Good) (hr : s.Runs e) : (s.withEng e).Good :=
  ⟨hg.params, hg.buf, hg.cfg, hg.results, hg.irqEn, hg.errcode, fun e' he' => by
    obtain rfl : e = e' := Option.some.inj he'
    exact ⟨hr.done, hr.err, hr.args, hr.cfg, hr.cmd, hr.progress⟩⟩

/-- A move of a checked command leaves a record that meets the invariant. -/
theorem State.Runs.moves (hi : i.port = .cmd) (hr : s.Runs e) (hc : e.cmd = encode i) (hchk : Checked i s e) {e' : Engine}
    (he : e.SameCommand e') (hl : e'.loopOk i e'.progress = true) : s.Runs e' := by
  have hp : e'.progress ≠ .check := by
    intro hp
    simp [hp, Engine.loopOk] at hl
  have hplan : (planOf i e').firstError s.params.bufBytes = none := by
    rw [planOf_congr i he.args he.cfg]
    exact hchk
  exact ⟨hr.done, hr.err, he.args.trans hr.args, he.cfg.trans hr.cfg, he.cmd.trans hr.cmd,
    (progressOk_iff hi (he.cmd.trans hc) hp).2 ⟨hplan, hl⟩⟩

theorem EngineStep.good (h : EngineStep i s e t) (hi : i.port = .cmd) (hg : s.Good) (hf : InFlight i s e)
    (hchk : t.eng = none ∨ Checked i s e) : t.Good := by
  have hr := hg.engine e hf.1
  cases h with
  | error c e' hs => exact (hg.stored hs).takeError c e'
  | moves hs he hl =>
    have hchk : Checked i s e := hchk.resolve_left (by simp)
    exact (hg.stored hs).withEng (hs.runs (hr.moves hi hf.2 hchk he hl))
  | completes hown hres => exact hg.complete e hres

end Keeps

/-! ### Every turn -/

section Turns
variable {s t : State}

/-- Every meaning keeps the invariant: a command's issue, its refusal while another runs and its steps, and both operations of
CTRL. -/
theorem State.Good.exec (hg : s.Good) {i : Instr} (h : exec i s = .next t) : t.Good := by
  by_cases hi : i.port = .cmd
  case neg =>
    cases i with
    | srst => cases h; exact hg.resetBlock
    | abort => cases h; exact hg.requestAbort
    | _ => exact absurd rfl hi
  case pos =>
    obtain ⟨body, hexec⟩ := exec_eq_command hi
    obtain ⟨-, hout⟩ | ⟨e, -, -, hout⟩ | ⟨e, he, hc, -⟩ | ⟨e, he, hc, -⟩ | ⟨e, he, hc, -⟩ :=
      command_cases i (fun s e => checkStep (planOf i e) (startOf i e) s e) body s
    · rw [hexec, hout] at h
      cases h
      exact hg.issue _
    · rw [hexec, hout] at h
      cases h
      exact hg.hostConflict
    all_goals
      obtain ⟨hstep, hchk⟩ := engineStep_of_exec hi hg ⟨he, hc⟩ h
      exact hstep.good hi hg ⟨he, hc⟩ hchk

theorem State.Good.engineTurn (hg : s.Good) (h : engineTurn s = .next t) : t.Good := by
  unfold Machine.engineTurn at h
  split at h
  · cases h
    exact hg
  · split at h
    · exact hg.exec h
    · cases h
      exact hg.takeError _ _

theorem State.Good.whenIdle {s' : State} (hg : s.Good) (hidle : s.eng = none → s'.Good) (h : whenIdle s s' = .next t) :
    t.Good := by
  unfold Machine.whenIdle at h
  split at h <;> cases h
  · exact hg.hostConflict
  · next hbusy => exact hidle (by simpa [State.busy] using hbusy)

theorem State.Good.csrWrite (hg : s.Good) (c : Csr) (v : Word) (h : csrWrite s c v = .next t) : t.Good := by
  have hcfg (cfg : ConfigRegs) (hcfg : cfg.reservedZero = true) (hidle : s.eng = none) :
      State.Good { s with cfg := cfg } := hg.writeIdle hidle s.args hcfg hg.buf
  cases c with
  | ctrl =>
    simp only [Machine.csrWrite, writeCtrl] at h
    split at h
    · exact hg.exec h
    · cases h
      exact hg
  | status => cases h; exact hg.acknowledge v
  | irqEn => cases h; exact hg.writeIrqEn v
  | cmd =>
    simp only [Machine.csrWrite, writeCmd] at h
    split at h
    · cases h
      exact hg.hostConflict
    · split at h
      · exact hg.exec h
      · cases h
        exact hg.issue _
  | arg i => exact hg.whenIdle (fun hidle => hg.writeIdle hidle _ hg.cfg hg.buf) h
  | cfgLo r | cfgHi r => exact hg.whenIdle (hcfg _ (ConfigRegs.reservedZero_set64 hg.cfg r _)) h
  | cfg r => exact hg.whenIdle (hcfg _ (ConfigRegs.reservedZero_set32 hg.cfg r v)) h
  | id | bufSize | param | resLo | resHi | res => cases h; exact hg

theorem State.Good.hostRead (hg : s.Good) (o : BitVec 24) (w : Width) : (hostRead o w s).Good := by
  obtain ⟨r, hread | ⟨-, hread⟩⟩ := hostRead_cases o w s <;> rw [hread]
  · exact hg.respond r
  · exact hg.hostConflict.respond r

theorem State.Good.hostWrite (hg : s.Good) (o : BitVec 24) (w : Width) (d : BitVec 64) (h : hostWrite o w d s = .next t) :
    t.Good := by
  unfold Machine.hostWrite at h
  split at h
  · split at h
    · split at h
      · exact (hg.respond _).csrWrite _ _ h
      · cases h
        exact hg.respond _
    · cases h
      exact hg.respond _
  · next a _ =>
    split at h
    · next hok =>
      split at h <;> cases h
      · exact hg.hostConflict.respond _
      · next hbusy =>
        have hin : a + w.bytes ≤ s.params.bufBytes := by
          simp only [State.bufAccessOk, Bool.and_eq_true, decide_eq_true_eq] at hok
          exact hok.2
        have hidle : s.eng = none := by simpa [State.busy] using hbusy
        exact (hg.writeIdle hidle s.args hg.cfg (hg.buf.write _ hin)).respond _
    · cases h
      exact hg.respond _
  · cases h
    exact hg.respond _

theorem State.Good.hostAccess (hg : s.Good) (a : Access) (h : hostAccess a s = .next t) : t.Good := by
  cases a with
  | read o w => cases h; exact hg.hostRead o w
  | write o w d => exact hg.hostWrite o w d h

theorem State.Good.waitTurn (hg : s.Good) : (waitTurn s).Good := by
  unfold Machine.waitTurn
  split
  · exact (hg.hostRead _ _).withHost _ _ _
  · exact hg.hostRead _ _

theorem State.Good.setResetPin (hg : s.Good) (b : Bool) : (setResetPin b s).Good := by
  unfold Machine.setResetPin
  split
  · exact hg.withHost _ _ _
  · split
    · exact hg.resetBlock.withHost _ _ _
    · exact hg

theorem State.Good.takeTurn (hg : s.Good) (u : Turn) (h : takeTurn u s = .next t) : t.Good := by
  cases u with
  | resetPin b => cases h; exact hg.setResetPin b
  | host a =>
    simp only [Machine.takeTurn] at h
    split at h
    · cases h; exact hg
    · exact hg.hostAccess a h
  | engine =>
    simp only [Machine.takeTurn] at h
    split at h
    · cases h; exact hg
    · exact hg.engineTurn h
  | wait =>
    simp only [Machine.takeTurn] at h
    split at h <;> cases h
    · exact hg
    · exact hg.waitTurn

theorem State.Good.step (hg : s.Good) (h : step s = .next t) : t.Good := by
  unfold Machine.step transition at h
  split at h
  · split at h
    · cases h; exact hg
    · exact hg.engineTurn h
  · next u rest _ => exact (hg.withHost s.resetAsserted rest s.responses).takeTurn u h

end Turns
end Sys2Proof.Machine

namespace Sys2Proof.Proofs
open Sys2Proof Sys2Proof.Machine

/-- Settles O56: every part of the invariant is computed on the fixed state. -/
theorem resetIsGood : Obligations.ResetIsGood := by
  unfold Obligations.ResetIsGood
  decide

/-- Settles O57, turn by turn: `State.Good` is the invariant, and `engineStep_of_exec` says what a command's step can answer. -/
theorem stepKeepsGood : Obligations.StepKeepsGood := fun s t hs hstep =>
  (good_iff t).2 (((good_iff s).1 hs).step hstep)

end Sys2Proof.Proofs
end

section
/-!
What follows at once from the kinds of engine step: which command writes which result register, and how a pending abort ends a
command.
-/
namespace Sys2Proof.Machine

theorem ResultRegs.OnlyOwned.withOutLen {i : Instr} {n : Nat} {r r' : ResultRegs} (h : ResultRegs.OnlyOwned i n r r')
    (w : Word) : ResultRegs.OnlyOwned i n r { r' with outLen := w } :=
  ⟨h.tr, h.co, h.iq, h.fs, h.crc⟩

theorem State.Stored.results {s t : State} (h : s.Stored t) : t.results = s.results := by
  obtain ⟨m, -, rfl⟩ := h
  rfl

section Ownership
variable {i : Instr} {s t : State} {e : Engine}

/-- An engine step changes a result register other than OUT_LEN only as a successful completion, and only its command's own. -/
theorem EngineStep.ownership (h : EngineStep i s e t) (hr : s.Runs e) :
    (({ t.results with outLen := 0 } : ResultRegs) ≠ { s.results with outLen := 0 } →
      t.eng = none ∧ t.status.done = true ∧ t.status.err = false) ∧
    ResultRegs.OnlyOwned i e.count s.results t.results := by
  cases h with
  | error c e' hs =>
    have hsame := hs.results
    exact ⟨fun hne => absurd (by simp [hsame]) hne, .of_eq (by simp [hsame])⟩
  | moves hs he hl =>
    have hsame := hs.results
    exact ⟨fun hne => absurd (by simp [hsame]) hne, .of_eq (by simp [hsame])⟩
  | completes hown _ => exact ⟨fun _ => ⟨rfl, rfl, hr.err⟩, hown.withOutLen _⟩

/-- Of a command's transitions only its own engine steps touch a result register. -/
theorem results_of_exec (hi : i.port = .cmd) (hg : s.Good) (h : exec i s = .next t) :
    t.results = s.results ∨ ∃ e, s.eng = some e ∧ s.Runs e ∧ EngineStep i s e t := by
  obtain ⟨body, hexec⟩ := exec_eq_command hi
  obtain ⟨-, hout⟩ | ⟨e, -, -, hout⟩ | ⟨e, he, hc, -⟩ | ⟨e, he, hc, -⟩ | ⟨e, he, hc, -⟩ :=
    command_cases i (fun s e => checkStep (planOf i e) (startOf i e) s e) body s
  · rw [hexec, hout] at h
    cases h
    exact .inl rfl
  · rw [hexec, hout] at h
    cases h
    exact .inl rfl
  all_goals exact .inr ⟨e, he, hg.engine e he, (engineStep_of_exec hi hg ⟨he, hc⟩ h).1⟩

/-- Which command the change of a result register tells of (10_state.md R74). -/
theorem ResultRegs.OnlyOwned.owner {n : Nat} {r r' : ResultRegs} (h : ResultRegs.OnlyOwned i n r r') :
    (r'.trMu ≠ r.trMu ∨ r'.trIin ≠ r.trIin ∨ r'.trIout ≠ r.trIout → i = .trMm) ∧
    (r'.coPhase ≠ r.coPhase ∨ r'.coFreq ≠ r.coFreq → i = .costas) ∧
    (r'.iqA ≠ r.iqA ∨ r'.iqSin ≠ r.iqSin ∨ r'.iqCos ≠ r.iqCos → i = .iqcorr ∧ 0 < n) ∧
    (r'.fsIdx ≠ r.fsIdx ∨ r'.fsInfo ≠ r.fsInfo ∨ r'.fsPeak ≠ r.fsPeak ∨ r'.fsFullLen ≠ r.fsFullLen ∨
      r'.fsPayLen ≠ r.fsPayLen → i = .fsync) ∧
    (r'.crcRem ≠ r.crcRem ∨ r'.crcRes ≠ r.crcRes → i = .crcchk ∨ i = .crcenc) := by
  refine ⟨?_, ?_, ?_, ?_, ?_⟩ <;> intro hchanged <;> by_contra hother
  · simp [h.tr hother] at hchanged
  · simp [h.co hother] at hchanged
  · simp [h.iq hother] at hchanged
  · simp [h.fs hother] at hchanged
  · simp [h.crc hother] at hchanged

end Ownership

/-- An abort request on a running command is recorded and changes nothing else (40_command.md R138). -/
theorem exec_abort_busy {s : State} {e : Engine} (he : s.eng = some e) :
    exec .abort s = .next { s with eng := some { e with abortReq := true } } := by
  show execAbort s = _
  simp only [execAbort, requestAbort, he, State.withEng]

/-- On an idle block an abort request has no effect (10_state.md R34). -/
theorem exec_abort_idle {s : State} (he : s.eng = none) : exec .abort s = .next s := by
  show execAbort s = _
  simp only [execAbort, requestAbort, he]

/-- A pending abort ends a command past its check step in its next step (40_command.md R138). -/
theorem exec_aborted {i : Instr} {s : State} {e : Engine} (hi : i.port = .cmd) (hf : InFlight i s e)
    (hp : e.progress ≠ .check) (ha : e.abortReq = true) : exec i s = .next (takeError .aborted e s) := by
  obtain ⟨body, hexec⟩ := exec_eq_command hi
  rw [hexec, command_abort hf.1 hf.2 hp ha]

end Sys2Proof.Machine

namespace Sys2Proof.Proofs
open Sys2Proof Sys2Proof.Machine

/-- Settles O21: `EngineStep.ownership` for the steps of the command in flight; no other transition touches a result register. -/
theorem resultOwnership : Obligations.ResultOwnership := by
  intro i s t hi hgood hexec
  have hg := (good_iff s).1 hgood
  obtain hsame | ⟨e, he, hr, hstep⟩ := results_of_exec hi hg hexec
  · refine ⟨fun hne => absurd (by rw [hsame]) hne, ?_⟩
    simp [hsame]
  · obtain ⟨hdone, hown⟩ := hstep.ownership hr
    obtain ⟨htr, hco, hiq, hfs, hcrc⟩ := hown.owner
    exact ⟨hdone, htr, hco, fun h => (hiq h).imp_right fun hn => ⟨e, he, hn⟩, hfs, hcrc⟩

/-- Settles O15, one lemma a clause. -/
theorem abortIsRecordedThenTaken : Obligations.AbortIsRecordedThenTaken :=
  ⟨fun _ _ => exec_abort_busy, fun _ => exec_abort_idle, fun _ s e hi hf hp ha =>
    ⟨_, exec_aborted hi hf hp ha, takeError_ends .aborted e s, fun _ => rfl⟩⟩

end Sys2Proof.Proofs
end

section
/-!
The bits of STATUS (10_state.md R35) and what every CSR reads after a soft reset (10_state.md R79).
-/
namespace Sys2Proof.Machine

/-! ### The bits of STATUS -/

theorem getLsbD_bitAt (b : Bool) {place : Nat} (h : place < 32) (n : Nat) :
    (bitAt b place).getLsbD n = (decide (n = place) && b) := by
  rw [bitAt, BitVec.getLsbD_shiftLeft, BitVec.getLsbD_setWidth, BitVec.getLsbD_ofBool]
  by_cases hn : n = place
  · subst hn
    simp [h]
  · by_cases hlt : n < place
    · simp [hn, hlt]
    · simp [hn, show n - place ≠ 0 by omega]

/-- The code field of STATUS is its bits 15 to 8. -/
theorem getLsbD_errcodeField (c : BitVec 8) (n : Nat) :
    ((c.setWidth 32 <<< 8 : Word)).getLsbD n = (decide (8 ≤ n ∧ n < 16) && c.getLsbD (n - 8)) := by
  rw [BitVec.getLsbD_shiftLeft, BitVec.getLsbD_setWidth]
  by_cases hfield : 8 ≤ n ∧ n < 16
  · simp [hfield, show n < 32 by omega, show n - 8 < 32 by omega]
  · by_cases hlow : n < 8
    · simp [hlow, hfield]
    · simp [hfield, BitVec.getLsbD_of_ge c (n - 8) (by omega)]

theorem getLsbD_statusWord (s : State) (n : Nat) : s.statusWord.getLsbD n =
    if n = 0 then s.eng.isSome else if n = 1 then s.status.done else if n = 2 then s.status.err
    else if n = 3 then s.status.hostconf else if 8 ≤ n ∧ n < 16 then s.status.errcode.getLsbD (n - 8) else false := by
  simp only [State.statusWord, BitVec.getLsbD_or, getLsbD_bitAt _ (show 0 < 32 by decide),
    getLsbD_bitAt _ (show 1 < 32 by decide), getLsbD_bitAt _ (show 2 < 32 by decide),
    getLsbD_bitAt _ (show 3 < 32 by decide), getLsbD_errcodeField, State.busy]
  by_cases h0 : n = 0
  · simp [h0]
  by_cases h1 : n = 1
  · simp [h1]
  by_cases h2 : n = 2
  · simp [h2]
  by_cases h3 : n = 3
  · simp [h3]
  by_cases hfield : 8 ≤ n ∧ n < 16 <;> simp [h0, h1, h2, h3, hfield]

theorem csrWord_status (s : State) : csrWord s 0x008 = s.statusWord := rfl

theorem csrWord_irqEn (s : State) : csrWord s 0x00C = s.irqEn := rfl

/-! ### The CSR map, offset by offset -/

theorem mem_of_csrLookup {m : List (Nat × Csr)} {o : Nat} {c : Csr} (h : csrLookup m o = some c) : (o, c) ∈ m := by
  induction m with
  | nil => cases h
  | cons p rest ih =>
    obtain ⟨k, r⟩ := p
    unfold csrLookup at h
    split at h
    · next hk =>
      cases h
      exact hk ▸ List.mem_cons_self
    · exact List.mem_cons_of_mem _ (ih h)

theorem csrLookup_none {m : List (Nat × Csr)} {o : Nat} (h : csrLookup m o = none) {p : Nat × Csr} (hp : p ∈ m) :
    p.1 ≠ o := by
  induction m with
  | nil => cases hp
  | cons q rest ih =>
    unfold csrLookup at h
    split at h
    · cases h
    · next hk => exact (List.mem_cons.1 hp).elim (fun hq => hq ▸ hk) (ih h)

/-! ### After a soft reset -/

/-- The reset column of R79, with BUF_SIZE as the only register that depends on the parameters. -/
def resetWord (bufBytes : Nat) (o : Nat) : BitVec 64 :=
  if o = 0x000 then 0x52580001 else if o = 0x014 then (BitVec.ofNat 32 bufBytes).setWidth 64
  else if o = 0x018 then 0x00402010 else if o = 0x044 then 0x40200000
  else if o = 0x048 then 0x33333333 else if o = 0x04C then 0x3FD33333
  else if o = 0x050 then 0x2F9294C3 else if o = 0x054 then 0x3EEBAEB2
  else if o = 0x058 then 0xCED5BB89 else if o = 0x05C then 0x3F186E8B
  else if o = 0x060 then 0x10000000 else if o = 0x064 then 0x41E24101
  else if o = 0x07C then 0x3FF00000 else if o = 0x088 then 0x0000003C
  else if o = 0x08C then 0x00000987 else if o = 0x090 then 0x0000000C else 0

/-- The offsets R79 gives a reset value other than 0, BUF_SIZE's among them. -/
def resetOffsets : List Nat :=
  [0x000, 0x014, 0x018, 0x044, 0x048, 0x04C, 0x050, 0x054, 0x058, 0x05C, 0x060, 0x064, 0x07C, 0x088, 0x08C, 0x090]

theorem resetWord_of_not_mem {bufBytes o : Nat} (h : o ∉ resetOffsets) : resetWord bufBytes o = 0 := by
  simp only [resetOffsets, List.mem_cons, List.not_mem_nil, or_false, not_or] at h
  simp only [resetWord, h, if_false]

/-- Every offset that R79 gives a reset value other than 0 is assigned. -/
theorem resetOffsets_assigned : ∀ o ∈ resetOffsets, ∃ p ∈ csrMap, p.1 = o := by decide

/-- A soft reset leaves every register as in the reset state, but for BUF_SIZE. -/
theorem csrRead_resetBlock (s : State) (c : Csr) :
    csrRead (resetBlock s) c = if c = .bufSize then BitVec.ofNat 32 s.params.bufBytes else csrRead State.reset c := by
  cases c <;> rfl

theorem resetWord_bufSize (bufBytes : Nat) : resetWord bufBytes 0x014 = (BitVec.ofNat 32 bufBytes).setWidth 64 := rfl

theorem csrMap_reset : ∀ p ∈ csrMap, p.2 ≠ .bufSize →
    p.1 ≠ 0x014 ∧ (csrRead State.reset p.2).setWidth 64 = resetWord 0 p.1 := by decide

theorem csrMap_bufSize : ∀ p ∈ csrMap, p.2 = .bufSize → p.1 = 0x014 := by decide

theorem resetWord_congr {o : Nat} (h : o ≠ 0x014) (b : Nat) : resetWord b o = resetWord 0 o := by
  simp only [resetWord, h, if_false]

/-- After a soft reset the host reads the reset column everywhere (10_state.md R79). -/
theorem csrWord_resetBlock (s : State) (o : Nat) :
    (csrWord (resetBlock s) o).setWidth 64 = resetWord s.params.bufBytes o := by
  rw [csrWord_eq]
  cases hc : Csr.ofOffset o with
  | none =>
    have hfree : o ∉ resetOffsets := fun ho => by
      obtain ⟨p, hp, hpo⟩ := resetOffsets_assigned o ho
      exact csrLookup_none hc hp hpo
    rw [resetWord_of_not_mem hfree]
    rfl
  | some c =>
    have hmem := mem_of_csrLookup hc
    rw [Option.map_some, Option.getD_some, csrRead_resetBlock]
    by_cases hsize : c = .bufSize
    · obtain rfl : o = 0x014 := csrMap_bufSize _ hmem hsize
      rw [if_pos hsize, resetWord_bufSize]
    · obtain ⟨hne, hword⟩ := csrMap_reset _ hmem hsize
      rw [if_neg hsize, resetWord_congr hne, hword]

end Sys2Proof.Machine

namespace Sys2Proof.Proofs
open Sys2Proof Sys2Proof.Machine

/-- Settles O20: `getLsbD_statusWord` for the layout, the table of codes one by one, and irq through the same bits. -/
theorem statusWordAndInterrupt : Obligations.StatusWordAndInterrupt := by
  refine ⟨fun s n => ?_, fun c => ?_, fun s => ?_⟩
  · rw [csrWord_status, getLsbD_statusWord]
  · cases c <;> rfl
  · rw [csrWord_status, csrWord_irqEn, getLsbD_statusWord, getLsbD_statusWord, getLsbD_statusWord]
    simp [State.irq, or_assoc]

/-- Settles O18, from the table of R79 (`csrWord_resetBlock`). -/
theorem resetReads : Obligations.ResetReads := by
  intro s t o hexec h4 ho
  obtain rfl : resetBlock s = t := Host.Outcome.next.inj hexec
  rw [hostRead_csrWord h4 ho, csrWord_resetBlock]
  rfl

end Sys2Proof.Proofs
end

section
/-!
Host access to the CSR space (10_state.md R40, R73, R79): which register an offset reaches, what each kind of register does with a
write, and what a written register reads as.
-/
namespace Sys2Proof.Machine

/-! ### Kinds of registers -/

/-- The argument and configuration registers (10_state.md R31, R42 to R56). -/
def Csr.isOperand : Csr → Bool
  | .arg _ | .cfgLo _ | .cfgHi _ | .cfg _ => true
  | _ => false

/-- The registers that only an idle block lets the host write (10_state.md R73). -/
def Csr.isIdleOnly (c : Csr) : Bool := decide (c = .cmd) || c.isOperand

/-- The registers that ignore a write. -/
def Csr.isReadOnly : Csr → Bool
  | .id | .bufSize | .param | .resLo _ | .resHi _ | .res _ => true
  | _ => false

/-- The bits of a register that are not reserved (10_state.md R40). -/
def Csr.mask : Csr → Word
  | .cfg r => r.writable
  | _ => 0xFFFFFFFF

/-- The offsets of CMD, of the argument and of the configuration registers are assigned. -/
theorem ofOffset_idleOnly {o : Nat} (h4 : o % 4 = 0) (ho : o = 0x010 ∨ (0x020 ≤ o ∧ o < 0x0A0)) :
    ∃ c, Csr.ofOffset o = some c ∧ c.isIdleOnly = true := by
  have htable : ∀ k < 40, k = 4 ∨ 8 ≤ k → (Csr.ofOffset (4 * k)).any Csr.isIdleOnly = true := by decide
  have hk := htable (o / 4) (by omega) (by omega)
  rwa [show 4 * (o / 4) = o by omega, Option.any_eq_true] at hk

theorem csrMap_readOnly : ∀ p ∈ csrMap,
    p.1 = 0x000 ∨ p.1 = 0x014 ∨ p.1 = 0x018 ∨ p.1 = 0x01C ∨ 0x0A0 ≤ p.1 → p.2.isReadOnly = true := by decide

theorem csrMap_operand : ∀ p ∈ csrMap, 0x020 ≤ p.1 → p.1 < 0x0A0 → p.2.isOperand = true ∧ csrMask p.1 = p.2.mask := by
  decide

/-- No register stands at two offsets. -/
theorem ofOffset_inj {o o' : Nat} {c : Csr} (h : Csr.ofOffset o = some c) (h' : Csr.ofOffset o' = some c) : o = o' :=
  congrArg Prod.fst (List.inj_on_of_nodup_map csrMap_distinct.2 (mem_of_csrLookup h) (mem_of_csrLookup h') rfl)

/-! ### Writes, by the kind of register -/

theorem csrWrite_busy {s : State} {c : Csr} (hb : s.busy = true) (hc : c.isIdleOnly = true) (v : Word) :
    csrWrite s c v = .next (hostConflict s) := by
  cases c with
  | cmd => exact if_pos hb
  | arg | cfgLo | cfgHi | cfg => exact if_pos hb
  | _ => cases hc

theorem csrWrite_readOnly {c : Csr} (hc : c.isReadOnly = true) (s : State) (v : Word) : csrWrite s c v = .next s := by
  cases c with
  | id | bufSize | param | resLo | resHi | res => rfl
  | _ => cases hc

/-- CTRL: SRST, or else ABORT, or else nothing (10_state.md R34). -/
theorem csrWrite_ctrl (s : State) (v : Word) : csrWrite s .ctrl v =
    .next (if v.getLsbD 0 then resetBlock s else if v.getLsbD 1 then requestAbort s else s) := by
  show writeCtrl v s = _
  unfold writeCtrl decodeCtrl
  cases v.getLsbD 0 with
  | true => rfl
  | false => cases v.getLsbD 1 <;> rfl

/-- The state after a write of an operand register on an idle block. -/
def operandWrite (s : State) (c : Csr) (v : Word) : State :=
  match c with
  | .arg i => { s with args := s.args.set i v }
  | .cfgLo r => { s with cfg := s.cfg.set64 r (withLo (s.cfg.get64 r) v) }
  | .cfgHi r => { s with cfg := s.cfg.set64 r (withHi (s.cfg.get64 r) v) }
  | .cfg r => { s with cfg := s.cfg.set32 r v }
  | _ => s

theorem csrWrite_operand {s : State} {c : Csr} (hidle : s.eng = none) (hc : c.isOperand = true) (v : Word) :
    csrWrite s c v = .next (operandWrite s c v) := by
  have hb : ¬ s.busy = true := by simp [State.busy, hidle]
  cases c with
  | arg | cfgLo | cfgHi | cfg => exact if_neg hb
  | _ => cases hc

theorem operandWrite_frame (s : State) (c : Csr) (v : Word) :
    operandWrite s c v = { s with args := (operandWrite s c v).args, cfg := (operandWrite s c v).cfg } := by
  cases c <;> rfl

/-! ### Halves of a 64-bit register (10_state.md R41) -/

@[simp] theorem loHalf_withLo (x : F64) (v : Word) : loHalf (withLo x v) = v := BitVec.extractLsb'_append_eq_right

@[simp] theorem hiHalf_withLo (x : F64) (v : Word) : hiHalf (withLo x v) = hiHalf x := BitVec.extractLsb'_append_eq_left

@[simp] theorem hiHalf_withHi (x : F64) (v : Word) : hiHalf (withHi x v) = v := BitVec.extractLsb'_append_eq_left

@[simp] theorem loHalf_withHi (x : F64) (v : Word) : loHalf (withHi x v) = loHalf x := BitVec.extractLsb'_append_eq_right

/-! ### Reads of the register files after a write -/

@[simp] theorem Args.get_set_same (r : Args) (i : Fin 8) (v : Word) : (r.set i v).get i = v := by
  fin_cases i <;> rfl

theorem Args.get_set_other (r : Args) {i j : Fin 8} (v : Word) (h : j ≠ i) : (r.set i v).get j = r.get j := by
  revert h
  fin_cases i <;> fin_cases j <;> simp [Args.set, Args.get]

@[simp] theorem ConfigRegs.get64_set64_same (c : ConfigRegs) (r : Cfg64) (v : F64) : (c.set64 r v).get64 r = v := by
  cases r <;> rfl

theorem ConfigRegs.get64_set64_other (c : ConfigRegs) {r q : Cfg64} (v : F64) (h : q ≠ r) :
    (c.set64 r v).get64 q = c.get64 q := by
  revert h
  cases r <;> cases q <;> simp [ConfigRegs.set64, ConfigRegs.get64]

@[simp] theorem ConfigRegs.get64_set32 (c : ConfigRegs) (r : Cfg32) (v : Word) (q : Cfg64) :
    (c.set32 r v).get64 q = c.get64 q := by cases r <;> rfl

/-- A written operand register reads as the value written, its reserved bits as 0. -/
theorem csrRead_operandWrite_same {c : Csr} (hc : c.isOperand = true) (s : State) (v : Word) :
    csrRead (operandWrite s c v) c = v &&& c.mask := by
  have hfull : v &&& 0xFFFFFFFF = v := BitVec.and_allOnes
  cases c with
  | arg i => simpa [operandWrite, csrRead, Csr.mask] using hfull.symm
  | cfgLo r | cfgHi r => simpa [operandWrite, csrRead, Csr.mask] using hfull.symm
  | cfg r => simp [operandWrite, csrRead, Csr.mask]
  | _ => cases hc

/-- Every other register reads as before. -/
theorem csrRead_operandWrite_other {c c' : Csr} (h : c' ≠ c) (s : State) (v : Word) :
    csrRead (operandWrite s c v) c' = csrRead s c' := by
  cases c with
  | arg i =>
    cases c' with
    | arg j => exact Args.get_set_other s.args v fun hij => h (congrArg Csr.arg hij)
    | _ => rfl
  | cfgLo r =>
    cases c' with
    | cfgLo q =>
      have hq : q ≠ r := fun hq => h (congrArg Csr.cfgLo hq)
      exact congrArg loHalf (ConfigRegs.get64_set64_other _ _ hq)
    | cfgHi q =>
      by_cases hq : q = r
      · simp [operandWrite, csrRead, hq]
      · exact congrArg hiHalf (ConfigRegs.get64_set64_other _ _ hq)
    | cfg q => exact ConfigRegs.get32_set64 _ _ _ _
    | _ => rfl
  | cfgHi r =>
    cases c' with
    | cfgHi q =>
      have hq : q ≠ r := fun hq => h (congrArg Csr.cfgHi hq)
      exact congrArg hiHalf (ConfigRegs.get64_set64_other _ _ hq)
    | cfgLo q =>
      by_cases hq : q = r
      · simp [operandWrite, csrRead, hq]
      · exact congrArg loHalf (ConfigRegs.get64_set64_other _ _ hq)
    | cfg q => exact ConfigRegs.get32_set64 _ _ _ _
    | _ => rfl
  | cfg r =>
    cases c' with
    | cfg q => exact ConfigRegs.get32_set32_other _ _ fun hq => h (congrArg Csr.cfg hq)
    | cfgLo q => exact congrArg loHalf (ConfigRegs.get64_set32 _ _ _ _)
    | cfgHi q => exact congrArg hiHalf (ConfigRegs.get64_set32 _ _ _ _)
    | _ => rfl
  | _ => rfl

/-! ### The turns -/

section Turns
variable {s : State} {rest : List Turn} {o : Nat} {data : BitVec 64} (hr : s.resetAsserted = false) (h4 : o % 4 = 0)
  (ho : o < 0x1000)
include hr h4 ho

/-- A 4-byte host read in the CSR space answers the word of the table and changes nothing. -/
theorem step_csr_read (ha : s.agenda = .host (.read (BitVec.ofNat 24 o) .b4) :: rest) :
    step s = .next { s with agenda := rest, responses := .readOkay ((csrWord s o).setWidth 64) :: s.responses } := by
  rw [step_host hr ha, hostAccess, hostRead_csrWord h4 ho]
  rfl

/-- A 4-byte host write at an assigned offset is a write of the register there. -/
theorem step_csr_write (ha : s.agenda = .host (.write (BitVec.ofNat 24 o) .b4 data) :: rest) {c : Csr}
    (hc : Csr.ofOffset o = some c) :
    step s = csrWrite { s with agenda := rest, responses := .writeOkay :: s.responses } c (data.setWidth 32) := by
  rw [step_host hr ha, hostAccess, hostWrite_csr h4 ho, hc]
  rfl

/-- A 4-byte host write at a reserved offset is ignored. -/
theorem step_csr_write_reserved (ha : s.agenda = .host (.write (BitVec.ofNat 24 o) .b4 data) :: rest)
    (hc : Csr.ofOffset o = none) :
    step s = .next { s with agenda := rest, responses := .writeOkay :: s.responses } := by
  rw [step_host hr ha, hostAccess, hostWrite_csr h4 ho, hc]
  rfl

/-- On an idle block a 4-byte host write at an operand register's offset writes that register. -/
theorem step_operand_write (hidle : s.eng = none)
    (ha : s.agenda = .host (.write (BitVec.ofNat 24 o) .b4 data) :: rest) {c : Csr} (hc : Csr.ofOffset o = some c)
    (hop : c.isOperand = true) :
    step s =
      .next (operandWrite { s with agenda := rest, responses := .writeOkay :: s.responses } c (data.setWidth 32)) := by
  have hidle' : State.eng { s with agenda := rest, responses := .writeOkay :: s.responses } = none := hidle
  rw [step_csr_write hr h4 ho ha hc, csrWrite_operand hidle' hop]

end Turns

/-- What the host reads after a write of an operand register: there the value written, elsewhere what it read before. -/
theorem csrWord_operandWrite {o : Nat} {c : Csr} (hc : Csr.ofOffset o = some c) (hop : c.isOperand = true) (s : State)
    (v : Word) :
    csrWord (operandWrite s c v) o = v &&& c.mask ∧
      ∀ o', o' ≠ o → csrWord (operandWrite s c v) o' = csrWord s o' := by
  refine ⟨?_, fun o' hne => ?_⟩
  · rw [csrWord_eq, hc, Option.map_some, Option.getD_some, csrRead_operandWrite_same hop]
  · rw [csrWord_eq, csrWord_eq]
    cases hc' : Csr.ofOffset o' with
    | none => rfl
    | some c' =>
      have hdiff : c' ≠ c := fun heq => hne (ofOffset_inj (heq ▸ hc') hc)
      rw [Option.map_some, Option.map_some, csrRead_operandWrite_other hdiff]

end Sys2Proof.Machine

namespace Sys2Proof.Proofs
open Sys2Proof Sys2Proof.Machine

/-- Settles O9, by the kind of register at the offset. -/
theorem registerWritesWhileBusy : Obligations.RegisterWritesWhileBusy := by
  intro s rest o data hr h4 ho
  refine ⟨fun ha => ⟨fun hb hoff => ?_, fun hoff => ?_, fun hoff => ?_, fun hoff => ?_, fun hoff => ?_⟩,
    fun ha => step_csr_read hr h4 ho ha⟩
  · obtain ⟨c, hc, hidle⟩ := ofOffset_idleOnly h4 hoff
    have hbusy : State.busy { s with agenda := rest, responses := .writeOkay :: s.responses } = true := hb
    exact (step_csr_write hr h4 ho ha hc).trans (csrWrite_busy hbusy hidle _)
  · subst hoff
    rw [step_csr_write hr h4 ho ha (c := .ctrl) rfl, csrWrite_ctrl]
  · subst hoff
    exact step_csr_write hr h4 ho ha (c := .status) rfl
  · subst hoff
    exact step_csr_write hr h4 ho ha (c := .irqEn) rfl
  · cases hc : Csr.ofOffset o with
    | none => exact step_csr_write_reserved hr h4 ho ha hc
    | some c =>
      rw [step_csr_write hr h4 ho ha hc, csrWrite_readOnly (csrMap_readOnly _ (mem_of_csrLookup hc) hoff)]

/-- Settles O10: the host's turn is `operandWrite` of the register at the offset, and `csrWord_operandWrite` says what is read
after it. -/
theorem registerWriteReadsBack : Obligations.RegisterWriteReadsBack := by
  refine ⟨fun s o rest hr h4 ho ha => step_csr_read hr h4 ho ha, ?_⟩
  intro s o data rest hr hidle h4 hlow hhigh ha
  obtain ⟨c, hc, -⟩ := ofOffset_idleOnly h4 (.inr ⟨hlow, hhigh⟩)
  obtain ⟨hop, hmask⟩ := csrMap_operand _ (mem_of_csrLookup hc) hlow hhigh
  obtain ⟨hsame, hother⟩ := csrWord_operandWrite hc hop
    { s with agenda := rest, responses := .writeOkay :: s.responses } (data.setWidth 32)
  exact ⟨_, step_operand_write hr h4 (by omega) hidle ha hc hop, operandWrite_frame _ c _,
    hsame.trans (congrArg (data.setWidth 32 &&& ·) hmask.symm), hother⟩

end Sys2Proof.Proofs
end

section
/-!
BUF byte by byte (20_memory.md R84): a write is a shorter write followed by the rest of it, a read inside a write gives that part of
the value, and byte `k` of a read is the byte at its place.
-/
namespace Sys2Proof

theorem Width.bytes_pos (w : Width) : 0 < w.bytes := by cases w <;> decide

/-- No access is wider than the 64 bits of a response. -/
theorem Width.pow_bytes_le (w : Width) : 256 ^ w.bytes ≤ 2 ^ 64 := by cases w <;> decide

theorem Width.eq_b4 {w : Width} (h : w.bytes = 4) : w = .b4 := by
  cases w with
  | b4 => rfl
  | b1 | b2 | b8 => cases h

end Sys2Proof

namespace Sys2Proof.Machine

/-- The low bytes of a value are stored first, then the rest of it above them. -/
theorem Memory.write_add (j n : Nat) : ∀ (m : Memory) (a v : Nat),
    m.write a (j + n) v = (m.write a j v).write (a + j) n (v / 256 ^ j) := by
  induction j with
  | zero => intro m a v; simp [Memory.write]
  | succ j ih =>
    intro m a v
    rw [show j + 1 + n = j + n + 1 by omega, Memory.write, Memory.write, ih, Nat.div_div_eq_div_mul, ← Nat.pow_succ',
      show a + 1 + j = a + (j + 1) by omega]

/-- A read inside the bytes of a write gives their part of the value written. -/
theorem Memory.read_write_inside (m : Memory) {a n j k : Nat} (v : Nat) (h : j + k ≤ n) :
    (m.write a n v).read (a + j) k = v / 256 ^ j % 256 ^ k := by
  obtain ⟨r, rfl⟩ := Nat.exists_eq_add_of_le h
  rw [Nat.add_assoc, Memory.write_add j, Memory.write_add k, Memory.read_write_disjoint _ (.inl le_rfl),
    Memory.read_write_same]

/-- A read of `n` bytes holds the byte at `a + k` in its byte `k`. -/
theorem Memory.read_byte (m : Memory) : ∀ {n k : Nat} (a : Nat), k < n →
    m.read a n / 256 ^ k % 256 = (m.readByte (a + k)).toNat
  | n + 1, 0, a, _ => by
    have := (m.readByte a).isLt
    simp only [Memory.read, Nat.pow_zero, Nat.div_one, Nat.add_zero]
    omega
  | n + 1, k + 1, a, h => by
    have hbyte := (m.readByte a).isLt
    have hrest : m.read a (n + 1) / 256 = m.read (a + 1) n := by simp only [Memory.read]; omega
    rw [Nat.pow_succ', ← Nat.div_div_eq_div_mul, hrest, Memory.read_byte m (a + 1) (Nat.lt_of_succ_lt_succ h),
      show a + 1 + k = a + (k + 1) by omega]

/-- A byte of a write is that byte of the value. -/
theorem Memory.readByte_write_inside (m : Memory) {a n k : Nat} (v : Nat) (h : k < n) :
    ((m.write a n v).readByte (a + k)).toNat = v / 256 ^ k % 256 := by
  have hone := Memory.read_write_inside m (a := a) v (show k + 1 ≤ n from h)
  simpa [Memory.read] using hone

theorem toNat_extractByte (d : BitVec 64) (k : Nat) : (d.extractLsb' (8 * k) 8).toNat = d.toNat / 256 ^ k % 256 := by
  rw [BitVec.extractLsb'_toNat, Nat.shiftRight_eq_div_pow, Nat.pow_mul]

/-- A response holds the whole value of a read of BUF. -/
theorem Memory.toNat_ofNat_read (m : Memory) (a : Nat) (w : Width) :
    (BitVec.ofNat 64 (m.read a w.bytes)).toNat = m.read a w.bytes := by
  rw [BitVec.toNat_ofNat, Nat.mod_eq_of_lt (lt_of_lt_of_le (Memory.read_lt _ m a) w.pow_bytes_le)]

end Sys2Proof.Machine
end

section
/-!
The kinds of host access (20_memory.md R82 to R88): a legal one of a register, a legal one of BUF, and every other, which is answered
ERROR; and what a read and a write of each kind do on an idle block and while a command runs (R92).
-/
namespace Sys2Proof.Machine

/-- `n` bytes at window offset `o` are a register (R83). -/
def LegalCsr (o n : Nat) : Prop := o < 0x1000 ∧ n = 4 ∧ o % 4 = 0

/-- `n` bytes at window offset `o` are naturally aligned and inside a BUF of `limit` bytes (R87, R88). -/
def LegalBuf (limit o n : Nat) : Prop :=
  0x100000 ≤ o ∧ (o - 0x100000) % n = 0 ∧ o - 0x100000 + n ≤ limit

section Kinds
variable {s : State} {off : BitVec 24} {w : Width}

theorem target_of_legalBuf (h : LegalBuf s.params.bufBytes off.toNat w.bytes) :
    s.target off = .buf (off.toNat - 0x100000) ∧ s.bufAccessOk (off.toNat - 0x100000) w = true := by
  obtain ⟨hlow, halign, hin⟩ := h
  have hpos := w.bytes_pos
  constructor
  · simp only [State.target]
    rw [if_neg (by omega), if_neg (by omega), if_pos (by omega)]
  · simp [State.bufAccessOk, halign, hin]

/-- Any other access fails the test of the part of the window it reaches. -/
theorem target_of_illegal (hc : ¬ LegalCsr off.toNat w.bytes) (hb : ¬ LegalBuf s.params.bufBytes off.toNat w.bytes) :
    (∃ o, s.target off = .csr o ∧ csrAccessOk o w = false) ∨ (∃ o, s.target off = .buf o ∧ s.bufAccessOk o w = false) ∨
      s.target off = .unmapped := by
  by_cases h1 : off.toNat < 0x1000
  · refine .inl ⟨off.toNat, if_pos h1, ?_⟩
    rw [csrAccessOk, Bool.and_eq_false_iff, beq_eq_false_iff_ne, beq_eq_false_iff_ne, ← not_and_or]
    rintro ⟨rfl, h4⟩
    exact hc ⟨h1, rfl, h4⟩
  by_cases h2 : off.toNat < 0x100000
  · exact .inr (.inr (by simp only [State.target]; rw [if_neg h1, if_pos h2]))
  by_cases h3 : off.toNat < 0x100000 + s.params.bufBytes
  · refine .inr (.inl ⟨off.toNat - 0x100000, by simp only [State.target]; rw [if_neg h1, if_neg h2, if_pos h3], ?_⟩)
    rw [State.bufAccessOk, Bool.and_eq_false_iff, beq_eq_false_iff_ne, decide_eq_false_iff_not, ← not_and_or]
    exact fun hok => hb ⟨Nat.le_of_not_lt h2, hok⟩
  · exact .inr (.inr (by simp only [State.target]; rw [if_neg h1, if_neg h2, if_neg h3]))

/-! ### Reads -/

theorem hostRead_of_legalCsr (h : LegalCsr off.toNat w.bytes) :
    hostRead off w s = respond (.readOkay ((csrWord s off.toNat).setWidth 64)) s := by
  obtain ⟨hlow, hw, h4⟩ := h
  have hread := hostRead_csrWord h4 hlow s
  rwa [BitVec.ofNat_toNat, BitVec.setWidth_eq, ← Width.eq_b4 hw] at hread

theorem hostRead_of_legalBuf_busy (h : LegalBuf s.params.bufBytes off.toNat w.bytes) (hbusy : s.busy = true) :
    hostRead off w s = respond (.readOkay 0) (hostConflict s) := by
  obtain ⟨htarget, hok⟩ := target_of_legalBuf h
  simp only [hostRead, htarget, hok, hbusy, if_true]

theorem hostRead_of_legalBuf_idle (h : LegalBuf s.params.bufBytes off.toNat w.bytes) (hidle : s.busy = false) :
    hostRead off w s = respond (.readOkay (BitVec.ofNat 64 (s.buf.read (off.toNat - 0x100000) w.bytes))) s := by
  obtain ⟨htarget, hok⟩ := target_of_legalBuf h
  simp only [hostRead, htarget, hok, hidle, if_true, Bool.false_eq_true, if_false]

theorem hostRead_of_illegal (hc : ¬ LegalCsr off.toNat w.bytes) (hb : ¬ LegalBuf s.params.bufBytes off.toNat w.bytes) :
    hostRead off w s = respond .error s := by
  obtain ⟨o, htarget, hok⟩ | ⟨o, htarget, hok⟩ | htarget := target_of_illegal hc hb
  · simp only [hostRead, htarget, hok, Bool.false_eq_true, if_false]
  · simp only [hostRead, htarget, hok, Bool.false_eq_true, if_false]
  · simp only [hostRead, htarget]

/-! ### Writes -/

variable {d : BitVec 64}

theorem hostWrite_of_legalBuf_busy (h : LegalBuf s.params.bufBytes off.toNat w.bytes) (hbusy : s.busy = true) :
    hostWrite off w d s = .next (respond .writeOkay (hostConflict s)) := by
  obtain ⟨htarget, hok⟩ := target_of_legalBuf h
  simp only [hostWrite, htarget, hok, hbusy, if_true]

theorem hostWrite_of_legalBuf_idle (h : LegalBuf s.params.bufBytes off.toNat w.bytes) (hidle : s.busy = false) :
    hostWrite off w d s =
      .next (respond .writeOkay { s with buf := s.buf.write (off.toNat - 0x100000) w.bytes d.toNat }) := by
  obtain ⟨htarget, hok⟩ := target_of_legalBuf h
  simp only [hostWrite, htarget, hok, hidle, if_true, Bool.false_eq_true, if_false]

theorem hostWrite_of_illegal (hc : ¬ LegalCsr off.toNat w.bytes) (hb : ¬ LegalBuf s.params.bufBytes off.toNat w.bytes) :
    hostWrite off w d s = .next (respond .error s) := by
  obtain ⟨o, htarget, hok⟩ | ⟨o, htarget, hok⟩ | htarget := target_of_illegal hc hb
  · simp only [hostWrite, htarget, hok, Bool.false_eq_true, if_false]
  · simp only [hostWrite, htarget, hok, Bool.false_eq_true, if_false]
  · simp only [hostWrite, htarget]

end Kinds

/-! ### The turns -/

theorem step_read {s : State} {off : BitVec 24} {w : Width} {rest : List Turn} (hr : s.resetAsserted = false)
    (ha : s.agenda = .host (.read off w) :: rest) {t : State} (h : hostRead off w { s with agenda := rest } = t) :
    step s = .next t := by
  rw [step_host hr ha, hostAccess, h]

theorem step_write {s : State} {off : BitVec 24} {w : Width} {d : BitVec 64} {rest : List Turn} (hr : s.resetAsserted = false)
    (ha : s.agenda = .host (.write off w d) :: rest) {o : Out} (h : hostWrite off w d { s with agenda := rest } = o) :
    step s = o := by
  rw [step_host hr ha, hostAccess, h]

/-- The state after the host's turn that writes `w.bytes` bytes of BUF at `a` on an idle block. -/
def State.bufWritten (s : State) (rest : List Turn) (a : Nat) (w : Width) (d : BitVec 64) : State :=
  respond .writeOkay { s with agenda := rest, buf := s.buf.write a w.bytes d.toNat }

/-! ### An offset given from the start of BUF -/

section FromBuf
variable {limit a : Nat} (hlimit : limit ≤ 0xF00000)
include hlimit

theorem toNat_bufOffset (ha : a < limit) : (BitVec.ofNat 24 (0x100000 + a)).toNat = 0x100000 + a := by
  rw [BitVec.toNat_ofNat]
  omega

theorem legalBuf_bufOffset_iff (ha : a < limit) (n : Nat) :
    LegalBuf limit (BitVec.ofNat 24 (0x100000 + a)).toNat n ↔ a % n = 0 ∧ a + n ≤ limit := by
  rw [toNat_bufOffset hlimit ha, LegalBuf, Nat.add_sub_cancel_left]
  exact and_iff_right (Nat.le_add_right _ _)

theorem not_legalCsr_bufOffset (ha : a < limit) (n : Nat) : ¬ LegalCsr (BitVec.ofNat 24 (0x100000 + a)).toNat n := by
  rw [toNat_bufOffset hlimit ha]
  rintro ⟨hlow, -⟩
  omega

end FromBuf

section FromBufIdle
variable {s : State} {a : Nat} {w : Width} (hlimit : s.params.bufBytes ≤ 0xF00000) (halign : a % w.bytes = 0)
  (hin : a + w.bytes ≤ s.params.bufBytes) (hidle : s.busy = false)
include hlimit halign hin hidle

theorem hostRead_bufOffset_idle :
    hostRead (BitVec.ofNat 24 (0x100000 + a)) w s = respond (.readOkay (BitVec.ofNat 64 (s.buf.read a w.bytes))) s := by
  have ha : a < s.params.bufBytes := lt_of_lt_of_le (Nat.lt_add_of_pos_right w.bytes_pos) hin
  rw [hostRead_of_legalBuf_idle ((legalBuf_bufOffset_iff hlimit ha _).2 ⟨halign, hin⟩) hidle, toNat_bufOffset hlimit ha,
    Nat.add_sub_cancel_left]

theorem hostWrite_bufOffset_idle (d : BitVec 64) :
    hostWrite (BitVec.ofNat 24 (0x100000 + a)) w d s =
      .next (respond .writeOkay { s with buf := s.buf.write a w.bytes d.toNat }) := by
  have ha : a < s.params.bufBytes := lt_of_lt_of_le (Nat.lt_add_of_pos_right w.bytes_pos) hin
  rw [hostWrite_of_legalBuf_idle ((legalBuf_bufOffset_iff hlimit ha _).2 ⟨halign, hin⟩) hidle, toNat_bufOffset hlimit ha,
    Nat.add_sub_cancel_left]

end FromBufIdle

/-! ### A command in flight -/

/-- Nothing that a command uses or gives moves: the engine's record, BUF, the operand registers, CMD, the results and the
parameters. -/
def LeavesCommand (s t : State) : Prop :=
  t.eng = s.eng ∧ t.buf = s.buf ∧ t.args = s.args ∧ t.cfg = s.cfg ∧ t.cmd = s.cmd ∧ t.results = s.results ∧ t.params = s.params

section InFlight
variable {s : State}

theorem leavesCommand_respond (r : Response) (s : State) : LeavesCommand s (respond r s) :=
  ⟨rfl, rfl, rfl, rfl, rfl, rfl, rfl⟩

theorem leavesCommand_respond_hostConflict (r : Response) (s : State) : LeavesCommand s (respond r (hostConflict s)) :=
  ⟨rfl, rfl, rfl, rfl, rfl, rfl, rfl⟩

/-- While a command runs the write of any register but CTRL leaves it: STATUS and IRQ_EN are not its own, and the rest refuse or
ignore the write (10_state.md R73). -/
theorem csrWrite_leavesCommand (hbusy : s.busy = true) {c : Csr} (hc : c ≠ .ctrl) (v : Word) :
    ∃ t, csrWrite s c v = .next t ∧ LeavesCommand s t := by
  cases c with
  | ctrl => exact absurd rfl hc
  | status | irqEn => exact ⟨_, rfl, rfl, rfl, rfl, rfl, rfl, rfl, rfl⟩
  | cmd | arg | cfgLo | cfgHi | cfg => exact ⟨_, csrWrite_busy hbusy rfl v, rfl, rfl, rfl, rfl, rfl, rfl, rfl⟩
  | id | bufSize | param | resLo | resHi | res => exact ⟨_, csrWrite_readOnly rfl s v, rfl, rfl, rfl, rfl, rfl, rfl, rfl⟩

theorem hostRead_leavesCommand (off : BitVec 24) (w : Width) (s : State) : LeavesCommand s (hostRead off w s) := by
  obtain ⟨r, h | ⟨-, h⟩⟩ := hostRead_cases off w s
  · exact h ▸ leavesCommand_respond r s
  · exact h ▸ leavesCommand_respond_hostConflict r s

/-- While a command runs a host write of anything but CTRL leaves it. -/
theorem hostWrite_leavesCommand (hbusy : s.busy = true) {off : BitVec 24} {w : Width}
    (hctrl : ¬ (off.toNat = 0x004 ∧ w = .b4)) (d : BitVec 64) :
    ∃ t, hostWrite off w d s = .next t ∧ LeavesCommand s t := by
  by_cases hc : LegalCsr off.toNat w.bytes
  · obtain ⟨hlow, hw, h4⟩ := hc
    have hwrite := hostWrite_csr h4 hlow d s
    rw [BitVec.ofNat_toNat, BitVec.setWidth_eq, ← Width.eq_b4 hw] at hwrite
    rw [hwrite]
    cases hreg : Csr.ofOffset off.toNat with
    | none => exact ⟨_, rfl, leavesCommand_respond _ s⟩
    | some c =>
      have hne : c ≠ .ctrl := by
        rintro rfl
        exact hctrl ⟨ofOffset_inj hreg (o' := 0x004) rfl, Width.eq_b4 hw⟩
      exact csrWrite_leavesCommand (s := respond .writeOkay s) hbusy hne _
  by_cases hb : LegalBuf s.params.bufBytes off.toNat w.bytes
  · exact ⟨_, hostWrite_of_legalBuf_busy hb hbusy, leavesCommand_respond_hostConflict _ s⟩
  · exact ⟨_, hostWrite_of_illegal hc hb, leavesCommand_respond _ s⟩

end InFlight
end Sys2Proof.Machine

namespace Sys2Proof.Proofs
open Sys2Proof Sys2Proof.Machine

/-- Settles O23, by whether the access is a legal one of BUF. -/
theorem bufBlockedWhileBusy : Obligations.BufBlockedWhileBusy := by
  rintro s rest a n w data hr hbusy rfl hlimit ha
  have hlegal := legalBuf_bufOffset_iff hlimit ha w.bytes
  refine ⟨fun halign hin => ⟨fun hagenda => ?_, fun hagenda => ?_⟩, fun hbad hagenda => ?_⟩
  · exact step_read hr hagenda (hostRead_of_legalBuf_busy (hlegal.2 ⟨halign, hin⟩) hbusy)
  · exact step_write hr hagenda (hostWrite_of_legalBuf_busy (hlegal.2 ⟨halign, hin⟩) hbusy)
  · have hb := mt hlegal.1 (by omega)
    have hc := not_legalCsr_bufOffset hlimit ha w.bytes
    obtain hagenda | hagenda := hagenda
    · exact step_read hr hagenda (hostRead_of_illegal hc hb)
    · exact step_write hr hagenda (hostWrite_of_illegal hc hb)

/-- Settles O24: the turn is one `Memory.write`, and a read inside its bytes gives their part of the value. -/
theorem bufWriteThenRead : Obligations.BufWriteThenRead := by
  intro s rest a w data hr heng hlimit halign hin hagenda
  have hidle : s.busy = false := by rw [State.busy, heng]; rfl
  have hwrite := hostWrite_bufOffset_idle (s := { s with agenda := rest }) hlimit halign hin hidle data
  refine ⟨s.bufWritten rest a w data, step_write hr hagenda hwrite, rfl, fun k hk => ?_,
    fun x hx => Memory.readByte_write_outside _ s.buf a _ x hx, ?_⟩
  · apply BitVec.eq_of_toNat_eq
    rw [toNat_extractByte]
    exact Memory.readByte_write_inside s.buf data.toNat hk
  · intro b u rest' hrest hbalign hab hbin
    have hpart : (s.buf.write a w.bytes data.toNat).read b u.bytes = data.toNat / 256 ^ (b - a) % 256 ^ u.bytes := by
      have hread := Memory.read_write_inside s.buf (a := a) data.toNat (show b - a + u.bytes ≤ w.bytes by omega)
      rwa [Nat.add_sub_cancel' hab] at hread
    have hread := hostRead_bufOffset_idle (s := { s.bufWritten rest a w data with agenda := rest' }) hlimit hbalign
      (le_trans hbin hin) hidle
    exact step_read (s := s.bufWritten rest a w data) hr hrest (hpart ▸ hread)

/-- Settles O25, by the kind of access: a register, BUF while a command runs, BUF on an idle block, none of these. -/
theorem readsHaveNoSideEffect : Obligations.ReadsHaveNoSideEffect := by
  intro s offset w rest hr hagenda o n csr buf
  by_cases hc : csr
  · have hb : ¬ buf := fun hb => absurd (lt_of_lt_of_le hc.1 (by decide : 0x1000 ≤ 0x100000)) (Nat.not_lt.2 hb.1)
    refine ⟨.readOkay ((csrWord s o).setWidth 64), ?_, fun _ => rfl, fun h => absurd h hb, fun h => absurd h hb,
      fun h => absurd hc h⟩
    rw [decide_eq_false hb, Bool.and_false, Bool.or_false]
    exact step_read hr hagenda (hostRead_of_legalCsr hc)
  by_cases hb : buf
  · cases hbusy : s.busy with
    | true =>
      refine ⟨.readOkay 0, ?_, fun h => absurd h hc, fun _ _ => rfl, fun _ h => Bool.noConfusion h, fun _ h => absurd hb h⟩
      rw [decide_eq_true hb, Bool.and_true, Bool.or_true]
      exact step_read hr hagenda (hostRead_of_legalBuf_busy hb hbusy)
    | false =>
      refine ⟨.readOkay (BitVec.ofNat 64 (s.buf.read (o - 0x100000) n)), ?_, fun h => absurd h hc,
        fun _ h => Bool.noConfusion h, fun _ _ => ⟨_, rfl, ?_, fun k hk => ?_⟩, fun _ h => absurd hb h⟩
      · rw [Bool.false_and, Bool.or_false]
        exact step_read hr hagenda (hostRead_of_legalBuf_idle hb hbusy)
      · rw [Memory.toNat_ofNat_read]
        exact Memory.read_lt _ _ _
      · apply BitVec.eq_of_toNat_eq
        rw [toNat_extractByte, Memory.toNat_ofNat_read]
        exact Memory.read_byte s.buf _ hk
  · refine ⟨.error, ?_, fun h => absurd h hc, fun h => absurd h hb, fun h => absurd h hb, fun _ _ => rfl⟩
    rw [decide_eq_false hb, Bool.and_false, Bool.or_false]
    exact step_read hr hagenda (hostRead_of_illegal hc hb)

/-- Settles O26, by read and write: `hostWrite_leavesCommand` goes through what a write can reach. -/
theorem hostCannotDisturbCommand : Obligations.HostCannotDisturbCommand := by
  intro s a rest hr hbusy hagenda hctrl
  rw [step_host hr hagenda]
  cases a with
  | read off w => exact ⟨_, rfl, hostRead_leavesCommand off w { s with agenda := rest }⟩
  | write off w d =>
    refine hostWrite_leavesCommand (s := { s with agenda := rest }) hbusy ?_ d
    rintro ⟨hoff, rfl⟩
    exact hctrl d (congrArg (Access.write · .b4 d) (BitVec.eq_of_toNat_eq hoff))

end Sys2Proof.Proofs
end

section
/-!
The decoder (30_encoding.md R110 to R117): a word is its three fields, the decoder refuses by the fields, and the words it reads an
instruction from are the encoder's.
-/
namespace Sys2Proof
open Sys2Proof.Machine

/-! ### The fields of a command word -/

/-- R110: a word is its RSVD, SUB and OPCODE. -/
theorem fields_append (w : Word) : rsvdField w ++ subField w ++ opcodeField w = w := by
  rw [rsvdField, subField, opcodeField, BitVec.extractLsb'_append_extractLsb'_eq_extractLsb' (show 12 = 8 + 4 from rfl),
    BitVec.extractLsb'_append_extractLsb'_eq_extractLsb' (show 8 = 0 + 8 from rfl)]
  exact BitVec.extractLsb'_eq_self

theorem word_eq_of_fields {v w : Word} (hr : rsvdField v = rsvdField w) (hs : subField v = subField w)
    (ho : opcodeField v = opcodeField w) : v = w := by
  rw [← fields_append v, ← fields_append w, hr, hs, ho]

theorem toNat_and_opcode (w : Word) : (w &&& 0xFF).toNat = (opcodeField w).toNat := by
  rw [opcodeField, BitVec.extractLsb'_toNat, BitVec.toNat_and]
  exact Nat.and_two_pow_sub_one_eq_mod w.toNat 8

theorem toNat_shiftRight_and_sub (w : Word) : ((w >>> 8) &&& 0xF).toNat = (subField w).toNat := by
  rw [subField, BitVec.extractLsb'_toNat, BitVec.toNat_and, BitVec.toNat_ushiftRight]
  exact Nat.and_two_pow_sub_one_eq_mod _ 4

theorem toNat_shiftRight_rsvd (w : Word) : (w >>> 12).toNat = (rsvdField w).toNat := by
  have hlt := w.isLt
  rw [rsvdField, BitVec.extractLsb'_toNat, BitVec.toNat_ushiftRight, Nat.shiftRight_eq_div_pow, Nat.mod_eq_of_lt (by omega)]

/-! ### The decoder of CMD -/

/-- An instruction read from SUB is a DEMAP with this SUB in its word (R112). -/
theorem decodeDemap_eq_ok {sub : BitVec 4} {i : Instr} (h : decodeDemap sub = .ok i) :
    i.port = .cmd ∧ rsvdField (encode i) = 0 ∧ subField (encode i) = sub ∧ opcodeField (encode i) = 0x05 := by
  unfold decodeDemap at h
  split_ifs at h
  all_goals
    cases h
    subst sub
    decide

/-- An instruction read from OPCODE has it in its word, with SUB 0 (R111). -/
theorem decodeOpcode_eq_ok {op : BitVec 8} {i : Instr} (h : decodeOpcode op = .ok i) :
    i.port = .cmd ∧ rsvdField (encode i) = 0 ∧ subField (encode i) = 0 ∧ opcodeField (encode i) = op := by
  unfold decodeOpcode at h
  split_ifs at h
  all_goals
    cases h
    subst op
    decide

/-- The decoder reads a command from its own word and from no other (R113, R114). -/
theorem decodeCmd_eq_ok_iff (w : Word) (i : Instr) : decodeCmd w = .ok i ↔ i.port = .cmd ∧ w = encode i := by
  constructor
  · intro h
    unfold decodeCmd at h
    split_ifs at h with hr ho hs
    · obtain ⟨hi, er, es, eo⟩ := decodeDemap_eq_ok h
      exact ⟨hi, word_eq_of_fields ((not_not.1 hr).trans er.symm) es.symm (ho.trans eo.symm)⟩
    · obtain ⟨hi, er, es, eo⟩ := decodeOpcode_eq_ok h
      exact ⟨hi, word_eq_of_fields ((not_not.1 hr).trans er.symm) ((not_not.1 hs).trans es.symm) eo.symm⟩
  · rintro ⟨hi, rfl⟩
    exact decodeCmd_encode hi

theorem decodeDemap_eq_error_iff (sub : BitVec 4) : (∃ err, decodeDemap sub = .error err) ↔ 4 ≤ sub.toNat := by
  unfold decodeDemap
  split_ifs <;> simp <;> bv_omega

theorem decodeOpcode_eq_error_iff {op : BitVec 8} (h5 : op ≠ 0x05) :
    (∃ err, decodeOpcode op = .error err) ↔ op = 0x08 ∨ 0x09 ≤ op.toNat := by
  unfold decodeOpcode
  split_ifs <;> simp <;> bv_omega

/-- Which words the decoder refuses, by their fields (R116). -/
theorem decodeCmd_eq_error_iff (w : Word) : (∃ err, decodeCmd w = .error err) ↔
    rsvdField w ≠ 0 ∨ (opcodeField w ≠ 0x05 ∧ subField w ≠ 0) ∨ (opcodeField w = 0x05 ∧ 4 ≤ (subField w).toNat) ∨
      opcodeField w = 0x08 ∨ 0x09 ≤ (opcodeField w).toNat := by
  unfold decodeCmd
  split_ifs with hr ho hs
  · exact iff_of_true ⟨_, rfl⟩ (.inl hr)
  · rw [decodeDemap_eq_error_iff]
    simp [not_not.1 hr, ho]
  · exact iff_of_true ⟨_, rfl⟩ (.inr (.inl ⟨ho, hs⟩))
  · rw [decodeOpcode_eq_error_iff ho]
    simp [not_not.1 hr, not_not.1 hs]

/-! ### The decoder of CTRL -/

theorem and_one_eq (v : Word) : v &&& 0x00000001 = bitAt (v.getLsbD 0) 0 := by
  apply BitVec.eq_of_getLsbD_eq
  rintro (_ | k) hk
  · simp [bitAt]
  · simp [bitAt]

theorem and_three_eq (v : Word) : v &&& 0x00000003 = bitAt (v.getLsbD 1) 1 ||| bitAt (v.getLsbD 0) 0 := by
  apply BitVec.eq_of_getLsbD_eq
  rintro (_ | _ | k) hk
  · simp [bitAt]
  · simp [bitAt]
  · simp [bitAt, BitVec.getLsbD_ofNat, Nat.testBit_succ]

/-! ### The bytes of a word -/

/-- The bytes of a word give the word back (20_memory.md R84). -/
theorem wordOfBytes_extract (w : Word) :
    wordOfBytes (w.extractLsb' 0 8) (w.extractLsb' 8 8) (w.extractLsb' 16 8) (w.extractLsb' 24 8) = w := by
  rw [wordOfBytes, BitVec.extractLsb'_append_extractLsb'_eq_extractLsb' (show 24 = 16 + 8 from rfl),
    BitVec.extractLsb'_append_extractLsb'_eq_extractLsb' (show 16 = 8 + 8 from rfl),
    BitVec.extractLsb'_append_extractLsb'_eq_extractLsb' (show 8 = 0 + 8 from rfl)]
  exact BitVec.extractLsb'_eq_self

theorem decode_bytesOfWord {p : Port} {w : Word} {i : Instr} (h : decodeWord p w = .ok i) (rest : List Byte) :
    decode p (bytesOfWord w ++ rest) = .ok (i, rest) := by
  simp only [bytesOfWord, List.cons_append, List.nil_append, decode, wordOfBytes_extract, h]

theorem decodeWord_encode (i : Instr) : decodeWord i.port (encode i) = .ok i := by cases i <;> decide

end Sys2Proof

namespace Sys2Proof.Proofs
open Sys2Proof Sys2Proof.Machine

/-- Settles O2: the decoder reads the commands from their own words, and R113 lists these. -/
theorem listedWordsOnly : Obligations.ListedWordsOnly := by
  intro w i
  rw [decodeCmd_eq_ok_iff]
  cases i <;> simp [encode, Instr.port]

/-- Settles O3: the decoder's refusals by fields, with each field read as the statement reads it. -/
theorem illegalWordsByField : Obligations.IllegalWordsByField := by
  intro w
  rw [decodeCmd_eq_error_iff]
  simp only [ne_eq, ← BitVec.toNat_inj, toNat_shiftRight_rsvd, toNat_shiftRight_and_sub, toNat_and_opcode]
  rfl

/-- Settles O4, by bits 1 and 0 of the value. -/
theorem ctrlOperations : Obligations.CtrlOperations := by
  intro v
  rw [and_one_eq, and_three_eq, decodeCtrl]
  cases v.getLsbD 0 with
  | true => cases v.getLsbD 1 <;> simp [bitAt]
  | false => cases v.getLsbD 1 <;> simp [bitAt]

/-- Settles O1: the bytes of a word give the word back, and the encoder's word its instruction. -/
theorem decodeOfEncode : Obligations.DecodeOfEncode :=
  fun i rest => decode_bytesOfWord (decodeWord_encode i) rest

/-- Settles O5: the decoder run on each of the ten words. -/
theorem sampleWordsDecode : Obligations.SampleWordsDecode := by
  unfold Obligations.SampleWordsDecode
  decide

end Sys2Proof.Proofs
end

section
/-!
A5, A6 and A7 are read by no command (30_encoding.md R115): a meaning is blind to them if with other values in them it answers the
same, those values in place. The accesses to BUF and each way a command's step is put together keep this.
-/
namespace Sys2Proof.Machine

/-- The engine's record with the captured A5, A6 and A7 changed. -/
def Engine.withSpare (e : Engine) (x y z : Word) : Engine := { e with args := e.args.withSpare x y z }

theorem State.withSpare_eng (s : State) (x y z : Word) :
    (s.withSpare x y z).eng = s.eng.map fun e => e.withSpare x y z := rfl

/-- `g` gives the same whatever A5, A6 and A7 hold. -/
def SpareUnread {α : Sort _} (g : State → Engine → α) : Prop :=
  ∀ s e x y z, g (s.withSpare x y z) (e.withSpare x y z) = g s e

/-- The step `f` answers the same whatever A5, A6 and A7 hold, but for these values themselves. -/
def SpareBlind (f : State → Engine → Out) : Prop :=
  ∀ s e x y z, f (s.withSpare x y z) (e.withSpare x y z) = mapNext (fun t => t.withSpare x y z) (f s e)

/-- The instruction means the same whatever A5, A6 and A7 hold, but for these values themselves. -/
def ExecSpareBlind (i : Instr) : Prop :=
  ∀ s x y z, exec i (s.withSpare x y z) = mapNext (fun t => t.withSpare x y z) (exec i s)

/-! ### Stores -/

section Stores
variable (s : State) (b k : Nat) (x y z : Word)

theorem storeF64_withSpare (a : Nat) (v : F64) :
    storeF64 (s.withSpare x y z) a v = (storeF64 s a v).map fun t => t.withSpare x y z := by
  unfold storeF64
  rw [apply_ite (Option.map _)]
  rfl

theorem storeC_withSpare (v : Sample) :
    storeC (s.withSpare x y z) b k v = (storeC s b k v).map fun t => t.withSpare x y z := by
  unfold storeC
  rw [storeF64_withSpare]
  cases storeF64 s (b + 16 * k) v.re with
  | none => rfl
  | some t => exact storeF64_withSpare t x y z _ v.im

theorem storeB_withSpare (v : Bool) :
    storeB (s.withSpare x y z) b k v = (storeB s b k v).map fun t => t.withSpare x y z := by
  unfold storeB
  rw [apply_ite (Option.map _)]
  rfl

theorem copyByte_withSpare (v : Byte) :
    copyByte (s.withSpare x y z) b k v = (copyByte s b k v).map fun t => t.withSpare x y z := by
  unfold copyByte
  rw [apply_ite (Option.map _)]
  rfl

theorem storeLog_withSpare (on : Bool) (v : F64) :
    storeLog on (s.withSpare x y z) b k v = (storeLog on s b k v).map fun t => t.withSpare x y z := by
  cases on with
  | false => rfl
  | true => exact storeF64_withSpare s x y z _ v

end Stores

/-! ### How a step is put together -/

namespace SpareBlind
variable {f g : State → Engine → Out}

/-- A step that touches neither BUF nor a choice: both sides work out to the same state. -/
theorem direct (hf : ∀ s e x y z, f (s.withSpare x y z) (e.withSpare x y z) = mapNext (fun t => t.withSpare x y z) (f s e) := by
    intros; rfl) : SpareBlind f := hf

/-- A step chooses on what it reads. -/
theorem ite {c : State → Engine → Prop} [∀ s e, Decidable (c s e)] (hf : SpareBlind f) (hg : SpareBlind g)
    (hc : SpareUnread c := by intros _ _ _ _ _; rfl) : SpareBlind fun s e => if c s e then f s e else g s e := by
  intro s e x y z
  simp only [hc s e x y z, hf s e x y z, hg s e x y z]
  exact (apply_ite (mapNext _) _ _ _).symm

/-- A load goes on with what it found. -/
theorem load {α : Type} {o : State → Engine → Option α} {k : α → State → Engine → Out} (hk : ∀ a, SpareBlind (k a))
    (ho : SpareUnread o := by intros _ _ _ _ _; rfl) : SpareBlind fun s e => orFault (o s e) fun a => k a s e := by
  intro s e x y z
  simp only [ho s e x y z]
  cases o s e with
  | none => rfl
  | some a => exact hk a s e x y z

/-- A store goes on from the state it made. -/
theorem store {o : State → Engine → Option State} {k : State → Engine → Out}
    (ho : ∀ s e x y z, o (s.withSpare x y z) (e.withSpare x y z) = (o s e).map fun t => t.withSpare x y z)
    (hk : SpareBlind k) : SpareBlind fun s e => orFault (o s e) fun t => k t e := by
  intro s e x y z
  simp only [ho s e x y z]
  cases o s e with
  | none => rfl
  | some t => exact hk t e x y z

/-- A check step reads A5, A6 and A7 neither in its plan nor for the start of the operation. -/
theorem check (i : Instr) : SpareBlind fun s e => checkStep (planOf i e) (startOf i e) s e := by
  intro s e x y z
  have hplan : planOf i (e.withSpare x y z) = planOf i e := by cases i <;> rfl
  have hstart : startOf i (e.withSpare x y z) = startOf i e := by cases i <;> rfl
  have hparams : (s.withSpare x y z).params = s.params := rfl
  simp only [hplan, hstart, hparams, checkStep]
  cases (planOf i e).firstError s.params.bufBytes <;> rfl

/-- A step is taken from any progress of the command. -/
theorem goto (hf : SpareBlind f) (p : Progress) : SpareBlind fun s e => f s (e.goto p) := fun s e => hf s (e.goto p)

/-- A command keeps what its body keeps at each progress. -/
theorem command {i : Instr} {body : State → Engine → Out}
    (hexec : ∀ s, exec i s = Machine.command i (fun s e => checkStep (planOf i e) (startOf i e) s e) body s)
    (hbody : ∀ p, SpareBlind fun s e => body s (e.goto p)) : ExecSpareBlind i := by
  intro s x y z
  rw [hexec, hexec]
  obtain ⟨he, h⟩ | ⟨e, he, hne, h⟩ | ⟨e, he, hc, hp, h⟩ | ⟨e, he, hc, hp, ha, h⟩ | ⟨e, he, hc, hp, ha, h⟩ :=
    command_cases i (fun s e => checkStep (planOf i e) (startOf i e) s e) body s
  all_goals have he' := (s.withSpare_eng x y z).trans (congrArg _ he)
  · rw [h, Machine.command, he']
    rfl
  · rw [h, Machine.command, he']
    exact if_neg hne
  · rw [h, command_check he' hc hp]
    exact check i s e x y z
  · rw [h, command_abort he' hc hp ha]
    rfl
  · rw [h, command_body he' hc hp ha]
    exact hbody e.progress s e x y z

end SpareBlind

/-! ### The steps of each command -/

section Functions
variable (s : State) (e : Engine) (x y z : Word)

theorem windowSums_withSpare (src : Nat) : ∀ (cnt m : Nat) (sI sQ : F64),
    windowSums (s.withSpare x y z) src cnt m sI sQ = windowSums s src cnt m sI sQ
  | 0, _, _, _ => rfl
  | cnt + 1, m, sI, sQ => by
    have hload : loadC (s.withSpare x y z) src m = loadC s src m := rfl
    rw [windowSums, windowSums, hload]
    cases loadC s src m with
    | none => rfl
    | some v => exact windowSums_withSpare src cnt (m + 1) _ _

theorem biasRemoved_withSpare (src n p k : Nat) : biasRemoved (s.withSpare x y z) src n p k = biasRemoved s src n p k := by
  have hload : loadC (s.withSpare x y z) src k = loadC s src k := rfl
  rw [biasRemoved, biasRemoved, windowSums_withSpare, hload]

theorem costasFinish_withSpare (i : Nat) (freq phase : F64) :
    costasFinish (e.withSpare x y z) i freq phase (s.withSpare x y z) =
      mapNext (fun t => t.withSpare x y z) (costasFinish e i freq phase s) := by
  have hparams : (s.withSpare x y z).params = s.params := rfl
  unfold costasFinish
  rw [apply_ite (mapNext _), hparams]
  cases wrapPhase s.params.wrapLimit phase <;> rfl

/-- The bits of a label are stored and counted the same. -/
theorem emitBits_withSpare (sch : Scheme) (label dst skip : Nat) : ∀ (left j n : Nat) (s : State) (e : Engine),
    emitBits sch label dst skip left j n (e.withSpare x y z) (s.withSpare x y z) =
      (emitBits sch label dst skip left j n e s).map fun r => (r.1.withSpare x y z, r.2.withSpare x y z)
  | 0, _, _, _, _ => rfl
  | left + 1, j, n, s, e => by
    rw [emitBits, emitBits]
    split
    · rw [storeB_withSpare]
      cases storeB s dst (n - skip) (sch.labelBit label j) with
      | none => rfl
      | some t => exact emitBits_withSpare sch label dst skip left (j + 1) (n + 1) t (e.wrote 1)
    · exact emitBits_withSpare sch label dst skip left (j + 1) (n + 1) s e

end Functions

namespace SpareBlind

theorem trMmUpdate (l : TrLoop) (v : Sample) : SpareBlind fun s e => Machine.trMmUpdate e l v s :=
  .ite (.store (fun s _ x y z => storeLog_withSpare s _ _ x y z _ _) .direct) .direct

theorem trMmIteration (l : TrLoop) : SpareBlind fun s e => Machine.trMmIteration e l s :=
  .ite
    (.ite .direct <| .load fun v => .store (fun s _ x y z => storeC_withSpare s _ _ x y z v) fun s e =>
      trMmUpdate l v s (e.wrote 1))
    .direct

theorem costasIteration (l : CoLoop) : SpareBlind fun s e => Machine.costasIteration e l s :=
  .load fun v => .store (fun s _ x y z => storeC_withSpare s _ _ x y z (l.rotated v)) <|
    .store (fun s _ x y z => storeLog_withSpare s _ _ x y z _ _) fun s e x y z =>
      costasFinish_withSpare s (e.wrote 1) x y z _ _ _

theorem iqEstimateIteration (l : IqLoop) : SpareBlind fun s e => Machine.iqEstimateIteration e l s :=
  .load (fun _ => .direct) fun s _ x y z => biasRemoved_withSpare s x y z _ _ _ _

theorem iqEstimate (l : IqLoop) : SpareBlind fun s e => Machine.iqEstimate e l s :=
  .ite .direct <| .ite .direct <| .ite .direct <| .ite .direct <| .ite .direct .direct

theorem iqSource (l : IqLoop) {k : Sample → State → Engine → Out} (hk : ∀ v, SpareBlind (k v)) :
    SpareBlind fun s e => Machine.iqSource e l s fun v => k v s e := by
  refine .ite ?_ (.load hk)
  cases l.prime[l.k]? with
  | none => exact .direct
  | some v => exact hk v

theorem iqCorrectIteration (l : IqLoop) : SpareBlind fun s e => Machine.iqCorrectIteration e l s :=
  .iqSource l fun v => .store (fun s _ x y z => storeC_withSpare s _ _ x y z (iqCorrected l v)) .direct

theorem fsyncStep (l : FsLoop) : SpareBlind fun s e => Machine.fsyncStep e l s := by
  unfold Machine.fsyncStep
  cases l.stage with
  | magnitude => exact .ite (.load fun _ => .direct) (.ite .direct .direct)
  | rescale => exact .load fun _ => .ite (.ite .direct .direct) .direct
  | lags =>
    refine .ite .direct ?_
    unfold fsScanStart
    cases l.c[0]? <;> exact .direct
  | scan =>
    refine .ite ?_ .direct
    unfold fsScan
    cases l.c[l.i]? with
    | none => exact .direct
    | some ck => exact .ite .direct .direct
  | copyFull =>
    exact .ite (.load fun v => .store (fun s _ x y z => storeC_withSpare s _ _ x y z v) .direct) .direct
  | copyPay =>
    exact .ite (.load fun v => .store (fun s _ x y z => storeC_withSpare s _ _ x y z v) .direct) .direct
  | degenerate => exact .direct

theorem demapIteration (sch : Scheme) (l : DmLoop) : SpareBlind fun s e => Machine.demapIteration sch e l s := by
  refine .load fun v => .ite (fun s e x y z => ?_) .direct
  have hbits := emitBits_withSpare x y z sch (nearest sch e.cfg.dmGain v) e.dst e.scalar sch.bps 0 (l.i * sch.bps) s e
  refine (congrArg (orFault · _) hbits).trans ?_
  cases emitBits sch (nearest sch e.cfg.dmGain v) e.dst e.scalar sch.bps 0 (l.i * sch.bps) e s <;> rfl

theorem crcFeedBit (l : CrcLoop) : SpareBlind fun s e => Machine.crcFeedBit e l s := .load fun _ => .ite .direct .direct

theorem crcencDivide (l : CrcLoop) : SpareBlind fun s e => Machine.crcencDivide e l s :=
  .ite (crcFeedBit l) (.ite .direct .direct)

theorem crcencOutput (l : CrcLoop) : SpareBlind fun s e => Machine.crcencOutput e l s :=
  .ite (.load fun v => .store (fun s _ x y z => copyByte_withSpare s _ _ x y z v) .direct) <|
    .ite (.store (fun s _ x y z => storeB_withSpare s _ _ x y z _) .direct) .direct

end SpareBlind

/-! ### The commands -/

theorem execSpareBlind_nop : ExecSpareBlind .nop := by
  refine SpareBlind.command (fun _ => rfl) fun p => ?_
  cases p <;> exact .direct

theorem execSpareBlind_trMm : ExecSpareBlind .trMm := by
  refine SpareBlind.command (fun _ => rfl) fun p => ?_
  cases p with
  | trMm l => exact .ite ((SpareBlind.trMmIteration l).goto _) .direct
  | _ => exact .direct

theorem execSpareBlind_costas : ExecSpareBlind .costas := by
  refine SpareBlind.command (fun _ => rfl) fun p => ?_
  cases p with
  | costas l => exact .ite ((SpareBlind.costasIteration l).goto _) .direct
  | _ => exact .direct

theorem execSpareBlind_iqcorr : ExecSpareBlind .iqcorr := by
  refine SpareBlind.command (fun _ => rfl) fun p => ?_
  cases p with
  | iqcorr l =>
    dsimp only [Engine.goto_progress]
    cases l.stage with
    | empty => exact .direct
    | estimate => exact .ite ((SpareBlind.iqEstimateIteration l).goto _) ((SpareBlind.iqEstimate l).goto _)
    | correct => exact .ite ((SpareBlind.iqCorrectIteration l).goto _) .direct
  | _ => exact .direct

theorem execSpareBlind_fsync : ExecSpareBlind .fsync := by
  refine SpareBlind.command (fun _ => rfl) fun p => ?_
  cases p with
  | fsync l => exact (SpareBlind.fsyncStep l).goto _
  | _ => exact .direct

theorem execSpareBlind_demap (sch : Scheme) : ExecSpareBlind sch.instr := by
  have hexec : ∀ s, exec sch.instr s = demap sch.instr sch s := fun s => by cases sch <;> rfl
  have hplan : planOf sch.instr = demapPlan sch.bps := by cases sch <;> rfl
  have hstart : startOf sch.instr = fun _ => .demap ⟨0⟩ := by cases sch <;> rfl
  refine SpareBlind.command (fun s => by rw [hexec, hplan, hstart]; rfl) fun p => ?_
  cases p with
  | demap l => exact .ite ((SpareBlind.demapIteration sch l).goto _) .direct
  | _ => exact .direct

theorem execSpareBlind_crcchk : ExecSpareBlind .crcchk := by
  refine SpareBlind.command (fun _ => rfl) fun p => ?_
  cases p with
  | crc l =>
    dsimp only [Engine.goto_progress]
    cases l.stage with
    | divide => exact .ite ((SpareBlind.crcFeedBit l).goto _) .direct
    | output => exact .direct
  | _ => exact .direct

theorem execSpareBlind_crcenc : ExecSpareBlind .crcenc := by
  refine SpareBlind.command (fun _ => rfl) fun p => ?_
  cases p with
  | crc l =>
    dsimp only [Engine.goto_progress]
    cases l.stage with
    | divide => exact (SpareBlind.crcencDivide l).goto _
    | output => exact (SpareBlind.crcencOutput l).goto _
  | _ => exact .direct

end Sys2Proof.Machine

namespace Sys2Proof.Proofs
open Sys2Proof Sys2Proof.Machine

/-- Settles O27, by the command. -/
theorem spareArgumentsUnread : Obligations.SpareArgumentsUnread := by
  intro i s x y z hi
  cases i with
  | nop => exact execSpareBlind_nop s x y z
  | trMm => exact execSpareBlind_trMm s x y z
  | costas => exact execSpareBlind_costas s x y z
  | iqcorr => exact execSpareBlind_iqcorr s x y z
  | fsync => exact execSpareBlind_fsync s x y z
  | demapOok => exact execSpareBlind_demap .ook s x y z
  | demapBpsk => exact execSpareBlind_demap .bpsk s x y z
  | demapQpsk => exact execSpareBlind_demap .qpsk s x y z
  | demapQam16 => exact execSpareBlind_demap .qam16 s x y z
  | crcchk => exact execSpareBlind_crcchk s x y z
  | crcenc => exact execSpareBlind_crcenc s x y z
  | srst | abort => cases hi

end Sys2Proof.Proofs
end

section
/-!
Where the steps of a checked command reach: every access falls inside BUF, every store inside a region that the command writes, and
the step goes on (40_command.md R133, R135).
-/
namespace Sys2Proof.F64

theorem toInt_le_of_le {x y : F64} (h : le x y = true) : toInt x ≤ toInt y := by
  simp only [le, Bool.and_eq_true, decide_eq_true_eq] at h
  exact (orderKey_le_iff x y).1 h.2

theorem natAbs_toInt_one : (toInt one).natAbs = 2 ^ 1074 := by
  rw [natAbs_toInt, ← Machine.magVal_one]
  rfl

theorem magVal_sixteen : magVal 0x4030000000000000 = 16 * 2 ^ 1074 := by
  rw [show 0x4030000000000000 = 1026 * 2 ^ 52 + 2 ^ 52 by norm_num, magVal_pack (by norm_num) (.inr le_rfl),
    ← Nat.pow_add 2 52 1026, show 52 + 1026 = 4 + 1074 by norm_num, Nat.pow_add 2 4 1074]

theorem natAbs_toInt_sixteen : (toInt sixteen).natAbs = 16 * 2 ^ 1074 := by
  rw [natAbs_toInt, ← magVal_sixteen]
  rfl

/-- Sixteen times a value of the unit interval is at most 16 (41_timing_recovery.md R165). -/
theorem floor_mul_sixteen_le {x : F64} (h : Machine.inUnit x = true) : floor (mul sixteen x) ≤ 16 := by
  simp only [Machine.inUnit, Bool.and_eq_true] at h
  obtain ⟨⟨hfin, hlow⟩, hhigh⟩ := h
  have hzero : toInt 0 = 0 := by decide
  have hlow := toInt_le_of_le hlow
  have hunit : (toInt x).natAbs ≤ 2 ^ 1074 := by
    rw [← natAbs_toInt_one]
    have := toInt_le_of_le hhigh
    omega
  have hround : roundMag ((toInt sixteen).natAbs * (toInt x).natAbs) (2 ^ 1074) ≤ 0x4030000000000000 := by
    refine roundMag_le (Nat.two_pow_pos _) ?_
    rw [natAbs_toInt_sixteen, magVal_sixteen, Nat.mul_comm (2 ^ 1074)]
    exact Nat.mul_le_mul_left _ hunit
  have hnat : (toInt (mul sixteen x)).natAbs ≤ 16 * 2 ^ 1074 := by
    rw [mul_of_isFinite (by decide) hfin, natAbs_toInt, magBits_pack _ (lt_of_le_of_lt hround (by norm_num)), ← magVal_sixteen]
    exact magVal_le_iff.2 hround
  rw [floor_eq]
  refine Int.ediv_le_of_le_mul (pow_pos two_pos _) (le_trans Int.le_natAbs ?_)
  exact_mod_cast hnat

end Sys2Proof.F64

namespace Sys2Proof.Machine

/-! ### A step that goes on and stays in its regions -/

/-- Byte `a` lies in a region that command `i` with record `e` writes. -/
def Engine.InWriteRegion (e : Engine) (i : Instr) (a : Nat) : Prop :=
  ∃ r ∈ (planOf i e).regions, r.dir = .write ∧ r.base ≤ a ∧ a < r.base + r.size

/-- `o` is a next state, and of memory `m` it changes only bytes of the regions that command `i` writes. -/
def Confined (i : Instr) (e : Engine) (m : Memory) (o : Out) : Prop :=
  ∃ t, o = .next t ∧ ∀ a, t.buf.readByte a ≠ m.readByte a → e.InWriteRegion i a

section Rules
variable {i : Instr} {e : Engine} {s : State} {m : Memory} {r : Region} {k : Nat}

/-- A step that stores nothing more. -/
theorem Confined.next {t : State} (h : t.buf = m := by rfl) : Confined i e m (.next t) :=
  ⟨t, rfl, fun _ hne => absurd (congrArg (Memory.readByte · _) h) hne⟩

/-- A store in a region of direction write may come first. -/
theorem Confined.afterStore {m' : Memory} {o : Out} {lo n : Nat} (hr : r ∈ (planOf i e).regions) (hw : r.dir = .write)
    (hlo : r.base ≤ lo) (hhi : lo + n ≤ r.base + r.size)
    (hout : ∀ a, a < lo ∨ lo + n ≤ a → m'.readByte a = m.readByte a) (h : Confined i e m' o) : Confined i e m o := by
  obtain ⟨t, ho, ht⟩ := h
  refine ⟨t, ho, fun a hne => ?_⟩
  by_cases hsame : t.buf.readByte a = m'.readByte a
  · have hin : lo ≤ a ∧ a < lo + n := by
      by_contra hout'
      exact hne (hsame.trans (hout a (by omega)))
    exact ⟨r, hr, hw, by omega, by omega⟩
  · exact ht a hsame

variable (hchk : Checked i s e) (hr : r ∈ (planOf i e).regions)
include hchk hr

theorem Checked.confined_loadC {f : Sample → Out} (hf : ∀ z, Confined i e m (f z))
    (hk : 16 * k + 16 ≤ r.size := by dsimp only; omega) :
    Confined i e m (orFault (loadC s r.base k) f) := by
  have hin := hchk.region_inside hr (by omega)
  rw [loadC_inside (by omega), orFault_some]
  exact hf _

theorem Checked.confined_loadB {f : Byte → Out} (hf : ∀ b, Confined i e m (f b))
    (hk : k < r.size := by dsimp only; omega) :
    Confined i e m (orFault (loadB s r.base k) f) := by
  have hin := hchk.region_inside hr (by omega)
  rw [loadB_eq_some.2 ⟨by omega, rfl⟩, orFault_some]
  exact hf _

variable (hw : r.dir = .write)
include hw

theorem Checked.confined_storeC {f : State → Out} {z : Sample} (hf : ∀ m, Confined i e m (f { s with buf := m }))
    (hk : 16 * k + 16 ≤ r.size := by dsimp only; omega) : Confined i e s.buf (orFault (storeC s r.base k z) f) := by
  have hin := hchk.region_inside hr (by omega)
  rw [storeC_inside (by omega), orFault_some]
  exact (hf _).afterStore hr hw (by omega) (by omega) (putSample_outside s.buf r.base k z)

theorem Checked.confined_storeR {f : State → Out} {x : F64} (hf : ∀ m, Confined i e m (f { s with buf := m }))
    (hk : 8 * k + 8 ≤ r.size := by dsimp only; omega) : Confined i e s.buf (orFault (storeR s r.base k x) f) := by
  have hin := hchk.region_inside hr (by omega)
  rw [storeR_eq_some.2 ⟨by omega, rfl⟩, orFault_some]
  exact (hf _).afterStore hr hw (by omega) (by omega) fun a => Memory.readByte_write_outside 8 s.buf _ x.toNat a

theorem Checked.confined_copyByte {f : State → Out} {b : Byte} (hf : ∀ m, Confined i e m (f { s with buf := m }))
    (hk : k < r.size := by dsimp only; omega) : Confined i e s.buf (orFault (copyByte s r.base k b) f) := by
  have hin := hchk.region_inside hr (by omega)
  rw [copyByte_eq_some.2 ⟨by omega, rfl⟩, orFault_some]
  exact (hf _).afterStore hr hw (lo := r.base + k) (n := 1) (by omega) (by omega) fun a ha =>
    Memory.readByte_writeByte_other s.buf b (by omega)

theorem Checked.confined_storeB {f : State → Out} {b : Bool} (hf : ∀ m, Confined i e m (f { s with buf := m }))
    (hk : k < r.size := by dsimp only; omega) : Confined i e s.buf (orFault (storeB s r.base k b) f) :=
  hchk.confined_copyByte hr hw hf hk

end Rules

/-- A log entry is stored where the log is enabled, and its region is then one that the command writes. -/
theorem Checked.confined_storeLog {i : Instr} {e : Engine} {s : State} {r : Region} {k : Nat} (hchk : Checked i s e)
    {on : Bool} {f : State → Out} {x : F64}
    (hr : on = true → r ∈ (planOf i e).regions) (hw : r.dir = .write) (hf : ∀ m, Confined i e m (f { s with buf := m }))
    (hk : 8 * k + 8 ≤ r.size := by dsimp only; omega) : Confined i e s.buf (orFault (storeLog on s r.base k x) f) := by
  cases on with
  | false => exact hf s.buf
  | true => exact hchk.confined_storeR (hr rfl) hw hf hk

/-! ### Each command -/

section Commands
variable {s : State} {e : Engine}

theorem nop_confined (hr : RunningAt .nop s e .nop) : Confined .nop e s.buf (exec .nop s) := by
  rw [exec_nop_running hr]
  exact .next

/-! ### TR_MM -/

/-- The fetch index of a running TR_MM lies below `16 N` (41_timing_recovery.md R165, R167). -/
theorem TrLoop.fetchIndex_lt {l : TrLoop} {n : Nat} (hmu : inUnit l.mu = true) (hrun : l.running n = true) :
    l.fetchIndex < 16 * n := by
  simp only [TrLoop.running, Bool.and_eq_true, decide_eq_true_eq] at hrun
  have hfloor := F64.floor_mul_sixteen_le hmu
  rw [TrLoop.fetchIndex]
  omega

theorem trMm_confined {l : TrLoop} (hchk : Checked .trMm s e) (hr : RunningAt .trMm s e (.trMm l))
    (hl : trLoopOk e l = true) : Confined .trMm e s.buf (exec .trMm s) := by
  simp only [trLoopOk, Bool.and_eq_true, decide_eq_true_eq] at hl
  obtain ⟨⟨⟨⟨⟨hmu, -⟩, -⟩, hlow⟩, -⟩, -⟩ := hl
  have hfin : F64.isFinite l.mu = true := by
    simp only [inUnit, Bool.and_eq_true] at hmu
    exact hmu.1.1
  have hsrc : ⟨e.src, 256 * e.count, .complex, .read⟩ ∈ (planOf .trMm e).regions := by simp [planOf, trMmPlan]
  have hdst : ⟨e.dst, 16 * (e.count - 2), .complex, .write⟩ ∈ (planOf .trMm e).regions := by simp [planOf, trMmPlan]
  have hlog (hon : e.cfg.trLog = true) : ⟨e.aux, 8 * (e.count - 2), .real, .write⟩ ∈ (planOf .trMm e).regions := by
    simp [planOf, trMmPlan, hon]
  rw [exec_trMm_running hr]
  split
  case isFalse => exact .next
  next hrun =>
    have hfetch := TrLoop.fetchIndex_lt hmu hrun
    simp only [TrLoop.running, Bool.and_eq_true, decide_eq_true_eq] at hrun
    rw [trMmIteration, if_pos hfin]
    split
    · exact .next
    refine hchk.confined_loadC hsrc fun z => ?_
    refine hchk.confined_storeC hdst rfl fun m => ?_
    rw [trMmUpdate]
    split
    · exact hchk.confined_storeLog (s := { s with buf := m }) hlog rfl fun _ => .next
    · exact .next

/-! ### COSTAS -/

theorem costas_confined {l : CoLoop} (hchk : Checked .costas s e) (hr : RunningAt .costas s e (.costas l)) :
    Confined .costas e s.buf (exec .costas s) := by
  have hsrc : ⟨e.src, 16 * e.count, .complex, .read⟩ ∈ (planOf .costas e).regions := by simp [planOf, costasPlan]
  have hdst : ⟨e.dst, 16 * e.count, .complex, .write⟩ ∈ (planOf .costas e).regions := by simp [planOf, costasPlan]
  have hlog (hon : e.cfg.coLog = true) : ⟨e.aux, 8 * e.count, .real, .write⟩ ∈ (planOf .costas e).regions := by
    simp [planOf, costasPlan, hon]
  rw [exec_costas_running hr]
  split
  case isFalse => exact .next
  next hi =>
    refine hchk.confined_loadC hsrc fun z => ?_
    refine hchk.confined_storeC hdst rfl fun m => ?_
    refine hchk.confined_storeLog (s := { s with buf := m }) hlog rfl fun m' => ?_
    unfold costasFinish
    split
    · split <;> exact .next
    · exact .next

/-! ### IQCORR -/

/-- The window of every sample lies inside the samples (43_iq_imbalance.md R223). -/
theorem windowLo_add_windowCount_le {n p k : Nat} (hk : k < n) : windowLo p k + windowCount n p k ≤ n := by
  unfold windowCount windowHi windowLo
  omega

theorem windowSums_inside (hchk : Checked .iqcorr s e) : ∀ {cnt m : Nat} (sI sQ : F64), m + cnt ≤ e.count →
    ∃ sums, windowSums s e.src cnt m sI sQ = some sums
  | 0, _, sI, sQ, _ => ⟨(sI, sQ), rfl⟩
  | cnt + 1, m, sI, sQ, h => by
    have hin := hchk.region_inside (r := ⟨e.src, 16 * e.count, .complex, .read⟩) (by simp [planOf, iqcorrPlan])
      (by dsimp only; omega)
    dsimp only at hin
    rw [windowSums, loadC_inside (by omega)]
    exact windowSums_inside hchk _ _ (by omega)

theorem iqcorr_confined {l : IqLoop} (hchk : Checked .iqcorr s e) (hr : RunningAt .iqcorr s e (.iqcorr l))
    (hl : iqLoopOk e l = true) : Confined .iqcorr e s.buf (exec .iqcorr s) := by
  have hsrc : ⟨e.src, 16 * e.count, .complex, .read⟩ ∈ (planOf .iqcorr e).regions := by simp [planOf, iqcorrPlan]
  have hdst : ⟨e.dst, 16 * e.count, .complex, .write⟩ ∈ (planOf .iqcorr e).regions := by simp [planOf, iqcorrPlan]
  rw [exec_iqcorr_running hr]
  cases hst : l.stage with
  | empty => exact .next
  | estimate =>
    dsimp only
    split
    · next hk =>
      have hin := hchk.region_inside hsrc (by dsimp only; omega)
      dsimp only at hin
      obtain ⟨⟨sI, sQ⟩, hsums⟩ := windowSums_inside hchk 0 0 (windowLo_add_windowCount_le (p := e.scalar) hk)
      rw [iqEstimateIteration, biasRemoved, loadC_inside (by omega), hsums]
      exact .next
    · simp only [iqEstimate]
      iterate 5
        split
        · exact .next
      exact .next
  | correct =>
    simp only [iqLoopOk, hst, Bool.and_eq_true, decide_eq_true_eq, beq_iff_eq] at hl
    obtain ⟨⟨⟨-, -⟩, hprime⟩, -⟩ := hl
    dsimp only
    split
    case isFalse => exact .next
    next hk =>
      have hstore (x : Sample) : Confined .iqcorr e s.buf (orFault (storeC s e.dst l.k (iqCorrected l x)) fun s' =>
          .next (s'.withEng ((e.wrote 1).goto (.iqcorr { l with k := l.k + 1 })))) :=
        hchk.confined_storeC hdst rfl fun _ => .next
      unfold iqCorrectIteration iqSource
      split
      · rw [List.getElem?_eq_getElem (by omega)]
        exact hstore _
      · exact hchk.confined_loadC hsrc hstore

/-! ### FSYNC -/

theorem preLen_pos_of_checked (hchk : Checked .fsync s e) : 0 < e.cfg.preLen := by
  have harg := hchk.argOk
  simp only [planOf, fsyncPlan, Bool.or_eq_false_iff, beq_eq_false_iff_ne] at harg
  exact Nat.pos_of_ne_zero harg.1

theorem fsyncStep_confined {l : FsLoop} (hchk : Checked .fsync s e) (hl : fsLoopOk e l = true) :
    Confined .fsync e s.buf (fsyncStep e l s) := by
  have hsrc : ⟨e.src, 16 * e.count, .complex, .read⟩ ∈ (planOf .fsync e).regions := by simp [planOf, fsyncPlan]
  have hdst : ⟨e.dst, 16 * (e.cfg.preLen + e.scalar), .complex, .write⟩ ∈ (planOf .fsync e).regions := by
    simp [planOf, fsyncPlan]
  have haux : ⟨e.aux, 16 * e.scalar, .complex, .write⟩ ∈ (planOf .fsync e).regions := by simp [planOf, fsyncPlan]
  cases hst : l.stage <;>
    simp only [fsLoopOk, hst, Bool.and_eq_true, decide_eq_true_eq, beq_iff_eq] at hl <;> simp only [fsyncStep, hst]
  case degenerate => exact .next
  case magnitude =>
    split
    · exact hchk.confined_loadC hsrc fun _ => .next
    · simp only [fsScaleStep]
      split <;> exact .next
  case rescale =>
    refine hchk.confined_loadC hsrc fun _ => ?_
    dsimp only
    split
    · split <;> exact .next
    · exact .next
  case lags =>
    split
    · exact .next
    · have hpre := preLen_pos_of_checked hchk
      have hlags : lagCount e = e.count + e.cfg.preLen - 1 := rfl
      rw [fsScanStart, List.getElem?_eq_getElem (by omega)]
      exact .next
  case scan =>
    split
    · rw [fsScan, List.getElem?_eq_getElem (by omega)]
      dsimp only
      split <;> exact .next
    · exact .next
  case copyFull =>
    split
    · refine hchk.confined_loadC hsrc fun _ => ?_
      exact hchk.confined_storeC hdst rfl fun _ => .next
    · exact .next
  case copyPay =>
    split
    · refine hchk.confined_loadC hsrc fun _ => ?_
      exact hchk.confined_storeC haux rfl fun _ => .next
    · exact .next

theorem fsync_confined {l : FsLoop} (hchk : Checked .fsync s e) (hr : RunningAt .fsync s e (.fsync l))
    (hl : fsLoopOk e l = true) : Confined .fsync e s.buf (exec .fsync s) := by
  rw [exec_fsync_running hr]
  exact fsyncStep_confined hchk hl

/-! ### DEMAP -/

theorem planOf_demap (sch : Scheme) (e : Engine) : planOf sch.instr e = demapPlan sch.bps e := by cases sch <;> rfl

/-- The bits of one symbol, of sequence numbers `n` to `n + left - 1`, below `N bps` (45_demapper.md R287). -/
theorem emitBits_confined {sch : Scheme} {label : Nat} (hn : Checked sch.instr s e) {f : Engine × State → Out}
    (hf : ∀ e' m, Confined sch.instr e m (f (e', { s with buf := m }))) :
    ∀ {left j n : Nat} (e' : Engine) (m : Memory), n + left ≤ e.count * sch.bps →
      Confined sch.instr e m
        (orFault (emitBits sch label e.dst e.scalar left j n e' { s with buf := m }) f)
  | 0, _, _, e', m, _ => hf e' m
  | left + 1, j, n, e', m, h => by
    have hdst : ⟨e.dst, e.count * sch.bps - e.scalar, .bit, .write⟩ ∈ (planOf sch.instr e).regions := by
      simp [planOf_demap, demapPlan]
    unfold emitBits
    split
    · next hskip =>
      have hin := hn.region_inside hdst (by dsimp only; omega)
      dsimp only at hin
      rw [storeB_eq_some.2 ⟨by dsimp only; omega, rfl⟩]
      exact (emitBits_confined hn hf _ _ (by omega)).afterStore hdst rfl (lo := e.dst + (n - e.scalar)) (n := 1)
        (by dsimp only; omega) (by dsimp only; omega) fun a ha => Memory.readByte_writeByte_other m _ (by omega)
    · exact emitBits_confined hn hf e' m (by omega)

theorem demap_confined {sch : Scheme} {l : DmLoop} (hchk : Checked sch.instr s e)
    (hr : RunningAt sch.instr s e (.demap l)) : Confined sch.instr e s.buf (exec sch.instr s) := by
  have hsrc : ⟨e.src, 16 * e.count, .complex, .read⟩ ∈ (planOf sch.instr e).regions := by
    simp [planOf_demap, demapPlan]
  rw [exec_demap_running hr]
  split
  case isFalse => exact .next
  next hi =>
    refine hchk.confined_loadC hsrc fun z => ?_
    split
    · refine emitBits_confined hchk (fun _ _ => .next) e s.buf ?_
      rw [← Nat.succ_mul]
      exact Nat.mul_le_mul_right _ hi
    · exact .next

/-! ### CRCCHK and CRCENC -/

theorem crcFeedBit_confined {i : Instr} {l : CrcLoop} (hchk : Checked i s e)
    (hsrc : ⟨e.src, e.count, .bit, .read⟩ ∈ (planOf i e).regions) (hi : l.i < e.count) :
    Confined i e s.buf (crcFeedBit e l s) := by
  refine hchk.confined_loadB hsrc fun b => ?_
  split <;> exact .next

theorem crcchk_confined {l : CrcLoop} (hchk : Checked .crcchk s e) (hr : RunningAt .crcchk s e (.crc l)) :
    Confined .crcchk e s.buf (exec .crcchk s) := by
  rw [exec_crcchk_running hr]
  split
  · split
    · next hi => exact crcFeedBit_confined hchk (by simp [planOf, crcchkPlan]) hi
    · exact .next
  · exact .next

theorem crcencOutput_confined {l : CrcLoop} (hchk : Checked .crcenc s e)
    (hsrc : ⟨e.src, e.count, .bit, .read⟩ ∈ (planOf .crcenc e).regions) : Confined .crcenc e s.buf (crcencOutput e l s) := by
  have hdst : ⟨e.dst, e.count + e.cfg.keyLen - 1, .bit, .write⟩ ∈ (planOf .crcenc e).regions := by
    simp [planOf, crcencPlan]
  have hkey : 2 ≤ e.cfg.keyLen := (keyLen_of_not_bad hchk.argOk).1
  unfold crcencOutput
  split
  · refine hchk.confined_loadB hsrc fun b => ?_
    exact hchk.confined_copyByte hdst rfl fun _ => .next
  split
  · exact hchk.confined_storeB hdst rfl fun _ => .next
  · exact .next

theorem crcenc_confined {l : CrcLoop} (hchk : Checked .crcenc s e) (hr : RunningAt .crcenc s e (.crc l)) :
    Confined .crcenc e s.buf (exec .crcenc s) := by
  have hsrc : ⟨e.src, e.count, .bit, .read⟩ ∈ (planOf .crcenc e).regions := by simp [planOf, crcencPlan]
  rw [exec_crcenc_running hr]
  split
  · unfold crcencDivide
    split
    · next hi => exact crcFeedBit_confined hchk hsrc hi
    · split <;> exact .next
  · exact crcencOutput_confined hchk hsrc

end Commands

/-! ### A command in flight -/

section InFlight
variable {i : Instr} {s : State} {e : Engine} (hi : i.port = .cmd) (hg : s.Good) (hf : InFlight i s e)
include hi hg hf

theorem exec_confined_of_running (hp : e.progress ≠ .check) (ha : e.abortReq = false) :
    Confined i e s.buf (exec i s) := by
  obtain ⟨hchk, hl⟩ := hg.loop hi hf hp
  have hr {p : Progress} (hp : e.progress = p) : RunningAt i s e p := ⟨hf, hp, ha⟩
  have hdemap (sch : Scheme) (hsch : i = sch.instr) : Confined i e s.buf (exec i s) := by
    subst hsch
    obtain ⟨l, hp, -⟩ := loopOk_demap_inv hl
    exact demap_confined hchk (hr hp)
  cases i with
  | nop => exact nop_confined (hr (loopOk_nop_inv hl))
  | trMm =>
    obtain ⟨l, hp, hl⟩ := loopOk_trMm_inv hl
    exact trMm_confined hchk (hr hp) hl
  | costas =>
    obtain ⟨l, hp, -⟩ := loopOk_costas_inv hl
    exact costas_confined hchk (hr hp)
  | iqcorr =>
    obtain ⟨l, hp, hl⟩ := loopOk_iqcorr_inv hl
    exact iqcorr_confined hchk (hr hp) hl
  | fsync =>
    obtain ⟨l, hp, hl⟩ := loopOk_fsync_inv hl
    exact fsync_confined hchk (hr hp) hl
  | demapOok => exact hdemap .ook rfl
  | demapBpsk => exact hdemap .bpsk rfl
  | demapQpsk => exact hdemap .qpsk rfl
  | demapQam16 => exact hdemap .qam16 rfl
  | crcchk =>
    obtain ⟨l, hp, -⟩ := loopOk_crcchk_inv hl
    exact crcchk_confined hchk (hr hp)
  | crcenc =>
    obtain ⟨l, hp, -⟩ := loopOk_crcenc_inv hl
    exact crcenc_confined hchk (hr hp)
  | srst | abort => cases hi

/-- Every step of a command in flight goes on and changes only bytes of the regions the command writes. -/
theorem exec_confined : Confined i e s.buf (exec i s) := by
  by_cases hp : e.progress = .check
  · obtain ⟨body, hexec⟩ := exec_eq_command hi
    rw [hexec, command_check hf.1 hf.2 hp]
    obtain ⟨c, -, hout⟩ | ⟨-, hout⟩ := checkStep_eq (planOf i e) (startOf i e) s e <;> rw [hout] <;> exact .next
  cases ha : e.abortReq with
  | false => exact exec_confined_of_running hi hg hf hp ha
  | true =>
    rw [exec_aborted hi hf hp ha]
    exact .next

end InFlight
end Sys2Proof.Machine
end

section
/-!
A state that meets the invariant never stops: of all turns only the engine's can fault, and no step of its command does.
-/
namespace Sys2Proof.Machine
variable {s : State}

theorem exec_goes_on (hg : s.Good) (i : Instr) : ∃ t, exec i s = .next t := by
  by_cases hi : i.port = .cmd
  case neg =>
    cases i with
    | srst | abort => exact ⟨_, rfl⟩
    | _ => exact absurd rfl hi
  case pos =>
    obtain ⟨body, hexec⟩ := exec_eq_command hi
    obtain ⟨-, hout⟩ | ⟨e, -, -, hout⟩ | ⟨e, he, hc, -⟩ | ⟨e, he, hc, -⟩ | ⟨e, he, hc, -⟩ :=
      command_cases i (fun s e => checkStep (planOf i e) (startOf i e) s e) body s
    · exact ⟨_, (hexec s).trans hout⟩
    · exact ⟨_, (hexec s).trans hout⟩
    all_goals
      obtain ⟨t, ht, -⟩ := exec_confined hi hg ⟨he, hc⟩
      exact ⟨t, ht⟩

theorem engineTurn_goes_on (hg : s.Good) : ∃ t, engineTurn s = .next t := by
  unfold engineTurn
  split
  · exact ⟨_, rfl⟩
  · split
    · exact exec_goes_on hg _
    · exact ⟨_, rfl⟩

theorem whenIdle_goes_on (s s' : State) : ∃ t, whenIdle s s' = .next t := by
  unfold whenIdle
  split <;> exact ⟨_, rfl⟩

theorem csrWrite_goes_on (hg : s.Good) (c : Csr) (v : Word) : ∃ t, csrWrite s c v = .next t := by
  cases c with
  | ctrl => exact ⟨_, csrWrite_ctrl s v⟩
  | cmd =>
    simp only [csrWrite, writeCmd]
    split
    · exact ⟨_, rfl⟩
    · split
      · exact exec_goes_on hg _
      · exact ⟨_, rfl⟩
  | arg | cfgLo | cfgHi | cfg => exact whenIdle_goes_on s _
  | status | irqEn => exact ⟨_, rfl⟩
  | id | bufSize | param | resLo | resHi | res => exact ⟨_, rfl⟩

theorem hostWrite_goes_on (hg : s.Good) (o : BitVec 24) (w : Width) (d : BitVec 64) :
    ∃ t, hostWrite o w d s = .next t := by
  unfold hostWrite
  split
  · split
    · split
      · exact csrWrite_goes_on (hg.respond _) _ _
      · exact ⟨_, rfl⟩
    · exact ⟨_, rfl⟩
  · split
    · split <;> exact ⟨_, rfl⟩
    · exact ⟨_, rfl⟩
  · exact ⟨_, rfl⟩

theorem takeTurn_goes_on (hg : s.Good) (u : Turn) : ∃ t, takeTurn u s = .next t := by
  cases u with
  | resetPin b => exact ⟨_, rfl⟩
  | host a =>
    simp only [takeTurn]
    split
    · exact ⟨_, rfl⟩
    · cases a with
      | read o w => exact ⟨_, rfl⟩
      | write o w d => exact hostWrite_goes_on hg o w d
  | engine =>
    simp only [takeTurn]
    split
    · exact ⟨_, rfl⟩
    · exact engineTurn_goes_on hg
  | wait =>
    simp only [takeTurn]
    split <;> exact ⟨_, rfl⟩

theorem step_goes_on (hg : s.Good) : ∃ t, step s = .next t := by
  unfold step transition
  split
  · split
    · exact ⟨_, rfl⟩
    · exact engineTurn_goes_on hg
  · next u rest _ => exact takeTurn_goes_on (hg.withHost s.resetAsserted rest s.responses) u

end Sys2Proof.Machine

namespace Sys2Proof.Proofs
open Sys2Proof Sys2Proof.Machine

/-- Settles O58: `exec_confined` for the command in flight; no other turn reaches a fault. -/
theorem goodNeverStops : Obligations.GoodNeverStops := fun s hgood => step_goes_on ((good_iff s).1 hgood)

/-- Settles O59: `exec_confined`, which takes each command's stores one by one. -/
theorem writesStayInRegions : Obligations.WritesStayInRegions := by
  intro i s t e a hgood hi hf hexec hne
  obtain ⟨t', ht, hwrites⟩ := exec_confined hi ((good_iff s).1 hgood) hf
  obtain rfl : t' = t := Host.Outcome.next.inj (ht.symm.trans hexec)
  exact hwrites a hne

end Sys2Proof.Proofs
end

section
/-!
From the CMD write to the completion of a command (40_command.md R130 to R132, R139): which instruction a step runs, what the issue of
a word leaves, what the check step answers, and the run of NOP.
-/
namespace Sys2Proof.Machine

/-! ### Writes of CMD and CTRL -/

section PortWrites
variable {s : State} {w : Word}

theorem busy_of_idle (hidle : s.eng = none) : s.busy = false := by rw [State.busy, hidle]; rfl

/-- On an idle block the meaning of a command word is its issue (40_command.md R130, R131). -/
theorem exec_idle {i : Instr} (hi : i.port = .cmd) (hidle : s.eng = none) : exec i s = .next (issue (encode i) s) := by
  obtain ⟨body, hexec⟩ := exec_eq_command hi
  rw [hexec, command, hidle]

/-- On an idle block a CMD write runs the instruction that the word decodes to. -/
theorem writeCmd_idle_of_decode {i : Instr} (hidle : s.eng = none) (hd : decodeCmd w = .ok i) :
    writeCmd w s = exec i s := by
  simp only [writeCmd, busy_of_idle hidle, hd, Bool.false_eq_true, if_false]

/-- On an idle block a CMD write issues the word, legal or not (40_command.md R130). -/
theorem writeCmd_idle (hidle : s.eng = none) (w : Word) : writeCmd w s = .next (issue w s) := by
  cases hd : decodeCmd w with
  | ok i =>
    obtain ⟨hi, rfl⟩ := (decodeCmd_eq_ok_iff w i).1 hd
    rw [writeCmd_idle_of_decode hidle hd, exec_idle hi hidle]
  | error err => simp only [writeCmd, busy_of_idle hidle, hd, Bool.false_eq_true, if_false]

theorem writeCtrl_of_decode {i : Instr} (hd : decodeCtrl w = .ok i) (s : State) : writeCtrl w s = exec i s := by
  simp only [writeCtrl, hd]

/-- The register behind a port. -/
def Csr.ofPort : Port → Csr
  | .cmd => .cmd
  | .ctrl => .ctrl

/-- A write of the register behind a port runs the instruction that the word decodes to there. -/
theorem csrWrite_port {p : Port} {i : Instr} (hidle : p = .cmd → s.eng = none) (hd : decodeWord p w = .ok i) :
    csrWrite s (.ofPort p) w = exec i s := by
  cases p with
  | cmd => exact writeCmd_idle_of_decode (hidle rfl) hd
  | ctrl => exact writeCtrl_of_decode hd s

end PortWrites

theorem ofOffset_ofPort (p : Port) : Csr.ofOffset (Csr.ofPort p).offset = some (.ofPort p) ∧
    (Csr.ofPort p).offset % 4 = 0 ∧ (Csr.ofPort p).offset < 0x1000 := by cases p <;> decide

/-- A host write of a word to its port is the meaning of the instruction it decodes to there. -/
theorem step_port_write {s : State} {rest : List Turn} {data : BitVec 64} {p : Port} {i : Instr}
    (hr : s.resetAsserted = false) (hidle : p = .cmd → s.eng = none)
    (ha : s.agenda = .host (.write (BitVec.ofNat 24 (Csr.ofPort p).offset) .b4 data) :: rest)
    (hd : decodeWord p (data.setWidth 32) = .ok i) :
    step s = exec i { s with agenda := rest, responses := .writeOkay :: s.responses } := by
  obtain ⟨hc, h4, ho⟩ := ofOffset_ofPort p
  rw [step_csr_write hr h4 ho ha hc, csrWrite_port (by exact hidle) hd]

/-- A host write of any word to CMD on an idle block is one step, its issue (40_command.md R130, R131). -/
theorem step_cmd_write {s : State} {rest : List Turn} {data : BitVec 64} (hr : s.resetAsserted = false)
    (hidle : s.eng = none) (ha : s.agenda = .host (.write 0x000010 .b4 data) :: rest) :
    step s = .next (issue (data.setWidth 32) { s with agenda := rest, responses := .writeOkay :: s.responses }) := by
  rw [step_csr_write hr (o := 0x010) rfl (by decide) ha (c := .cmd) rfl]
  exact writeCmd_idle (by exact hidle) _

theorem portWrite_eq (p : Port) (w : Word) :
    portWrite p w = .write (BitVec.ofNat 24 (Csr.ofPort p).offset) .b4 (w.setWidth 64) := by cases p <;> rfl

theorem tablePort_eq {i : Instr} {nbits : Nat} (h : if i.port = .cmd then nbits = 32 else nbits < 32) :
    tablePort nbits = i.port := by
  cases hp : i.port with
  | cmd =>
    rw [hp, if_pos rfl] at h
    rw [h]
    rfl
  | ctrl =>
    rw [hp, if_neg (by decide)] at h
    exact if_pos h

/-- The step after `withFetchWord` runs the placed instruction. -/
theorem step_withFetchWord {i : Instr} {s : State} {nbits : Nat} (hr : s.resetAsserted = false)
    (hidle : i.port = .cmd → s.eng = none) (hn : if i.port = .cmd then nbits = 32 else nbits < 32) :
    step (s.withFetchWord nbits (encode i).toNat) = exec i { s with responses := .writeOkay :: s.responses } := by
  have hword : ((encode i).setWidth 64).setWidth 32 = encode i := BitVec.setWidth_setWidth_of_le _ (by decide)
  rw [State.withFetchWord, tablePort_eq hn, BitVec.ofNat_toNat, BitVec.setWidth_eq, queueWord, portWrite_eq]
  exact step_port_write (s := { s with agenda := _ :: s.agenda }) hr hidle rfl
    ((congrArg (decodeWord i.port) hword).trans (decodeWord_encode i))

/-- The engine's turn with a legal word in flight, or a step with nothing on the agenda, is that word's meaning. -/
theorem step_engine_legal {s : State} {rest : List Turn} {e : Engine} {i : Instr} (hr : s.resetAsserted = false)
    (he : s.eng = some e) (hd : decodeCmd e.cmd = .ok i)
    (ha : s.agenda = .engine :: rest ∨ (s.agenda = [] ∧ rest = [])) : step s = exec i { s with agenda := rest } :=
  (step_engineTurn hr ha).trans (engineTurn_legal (s := { s with agenda := rest }) he hd)

/-- An issue clears every cause of the interrupt but HOSTCONF (40_command.md R131, 60_exceptions.md R410). -/
theorem irq_of_irq_issue {s : State} {w : Word} (h : (issue w s).irq = true) : s.irq = true := by
  simp only [State.irq, issue_status, issue_irqEn, Status.issued_done, Status.issued_err, Status.issued_hostconf,
    Bool.false_and, Bool.false_or] at h
  simp only [State.irq, h, Bool.or_true]

/-! ### The check step -/

/-- The check step of a command in flight, an abort pending or not (40_command.md R132, 60_exceptions.md R402). -/
theorem exec_check {i : Instr} {s : State} {e : Engine} (hi : i.port = .cmd) (hf : InFlight i s e)
    (hp : e.progress = .check) : exec i s = checkStep (planOf i e) (startOf i e) s e := by
  obtain ⟨body, hexec⟩ := exec_eq_command hi
  rw [hexec, command_check hf.1 hf.2 hp]

theorem Engine.count_eq_zero_iff (e : Engine) : e.count = 0 ↔ e.args.a2 = 0 := BitVec.toNat_eq (y := 0#32).symm
/-! ### NOP -/

/-- A run goes on from the state that its first step gives. -/
theorem run_succ {s t : State} (h : step s = .next t) (k : Nat) : core.run (k + 1) s = core.run k t := by
  have hstep : core.step s = .next t := h
  simp only [Host.Core.run, hstep]

/-- The check step of NOP has nothing to refuse (40_command.md R142). -/
theorem exec_nop_check {s : State} {e : Engine} (hf : InFlight .nop s e) (hp : e.progress = .check) :
    exec .nop s = .next (s.withEng (e.goto .nop)) := exec_check rfl hf hp

/-- The engine's turn at NOP's check step. -/
theorem step_nop_check {s : State} {e : Engine} {rest : List Turn} (hr : s.resetAsserted = false)
    (ha : s.agenda = .engine :: rest) (hf : InFlight .nop s e) (hp : e.progress = .check) :
    step s = .next (State.withEng { s with agenda := rest } (e.goto .nop)) := by
  have hd : decodeCmd e.cmd = .ok .nop := hf.2 ▸ decodeCmd_encode rfl
  exact (step_engine_legal hr hf.1 hd (.inl ha)).trans (exec_nop_check hf hp)

/-- The engine's turn at NOP's completion. -/
theorem step_nop_running {s : State} {e : Engine} {rest : List Turn} (hr : s.resetAsserted = false)
    (ha : s.agenda = .engine :: rest) (hrun : RunningAt .nop s e .nop) :
    step s = .next (complete id e { s with agenda := rest }) := by
  have hd : decodeCmd e.cmd = .ok .nop := hrun.1.2 ▸ decodeCmd_encode rfl
  exact (step_engine_legal hr hrun.1.1 hd (.inl ha)).trans (exec_nop_running hrun)

/-- The state that NOP, issued on `s`, ends in. -/
def State.afterNop (s : State) : State :=
  { s with
    cmd := 0
    status := ⟨true, false, s.status.hostconf, 0⟩
    results := { s.results with outLen := 0 }
    eng := none
    agenda := []
    responses := .writeOkay :: s.responses }

/-- NOP, from its CMD write to its end: issue, check step, completion step (40_command.md R142). -/
theorem run_nop {s : State} (hr : s.resetAsserted = false) (hidle : s.eng = none)
    (ha : s.agenda = [.host (.write 0x000010 .b4 0x00000000), .engine, .engine]) :
    core.run 3 s = .next s.afterNop := by
  refine (run_succ (step_cmd_write hr hidle ha) 2).trans ?_
  refine (run_succ (step_nop_check (e := s.captured 0) (by exact hr) rfl ⟨rfl, rfl⟩ rfl) 1).trans ?_
  exact run_succ (step_nop_running (e := (s.captured 0).goto .nop) (by exact hr) rfl ⟨⟨rfl, rfl⟩, rfl, rfl⟩) 0

/-- STATUS of an idle block with DONE alone set (10_state.md R35). -/
theorem statusWord_done {s : State} (hidle : s.eng = none) (hst : s.status = ⟨true, false, false, 0⟩) :
    s.statusWord = 0x00000002 := by
  rw [State.statusWord, busy_of_idle hidle, hst]
  decide

end Sys2Proof.Machine

namespace Sys2Proof.Proofs
open Sys2Proof Sys2Proof.Machine

/-- Settles O6: `step_port_write` for the host's writes, `engineTurn_legal` for the engine's turn. -/
theorem stepRunsDecodedInstruction : Obligations.StepRunsDecodedInstruction := by
  refine ⟨fun i s rest data hr hidle ha hd => ?_, fun i s e hr he hd => ⟨fun ha => ?_, fun rest ha => ?_⟩,
    fun i s nbits hr hidle hn => step_withFetchWord hr (fun _ => hidle) hn⟩
  · refine step_port_write hr hidle ?_ hd
    cases hp : i.port with
    | cmd | ctrl => rwa [hp] at ha
  · have hsame : { s with agenda := [] } = s := by rw [← ha]
    exact (step_engine_legal hr he hd (.inr ⟨ha, rfl⟩)).trans (congrArg (exec i) hsame)
  · exact step_engine_legal hr he hd (.inl ha)

/-- Settles O7: the step is `issue` of the word, legal or not. -/
theorem issueOfAnyWord : Obligations.IssueOfAnyWord := fun s rest _ hr hidle ha =>
  ⟨_, step_cmd_write hr hidle ha, rfl, rfl, rfl, rfl, rfl, rfl, rfl, rfl, rfl, rfl, rfl, rfl, rfl,
    irq_of_irq_issue (s := { s with agenda := rest, responses := _ })⟩

/-- Settles O8, by `exec_idle`. -/
theorem execOnIdleIssues : Obligations.ExecOnIdleIssues := fun _ _ hi hidle => exec_idle hi hidle

/-- Settles O11: `exec_check`, with the start of each command written out. -/
theorem checkStepOutcome : Obligations.CheckStepOutcome := by
  intro i s e hi hf hp hw
  rw [exec_check hi hf hp, checkStep]
  cases (planOf i e).firstError s.params.bufBytes with
  | some c =>
    have hends := takeError_ends c e s
    rw [hw] at hends
    exact ⟨_, rfl, hends, fun _ => rfl⟩
  | none =>
    cases i with
    | iqcorr | fsync =>
      simp only [startOf, IqLoop.initial, FsLoop.initial, Engine.count_eq_zero_iff]
      rfl
    | srst | abort => cases hi
    | _ => rfl

/-- Settles O28: `run_nop` for the whole run, and the completion step alone. -/
theorem nopRuns : Obligations.NopRuns := by
  refine ⟨fun s hr hidle ha => ?_, fun s e hrun => ⟨_, exec_nop_running hrun, complete_ends id e s⟩⟩
  refine ⟨s.afterNop, run_nop hr hidle ha, rfl, rfl, fun _ => rfl, rfl, fun hconf => ?_⟩
  have hst : s.afterNop.status = ⟨true, false, false, 0⟩ := by rw [State.afterNop, hconf]
  rw [csrWord_status, statusWord_done rfl hst]

end Sys2Proof.Proofs
end

section
/-!
The checks of a command (40_command.md R132 to R136): what each test of the model says of the regions, the order of the tests, and
the table of regions.
-/
namespace Sys2Proof.Machine

/-! ### What each test says -/

/-- R134: a misaligned region. -/
def Region.Misaligned (r : Region) : Prop := 0 < r.size ∧ r.elem ≠ .bit ∧ r.base % 8 ≠ 0

/-- R135: a region that ends past a BUF of `limit` bytes. -/
def Region.OutOfRange (limit : Nat) (r : Region) : Prop := 0 < r.size ∧ limit < r.base + r.size

/-- R136: two regions share a byte only as an identical source and destination of a command that may run in place. -/
def Region.Compatible (inPlace : Bool) (r q : Region) : Prop :=
  (∃ a, (r.base ≤ a ∧ a < r.base + r.size) ∧ q.base ≤ a ∧ a < q.base + q.size) →
    inPlace = true ∧ r.dir = .read ∧ q.dir = .write ∧ r.base = q.base ∧ r.size = q.size ∧ r.elem = q.elem

theorem Region.misaligned_iff (r : Region) : r.misaligned = true ↔ r.Misaligned := by
  simp [Region.misaligned, Region.Misaligned, Nat.pos_iff_ne_zero, and_assoc, and_left_comm]

theorem Region.outOfRange_iff (limit : Nat) (r : Region) : r.outOfRange limit = true ↔ r.OutOfRange limit := by
  simp [Region.outOfRange, Region.OutOfRange, Nat.pos_iff_ne_zero]

/-- Two regions overlap when they share a byte, so that an empty region overlaps none. -/
theorem Region.overlaps_iff (r q : Region) : r.overlaps q = true ↔
    ∃ a, (r.base ≤ a ∧ a < r.base + r.size) ∧ q.base ≤ a ∧ a < q.base + q.size := by
  simp only [Region.overlaps, Bool.and_eq_true, bne_iff_ne, decide_eq_true_eq]
  constructor
  · rintro ⟨⟨⟨hr, hq⟩, hlow⟩, hhigh⟩
    exact ⟨max r.base q.base, by omega⟩
  · rintro ⟨a, ⟨hr, hr'⟩, hq, hq'⟩
    omega

theorem Region.identical_iff (r q : Region) : r.identical q = true ↔
    r.dir = .read ∧ q.dir = .write ∧ r.base = q.base ∧ r.size = q.size ∧ r.elem = q.elem := by
  simp [Region.identical, and_assoc]

theorem Region.clash_eq_false_iff (inPlace : Bool) (r q : Region) :
    r.clash inPlace q = false ↔ r.Compatible inPlace q := by
  rw [Region.Compatible, ← Region.overlaps_iff, ← Region.identical_iff, Region.clash]
  cases r.overlaps q <;> simp

theorem anyClash_eq_false_iff (inPlace : Bool) (l : List Region) :
    anyClash inPlace l = false ↔ l.Pairwise (Region.Compatible inPlace) := by
  induction l with
  | nil => simp [anyClash]
  | cons r rest ih => simp [anyClash, ih, Region.clash_eq_false_iff]

theorem anyClash_iff (inPlace : Bool) (l : List Region) :
    anyClash inPlace l = true ↔ ¬ l.Pairwise (Region.Compatible inPlace) := by
  rw [← anyClash_eq_false_iff, Bool.not_eq_false]

/-! ### The fields of the configuration registers -/

theorem ConfigRegs.preLen_eq (c : ConfigRegs) : c.preLen = (c.preCfg &&& 0x7F).toNat := by
  rw [ConfigRegs.preLen, BitVec.extractLsb'_toNat, BitVec.toNat_and]
  exact (Nat.and_two_pow_sub_one_eq_mod _ 7).symm

theorem ConfigRegs.keyLen_eq (c : ConfigRegs) : c.keyLen = (c.crcCfg &&& 0x3F).toNat := by
  rw [ConfigRegs.keyLen, BitVec.extractLsb'_toNat, BitVec.toNat_and]
  exact (Nat.and_two_pow_sub_one_eq_mod _ 6).symm

/-- FSYNC's preamble length is legal from 1 to 64 (44_preamble_correlator.md R251). -/
theorem fsyncPlan_badArg (e : Engine) :
    (fsyncPlan e).badArg = decide (¬ (1 ≤ e.cfg.preLen ∧ e.cfg.preLen ≤ 64)) := by
  rw [Bool.eq_iff_iff]
  have hmax : Config.maxPre = 64 := rfl
  simp only [fsyncPlan, Bool.or_eq_true, beq_iff_eq, decide_eq_true_eq]
  omega

/-- A CRC key's length is legal from 2 to 32 (46_crc.md R311). -/
theorem keyLenBad_eq (c : ConfigRegs) : keyLenBad c = decide (¬ (2 ≤ c.keyLen ∧ c.keyLen ≤ 32)) := by
  rw [Bool.eq_iff_iff]
  have hmax : Config.maxKey = 32 := rfl
  simp only [keyLenBad, Bool.or_eq_true, decide_eq_true_eq]
  omega

end Sys2Proof.Machine

namespace Sys2Proof.Proofs
open Sys2Proof Sys2Proof.Machine

/-- Settles O12: each test of `firstError` says what the statement does, and the tests stand in its order. -/
theorem checkOrder : Obligations.CheckOrder := by
  intro p limit bad align range apart
  have halign : p.regions.any Region.misaligned = true ↔ align := by
    simp only [List.any_eq_true, Region.misaligned_iff]
    rfl
  have hrange : p.regions.any (Region.outOfRange limit) = true ↔ range := by
    simp only [List.any_eq_true, Region.outOfRange_iff]
    rfl
  have hapart : anyClash p.inPlace p.regions = true ↔ ¬ apart := anyClash_iff p.inPlace p.regions
  unfold CheckPlan.firstError
  refine ⟨fun h => ?_, fun h1 h2 => ?_, fun h1 h2 h3 => ?_, fun h1 h2 h3 h4 => ?_, fun h1 h2 h3 h4 => ?_⟩
  · rw [if_pos h]
  · rw [if_neg h1, if_pos (halign.2 h2)]
  · rw [if_neg h1, if_neg (mt halign.1 h2), if_pos (hrange.2 h3)]
  · rw [if_neg h1, if_neg (mt halign.1 h2), if_neg (mt hrange.1 h3), if_pos (hapart.2 h4)]
  · rw [if_neg h1, if_neg (mt halign.1 h2), if_neg (mt hrange.1 h3), if_neg (fun hclash => hapart.1 hclash h4)]

/-- Settles O13: the plans are the table's rows but for the fields PRE_LEN and KEY_LEN and how their ranges are tested. -/
theorem regionTable : Obligations.RegionTable := by
  intro e A0 A1 N A3 A4 L m
  have hL : e.cfg.preLen = L := e.cfg.preLen_eq
  have hm : e.cfg.keyLen = m := e.cfg.keyLen_eq
  have hkey : keyLenBad e.cfg = decide (¬ (2 ≤ m ∧ m ≤ 32)) := hm ▸ keyLenBad_eq e.cfg
  have hpre : (fsyncPlan e).badArg = decide (¬ (1 ≤ L ∧ L ≤ 64)) := hL ▸ fsyncPlan_badArg e
  refine ⟨rfl, rfl, rfl, rfl, ?_, fun sch => ?_, ?_, ?_⟩
  · rw [← hpre, ← hL]
    rfl
  · cases sch <;> rfl
  · rw [← hkey]
    rfl
  · rw [← hkey, ← hm]
    rfl

end Sys2Proof.Proofs
end

section
/-!
TR_MM, step by step: where a checked iteration's accesses fall, what the iteration and the completion answer, and the bounds of a
floor (41_timing_recovery.md R163 to R174).
-/
namespace Sys2Proof.F64

/-- The floor is the greatest integer not above the value (00_scope.md R14). -/
theorem floor_mul_le (x : F64) : floor x * 2 ^ 1074 ≤ toInt x := by
  rw [floor_eq]
  exact Int.ediv_mul_le _ (pow_pos two_pos _).ne'

theorem lt_floor_add_one_mul (x : F64) : toInt x < (floor x + 1) * 2 ^ 1074 := by
  rw [floor_eq]
  exact Int.lt_ediv_add_one_mul_self _ (pow_pos two_pos _)

end Sys2Proof.F64

namespace Sys2Proof.Machine

/-! ### Frames of the two steps inside BUF -/

/-- A step that only stores in BUF and moves the engine stays inside its command. -/
theorem stillRunning_withEng (s : State) (m : Memory) (e' : Engine) :
    StillRunning s (State.withEng { s with buf := m } e') e' :=
  ⟨⟨rfl, rfl, rfl, rfl, rfl, rfl, rfl, rfl⟩, rfl, rfl, rfl⟩

/-- An error taken after a store in BUF leaves what R404 says, seen from before the store. -/
theorem takeError_ends_after_store (c : ErrCode) (e : Engine) (s : State) (m : Memory) :
    EndsInError c e.written s (takeError c e { s with buf := m }) :=
  takeError_ends c e { s with buf := m }

/-- For any memory `m`, so that no proof computes a store to see this. -/
theorem takeError_buf_after_store (c : ErrCode) (e : Engine) (s : State) (m : Memory) :
    (takeError c e { s with buf := m }).buf = m := rfl

/-- For any memory `m`, as above. -/
theorem withEng_buf_after_store (s : State) (m : Memory) (e' : Engine) :
    (State.withEng { s with buf := m } e').buf = m := rfl

theorem sameBufOutside_putSample {s t : State} {b k : Nat} {z : Sample} (h : t.buf = putSample s.buf b k z) :
    SameBufOutside s t (b + 16 * k) 16 := fun a ha => by
  rw [h, putSample_outside s.buf b k z a ha]

/-- A sample and then a log entry change their own bytes only. -/
theorem sameBufOutside2_putLog_putSample {s t : State} {on : Bool} {b k b' k' : Nat} {z : Sample} {x : F64}
    (h : t.buf = putLog on (putSample s.buf b k z) b' k' x) :
    SameBufOutside2 s t (b + 16 * k) 16 (b' + 8 * k') (if on then 8 else 0) := fun a ha ha' => by
  rw [h, putLog_outside on _ b' k' x a ha', putSample_outside s.buf b k z a ha]

/-! ### TR_MM's loop state -/

theorem TrLoop.running_iff {l : TrLoop} {n : Nat} : l.running n = true ↔ l.iOut < n ∧ l.iIn + 16 < (n : Int) := by
  simp only [TrLoop.running, Bool.and_eq_true, decide_eq_true_eq]

theorem isFinite_of_inUnit {x : F64} (h : inUnit x = true) : F64.isFinite x = true := by
  simp only [inUnit, Bool.and_eq_true] at h
  exact h.1.1

theorem inUnit_of_trLoopOk {e : Engine} {l : TrLoop} (h : trLoopOk e l = true) : inUnit l.mu = true := by
  simp only [trLoopOk, Bool.and_eq_true] at h
  exact h.1.1.1.1.1

/-- Outputs 0 and 1 are dropped, at most `N` are made, and OUT_LEN counts the others (41_timing_recovery.md R167, R174). -/
theorem iOut_of_trLoopOk {e : Engine} {l : TrLoop} (h : trLoopOk e l = true) :
    2 ≤ l.iOut ∧ l.iOut ≤ max e.count 2 ∧ e.written = l.iOut - 2 := by
  simp only [trLoopOk, Bool.and_eq_true, decide_eq_true_eq, beq_iff_eq] at h
  obtain ⟨⟨⟨-, hlow⟩, hhigh⟩, hwritten⟩ := h
  exact ⟨hlow, hhigh, hwritten⟩

/-! ### An iteration -/

section Iteration
variable {s : State} {e : Engine} {l : TrLoop}

theorem loadC_of_checked_trMm {k : Nat} (hchk : Checked .trMm s e) (hk : k < 16 * e.count) :
    loadC s e.src k = some (sampleAt s.buf e.src k) := by
  have hin := hchk.region_inside (r := ⟨e.src, 256 * e.count, .complex, .read⟩) (by simp [planOf, trMmPlan])
    (by dsimp only; omega)
  exact loadC_inside (by dsimp only at hin; omega)

theorem storeC_of_checked_trMm {k : Nat} (hchk : Checked .trMm s e) (hk : k < e.count - 2) (z : Sample) :
    storeC s e.dst k z = some { s with buf := putSample s.buf e.dst k z } := by
  have hin := hchk.region_inside (r := ⟨e.dst, 16 * (e.count - 2), .complex, .write⟩) (by simp [planOf, trMmPlan])
    (by dsimp only; omega)
  exact storeC_inside (by dsimp only at hin; omega)

theorem storeLog_of_checked_trMm {k : Nat} (hchk : Checked .trMm s e) (hk : k < e.count - 2) (m : Memory) (x : F64) :
    storeLog e.cfg.trLog { s with buf := m } e.aux k x = some { s with buf := putLog e.cfg.trLog m e.aux k x } := by
  refine storeLog_inside fun hon => ?_
  have hin := hchk.region_inside (r := ⟨e.aux, 8 * (e.count - 2), .real, .write⟩) (by simp [planOf, trMmPlan, hon])
    (by dsimp only; omega)
  dsimp only at hin ⊢
  omega

/-- A negative fetch index ends the command before any access (41_timing_recovery.md R165, R166). -/
theorem exec_trMm_negativeIndex (hr : RunningAt .trMm s e (.trMm l)) (hl : trLoopOk e l = true)
    (hrun : l.running e.count = true) (hj : l.fetchIndex < 0) : exec .trMm s = .next (takeError .trIndex e s) := by
  rw [exec_trMm_running hr, if_pos hrun, trMmIteration, if_pos (isFinite_of_inUnit (inUnit_of_trLoopOk hl)), if_pos hj]

/-- Any other iteration stores the fetched sample and goes on with the update (R165, R167). -/
theorem exec_trMm_fetched (hr : RunningAt .trMm s e (.trMm l)) (hchk : Checked .trMm s e) (hl : trLoopOk e l = true)
    (hrun : l.running e.count = true) (hj : 0 ≤ l.fetchIndex) :
    let z := sampleAt s.buf e.src l.fetchIndex.toNat
    exec .trMm s = trMmUpdate (e.wrote 1) l z { s with buf := putSample s.buf e.dst (l.iOut - 2) z } := by
  have hfetch := TrLoop.fetchIndex_lt (inUnit_of_trLoopOk hl) hrun
  obtain ⟨hlow, -, -⟩ := iOut_of_trLoopOk hl
  obtain ⟨hout, -⟩ := TrLoop.running_iff.1 hrun
  rw [exec_trMm_running hr, if_pos hrun, trMmIteration, if_pos (isFinite_of_inUnit (inUnit_of_trLoopOk hl)),
    if_neg hj.not_gt, loadC_of_checked_trMm hchk (by omega), orFault_some, storeC_of_checked_trMm hchk (by omega), orFault_some]

/-- A non-finite mu ends the command, the sample counted (R170). -/
theorem trMmUpdate_nonfinite {z : Sample} (hmu : F64.isFinite (l.updated e.cfg.trSps e.cfg.trGain z) = false) :
    trMmUpdate (e.wrote 1) l z s = .next (takeError .trNonfinite (e.wrote 1) s) :=
  if_neg (Bool.eq_false_iff.1 hmu)

/-- A finite mu is reduced, logged where the log is enabled, and the loop goes on (R171 to R173). -/
theorem trMmUpdate_finite {z : Sample} (hchk : Checked .trMm s e) (hk : l.iOut - 2 < e.count - 2) (m : Memory)
    (hmu : F64.isFinite (l.updated e.cfg.trSps e.cfg.trGain z) = true) :
    let l' := l.advance z (l.updated e.cfg.trSps e.cfg.trGain z)
    trMmUpdate (e.wrote 1) l z { s with buf := m } =
      .next (State.withEng { s with buf := putLog e.cfg.trLog m e.aux (l.iOut - 2) l'.mu }
        ((e.wrote 1).goto (.trMm l'))) := by
  have hstore := storeLog_of_checked_trMm hchk hk m (l.advance z (l.updated e.cfg.trSps e.cfg.trGain z)).mu
  exact (if_pos hmu).trans (congrArg (orFault · _) hstore)

end Iteration

/-! ### The completion -/

theorem exec_trMm_complete {s : State} {e : Engine} {l : TrLoop} (hr : RunningAt .trMm s e (.trMm l))
    (hstop : ¬ l.running e.count = true) : exec .trMm s = .next (complete (trMmResults l) e s) := by
  rw [exec_trMm_running hr, if_neg hstop]

/-- Inside the 32-bit two's complement range the clamp keeps the value (R174). -/
theorem toInt_clamp32 {n : Int} (hlow : -(2 ^ 31) ≤ n) (hhigh : n ≤ 2 ^ 31 - 1) : (clamp32 n).toInt = n := by
  rw [clamp32, min_eq_left hhigh, max_eq_right hlow]
  exact BitVec.toInt_ofInt_eq_self (by decide) hlow (Int.lt_of_le_sub_one hhigh)

theorem clamp32_of_gt {n : Int} (h : 2 ^ 31 - 1 < n) : clamp32 n = 0x7FFFFFFF := by
  rw [clamp32, min_eq_right h.le]
  rfl

theorem clamp32_of_lt {n : Int} (h : n < -(2 ^ 31)) : clamp32 n = 0x80000000 := by
  rw [clamp32, max_eq_left ((min_le_left n _).trans h.le)]
  rfl

end Sys2Proof.Machine

namespace Sys2Proof.Proofs
open Sys2Proof Sys2Proof.Machine

/-- Settles O29: the sign of the fetch index, then whether the updated mu is finite, choose among the three answers. -/
theorem trMmIteration : Obligations.TrMmIteration := by
  intro s e l hr hchk hl hout hin D G j
  have hrun : l.running e.count = true := TrLoop.running_iff.2 ⟨hout, hin⟩
  have hk : l.iOut - 2 < e.count - 2 := Nat.sub_lt_sub_right (iOut_of_trLoopOk hl).1 hout
  refine ⟨fun hj => ⟨_, exec_trMm_negativeIndex hr hl hrun hj, takeError_ends _ e s, fun _ => rfl⟩, fun hj => ?_⟩
  have hexec := exec_trMm_fetched hr hchk hl hrun hj
  intro z r xr yr mu f mu'
  have hupdated : l.updated e.cfg.trSps e.cfg.trGain z = mu := rfl
  rw [← hupdated]
  refine ⟨fun hmu => ?_, fun hmu => ?_⟩
  · exact ⟨_, hexec.trans (trMmUpdate_nonfinite hmu), takeError_ends_after_store _ (e.wrote 1) s _,
      takeError_buf_after_store _ _ s _, sameBufOutside_putSample (takeError_buf_after_store _ _ s _)⟩
  · exact ⟨_, hexec.trans (trMmUpdate_finite hchk hk _ hmu), stillRunning_withEng s _ _, withEng_buf_after_store s _ _,
      sameBufOutside2_putLog_putSample (withEng_buf_after_store s _ _)⟩

/-- Settles O30: the completion step writes `trMmResults`, and the clamp has a case on each side of the 32-bit range. -/
theorem trMmCompletes : Obligations.TrMmCompletes := by
  intro s e l hr hl hstop
  obtain ⟨hlow, hhigh, hwritten⟩ := iOut_of_trLoopOk hl
  exact ⟨_, clamp32 l.iIn, exec_trMm_complete hr (mt TrLoop.running_iff.1 hstop),
    hwritten ▸ complete_ends (trMmResults l) e s, hlow, hhigh, toInt_clamp32, clamp32_of_gt, clamp32_of_lt⟩

/-- Settles O31, from the bounds of a floor, its exactness as a binary64 and the interval of the reduced mu; R171's example is
computed. -/
theorem reducedMuInUnit : Obligations.ReducedMuInUnit := by
  refine ⟨fun mu hmu => ?_, by decide +kernel⟩
  obtain ⟨hfinite, hvalue⟩ := F64.ofInt_floor hmu
  exact ⟨F64.floor_mul_le mu, F64.lt_floor_add_one_mul mu, hfinite, hvalue, inUnit_reduceMu hmu⟩

end Sys2Proof.Proofs
end

section
/-!
COSTAS, step by step: where a checked iteration's accesses fall, what the iteration and the completion answer, and the range of the
wrapped phase (42_costas.md R192 to R202).
-/
namespace Sys2Proof.F64

/-! ### Comparisons, by the value -/

theorem lt_eq_false_of_le {x y : F64} (h : le x y = true) : lt y x = false := by
  rw [le_eq_toInt, decide_eq_true_iff] at h
  rw [lt_eq_toInt, decide_eq_false_iff_not]
  exact fun hlt => hlt.2.not_ge h.2

theorem ge_eq_false_of_lt {x y : F64} (h : lt x y = true) : ge x y = false := by
  rw [lt_eq_toInt, decide_eq_true_iff] at h
  rw [ge_eq_toInt, decide_eq_false_iff_not]
  exact fun hge => hge.2.not_gt h.2

theorem lt_trans_le {x y z : F64} (hxy : lt x y = true) (hyz : le y z = true) : lt x z = true := by
  rw [lt_eq_toInt, decide_eq_true_iff] at hxy ⊢
  rw [le_eq_toInt, decide_eq_true_iff] at hyz
  exact ⟨⟨hxy.1.1, hyz.1.2⟩, hxy.2.trans_le hyz.2⟩

section Finite
variable {x y : F64} (hx : isFinite x = true) (hy : isFinite y = true)
include hx hy

theorem lt_iff_of_isFinite : lt x y = true ↔ toInt x < toInt y := by
  simp [lt_eq_toInt, not_isNaN_of_isFinite, hx, hy]

theorem le_iff_of_isFinite : le x y = true ↔ toInt x ≤ toInt y := by
  simp [le_eq_toInt, not_isNaN_of_isFinite, hx, hy]

theorem ge_iff_of_isFinite : ge x y = true ↔ toInt y ≤ toInt x := le_iff_of_isFinite hy hx

end Finite

theorem toInt_zero : toInt 0 = 0 := by decide

theorem isFinite_zero : isFinite 0 = true := by decide

theorem isFinite_twoPi : isFinite twoPi = true := by decide

theorem toInt_twoPi_nonneg : 0 ≤ toInt twoPi := toInt_zero ▸ toInt_le_of_le (by decide : le 0 twoPi = true)

/-! ### A sum between two finite values -/

theorem toInt_roundInt (t : Int) : toInt (roundInt t) =
    if t < 0 then -(magVal (roundMag t.natAbs 1) : Int) else magVal (roundMag t.natAbs 1) := by
  have hsign := roundMag_lt_sign t.natAbs 1
  simp only [roundInt, toInt_eq, sign_pack _ hsign, magBits_pack _ hsign, decide_eq_true_eq]

theorem roundMag_le_magBits {n : Nat} {y : F64} (h : n ≤ (toInt y).natAbs) : roundMag n 1 ≤ magBits y :=
  roundMag_le Nat.one_pos (by rwa [Nat.one_mul, ← natAbs_toInt])

theorem magVal_roundMag_le {n : Nat} {y : F64} (h : n ≤ (toInt y).natAbs) :
    magVal (roundMag n 1) ≤ (toInt y).natAbs := by
  rw [natAbs_toInt]
  exact magVal_le_iff.2 (roundMag_le_magBits h)

theorem le_magVal_roundMag {n : Nat} {y : F64} (hy : isFinite y = true) (h : (toInt y).natAbs ≤ n) :
    (toInt y).natAbs ≤ magVal (roundMag n 1) := by
  rw [natAbs_toInt] at h ⊢
  exact magVal_le_iff.2 (le_roundMag Nat.one_pos ((isFinite_iff y).1 hy).le (by rwa [Nat.one_mul]))

theorem isFinite_roundInt {t : Int} {y : F64} (hy : isFinite y = true) (h : t.natAbs ≤ (toInt y).natAbs) :
    isFinite (roundInt t) = true :=
  (isFinite_pack_iff _ (roundMag_lt_sign _ _)).2 (lt_of_le_of_lt (roundMag_le_magBits h) ((isFinite_iff y).1 hy))

/-- Rounding passes no finite value, so an integer between two of them stays finite and between them. -/
theorem roundInt_between {lo hi : F64} {t : Int} (hlo : isFinite lo = true) (hhi : isFinite hi = true) (hlow : toInt lo ≤ t)
    (hhigh : t ≤ toInt hi) :
    isFinite (roundInt t) = true ∧ toInt lo ≤ toInt (roundInt t) ∧ toInt (roundInt t) ≤ toInt hi := by
  have hloUp := le_magVal_roundMag (n := t.natAbs) hlo
  have hloDown := magVal_roundMag_le (n := t.natAbs) (y := lo)
  have hhiUp := le_magVal_roundMag (n := t.natAbs) hhi
  have hhiDown := magVal_roundMag_le (n := t.natAbs) (y := hi)
  rw [toInt_roundInt]
  by_cases ht : t < 0
  · rw [if_pos ht]
    exact ⟨isFinite_roundInt hlo (by omega), by omega, by omega⟩
  · rw [if_neg ht]
    exact ⟨isFinite_roundInt hhi (by omega), by omega, by omega⟩

/-- A sum whose exact value lies between two finite values is finite and lies between them. -/
theorem add_between {x y lo hi : F64} (hx : isFinite x = true) (hy : isFinite y = true) (hlo : isFinite lo = true)
    (hhi : isFinite hi = true) (hlow : toInt lo ≤ toInt x + toInt y) (hhigh : toInt x + toInt y ≤ toInt hi) :
    isFinite (add x y) = true ∧ toInt lo ≤ toInt (add x y) ∧ toInt (add x y) ≤ toInt hi := by
  rw [add_of_isFinite hx hy]
  split
  · next hzero =>
    have hval : toInt (pack (sign x && sign y) 0) = 0 := (toInt_eq_zero_iff _).2 (magBits_pack _ (by norm_num))
    rw [hzero] at hlow hhigh
    rw [hval]
    exact ⟨(isFinite_pack_iff _ (by norm_num)).2 (by decide), hlow, hhigh⟩
  · exact roundInt_between hlo hhi hlow hhigh

/-- A finite value of TWO_PI or more stays finite less TWO_PI. -/
theorem isFinite_sub_twoPi {p : F64} (hp : isFinite p = true) (h : ge p twoPi = true) :
    isFinite (sub p twoPi) = true := by
  have hle := (ge_iff_of_isFinite hp isFinite_twoPi).1 h
  have hpos := toInt_twoPi_nonneg
  refine (add_between hp (by rw [isFinite_neg, isFinite_twoPi]) isFinite_zero hp ?_ ?_).1
  · rw [toInt_neg, toInt_zero]
    omega
  · rw [toInt_neg]
    omega

/-- A negative finite value stays finite, and at most TWO_PI, with TWO_PI added. -/
theorem add_twoPi_le {p : F64} (hp : isFinite p = true) (h : lt p 0 = true) :
    isFinite (add p twoPi) = true ∧ toInt (add p twoPi) ≤ toInt twoPi := by
  have hneg := (lt_iff_of_isFinite hp isFinite_zero).1 h
  have hpos := toInt_twoPi_nonneg
  rw [toInt_zero] at hneg
  obtain ⟨hfinite, -, hhigh⟩ :=
    add_between hp isFinite_twoPi hp isFinite_twoPi (le_add_of_nonneg_right hpos) (by omega)
  exact ⟨hfinite, hhigh⟩

end Sys2Proof.F64

namespace Sys2Proof.Machine

/-! ### The two loops of the wrap -/

theorem wrapDown_of_not_ge (n : Nat) {p : F64} (h : F64.ge p F64.twoPi = false) : wrapDown n p = some (n, p) := by
  cases n <;> exact if_neg (Bool.eq_false_iff.1 h)

theorem wrapUp_of_not_lt (n : Nat) {p : F64} (h : F64.lt p 0 = false) : wrapUp n p = some p := by
  cases n <;> exact if_neg (Bool.eq_false_iff.1 h)

theorem wrapDown_zero_of_ge {p : F64} (h : F64.ge p F64.twoPi = true) : wrapDown 0 p = none := if_pos h

theorem wrapUp_zero_of_lt {p : F64} (h : F64.lt p 0 = true) : wrapUp 0 p = none := if_pos h

theorem wrapDown_succ_of_ge (n : Nat) {p : F64} (h : F64.ge p F64.twoPi = true) :
    wrapDown (n + 1) p = wrapDown n (F64.sub p F64.twoPi) := if_pos h

theorem wrapUp_succ_of_lt (n : Nat) {p : F64} (h : F64.lt p 0 = true) :
    wrapUp (n + 1) p = wrapUp n (F64.add p F64.twoPi) := if_pos h

/-! ### The wrap, by its phase and the steps left -/

theorem not_ge_twoPi_of_lt_zero {p : F64} (h : F64.lt p 0 = true) : F64.ge p F64.twoPi = false :=
  F64.ge_eq_false_of_lt (F64.lt_trans_le h (by decide))

/-- Below TWO_PI only the addition loop has work to do. -/
theorem wrapPhase_of_not_ge (n : Nat) {p : F64} (h : F64.ge p F64.twoPi = false) : wrapPhase n p = wrapUp n p := by
  rw [wrapPhase, wrapDown_of_not_ge n h]

theorem wrapPhase_of_inside (n : Nat) {p : F64} (hlow : F64.lt p 0 = false) (hhigh : F64.ge p F64.twoPi = false) :
    wrapPhase n p = some p := by
  rw [wrapPhase_of_not_ge n hhigh, wrapUp_of_not_lt n hlow]

theorem wrapPhase_zero_of_outside {p : F64} (h : F64.lt p 0 = true ∨ F64.ge p F64.twoPi = true) :
    wrapPhase 0 p = none := by
  rcases h with hlt | hge
  · rw [wrapPhase_of_not_ge 0 (not_ge_twoPi_of_lt_zero hlt), wrapUp_zero_of_lt hlt]
  · rw [wrapPhase, wrapDown_zero_of_ge hge]

theorem wrapPhase_succ_of_ge (n : Nat) {p : F64} (h : F64.ge p F64.twoPi = true) :
    wrapPhase (n + 1) p = wrapPhase n (F64.sub p F64.twoPi) := by
  rw [wrapPhase, wrapDown_succ_of_ge n h, wrapPhase]

/-- No subtraction follows an addition: a sum that is not negative is returned even at TWO_PI. -/
theorem wrapPhase_succ_of_lt (n : Nat) {p : F64} (h : F64.lt p 0 = true) :
    wrapPhase (n + 1) p = if F64.lt (F64.add p F64.twoPi) 0 = true then wrapPhase n (F64.add p F64.twoPi)
      else some (F64.add p F64.twoPi) := by
  rw [wrapPhase_of_not_ge (n + 1) (not_ge_twoPi_of_lt_zero h), wrapUp_succ_of_lt n h]
  split
  · next hlt => rw [wrapPhase_of_not_ge n (not_ge_twoPi_of_lt_zero hlt)]
  · next hlt => rw [wrapUp_of_not_lt n (Bool.eq_false_iff.2 hlt)]

/-- The range of a wrapped phase: finite, from 0 to TWO_PI inclusive. -/
def Wrapped (q : F64) : Prop := F64.isFinite q = true ∧ F64.le 0 q = true ∧ F64.le q F64.twoPi = true

theorem wrapped_of_not_lt {q : F64} (hq : F64.isFinite q = true) (hlow : F64.lt q 0 = false)
    (hhigh : F64.toInt q ≤ F64.toInt F64.twoPi) : Wrapped q := by
  have hlow := mt (F64.lt_iff_of_isFinite hq F64.isFinite_zero).2 (Bool.eq_false_iff.1 hlow)
  exact ⟨hq, (F64.le_iff_of_isFinite F64.isFinite_zero hq).2 (not_lt.1 hlow),
    (F64.le_iff_of_isFinite hq F64.isFinite_twoPi).2 hhigh⟩

theorem wrapped_of_inside {n : Nat} {p q : F64} (hp : F64.isFinite p = true) (hlow : F64.lt p 0 = false)
    (hhigh : F64.ge p F64.twoPi = false) (h : wrapPhase n p = some q) : Wrapped q := by
  obtain rfl : p = q := Option.some.inj ((wrapPhase_of_inside n hlow hhigh).symm.trans h)
  have hhigh := mt (F64.ge_iff_of_isFinite hp F64.isFinite_twoPi).2 (Bool.eq_false_iff.1 hhigh)
  exact wrapped_of_not_lt hp hlow (le_of_not_ge hhigh)

/-- What the wrap returns of a finite phase, by induction on the steps left: each of them leaves the phase finite, and the last
addition, of TWO_PI to a negative phase, ends at TWO_PI at most (42_costas.md R198). -/
theorem wrapped_of_wrapPhase {n : Nat} {p q : F64} (hp : F64.isFinite p = true) (h : wrapPhase n p = some q) : Wrapped q := by
  induction n generalizing p with
  | zero =>
    by_cases hout : F64.lt p 0 = true ∨ F64.ge p F64.twoPi = true
    · simp [wrapPhase_zero_of_outside hout] at h
    · simp only [not_or, Bool.not_eq_true] at hout
      exact wrapped_of_inside hp hout.1 hout.2 h
  | succ n ih =>
    cases hhigh : F64.ge p F64.twoPi with
    | true =>
      rw [wrapPhase_succ_of_ge n hhigh] at h
      exact ih (F64.isFinite_sub_twoPi hp hhigh) h
    | false =>
      cases hlow : F64.lt p 0 with
      | false => exact wrapped_of_inside hp hlow hhigh h
      | true =>
        obtain ⟨hfinite, hle⟩ := F64.add_twoPi_le hp hlow
        rw [wrapPhase_succ_of_lt n hlow] at h
        split at h
        · exact ih hfinite h
        · next hsum =>
          obtain rfl := Option.some.inj h
          exact wrapped_of_not_lt hfinite (Bool.eq_false_iff.2 hsum) hle

/-! ### An iteration -/

section Accesses
variable {i : Instr} {s : State} {e : Engine} {r : Region} {k : Nat} (hchk : Checked i s e)
include hchk

theorem Checked.loadC_eq (hr : r ∈ (planOf i e).regions) (hk : 16 * k + 16 ≤ r.size) :
    loadC s r.base k = some (sampleAt s.buf r.base k) := by
  have hin := hchk.region_inside hr (by omega)
  exact loadC_inside (by omega)

theorem Checked.storeC_eq (hr : r ∈ (planOf i e).regions) (hk : 16 * k + 16 ≤ r.size) (z : Sample) :
    storeC s r.base k z = some { s with buf := putSample s.buf r.base k z } := by
  have hin := hchk.region_inside hr (by omega)
  exact storeC_inside (by omega)

/-- Where the log is enabled its region is one of the command's; `m` is BUF after the iteration's other stores. -/
theorem Checked.storeLog_eq {on : Bool} (hr : on = true → r ∈ (planOf i e).regions) (hk : 8 * k + 8 ≤ r.size) (m : Memory)
    (x : F64) : storeLog on { s with buf := m } r.base k x = some { s with buf := putLog on m r.base k x } :=
  storeLog_inside fun hon => by
    have hin := hchk.region_inside (hr hon) (by omega)
    dsimp only
    omega

end Accesses

section Iteration
variable {s : State} {e : Engine} {l : CoLoop}

/-- A checked iteration stores the rotated sample and, where enabled, the log entry, and goes on with the check of the updates
(42_costas.md R192 to R197). -/
theorem exec_costas_iteration (hr : RunningAt .costas s e (.costas l)) (hchk : Checked .costas s e) (hi : l.i < e.count) :
    let o := l.rotated (sampleAt s.buf e.src l.i)
    let freq := coFreqNext e.cfg l.freq (coError o)
    exec .costas s = costasFinish (e.wrote 1) l.i freq (coPhaseNext e.cfg l.phase freq (coError o))
      { s with buf := putLog e.cfg.coLog (putSample s.buf e.dst l.i o) e.aux l.i (coLogEntry e.cfg freq) } := by
  intro o freq
  have hload : loadC s e.src l.i = some (sampleAt s.buf e.src l.i) :=
    hchk.loadC_eq (r := ⟨e.src, 16 * e.count, .complex, .read⟩) (by simp [planOf, costasPlan]) (by dsimp only; omega)
  have hstore : storeC s e.dst l.i o = some { s with buf := putSample s.buf e.dst l.i o } :=
    hchk.storeC_eq (r := ⟨e.dst, 16 * e.count, .complex, .write⟩) (by simp [planOf, costasPlan]) (by dsimp only; omega) o
  have hlog := hchk.storeLog_eq (r := ⟨e.aux, 8 * e.count, .real, .write⟩) (k := l.i) (on := e.cfg.coLog)
    (fun hon => by simp [planOf, costasPlan, hon]) (by dsimp only; omega) (putSample s.buf e.dst l.i o) (coLogEntry e.cfg freq)
  rw [exec_costas_running hr, if_pos hi, costasIteration, hload, orFault_some]
  exact (congrArg (orFault · _) hstore).trans (congrArg (orFault · _) hlog)

variable {i : Nat} {freq phase : F64}

/-- A frequency or phase that is not finite ends the command (R199). -/
theorem costasFinish_nonfinite (h : ¬ (F64.isFinite freq = true ∧ F64.isFinite phase = true)) :
    costasFinish e i freq phase s = .next (takeError .coNonfinite e s) :=
  if_neg (by rwa [Bool.and_eq_true])

/-- A phase that the wrap returns is the next iteration's (R198). -/
theorem costasFinish_wrapped (h : F64.isFinite freq = true ∧ F64.isFinite phase = true) {p : F64}
    (hp : wrapPhase s.params.wrapLimit phase = some p) :
    costasFinish e i freq phase s = .next (s.withEng (e.goto (.costas ⟨p, freq, i + 1⟩))) := by
  rw [costasFinish, if_pos (by rwa [Bool.and_eq_true]), hp]

/-- A phase that would take more than WRAP_LIMIT steps ends the command (R201). -/
theorem costasFinish_wrapLimit (h : F64.isFinite freq = true ∧ F64.isFinite phase = true)
    (hp : wrapPhase s.params.wrapLimit phase = none) :
    costasFinish e i freq phase s = .next (takeError .coWrap e s) := by
  rw [costasFinish, if_pos (by rwa [Bool.and_eq_true]), hp]

end Iteration

/-! ### The completion -/

theorem exec_costas_complete {s : State} {e : Engine} {l : CoLoop} (hr : RunningAt .costas s e (.costas l))
    (hstop : ¬ l.i < e.count) : exec .costas s = .next (complete (costasResults l) e s) := by
  rw [exec_costas_running hr, if_neg hstop]

/-- Past the last sample all `N` are written (R192). -/
theorem written_of_coLoopOk {e : Engine} {l : CoLoop} (h : coLoopOk e l = true) (hstop : ¬ l.i < e.count) :
    e.written = e.count := by
  simp only [coLoopOk, Bool.and_eq_true, decide_eq_true_eq, beq_iff_eq] at h
  omega

end Sys2Proof.Machine

namespace Sys2Proof.Proofs
open Sys2Proof Sys2Proof.Machine

/-- Settles O32: the iteration's stores, then whether the updates are finite and the wrap returns choose among the three answers. -/
theorem costasIteration : Obligations.CostasIteration := by
  intro s e l hr hchk hi z c sn o er freq phase on
  have hexec : exec .costas s = costasFinish (e.wrote 1) l.i freq phase _ := exec_costas_iteration hr hchk hi
  by_cases hfinite : F64.isFinite freq = true ∧ F64.isFinite phase = true
  · simp only [if_pos hfinite]
    cases hwrap : wrapPhase s.params.wrapLimit phase with
    | some p =>
      exact ⟨_, hexec.trans (costasFinish_wrapped hfinite hwrap), withEng_buf_after_store s _ _,
        sameBufOutside2_putLog_putSample (withEng_buf_after_store s _ _), stillRunning_withEng s _ _⟩
    | none =>
      exact ⟨_, hexec.trans (costasFinish_wrapLimit hfinite hwrap), takeError_buf_after_store _ _ s _,
        sameBufOutside2_putLog_putSample (takeError_buf_after_store _ _ s _), takeError_ends_after_store _ (e.wrote 1) s _⟩
  · simp only [if_neg hfinite]
    exact ⟨_, hexec.trans (costasFinish_nonfinite hfinite), takeError_buf_after_store _ _ s _,
      sameBufOutside2_putLog_putSample (takeError_buf_after_store _ _ s _), takeError_ends_after_store _ (e.wrote 1) s _⟩

/-- Settles O34: one lemma for each clause of the recursion, and `wrapped_of_wrapPhase`, an induction over it, for the range. -/
theorem wrapRange : Obligations.WrapRange :=
  ⟨fun _ _ _ hp h => wrapped_of_wrapPhase hp h,
    fun n _ hlow hhigh => wrapPhase_of_inside n (F64.lt_eq_false_of_le hlow) (F64.ge_eq_false_of_lt hhigh),
    fun _ h => wrapPhase_zero_of_outside h, fun n _ h => wrapPhase_succ_of_ge n h, fun n _ h => wrapPhase_succ_of_lt n h⟩

/-- Settles O33: the completion step writes `costasResults`, all N samples being done. -/
theorem costasCompletes : Obligations.CostasCompletes := by
  intro s e l hr hl hstop
  have hwritten : e.written = e.args.a2.toNat := written_of_coLoopOk hl hstop
  refine ⟨_, exec_costas_complete hr hstop, hwritten ▸ complete_ends (costasResults l) e s, ?_⟩
  rw [complete_results, hwritten]
  exact (BitVec.ofNat_toNat 32 _).trans (BitVec.setWidth_eq _)

end Sys2Proof.Proofs
end

section
/-!
IQCORR, step by step: the window sums of pass 1 as folds, what each iteration, the estimate step and the completion answer, and
the run with no sample (43_iq_imbalance.md R222 to R232).
-/
namespace Sys2Proof.Machine

/-! ### The window of pass 1 -/

/-- The sum of one part of the `cnt` samples from index `lo`, left to right onto `acc` (43_iq_imbalance.md R223). -/
def windowFold (part : Sample → F64) (m : Memory) (src lo cnt : Nat) (acc : F64) : F64 :=
  (List.range' lo cnt).foldl (fun acc j => F64.add acc (part (sampleAt m src j))) acc

theorem windowFold_succ (part : Sample → F64) (m : Memory) (src lo cnt : Nat) (acc : F64) :
    windowFold part m src lo (cnt + 1) acc =
      windowFold part m src (lo + 1) cnt (F64.add acc (part (sampleAt m src lo))) := rfl

/-- Where every load of the window succeeds, its two sums are the folds. -/
theorem windowSums_eq_folds {s : State} {src : Nat} (cnt lo : Nat) (sI sQ : F64)
    (hload : ∀ j, j < lo + cnt → loadC s src j = some (sampleAt s.buf src j)) :
    windowSums s src cnt lo sI sQ =
      some (windowFold Sample.re s.buf src lo cnt sI, windowFold Sample.im s.buf src lo cnt sQ) := by
  induction cnt generalizing lo sI sQ with
  | zero => rfl
  | succ cnt ih =>
    rw [windowSums, hload lo (by omega), windowFold_succ, windowFold_succ]
    exact ih (lo + 1) _ _ fun j hj => hload j (by omega)

/-- The window of a sample of the sequence holds at least that sample. -/
theorem windowCount_eq {n p k : Nat} (hk : k < n) : windowCount n p k = windowHi n p k - windowLo p k + 1 := by
  simp only [windowCount, windowHi, windowLo]
  omega

/-- The window is cut to the sequence. -/
theorem window_inside {n p k : Nat} (hk : k < n) : windowLo p k + windowCount n p k ≤ n := by
  simp only [windowCount, windowHi, windowLo]
  omega

/-- Sample `k` less the means of its window (R223, R224). -/
def meansRemoved (m : Memory) (src n p k : Nat) : Sample :=
  let lo := windowLo p k
  let cnt := windowCount n p k
  ⟨F64.sub (sampleAt m src k).re (F64.div (windowFold Sample.re m src lo cnt 0) (F64.ofInt cnt)),
    F64.sub (sampleAt m src k).im (F64.div (windowFold Sample.im m src lo cnt 0) (F64.ofInt cnt))⟩

theorem biasRemoved_eq_some {s : State} {src n p k : Nat} (hk : k < n)
    (hload : ∀ j, j < n → loadC s src j = some (sampleAt s.buf src j)) :
    biasRemoved s src n p k = some (meansRemoved s.buf src n p k) := by
  have hsums := windowSums_eq_folds (windowCount n p k) (windowLo p k) 0 0
    fun j hj => hload j (hj.trans_le (window_inside hk))
  rw [biasRemoved, hload k hk, hsums]
  rfl

/-! ### A step of either pass -/

section Steps
variable {s : State} {e : Engine} {l : IqLoop}

theorem exec_iqcorr_estimating (hr : RunningAt .iqcorr s e (.iqcorr l)) (hst : l.stage = .estimate) :
    exec .iqcorr s = if l.k < e.count then iqEstimateIteration e l s else iqEstimate e l s := by
  rw [exec_iqcorr_running hr, hst]

theorem exec_iqcorr_correcting (hr : RunningAt .iqcorr s e (.iqcorr l)) (hst : l.stage = .correct) :
    exec .iqcorr s = if l.k < e.count then iqCorrectIteration e l s else .next (complete (iqcorrResults l) e s) := by
  rw [exec_iqcorr_running hr, hst]

theorem loadC_of_checked_iqcorr {k : Nat} (hchk : Checked .iqcorr s e) (hk : k < e.count) :
    loadC s e.src k = some (sampleAt s.buf e.src k) :=
  hchk.loadC_eq (r := ⟨e.src, 16 * e.count, .complex, .read⟩) (by simp [planOf, iqcorrPlan]) (by dsimp only; omega)

theorem storeC_of_checked_iqcorr {k : Nat} (hchk : Checked .iqcorr s e) (hk : k < e.count) (z : Sample) :
    storeC s e.dst k z = some { s with buf := putSample s.buf e.dst k z } :=
  hchk.storeC_eq (r := ⟨e.dst, 16 * e.count, .complex, .write⟩) (by simp [planOf, iqcorrPlan]) (by dsimp only; omega) z

/-- A checked iteration of pass 1 takes the bias-removed sample into the sums and the sequence (R224 to R226). -/
theorem exec_iqcorr_pass1 (hr : RunningAt .iqcorr s e (.iqcorr l)) (hchk : Checked .iqcorr s e) (hst : l.stage = .estimate)
    (hk : l.k < e.count) :
    let x := meansRemoved s.buf e.src e.count e.scalar l.k
    exec .iqcorr s = .next (s.withEng (e.goto (.iqcorr { l with
      k := l.k + 1
      prime := l.prime ++ [x]
      s2 := F64.add l.s2 (F64.mul x.re x.re)
      sIQ := F64.add l.sIQ (F64.mul x.re x.im) }))) := by
  have hbias : biasRemoved s e.src e.count e.scalar l.k = _ :=
    biasRemoved_eq_some hk fun j hj => loadC_of_checked_iqcorr hchk hj
  rw [exec_iqcorr_estimating hr hst, if_pos hk, iqEstimateIteration, hbias, orFault_some]

/-- SRC_SEL chooses the sample that pass 2 works on (R229). -/
theorem iqSource_eq {x : Sample} (hload : loadC s e.src l.k = some (sampleAt s.buf e.src l.k))
    (hx : if e.cfg.srcSel then l.prime[l.k]? = some x else x = sampleAt s.buf e.src l.k) (f : Sample → Out) :
    iqSource e l s f = f x := by
  unfold iqSource
  cases hsel : e.cfg.srcSel with
  | true =>
    rw [hsel, if_pos rfl] at hx
    rw [if_pos rfl, hx]
  | false =>
    rw [hsel, if_neg Bool.false_ne_true] at hx
    rw [if_neg Bool.false_ne_true, hload, orFault_some, hx]

/-- A checked iteration of pass 2 stores the corrected sample and counts it (R229, R230). -/
theorem exec_iqcorr_pass2 (hr : RunningAt .iqcorr s e (.iqcorr l)) (hchk : Checked .iqcorr s e) (hst : l.stage = .correct)
    (hk : l.k < e.count) {x : Sample}
    (hx : if e.cfg.srcSel then l.prime[l.k]? = some x else x = sampleAt s.buf e.src l.k) :
    exec .iqcorr s = .next (State.withEng { s with buf := putSample s.buf e.dst l.k (iqCorrected l x) }
      ((e.wrote 1).goto (.iqcorr { l with k := l.k + 1 }))) := by
  rw [exec_iqcorr_correcting hr hst, if_pos hk, iqCorrectIteration, iqSource_eq (loadC_of_checked_iqcorr hchk hk) hx,
    storeC_of_checked_iqcorr hchk hk, orFault_some]

end Steps

/-! ### The estimate step -/

theorem exec_iqcorr_estimate {s : State} {e : Engine} {l : IqLoop} (hr : RunningAt .iqcorr s e (.iqcorr l))
    (hst : l.stage = .estimate) (hend : ¬ l.k < e.count) : exec .iqcorr s = iqEstimate e l s :=
  (exec_iqcorr_estimating hr hst).trans (if_neg hend)

/-- The checks of the estimate step in the order of 60_exceptions.md R403(4), the two that follow the range of the sine as one. -/
theorem iqEstimate_eq_checks (e : Engine) (l : IqLoop) (s : State) :
    let a := iqAmplitude e.count l.s2
    let sinPsi := iqSinPsi e.count a l.sIQ
    let cosPsi := iqCosPsi sinPsi
    let c1 := iqC1 a sinPsi cosPsi
    let c2 := iqC2 cosPsi
    iqEstimate e l s =
      if F64.eq a 0 = true ∨ F64.isFinite a = false then .next (takeError .iqDegenerate e s)
      else if F64.isFinite sinPsi = false then .next (takeError .iqDegenerate e s)
      else if F64.gt (F64.abs sinPsi) F64.one = true then .next (takeError .iqRange e s)
      else if F64.eq cosPsi 0 = true ∨ F64.isFinite c1 = false ∨ F64.isFinite c2 = false then
        .next (takeError .iqDegenerate e s)
      else .next (s.withEng (e.goto (.iqcorr
        { l with stage := .correct, k := 0, a := a, sinPsi := sinPsi, cosPsi := cosPsi, c1 := c1, c2 := c2 }))) := by
  simp only [iqEstimate, Bool.or_eq_true, Bool.not_eq_true', Bool.and_eq_false_iff, ite_or]

/-! ### The completion -/

theorem exec_iqcorr_complete {s : State} {e : Engine} {l : IqLoop} (hr : RunningAt .iqcorr s e (.iqcorr l))
    (hst : l.stage = .correct) (hend : ¬ l.k < e.count) : exec .iqcorr s = .next (complete (iqcorrResults l) e s) :=
  (exec_iqcorr_correcting hr hst).trans (if_neg hend)

/-- Past the last sample of pass 2 all `N` are written (R231). -/
theorem written_of_iqLoopOk {e : Engine} {l : IqLoop} (h : iqLoopOk e l = true) (hst : l.stage = .correct)
    (hend : ¬ l.k < e.count) : e.written = e.count := by
  simp only [iqLoopOk, hst, Bool.and_eq_true, decide_eq_true_eq, beq_iff_eq] at h
  omega

/-! ### No sample -/

/-- The engine's step of a command in flight, with nothing on the agenda, is the command's meaning. -/
theorem step_inFlight {i : Instr} {s : State} {e : Engine} (hi : i.port = .cmd) (hr : s.resetAsserted = false)
    (ha : s.agenda = []) (hf : InFlight i s e) : step s = exec i s :=
  (Proofs.stepRunsDecodedInstruction.2.1 i s e hr hf.1 (hf.2 ▸ decodeCmd_encode hi)).1 ha

/-- With N = 0 both regions are empty, so no check fails (40_command.md R134 to R136). -/
theorem checked_iqcorr_empty (s : State) {e : Engine} (hn : e.count = 0) : Checked .iqcorr s e := by
  simp [Checked, planOf, iqcorrPlan, CheckPlan.firstError, anyClash, Region.misaligned, Region.outOfRange, Region.clash,
    Region.overlaps, hn]

theorem exec_iqcorr_check_empty {s : State} {e : Engine} (hf : InFlight .iqcorr s e) (hp : e.progress = .check)
    (hn : e.count = 0) : exec .iqcorr s = .next (s.withEng (e.goto (.iqcorr (IqLoop.initial 0)))) := by
  have hchk : (planOf .iqcorr e).firstError s.params.bufBytes = none := checked_iqcorr_empty s hn
  rw [exec_check rfl hf hp, checkStep, hchk, startOf, hn]

/-- The check step and the completion step (43_iq_imbalance.md R232). -/
theorem run_iqcorr_empty {s : State} {e : Engine} (hf : InFlight .iqcorr s e) (hp : e.progress = .check)
    (hab : e.abortReq = false) (hn : e.count = 0) (hr : s.resetAsserted = false) (ha : s.agenda = []) :
    let e' := e.goto (.iqcorr (IqLoop.initial 0))
    core.run 2 s = .next (complete id e' (s.withEng e')) := by
  intro e'
  have hrun : RunningAt .iqcorr (s.withEng e') e' (.iqcorr (IqLoop.initial 0)) := ⟨⟨rfl, hf.2⟩, rfl, hab⟩
  have hcheck : step s = .next (s.withEng e') := (step_inFlight rfl hr ha hf).trans (exec_iqcorr_check_empty hf hp hn)
  have hend : step (s.withEng e') = .next (complete id e' (s.withEng e')) :=
    (step_inFlight (s := s.withEng e') rfl hr ha hrun.1).trans (exec_iqcorr_running hrun)
  exact (run_succ hcheck 1).trans (run_succ hend 0)

end Sys2Proof.Machine

namespace Sys2Proof.Proofs
open Sys2Proof Sys2Proof.Machine

/-- Settles O35: the model's window is the statement's, its count and its lower end written differently. -/
theorem iqPass1 : Obligations.IqPass1 := by
  intro s e l hr hchk hst hk N P x lo hi cnt
  have hexec := exec_iqcorr_pass1 hr hchk hst hk
  have hlo : windowLo e.scalar l.k = lo := (Nat.zero_max _).symm
  have hcnt : windowCount e.count e.scalar l.k = cnt := by
    rw [windowCount_eq (n := e.count) hk, hlo]
    rfl
  rw [meansRemoved, hlo, hcnt] at hexec
  exact hexec

/-- Settles O36: the statement's chain of tests is that of `iqEstimate_eq_checks`. -/
theorem iqEstimate : Obligations.IqEstimate := by
  intro s e l hr hst hend n a sinPsi cosPsi c1 c2 degenerate
  have hexec := (exec_iqcorr_estimate hr hst hend).trans (iqEstimate_eq_checks e l s)
  have hfails {c : ErrCode} (h : exec .iqcorr s = .next (takeError c e s)) :
      ∃ t, exec .iqcorr s = .next t ∧ EndsInError c e.written s t ∧ SameBuf s t :=
    ⟨_, h, takeError_ends c e s, fun _ => rfl⟩
  split_ifs with hamplitude hsine hrange hcosine
  · exact hfails (hexec.trans (if_pos hamplitude))
  · exact hfails (hexec.trans ((if_neg hamplitude).trans (if_pos hsine)))
  · exact hfails (hexec.trans ((if_neg hamplitude).trans ((if_neg hsine).trans (if_pos hrange))))
  · exact hfails (hexec.trans ((if_neg hamplitude).trans ((if_neg hsine).trans ((if_neg hrange).trans (if_pos hcosine)))))
  · exact hexec.trans ((if_neg hamplitude).trans ((if_neg hsine).trans ((if_neg hrange).trans (if_neg hcosine))))

/-- Settles O37: `exec_iqcorr_pass2` for either source, and what a stored sample leaves. -/
theorem iqPass2 : Obligations.IqPass2 := by
  intro s e l hr hchk hst _ hk x hx
  exact ⟨_, exec_iqcorr_pass2 hr hchk hst hk hx, stillRunning_withEng s _ _, withEng_buf_after_store s _ _,
    sameBufOutside_putSample (withEng_buf_after_store s _ _)⟩

/-- Settles O38: the completion step after pass 2 writes `iqcorrResults`; with no sample the check step starts at the end. -/
theorem iqCompletes : Obligations.IqCompletes := by
  refine ⟨fun s e l hr hst hl hend => ?_, fun s e hf hp hab hw hn hr ha => ?_⟩
  · have hwritten : e.written = e.args.a2.toNat := written_of_iqLoopOk hl hst hend
    exact ⟨_, exec_iqcorr_complete hr hst hend, hwritten ▸ complete_ends (iqcorrResults l) e s⟩
  · have hends := complete_ends id (e.goto (.iqcorr (IqLoop.initial 0))) (s.withEng (e.goto (.iqcorr (IqLoop.initial 0))))
    rw [Engine.goto_written, hw] at hends
    exact ⟨_, run_iqcorr_empty hf hp hab (e.count_eq_zero_iff.2 hn) hr ha, hends⟩

end Sys2Proof.Proofs
end

section
/-!
FSYNC from the lag loop on, step by step: the lag sum as a fold over its terms inside the samples, the peak scan with the invariant
it keeps, the window, the two copies and the completions (44_preamble_correlator.md R252, R255, R257 to R262).
-/
namespace Sys2Proof.F64

/-! ### The order of the comparisons -/

theorem gt_self (x : F64) : gt x x = false := by simp [gt_eq_toInt]

theorem gt_eq_false_of_lt {x y : F64} (h : lt x y = true) : gt x y = false := by
  rw [lt_eq_toInt, decide_eq_true_iff] at h
  rw [gt_eq_toInt, decide_eq_false_iff_not]
  exact fun hgt => hgt.2.not_gt h.2

/-- A NaN in place of `x` would satisfy `hxy` and not the conclusion (00_scope.md R13). -/
theorem lt_of_gt_eq_false_of_lt {x y z : F64} (hx : isNaN x = false) (hxy : gt x y = false) (hyz : lt y z = true) :
    lt x z = true := by
  rw [lt_eq_toInt, decide_eq_true_iff] at hyz ⊢
  rw [gt_eq_toInt, decide_eq_false_iff_not] at hxy
  obtain ⟨⟨hy, hz⟩, hlt⟩ := hyz
  have hle : toInt x ≤ toInt y := not_lt.1 fun hgt => hxy ⟨⟨hx, hy⟩, hgt⟩
  exact ⟨⟨hx, hz⟩, hle.trans_lt hlt⟩

end Sys2Proof.F64

namespace Sys2Proof.Machine

/-! ### The lag sum -/

/-- The terms of a lag sum are those inside the samples, in increasing index (R257). -/
theorem lagSum_eq_foldl (v : List F64) (p : Nat → F64) (len k left i : Nat) (acc : F64) :
    lagSum v p len k left i acc =
      ((List.range' i left).filter fun j => len ≤ k + 1 + j ∧ k + 1 + j - len < v.length).foldl
        (fun acc j => F64.add acc (F64.mul (v.getD (k + 1 + j - len) 0) (p j))) acc := by
  induction left generalizing i acc with
  | zero => rfl
  | succ left ih =>
    rw [lagSum, ih, List.range'_succ, List.filter_cons]
    by_cases hlow : len ≤ k + 1 + i
    · by_cases hhigh : k + 1 + i - len < v.length
      · simp [hlow, hhigh]
      · simp [hlow, hhigh]
    · simp [hlow]

/-! ### The lag with the greatest sum -/

/-- Of the first `n` sums, `pk` at `idx` is the first of the greatest (R258). -/
structure FirstMax (sums : List F64) (n idx : Nat) (pk : F64) : Prop where
  atIdx : sums[idx]? = some pk
  noneGreater : ∀ (k : Nat) (x : F64), k < n → sums[k]? = some x → F64.gt x pk = false
  earlierLess : ∀ (k : Nat) (x : F64), k < idx → sums[k]? = some x → F64.lt x pk = true

section FirstMax
variable {sums : List F64} {n idx : Nat} {pk x : F64}

theorem firstMax_head (hx : sums[0]? = some x) : FirstMax sums 1 0 x where
  atIdx := hx
  noneGreater k y hk hy := by
    obtain rfl : k = 0 := by omega
    obtain rfl : x = y := Option.some.inj (hx.symm.trans hy)
    exact F64.gt_self x
  earlierLess k _ hk _ := absurd hk k.not_lt_zero

/-- A sum that is not greater leaves the peak where it is. -/
theorem FirstMax.keep (h : FirstMax sums n idx pk) (hx : sums[n]? = some x) (hgt : F64.gt x pk = false) :
    FirstMax sums (n + 1) idx pk where
  atIdx := h.atIdx
  noneGreater k y hk hy := by
    rcases Nat.lt_succ_iff_lt_or_eq.1 hk with hlt | rfl
    · exact h.noneGreater k y hlt hy
    · obtain rfl : x = y := Option.some.inj (hx.symm.trans hy)
      exact hgt
  earlierLess := h.earlierLess

/-- A greater sum exceeds every sum before it, so it is the peak of all up to its own. -/
theorem FirstMax.replace (h : FirstMax sums n idx pk) (hnan : ∀ y ∈ sums, F64.isNaN y = false) (hx : sums[n]? = some x)
    (hgt : F64.gt x pk = true) : FirstMax sums (n + 1) n x := by
  have hless : ∀ (k : Nat) (y : F64), k < n → sums[k]? = some y → F64.lt y x = true := fun k y hk hy =>
    F64.lt_of_gt_eq_false_of_lt (hnan y (List.mem_of_getElem? hy)) (h.noneGreater k y hk hy) hgt
  refine ⟨hx, fun k y hk hy => ?_, hless⟩
  rcases Nat.lt_succ_iff_lt_or_eq.1 hk with hlt | rfl
  · exact F64.gt_eq_false_of_lt (hless k y hlt hy)
  · obtain rfl : x = y := Option.some.inj (hx.symm.trans hy)
    exact F64.gt_self x

end FirstMax

/-! ### A step of each stage -/

section Steps
variable {s : State} {e : Engine} {l : FsLoop}

theorem exec_fsync_lag (hr : RunningAt .fsync s e (.fsync l)) (hst : l.stage = .lags) (hi : l.i < lagCount e) :
    exec .fsync s = fsLag e l s := by
  simp only [exec_fsync_running hr, fsyncStep, hst, if_pos hi]

/-- After the last lag the scan starts from the first sum (R258). -/
theorem exec_fsync_scanStart (hr : RunningAt .fsync s e (.fsync l)) (hst : l.stage = .lags) (hi : ¬ l.i < lagCount e)
    {c0 : F64} (hc : l.c[0]? = some c0) :
    exec .fsync s = fsGoto e { l with stage := .scan, i := 1, idx := 0, peak := c0 } s := by
  simp only [exec_fsync_running hr, fsyncStep, hst, if_neg hi, fsScanStart, hc]

theorem exec_fsync_scan (hr : RunningAt .fsync s e (.fsync l)) (hst : l.stage = .scan) (hi : l.i < lagCount e)
    {ck : F64} (hc : l.c[l.i]? = some ck) :
    exec .fsync s =
      if F64.gt ck l.peak = true then fsGoto e { l with i := l.i + 1, idx := l.i, peak := ck } s
      else fsGoto e { l with i := l.i + 1 } s := by
  simp only [exec_fsync_running hr, fsyncStep, hst, if_pos hi, fsScan, hc]

theorem exec_fsync_window (hr : RunningAt .fsync s e (.fsync l)) (hst : l.stage = .scan) (hi : ¬ l.i < lagCount e) :
    exec .fsync s = fsWindowStep e l s := by
  simp only [exec_fsync_running hr, fsyncStep, hst, if_neg hi]

theorem exec_fsync_payCount (hr : RunningAt .fsync s e (.fsync l)) (hst : l.stage = .copyFull) (hi : ¬ l.i < l.full) :
    exec .fsync s = fsPayStep e l s := by
  simp only [exec_fsync_running hr, fsyncStep, hst, if_neg hi]

theorem exec_fsync_complete (hr : RunningAt .fsync s e (.fsync l)) (hst : l.stage = .copyPay) (hi : ¬ l.i < l.pay) :
    exec .fsync s = .next (complete (fsyncResults l) e s) := by
  simp only [exec_fsync_running hr, fsyncStep, hst, if_neg hi]

theorem exec_fsync_degenerate (hr : RunningAt .fsync s e (.fsync l)) (hst : l.stage = .degenerate) :
    exec .fsync s = .next (complete fsyncDegenerate e s) := by
  simp only [exec_fsync_running hr, fsyncStep, hst]

/-- A checked iteration of the window copy reads inside the source and writes inside the destination (R259). -/
theorem exec_fsync_copyFull (hr : RunningAt .fsync s e (.fsync l)) (hchk : Checked .fsync s e) (hl : fsLoopOk e l = true)
    (hst : l.stage = .copyFull) (hi : l.i < l.full) :
    exec .fsync s = .next (State.withEng { s with buf := putSample s.buf e.dst l.i (sampleAt s.buf e.src (l.start + l.i)) }
      ((e.wrote 1).goto (.fsync { l with i := l.i + 1 }))) := by
  simp only [fsLoopOk, hst, Bool.and_eq_true, decide_eq_true_eq, beq_iff_eq] at hl
  obtain ⟨⟨⟨⟨⟨-, -⟩, hin⟩, hsize⟩, -⟩, -⟩ := hl
  have hload : loadC s e.src (l.start + l.i) = some (sampleAt s.buf e.src (l.start + l.i)) :=
    loadC_of_checked_fsync hchk (by omega)
  have hstore := hchk.storeC_eq (r := ⟨e.dst, 16 * (e.cfg.preLen + e.scalar), .complex, .write⟩) (k := l.i)
    (by simp [planOf, fsyncPlan]) (by dsimp only; omega) (sampleAt s.buf e.src (l.start + l.i))
  simp only [exec_fsync_running hr, fsyncStep, hst, if_pos hi, fsCopyFull, hload, orFault_some, hstore, fsGoto]

/-- A checked iteration of the payload copy does so in the payload region, and counts nothing (R260; 40_command.md R141). -/
theorem exec_fsync_copyPay (hr : RunningAt .fsync s e (.fsync l)) (hchk : Checked .fsync s e) (hl : fsLoopOk e l = true)
    (hst : l.stage = .copyPay) (hi : l.i < l.pay) :
    let x := sampleAt s.buf e.src (l.start + e.cfg.preLen + l.i)
    exec .fsync s = .next (State.withEng { s with buf := putSample s.buf e.aux l.i x }
      (e.goto (.fsync { l with i := l.i + 1 }))) := by
  intro x
  simp only [fsLoopOk, hst, Bool.and_eq_true, decide_eq_true_eq, beq_iff_eq] at hl
  obtain ⟨⟨⟨⟨⟨⟨-, -⟩, hin⟩, hsize⟩, -⟩, hpay⟩, -⟩ := hl
  have hload : loadC s e.src (l.start + e.cfg.preLen + l.i) = some x := loadC_of_checked_fsync hchk (by omega)
  have hstore := hchk.storeC_eq (r := ⟨e.aux, 16 * e.scalar, .complex, .write⟩) (k := l.i)
    (by simp [planOf, fsyncPlan]) (by dsimp only; omega) x
  simp only [exec_fsync_running hr, fsyncStep, hst, if_pos hi, fsCopyPay, hload, orFault_some, hstore, fsGoto]

end Steps

/-! ### What the loop state gives at its last steps -/

theorem length_v_of_lags {e : Engine} {l : FsLoop} (h : fsLoopOk e l = true) (hst : l.stage = .lags) :
    l.v.length = e.count := by
  simp only [fsLoopOk, hst, Bool.and_eq_true, decide_eq_true_eq, beq_iff_eq] at h
  obtain ⟨⟨-, hv⟩, -⟩ := h.1
  exact hv

theorem count_pos_and_length_c_of_lags {e : Engine} {l : FsLoop} (h : fsLoopOk e l = true) (hst : l.stage = .lags) :
    0 < e.count ∧ l.c.length = l.i := by
  simp only [fsLoopOk, hst, Bool.and_eq_true, decide_eq_true_eq, beq_iff_eq] at h
  omega

/-- Every sample of the window is counted when the payload copy begins (R261). -/
theorem written_of_copyPay {e : Engine} {l : FsLoop} (h : fsLoopOk e l = true) (hst : l.stage = .copyPay) :
    e.written = l.full := by
  simp only [fsLoopOk, hst, Bool.and_eq_true, decide_eq_true_eq, beq_iff_eq] at h
  exact h.2

theorem written_of_degenerate {e : Engine} {l : FsLoop} (h : fsLoopOk e l = true) (hst : l.stage = .degenerate) :
    e.written = 0 := by
  simpa only [fsLoopOk, hst, beq_iff_eq] using h

/-! ### The run of the peak scan -/

section Scan
variable {s : State} {e : Engine} (hf : InFlight .fsync s e) (hab : e.abortReq = false) (hr : s.resetAsserted = false)
  (ha : s.agenda = [])
include hf hab hr ha

/-- A step of the scan takes one more sum into the maximum and leaves the rest of the loop state (R258). -/
theorem step_scan {l : FsLoop} (hst : l.stage = .scan) (hi : l.i < lagCount e) (hc : l.c.length = lagCount e)
    (hnan : ∀ x ∈ l.c, F64.isNaN x = false) (hmax : FirstMax l.c l.i l.idx l.peak) :
    ∃ (idx : Nat) (pk : F64), FirstMax l.c (l.i + 1) idx pk ∧
      step (s.withEng (e.goto (.fsync l))) =
        .next (s.withEng (e.goto (.fsync { l with i := l.i + 1, idx := idx, peak := pk }))) := by
  obtain ⟨x, hx⟩ : ∃ x, l.c[l.i]? = some x := ⟨_, List.getElem?_eq_getElem (by omega)⟩
  have hrun : RunningAt .fsync (s.withEng (e.goto (.fsync l))) (e.goto (.fsync l)) (.fsync l) := ⟨⟨rfl, hf.2⟩, rfl, hab⟩
  have hstep := (step_inFlight (s := s.withEng (e.goto (.fsync l))) rfl hr ha hrun.1).trans
    (exec_fsync_scan hrun hst hi hx)
  cases hgt : F64.gt x l.peak with
  | true => exact ⟨l.i, x, hmax.replace hnan hx hgt, hstep.trans (if_pos hgt)⟩
  | false => exact ⟨l.idx, l.peak, hmax.keep hx hgt, hstep.trans (if_neg (Bool.eq_false_iff.1 hgt))⟩

/-- The scan to its end, by induction on the sums left. -/
theorem run_scan (n : Nat) {l : FsLoop} (hst : l.stage = .scan) (hi : l.i + n = lagCount e) (hc : l.c.length = lagCount e)
    (hnan : ∀ x ∈ l.c, F64.isNaN x = false) (hmax : FirstMax l.c l.i l.idx l.peak) :
    ∃ (idx : Nat) (pk : F64), FirstMax l.c (lagCount e) idx pk ∧
      core.run n (s.withEng (e.goto (.fsync l))) =
        .next (s.withEng (e.goto (.fsync { l with i := lagCount e, idx := idx, peak := pk }))) := by
  induction n generalizing l with
  | zero =>
    have hdone : l.i = lagCount e := hi
    exact ⟨l.idx, l.peak, hdone ▸ hmax, hdone ▸ rfl⟩
  | succ n ih =>
    obtain ⟨idx, pk, hmax', hstep⟩ := step_scan hf hab hr ha hst (by omega) hc hnan hmax
    obtain ⟨idx', pk', hlast, hrun⟩ := ih (l := { l with i := l.i + 1, idx := idx, peak := pk }) hst (by dsimp only; omega)
      hc hnan hmax'
    exact ⟨idx', pk', hlast, (run_succ hstep n).trans hrun⟩

end Scan
end Sys2Proof.Machine

namespace Sys2Proof.Proofs
open Sys2Proof Sys2Proof.Machine

/-- Settles O41: the first step takes the first sum for the peak, and each of the others keeps `FirstMax`. -/
theorem fsyncPeakIsFirstMaximum : Obligations.FsyncPeakIsFirstMaximum := by
  intro s e l hr hchk hst hl hi hnan hreset hagenda
  obtain ⟨hcount, hc⟩ := count_pos_and_length_c_of_lags hl hst
  rw [hi] at hc
  obtain ⟨n, hn⟩ : ∃ n, lagCount e = 1 + n := ⟨lagCount e - 1, by
    have hpre := preLen_pos_of_checked hchk
    simp only [lagCount]
    omega⟩
  obtain ⟨c0, hc0⟩ : ∃ c0, l.c[0]? = some c0 := ⟨_, List.getElem?_eq_getElem (by omega)⟩
  have hstart := (step_inFlight rfl hreset hagenda hr.1).trans (exec_fsync_scanStart hr hst (by omega) hc0)
  obtain ⟨idx, pk, hmax, hscan⟩ := run_scan hr.1 hr.2.2 hreset hagenda n
    (l := { l with stage := .scan, i := 1, idx := 0, peak := c0 }) rfl hn.symm hc hnan (firstMax_head hc0)
  have hrun := (run_succ hstart n).trans hscan
  rw [Nat.add_comm, ← hn] at hrun
  exact ⟨_, { l with stage := .scan, i := lagCount e, idx := idx, peak := pk }, pk, hrun, rfl, rfl, hmax.atIdx,
    fun k x hx => hmax.noneGreater k x (hc ▸ (List.getElem?_eq_some_iff.1 hx).1) hx, hmax.earlierLess⟩

/-- Settles O40: the model's lag sum is the statement's fold, with as many rescaled values as samples. -/
theorem fsyncLagSum : Obligations.FsyncLagSum := by
  intro s e l hr hst hl N L p hi
  have hlen : e.cfg.preLen = L := e.cfg.preLen_eq
  have hv : l.v.length = N := length_v_of_lags hl hst
  have hp : e.cfg.coefficient = p := rfl
  have hsum := lagSum_eq_foldl l.v p L l.i L 0 0
  rw [← List.range_eq_range', hv] at hsum
  have hexec : exec .fsync s = fsLag e l s := exec_fsync_lag hr hst (by rwa [lagCount, hlen])
  rw [fsLag, correlation, hp, hlen, hsum] at hexec
  exact hexec

/-- Settles O42, one stage of the loop state at a time. -/
theorem fsyncExtract : Obligations.FsyncExtract := by
  intro s e l hr hchk hl N M L goes start stop
  have hlen : e.cfg.preLen = L := e.cfg.preLen_eq
  have hend (hi : l.i = N + L - 1) : ¬ l.i < lagCount e := by
    rw [lagCount, hlen]
    exact hi.not_lt
  refine ⟨fun hst hi hstart => ?_, fun hst hi hstart => ?_, fun hst hi => ?_, fun hst hi => ?_, fun hst hi => ?_,
    fun hst hi => ?_, fun hst => ?_⟩
  · have hexec := exec_fsync_window hr hst (hend hi)
    have hcut : l.idx + 1 < L := by omega
    rw [fsWindowStep, fsWindow, hlen, if_pos hcut] at hexec
    exact hexec
  · have hexec := exec_fsync_window hr hst (hend hi)
    have hwhole : ¬ l.idx + 1 < L := by omega
    have hfrom : l.idx + 1 - L = start.toNat := by omega
    rw [fsWindowStep, fsWindow, hlen, if_neg hwhole, hfrom] at hexec
    exact hexec
  · exact ⟨_, exec_fsync_copyFull hr hchk hl hst hi, stillRunning_withEng s _ _, withEng_buf_after_store s _ _,
      sameBufOutside_putSample (withEng_buf_after_store s _ _)⟩
  · have hexec := exec_fsync_payCount hr hst hi
    rw [fsPayStep, hlen] at hexec
    exact hexec
  · have hexec := exec_fsync_copyPay hr hchk hl hst hi
    rw [hlen] at hexec
    exact ⟨_, hexec, stillRunning_withEng s _ _, withEng_buf_after_store s _ _,
      sameBufOutside_putSample (withEng_buf_after_store s _ _)⟩
  · have hinfo : fsInfoWord l.short false = if l.short then 0x00000001 else 0x00000000 := by cases l.short <;> decide
    have hends := complete_ends (fsyncResults l) e s
    rw [fsyncResults, hinfo, written_of_copyPay hl hst] at hends
    exact ⟨_, exec_fsync_complete hr hst hi, hends⟩
  · have hends := complete_ends fsyncDegenerate e s
    rw [written_of_degenerate hl hst] at hends
    exact ⟨_, exec_fsync_degenerate hr hst, hends⟩

end Sys2Proof.Proofs
end

section
/-!
DEMAP, step by step: the decision of a symbol as the first of the closest reference points, the stores of its bits, and what the
iteration and the completion answer (45_demapper.md R282 to R292).
-/
namespace Sys2Proof.F64

/-! ### Sums and squares that are no NaN -/

/-- Only two infinities of opposite signs make a NaN of two operands that are none (00_scope.md R11). -/
theorem not_isNaN_add {x y : F64} (hx : isNaN x = false) (hy : isNaN y = false)
    (hinf : isInf x = true → isInf y = true → sign x = sign y) : isNaN (add x y) = false := by
  rw [add, hx, hy, if_neg (by decide)]
  cases hxInf : isInf x with
  | true =>
    cases hyInf : isInf y with
    | true => simpa [hinf hxInf hyInf] using hx
    | false => simpa using hx
  | false =>
    cases hyInf : isInf y with
    | true => simpa using hy
    | false =>
      simp only [Bool.false_eq_true, if_false]
      split
      · exact not_isNaN_pack _ (Nat.zero_le _)
      · exact not_isNaN_pack _ (roundMag_le_inf _ _)

theorem not_isNaN_sub_of_isFinite {x y : F64} (hx : isFinite x = true) (hy : isNaN y = false) : isNaN (sub x y) = false :=
  not_isNaN_add (not_isNaN_of_isFinite hx) ((isNaN_neg y).trans hy)
    fun hinf => absurd hinf (Bool.eq_false_iff.1 (not_isInf_of_isFinite hx))

theorem not_isNaN_mul_of_isFinite {x y : F64} (hx : isFinite x = true) (hy : isFinite y = true) :
    isNaN (mul x y) = false := by
  rw [mul_of_isFinite hx hy]
  exact not_isNaN_pack _ (roundMag_le_inf _ _)

/-- An infinity is no zero, so the square of a value is a NaN only if the value is, and its sign is 0. -/
theorem square_eq_pack {x : F64} (hx : isNaN x = false) : ∃ b ≤ infMagBits, mul x x = pack false b := by
  have hsign : (sign x != sign x) = false := bne_self_eq_false _
  rw [mul, hsign, hx, if_neg (by decide)]
  cases hinf : isInf x with
  | true =>
    have hzero : isZero x = false := by
      rw [isInf_iff] at hinf
      rw [isZero, hinf]
      decide
    exact ⟨infMagBits, le_rfl, by simp [hzero]⟩
  | false => exact ⟨_, roundMag_le_inf _ _, rfl⟩

/-- A sum of two squares is a NaN only if one of the values is: infinite squares have the same sign. -/
theorem not_isNaN_add_squares {x y : F64} (hx : isNaN x = false) (hy : isNaN y = false) :
    isNaN (add (mul x x) (mul y y)) = false := by
  obtain ⟨b, hb, hxx⟩ := square_eq_pack hx
  obtain ⟨c, hc, hyy⟩ := square_eq_pack hy
  rw [hxx, hyy]
  refine not_isNaN_add (not_isNaN_pack _ hb) (not_isNaN_pack _ hc) fun _ _ => ?_
  rw [sign_pack _ (hb.trans_lt infMagBits_lt), sign_pack _ (hc.trans_lt infMagBits_lt)]

/-! ### The order of the comparisons on what is no NaN -/

theorem le_self {x : F64} (hx : isNaN x = false) : le x x = true := by simp [le_eq_toInt, hx]

theorem le_of_lt {x y : F64} (h : lt x y = true) : le x y = true := by
  rw [lt_eq_toInt, decide_eq_true_iff] at h
  rw [le_eq_toInt, decide_eq_true_iff]
  exact ⟨h.1, h.2.le⟩

theorem le_of_lt_eq_false {x y : F64} (hx : isNaN x = false) (hy : isNaN y = false) (h : lt x y = false) :
    le y x = true := by
  rw [lt_eq_toInt, decide_eq_false_iff_not] at h
  rw [le_eq_toInt, decide_eq_true_iff]
  exact ⟨⟨hy, hx⟩, not_lt.1 fun hlt => h ⟨⟨hx, hy⟩, hlt⟩⟩

end Sys2Proof.F64

namespace Sys2Proof.Machine

/-! ### The decision -/

/-- The levels of the reference points are small integers (45_demapper.md R282). -/
theorem Scheme.abs_levels_le (sch : Scheme) (k : Nat) : |(sch.levels k).1| ≤ 3 ∧ |(sch.levels k).2| ≤ 3 := by
  have hgray (a b : Bool) : |grayLevel a b| ≤ 3 := by cases a <;> cases b <;> decide
  have honOff (c : Bool) : |if c then (1 : Int) else 0| ≤ 3 := by cases c <;> decide
  have hsign (c : Bool) : |if c then (1 : Int) else -1| ≤ 3 := by cases c <;> decide
  have hzero : |(0 : Int)| ≤ 3 := by decide
  cases sch with
  | ook => exact ⟨honOff _, hzero⟩
  | bpsk => exact ⟨hsign _, hzero⟩
  | qpsk => exact ⟨hsign _, hsign _⟩
  | qam16 => exact ⟨hgray _ _, hgray _ _⟩

/-- A reference point may overflow to infinities, but is no NaN (R283). -/
theorem Scheme.not_isNaN_ref (sch : Scheme) {g : F64} (hg : F64.isFinite g = true) (k : Nat) :
    F64.isNaN (sch.ref g k).re = false ∧ F64.isNaN (sch.ref g k).im = false := by
  have hscaled {n : Int} (hn : |n| ≤ 3) : F64.isNaN (F64.mul (F64.ofInt n) g) = false :=
    F64.not_isNaN_mul_of_isFinite (F64.ofInt_exact (hn.trans (by norm_num))).1 hg
  obtain ⟨hre, him⟩ := sch.abs_levels_le k
  exact ⟨hscaled hre, hscaled him⟩

/-- So every distance of a finite symbol can be compared (R284). -/
theorem not_isNaN_distance (sch : Scheme) {g : F64} {z : Sample} (hg : F64.isFinite g = true)
    (hre : F64.isFinite z.re = true) (him : F64.isFinite z.im = true) (k : Nat) :
    F64.isNaN (distance z (sch.ref g k)) = false := by
  obtain ⟨hrefRe, hrefIm⟩ := sch.not_isNaN_ref hg k
  exact F64.not_isNaN_add_squares (F64.not_isNaN_sub_of_isFinite hre hrefRe) (F64.not_isNaN_sub_of_isFinite him hrefIm)

/-- Of the first `n` values of `d`, the one at `best` is the first of the least (R285). -/
structure FirstMin (d : Nat → F64) (n best : Nat) : Prop where
  inside : best < n
  least : ∀ k, k < n → F64.le (d best) (d k) = true
  earlierGreater : ∀ k, k < best → F64.lt (d best) (d k) = true

section FirstMin
variable {d : Nat → F64} (hnan : ∀ k, F64.isNaN (d k) = false)
include hnan

theorem firstMin_head : FirstMin d 1 0 where
  inside := Nat.one_pos
  least k hk := by
    obtain rfl : k = 0 := by omega
    exact F64.le_self (hnan 0)
  earlierGreater k hk := absurd hk k.not_lt_zero

variable {n best : Nat} (h : FirstMin d n best)
include h

/-- A value that is not less leaves the least where it is. -/
theorem FirstMin.keep (hlt : F64.lt (d n) (d best) = false) : FirstMin d (n + 1) best where
  inside := Nat.lt_succ_of_lt h.inside
  least k hk := by
    rcases Nat.lt_succ_iff_lt_or_eq.1 hk with hlow | rfl
    · exact h.least k hlow
    · exact F64.le_of_lt_eq_false (hnan k) (hnan best) hlt
  earlierGreater := h.earlierGreater

/-- A lesser value is less than every value before it, so it is the least of all up to its own. -/
theorem FirstMin.replace (hlt : F64.lt (d n) (d best) = true) : FirstMin d (n + 1) n := by
  have hgreater (k : Nat) (hk : k < n) : F64.lt (d n) (d k) = true := F64.lt_trans_le hlt (h.least k hk)
  refine ⟨Nat.lt_succ_self n, fun k hk => ?_, hgreater⟩
  rcases Nat.lt_succ_iff_lt_or_eq.1 hk with hlow | rfl
  · exact F64.le_of_lt (hgreater k hlow)
  · exact F64.le_self (hnan k)

end FirstMin

/-- The scan over `left` more points keeps `FirstMin`, by induction on them. -/
theorem nearestFrom_firstMin {sch : Scheme} {g : F64} {z : Sample}
    (hnan : ∀ k, F64.isNaN (distance z (sch.ref g k)) = false) (left : Nat) {n best : Nat}
    (h : FirstMin (fun k => distance z (sch.ref g k)) n best) :
    FirstMin (fun k => distance z (sch.ref g k)) (n + left)
      (nearestFrom sch g z left n best (distance z (sch.ref g best))) := by
  induction left generalizing n best with
  | zero => exact h
  | succ left ih =>
    rw [nearestFrom, ← Nat.add_assoc, Nat.add_right_comm]
    cases hlt : F64.lt (distance z (sch.ref g n)) (distance z (sch.ref g best)) with
    | true => exact ih (h.replace hnan hlt)
    | false => exact ih (h.keep hnan hlt)

/-- The decided point is the first of the closest of all `2 ^ bps` (R285). -/
theorem nearest_firstMin (sch : Scheme) {g : F64} {z : Sample} (hg : F64.isFinite g = true)
    (hre : F64.isFinite z.re = true) (him : F64.isFinite z.im = true) :
    FirstMin (fun k => distance z (sch.ref g k)) (2 ^ sch.bps) (nearest sch g z) := by
  have hnan := not_isNaN_distance sch (z := z) hg hre him
  have hscan := nearestFrom_firstMin hnan (2 ^ sch.bps - 1) (firstMin_head hnan)
  rwa [Nat.add_sub_cancel' Nat.one_le_two_pow] at hscan

/-! ### The bits of a symbol -/

/-- Memory `m'` is `m` with those of the label's bits `j` to `j + left - 1`, of sequence numbers from `n` on, that are not
skipped stored at their places, each as a byte 0 or 1 (R287). -/
structure LabelStored (sch : Scheme) (label dst skip left j n : Nat) (m m' : Memory) : Prop where
  stored : ∀ b, b < left → skip ≤ n + b →
    m'.readByte (dst + (n + b - skip)) = (BitVec.ofBool (sch.labelBit label (j + b))).setWidth 8
  frame : ∀ a, (∀ b, b < left → skip ≤ n + b → a ≠ dst + (n + b - skip)) → m'.readByte a = m.readByte a

section LabelStored
variable {sch : Scheme} {label dst skip left j n : Nat} {m m' : Memory}

theorem LabelStored.refl (m : Memory) : LabelStored sch label dst skip 0 j n m m :=
  ⟨fun b hb => absurd hb b.not_lt_zero, fun _ _ => rfl⟩

/-- The places of the bits after the first are among those of all. -/
theorem ne_place_of_rest {a : Nat} (ha : ∀ b, b < left + 1 → skip ≤ n + b → a ≠ dst + (n + b - skip)) (b : Nat)
    (hb : b < left) (hplace : skip ≤ n + 1 + b) : a ≠ dst + (n + 1 + b - skip) := by
  have hne := ha (b + 1) (by omega) (by omega)
  omega

/-- A first bit before the skip count changes no byte. -/
theorem LabelStored.skipFirst (hskip : ¬ skip ≤ n) (h : LabelStored sch label dst skip left (j + 1) (n + 1) m m') :
    LabelStored sch label dst skip (left + 1) j n m m' where
  stored b hb hplace := by
    obtain ⟨b, rfl⟩ : ∃ b', b = b' + 1 := ⟨b - 1, by omega⟩
    have hbyte := h.stored b (by omega) (by omega)
    rwa [Nat.add_right_comm n, Nat.add_right_comm j] at hbyte
  frame a ha := h.frame a (ne_place_of_rest ha)

/-- A first bit that is not skipped is stored below the places of the others, which so leave it. -/
theorem LabelStored.storeFirst (hskip : skip ≤ n)
    (h : LabelStored sch label dst skip left (j + 1) (n + 1)
      (m.writeByte (dst + (n - skip)) ((BitVec.ofBool (sch.labelBit label j)).setWidth 8)) m') :
    LabelStored sch label dst skip (left + 1) j n m m' where
  stored b hb hplace := by
    cases b with
    | zero => exact (h.frame _ fun b _ _ => by omega).trans (Memory.readByte_writeByte_same m _ _)
    | succ b =>
      have hbyte := h.stored b (by omega) (by omega)
      rwa [Nat.add_right_comm n, Nat.add_right_comm j] at hbyte
  frame a ha := by
    have hfirst : a ≠ dst + (n - skip) := ha 0 (Nat.succ_pos left) hskip
    exact (h.frame a (ne_place_of_rest ha)).trans (Memory.readByte_writeByte_other m _ hfirst)

end LabelStored

/-- With room for them in BUF, the bits of a label are stored, and those not skipped counted (R287; 40_command.md R141). -/
theorem emitBits_inside {sch : Scheme} {label dst skip : Nat} (left : Nat) {j n : Nat} (e : Engine) (s : State) (m : Memory)
    (hroom : skip < n + left → dst + (n + left - skip) ≤ s.params.bufBytes) :
    ∃ m', emitBits sch label dst skip left j n e { s with buf := m } =
        some (e.wrote (n + left - skip - (n - skip)), { s with buf := m' }) ∧
      LabelStored sch label dst skip left j n m m' := by
  induction left generalizing j n e m with
  | zero =>
    refine ⟨m, ?_, .refl m⟩
    rw [Nat.add_zero, Nat.sub_self]
    rfl
  | succ left ih =>
    have hroom' : skip < n + 1 + left → dst + (n + 1 + left - skip) ≤ s.params.bufBytes := by
      rwa [Nat.add_right_comm n, Nat.add_assoc n]
    unfold emitBits
    split
    · next hskip =>
      obtain ⟨m', hemit, hstored⟩ := ih (j := j + 1) (e.wrote 1)
        (m.writeByte (dst + (n - skip)) ((BitVec.ofBool (sch.labelBit label j)).setWidth 8)) hroom'
      rw [storeB_eq_some.2 ⟨by dsimp only; omega, rfl⟩]
      refine ⟨m', hemit.trans ?_, hstored.storeFirst hskip⟩
      have hcount : 1 + (n + 1 + left - skip - (n + 1 - skip)) = n + (left + 1) - skip - (n - skip) := by omega
      rw [← hcount, Engine.wrote, Engine.wrote, Engine.wrote, Nat.add_assoc]
    · next hskip =>
      obtain ⟨m', hemit, hstored⟩ := ih (j := j + 1) e m hroom'
      refine ⟨m', hemit.trans ?_, hstored.skipFirst hskip⟩
      have hcount : n + 1 + left - skip - (n + 1 - skip) = n + (left + 1) - skip - (n - skip) := by omega
      rw [hcount]

/-! ### An iteration -/

section Iteration
variable {sch : Scheme} {s : State} {e : Engine} {l : DmLoop}

/-- The symbol of a checked iteration lies in the source. -/
theorem loadC_of_checked_demap (hchk : Checked sch.instr s e) (hi : l.i < e.count) :
    loadC s e.src l.i = some (sampleAt s.buf e.src l.i) :=
  hchk.loadC_eq (r := ⟨e.src, 16 * e.count, .complex, .read⟩) (by simp [planOf_demap, demapPlan]) (by dsimp only; omega)

/-- A symbol that is not finite ends the command (45_demapper.md R286). -/
theorem exec_demap_nonfinite (hr : RunningAt sch.instr s e (.demap l)) (hchk : Checked sch.instr s e) (hi : l.i < e.count)
    (h : F64.isFinite (sampleAt s.buf e.src l.i).re = false ∨ F64.isFinite (sampleAt s.buf e.src l.i).im = false) :
    exec sch.instr s = .next (takeError .dmNonfinite e s) := by
  rw [exec_demap_running hr, if_pos hi, demapIteration, loadC_of_checked_demap hchk hi, orFault_some]
  exact if_neg (Bool.eq_false_iff.1 (Bool.and_eq_false_iff.2 h))

/-- The bits of every symbol that is left have room in the destination (R287; 40_command.md R133, R135). -/
theorem demap_room (hchk : Checked sch.instr s e) (hi : l.i < e.count) (h : e.scalar < l.i * sch.bps + sch.bps) :
    e.dst + (l.i * sch.bps + sch.bps - e.scalar) ≤ s.params.bufBytes := by
  have hbits : l.i * sch.bps + sch.bps ≤ e.count * sch.bps := by
    rw [← Nat.succ_mul]
    exact Nat.mul_le_mul_right _ hi
  have hin := hchk.region_inside (r := ⟨e.dst, e.count * sch.bps - e.scalar, .bit, .write⟩)
    (by simp [planOf_demap, demapPlan]) (by dsimp only; omega)
  dsimp only at hin
  omega

/-- The bits of a finite symbol's decided label are stored and counted, and the loop goes on (R285, R287). -/
theorem exec_demap_finite (hr : RunningAt sch.instr s e (.demap l)) (hchk : Checked sch.instr s e) (hi : l.i < e.count)
    (hre : F64.isFinite (sampleAt s.buf e.src l.i).re = true) (him : F64.isFinite (sampleAt s.buf e.src l.i).im = true) :
    ∃ m, exec sch.instr s = .next (State.withEng { s with buf := m }
        ((e.wrote ((l.i + 1) * sch.bps - e.scalar - (l.i * sch.bps - e.scalar))).goto (.demap ⟨l.i + 1⟩))) ∧
      LabelStored sch (nearest sch e.cfg.dmGain (sampleAt s.buf e.src l.i)) e.dst e.scalar sch.bps 0 (l.i * sch.bps)
        s.buf m := by
  obtain ⟨m, hemit, hstored⟩ := emitBits_inside (sch := sch) (j := 0)
    (label := nearest sch e.cfg.dmGain (sampleAt s.buf e.src l.i)) sch.bps e s s.buf (demap_room hchk hi)
  refine ⟨m, ?_, hstored⟩
  rw [exec_demap_running hr, if_pos hi, demapIteration, loadC_of_checked_demap hchk hi, orFault_some,
    if_pos (by rw [hre, him]; rfl), Nat.succ_mul]
  exact congrArg (orFault · _) hemit

end Iteration

/-! ### The completion -/

theorem exec_demap_complete {sch : Scheme} {s : State} {e : Engine} {l : DmLoop}
    (hr : RunningAt sch.instr s e (.demap l)) (hstop : ¬ l.i < e.count) :
    exec sch.instr s = .next (complete id e s) := by
  rw [exec_demap_running hr, if_neg hstop]

/-- Past the last symbol all its bits but the skipped ones are written (R292). -/
theorem written_of_dmLoopOk {bps : Nat} {e : Engine} {l : DmLoop} (h : dmLoopOk bps e l = true) (hstop : ¬ l.i < e.count) :
    e.written = e.count * bps - e.scalar := by
  simp only [dmLoopOk, Bool.and_eq_true, decide_eq_true_eq, beq_iff_eq] at h
  obtain ⟨hle, hwritten⟩ := h
  rwa [Nat.le_antisymm hle (not_lt.1 hstop)] at hwritten

end Sys2Proof.Machine

namespace Sys2Proof.Proofs
open Sys2Proof Sys2Proof.Machine

/-- Settles O43: `exec_demap_nonfinite` and `exec_demap_finite`, and what `LabelStored` says of each byte. -/
theorem demapIteration : Obligations.DemapIteration := by
  intro sch s e l hr hchk hi z S best stored place
  refine ⟨fun hnonfinite => ?_, fun hre him => ?_⟩
  · exact ⟨_, exec_demap_nonfinite hr hchk hi hnonfinite, takeError_ends .dmNonfinite e s, fun _ => rfl⟩
  · obtain ⟨m, hexec, hlabel⟩ := exec_demap_finite hr hchk hi hre him
    refine ⟨_, hexec, stillRunning_withEng s m _, fun j hj => ?_, fun a ha => ?_⟩
    · have hbyte (b : Bool) : (BitVec.ofBool b).setWidth 8 = if b then (1 : Byte) else 0 := by cases b <;> rfl
      rw [← hbyte]
      exact (hlabel.stored j hj.1 hj.2).trans (by rw [Scheme.labelBit, Nat.zero_add]; rfl)
    · exact hlabel.frame a fun j hlow hplace => ha j ⟨hlow, hplace⟩

/-- Settles O45: the scan keeps `FirstMin`, no distance being a NaN. -/
theorem nearestIsFirstClosest : Obligations.NearestIsFirstClosest := by
  intro sch g z hg hre him d best
  have hmin : FirstMin d (2 ^ sch.bps) best := nearest_firstMin sch hg hre him
  exact ⟨hmin.inside, hmin.least, hmin.earlierGreater⟩

/-- Settles O44: the completion step writes no other result register, the bits of all N symbols being done. -/
theorem demapCompletes : Obligations.DemapCompletes := by
  intro sch s e l hr hl hstop
  have hwritten : e.written = e.args.a2.toNat * sch.bps - e.args.a4.toNat := written_of_dmLoopOk hl hstop
  exact ⟨_, exec_demap_complete hr hstop, hwritten ▸ complete_ends id e s⟩

/-- Settles O46: the levels of the 24 points are computed; the scaling is the definition of `Scheme.ref`. -/
theorem referenceLists : Obligations.ReferenceLists :=
  ⟨by decide, by decide, by decide, by decide, fun _ _ _ => ⟨rfl, rfl⟩⟩

end Sys2Proof.Proofs
end

section
/-!
The CRC division register (46_crc.md R313): its bits after each operation, that feeding is linear over GF(2), and so that every
codeword leaves no remainder (R318, R319).
-/
namespace Sys2Proof.Machine

/-! ### Bits of the register -/

/-- The division register with one more bit shifted in, not yet reduced by the key (46_crc.md R313). -/
def crcShift (m : Nat) (r : Word) (b : Bool) : Word := ((r <<< 1) ||| (BitVec.ofBool b).setWidth 32) &&& lowMask m

/-- Feeding a bit adds the key, or nothing, to the shifted register: reduction is an addition over GF(2). -/
theorem crcFeed_eq_xor (m : Nat) (key r : Word) (b : Bool) :
    crcFeed m key r b = crcShift m r b ^^^ (if (crcShift m r b).getLsbD (m - 1) then key else 0) := by
  show (if (crcShift m r b).getLsbD (m - 1) then crcShift m r b ^^^ key else crcShift m r b) = _
  split
  · rfl
  · exact BitVec.xor_zero.symm

section Bits
variable {m : Nat} (hm : m ≤ 32)
include hm

theorem getLsbD_lowMask (i : Nat) : (lowMask m).getLsbD i = decide (i < m) := by
  rw [lowMask, BitVec.getLsbD_ofNat, Nat.testBit_two_pow_sub_one, ← Bool.decide_and]
  exact decide_eq_decide.2 ⟨And.right, fun hi => ⟨by omega, hi⟩⟩

theorem getLsbD_crcShift (r : Word) (b : Bool) (i : Nat) :
    (crcShift m r b).getLsbD i = (decide (i < m) && if i = 0 then b else r.getLsbD (i - 1)) := by
  rw [crcShift, BitVec.getLsbD_and, getLsbD_lowMask hm, Bool.and_comm]
  by_cases hi : i < m
  · cases i with
    | zero => simp [hi]
    | succ i => simp [hi, show i + 1 < 32 by omega, BitVec.getLsbD_eq_getElem (show i < 32 by omega)]
  · simp [hi]

theorem getLsbD_crcRemainder (r : Word) (i : Nat) :
    (crcRemainder m r).getLsbD i = (decide (i < m - 1) && r.getLsbD i) := by
  rw [crcRemainder, BitVec.getLsbD_and, getLsbD_lowMask (by omega), Bool.and_comm]

/-! ### The division is linear over GF(2) -/

theorem crcShift_xor (r r' : Word) (b b' : Bool) :
    crcShift m (r ^^^ r') (b ^^ b') = crcShift m r b ^^^ crcShift m r' b' := by
  apply BitVec.eq_of_getLsbD_eq
  intro i _
  rw [BitVec.getLsbD_xor, getLsbD_crcShift hm, getLsbD_crcShift hm, getLsbD_crcShift hm, BitVec.getLsbD_xor,
    ← Bool.and_xor_distrib_left]
  split <;> rfl

/-- Whatever the key, its leading bit included: each summand is reduced by its own leading bit (46_crc.md R318). -/
theorem crcFeed_xor (key r r' : Word) (b b' : Bool) :
    crcFeed m key (r ^^^ r') (b ^^ b') = crcFeed m key r b ^^^ crcFeed m key r' b' := by
  have hreduce (c c' : Bool) : (if c ^^ c' then key else 0) = (if c then key else 0) ^^^ (if c' then key else 0) := by
    cases c <;> cases c' <;> simp
  rw [crcFeed_eq_xor, crcFeed_eq_xor, crcFeed_eq_xor, crcShift_xor hm, BitVec.getLsbD_xor, hreduce]
  ac_rfl

/-- What the register held before a sequence goes through it as if zeros were fed, by induction on the sequence. -/
theorem crcFeedAll_xor (key : Word) (bits : List Bool) (r r' : Word) :
    crcFeedAll m key (r ^^^ r') bits =
      crcFeedAll m key r (List.replicate bits.length false) ^^^ crcFeedAll m key r' bits := by
  induction bits generalizing r r' with
  | nil => rfl
  | cons b bits ih =>
    have hfeed : crcFeed m key (r ^^^ r') b = crcFeed m key r false ^^^ crcFeed m key r' b := by
      rw [← crcFeed_xor hm, Bool.false_xor]
    rw [crcFeedAll, hfeed, ih]
    rfl

theorem crcRemainder_xor (r r' : Word) : crcRemainder m (r ^^^ r') = crcRemainder m r ^^^ crcRemainder m r' := by
  apply BitVec.eq_of_getLsbD_eq
  intro i _
  rw [BitVec.getLsbD_xor, getLsbD_crcRemainder hm, getLsbD_crcRemainder hm, getLsbD_crcRemainder hm, BitVec.getLsbD_xor,
    Bool.and_xor_distrib_left]

end Bits

theorem crcRemainder_crcRemainder (m : Nat) (r : Word) : crcRemainder m (crcRemainder m r) = crcRemainder m r := by
  rw [crcRemainder, crcRemainder, BitVec.and_assoc, BitVec.and_self]

theorem crcFeedAll_append (m : Nat) (key r : Word) (bits bits' : List Bool) :
    crcFeedAll m key r (bits ++ bits') = crcFeedAll m key (crcFeedAll m key r bits) bits' := by
  induction bits generalizing r with
  | nil => rfl
  | cons b bits ih => exact ih _

/-! ### The remainder's bits, fed again -/

/-- The low `k` bits of a word, highest first. -/
def lowBits (w : Word) (k : Nat) : List Bool := (List.range k).map fun j => w.getLsbD (k - 1 - j)

theorem lowBits_succ (w : Word) (k : Nat) : lowBits w (k + 1) = w.getLsbD k :: lowBits w k := by
  rw [lowBits, List.range_succ_eq_map, List.map_cons, List.map_map, lowBits]
  congr 1
  refine List.map_congr_left fun j _ => ?_
  simp only [Function.comp]
  congr 1
  omega

theorem remainderBits_eq_lowBits (m : Nat) (rem : Word) : remainderBits m rem = lowBits rem (m - 1) := by
  simp only [remainderBits, lowBits, Nat.sub_sub]

theorem length_remainderBits (m : Nat) (rem : Word) : (remainderBits m rem).length = m - 1 := by simp [remainderBits]

section Refeed
variable {m : Nat} (hm : m ≤ 32) {w : Word} (hw : ∀ i, m - 1 ≤ i → w.getLsbD i = false)
include hm hw

/-- Feeding the next bit of a word shorter than the key never reduces. -/
theorem crcFeed_shiftRight (hpos : 1 ≤ m) (key : Word) (k : Nat) :
    crcFeed m key (w >>> (k + 1)) (w.getLsbD k) = w >>> k := by
  have hshift : crcShift m (w >>> (k + 1)) (w.getLsbD k) = w >>> k := by
    apply BitVec.eq_of_getLsbD_eq
    intro i _
    rw [getLsbD_crcShift hm, BitVec.getLsbD_ushiftRight, BitVec.getLsbD_ushiftRight]
    by_cases hi : i < m
    · cases i with
      | zero => simp [hi]
      | succ i => simp [hi, show k + 1 + i = k + (i + 1) by omega]
    · rw [hw (k + i) (by omega)]
      simp [hi]
  have htop : (w >>> k).getLsbD (m - 1) = false := by
    rw [BitVec.getLsbD_ushiftRight]
    exact hw _ (by omega)
  rw [crcFeed_eq_xor, hshift, htop]
  exact BitVec.xor_zero

theorem crcFeedAll_lowBits (hpos : 1 ≤ m) (key : Word) (k : Nat) :
    crcFeedAll m key (w >>> k) (lowBits w k) = w := by
  induction k with
  | zero => exact BitVec.ushiftRight_zero w
  | succ k ih => rw [lowBits_succ, crcFeedAll, crcFeed_shiftRight hm hw hpos, ih]

/-- A remainder fed from an empty register is the register's content: it has one bit less than the key. -/
theorem crcFeedAll_remainderBits (hpos : 1 ≤ m) (key : Word) : crcFeedAll m key 0 (remainderBits m w) = w := by
  have hzero : w >>> (m - 1) = 0 := by
    apply BitVec.eq_of_getLsbD_eq
    intro i _
    rw [BitVec.getLsbD_ushiftRight, hw _ (by omega)]
    exact BitVec.getLsbD_zero.symm
  rw [remainderBits_eq_lowBits, ← hzero, crcFeedAll_lowBits hm hw hpos]

end Refeed

/-- The codeword divides without remainder, for every key: its last `m - 1` bits add the remainder to itself (46_crc.md R319). -/
theorem crcRem_crcCodeword {m : Nat} (hpos : 1 ≤ m) (hm : m ≤ 32) (key : Word) (bits : List Bool) :
    crcRem m key (crcCodeword m key bits) = 0 := by
  rw [crcCodeword]
  generalize hrem : crcRem m key (bits ++ List.replicate (m - 1) false) = rem
  have hhigh (i : Nat) (hi : m - 1 ≤ i) : rem.getLsbD i = false := by
    rw [← hrem, crcRem, getLsbD_crcRemainder hm, decide_eq_false hi.not_gt, Bool.false_and]
  have hzeros : crcRemainder m (crcFeedAll m key (crcFeedAll m key 0 bits) (List.replicate (m - 1) false)) = rem := by
    rw [← crcFeedAll_append]
    exact hrem
  have hsplit := crcFeedAll_xor hm key (remainderBits m rem) (crcFeedAll m key 0 bits) 0
  rw [show crcFeedAll m key 0 bits ^^^ 0 = _ from BitVec.xor_zero, length_remainderBits,
    crcFeedAll_remainderBits hm hhigh hpos] at hsplit
  rw [crcRem, crcFeedAll_append, hsplit, crcRemainder_xor hm, hzeros, ← hrem, crcRem, crcRemainder_crcRemainder]
  exact BitVec.xor_self

end Sys2Proof.Machine

namespace Sys2Proof.Proofs
open Sys2Proof Sys2Proof.Machine

/-- Settles O50: the division is linear, so the appended remainder adds to the remainder of the data and its zeros. -/
theorem crcRoundTrip : Obligations.CrcRoundTrip := fun _ key bits hpos hm => crcRem_crcCodeword (by omega) hm _ bits

end Sys2Proof.Proofs
end

section
/-!
The polynomial meaning of the division (46_crc.md R315): one feed multiplies the register by X, adds the bit and subtracts at most
once the key, so that under a key of leading bit 1 the register is the remainder of what was fed.
-/
namespace Sys2Proof.Machine
open Polynomial

/-! ### Polynomials of bits -/

/-- The polynomial over GF(2) whose coefficients below `n` are the bits `f`. -/
noncomputable def bitPoly (n : Nat) (f : Nat → Bool) : (ZMod 2)[X] :=
  (Finset.range n).sum fun i => if f i then X ^ i else 0

theorem bitPoly_succ (n : Nat) (f : Nat → Bool) :
    bitPoly (n + 1) f = bitPoly n f + if f n then X ^ n else 0 := Finset.sum_range_succ _ n

theorem bitPoly_congr {n : Nat} {f g : Nat → Bool} (h : ∀ i, i < n → f i = g i) : bitPoly n f = bitPoly n g :=
  Finset.sum_congr rfl fun i hi => by rw [h i (Finset.mem_range.1 hi)]

/-- Multiplying by X moves every bit up one place. -/
theorem bitPoly_succ' (n : Nat) (f : Nat → Bool) :
    bitPoly (n + 1) f = X * bitPoly n (fun i => f (i + 1)) + if f 0 then 1 else 0 := by
  rw [bitPoly, Finset.sum_range_succ', bitPoly, Finset.mul_sum, pow_zero]
  congr 1
  refine Finset.sum_congr rfl fun i _ => ?_
  split
  · exact pow_succ' X i
  · exact (mul_zero X).symm

/-- Over GF(2) adding polynomials is xor of their bits. -/
theorem bitPoly_xor (n : Nat) (f g : Nat → Bool) : bitPoly n (fun i => f i ^^ g i) = bitPoly n f + bitPoly n g := by
  rw [bitPoly, bitPoly, bitPoly, ← Finset.sum_add_distrib]
  refine Finset.sum_congr rfl fun i _ => ?_
  cases f i <;> cases g i <;> simp [CharTwo.add_self_eq_zero]

theorem bitPoly_false (n : Nat) : bitPoly n (fun _ => false) = 0 := Finset.sum_eq_zero fun _ _ => rfl

theorem degree_bitPoly_lt (n : Nat) (f : Nat → Bool) : (bitPoly n f).degree < n := by
  refine (Polynomial.degree_sum_le _ _).trans_lt ((Finset.sup_lt_iff (WithBot.bot_lt_coe n)).2 fun i hi => ?_)
  split
  · exact (degree_X_pow_le i).trans_lt (Nat.cast_lt.2 (Finset.mem_range.1 hi))
  · exact degree_zero.trans_lt (WithBot.bot_lt_coe n)

/-- A bit sequence as a polynomial, its first bit the highest power (46_crc.md R315). -/
noncomputable def seqPoly (bits : List Bool) : (ZMod 2)[X] :=
  bitPoly bits.length fun i => bits.getD (bits.length - 1 - i) false

theorem seqPoly_cons (b : Bool) (bits : List Bool) :
    seqPoly (b :: bits) = (if b then 1 else 0) * X ^ bits.length + seqPoly bits := by
  rw [seqPoly, List.length_cons, bitPoly_succ, add_comm, ite_mul, one_mul, zero_mul, seqPoly]
  congr 1
  · simp
  · refine bitPoly_congr fun i hi => ?_
    rw [show bits.length + 1 - 1 - i = bits.length - 1 - i + 1 by omega, List.getD_cons_succ]

/-! ### The register as a polynomial -/

/-- The polynomial of the low `m` bits of a word. -/
noncomputable def wordPoly (m : Nat) (w : Word) : (ZMod 2)[X] := bitPoly m fun i => w.getLsbD i

theorem wordPoly_xor (m : Nat) (v w : Word) : wordPoly m (v ^^^ w) = wordPoly m v + wordPoly m w := by
  rw [wordPoly, wordPoly, wordPoly, ← bitPoly_xor]
  exact bitPoly_congr fun i _ => BitVec.getLsbD_xor

theorem wordPoly_zero (m : Nat) : wordPoly m 0 = 0 := by
  rw [wordPoly, ← bitPoly_false m]
  exact bitPoly_congr fun i _ => BitVec.getLsbD_zero

/-- A clear leading bit is a coefficient less. -/
theorem wordPoly_of_top_clear {m : Nat} {r : Word} (htop : r.getLsbD m = false) :
    wordPoly (m + 1) r = wordPoly m r := by
  rw [wordPoly, bitPoly_succ, htop, if_neg Bool.false_ne_true, add_zero, wordPoly]

theorem wordPoly_of_top_set {m : Nat} {r : Word} (htop : r.getLsbD m = true) :
    wordPoly (m + 1) r = X ^ m + wordPoly m r := by
  rw [wordPoly, bitPoly_succ, htop, if_pos rfl, add_comm, wordPoly]

/-- A key of leading bit 1 is monic. -/
theorem monic_wordPoly {m : Nat} {key : Word} (hkey : key.getLsbD m = true) : (wordPoly (m + 1) key).Monic := by
  rw [wordPoly_of_top_set hkey]
  exact monic_X_pow_add (degree_bitPoly_lt m _)

theorem degree_wordPoly {m : Nat} {key : Word} (hkey : key.getLsbD m = true) : (wordPoly (m + 1) key).degree = m := by
  have hlow : (wordPoly m key).degree < (X ^ m : (ZMod 2)[X]).degree := by
    rw [degree_X_pow]
    exact degree_bitPoly_lt m _
  rw [wordPoly_of_top_set hkey, degree_add_eq_left_of_degree_lt hlow, degree_X_pow]

/-- The key's leading bit clears the register's. -/
theorem getLsbD_crcFeed_top {m : Nat} {key : Word} (hkey : key.getLsbD m = true) (r : Word) (b : Bool) :
    (crcFeed (m + 1) key r b).getLsbD m = false := by
  rw [crcFeed_eq_xor, BitVec.getLsbD_xor, Nat.add_sub_cancel]
  cases (crcShift (m + 1) r b).getLsbD m with
  | false => exact (Bool.false_xor _).trans BitVec.getLsbD_zero
  | true => rw [if_pos rfl, hkey, Bool.xor_self]

section Register
variable {m : Nat} (hm : m + 1 ≤ 32) {r : Word}
include hm

theorem wordPoly_and_lowMask (key : Word) : wordPoly (m + 1) (key &&& lowMask (m + 1)) = wordPoly (m + 1) key :=
  bitPoly_congr fun i hi => by rw [BitVec.getLsbD_and, getLsbD_lowMask hm, decide_eq_true hi, Bool.and_true]

theorem wordPoly_crcRemainder : wordPoly m (crcRemainder (m + 1) r) = wordPoly m r :=
  bitPoly_congr fun i hi => by
    rw [getLsbD_crcRemainder hm, Nat.add_sub_cancel, decide_eq_true hi, Bool.true_and]

/-- Shifting multiplies by X and adds the bit, as the leading bit is clear. -/
theorem wordPoly_crcShift (b : Bool) :
    wordPoly (m + 1) (crcShift (m + 1) r b) = X * wordPoly m r + if b then 1 else 0 := by
  rw [wordPoly, bitPoly_succ', wordPoly, getLsbD_crcShift hm, decide_eq_true (Nat.succ_pos m), Bool.true_and, if_pos rfl]
  congr 2
  refine bitPoly_congr fun i hi => ?_
  rw [getLsbD_crcShift hm, decide_eq_true (Nat.succ_lt_succ hi), Bool.true_and, if_neg (Nat.succ_ne_zero i),
    Nat.add_sub_cancel]

variable {key : Word} (hkey : key.getLsbD m = true)
include hkey

/-- A feed changes `X * R + b` by a multiple of the key. -/
theorem dvd_wordPoly_crcFeed_sub (b : Bool) :
    wordPoly (m + 1) key ∣ wordPoly m (crcFeed (m + 1) key r b) - (X * wordPoly m r + if b then 1 else 0) := by
  rw [← wordPoly_of_top_clear (getLsbD_crcFeed_top hkey r b), crcFeed_eq_xor, wordPoly_xor, wordPoly_crcShift hm,
    add_sub_cancel_left]
  split
  · exact dvd_rfl
  · exact wordPoly_zero _ ▸ dvd_zero _

/-- After a sequence the register is what it held and the sequence below it, up to a multiple of the key. -/
theorem dvd_wordPoly_crcFeedAll_sub (bits : List Bool) :
    wordPoly (m + 1) key ∣
      wordPoly m (crcFeedAll (m + 1) key r bits) - (X ^ bits.length * wordPoly m r + seqPoly bits) := by
  induction bits generalizing r with
  | nil => simp [crcFeedAll, seqPoly, bitPoly]
  | cons b bits ih =>
    have hfirst := (dvd_wordPoly_crcFeed_sub hm hkey (r := r) b).mul_left (X ^ bits.length)
    refine (dvd_add (ih (r := crcFeed (m + 1) key r b)) hfirst).trans (dvd_of_eq ?_)
    rw [crcFeedAll, seqPoly_cons, List.length_cons]
    ring

/-- The remainder in the register is the remainder of the polynomial division, which is unique. -/
theorem wordPoly_crcRem (bits : List Bool) :
    wordPoly m (crcRem (m + 1) key bits) = seqPoly bits %ₘ wordPoly (m + 1) key := by
  have hmonic := monic_wordPoly hkey
  have hdvd := dvd_wordPoly_crcFeedAll_sub hm hkey (r := 0) bits
  rw [wordPoly_zero, mul_zero, zero_add] at hdvd
  rw [crcRem, wordPoly_crcRemainder hm, ← modByMonic_eq_of_dvd_sub hmonic hdvd]
  refine ((modByMonic_eq_self_iff hmonic).2 ?_).symm
  rw [degree_wordPoly hkey]
  exact degree_bitPoly_lt m _

end Register
end Sys2Proof.Machine

namespace Sys2Proof.Proofs
open Sys2Proof Sys2Proof.Machine

/-- Settles O51: `wordPoly_crcRem`, the key's bits above its length masked away. -/
theorem crcIsPolynomialRemainder : Obligations.CrcIsPolynomialRemainder := by
  intro m key bits hpos hm hlead
  obtain ⟨m, rfl⟩ : ∃ k, m = k + 1 := ⟨m - 1, by omega⟩
  have hmasked : (key &&& lowMask (m + 1)).getLsbD m = true := by
    rw [BitVec.getLsbD_and, getLsbD_lowMask hm, decide_eq_true (Nat.lt_succ_self m), Bool.and_true]
    exact hlead
  have hrem := wordPoly_crcRem hm hmasked bits
  rw [wordPoly_and_lowMask hm] at hrem
  exact hrem

end Sys2Proof.Proofs
end

section
/-!
The division pass of CRCCHK and CRCENC (46_crc.md R313, R314), from the check step on, and CRCCHK to its end (R316): the loop state
is named by the bits fed so far.
-/
namespace Sys2Proof.Machine

/-! ### A source byte -/

theorem Checked.loadB_eq {i : Instr} {s : State} {e : Engine} {r : Region} {k : Nat} (hchk : Checked i s e)
    (hr : r ∈ (planOf i e).regions) (hk : k < r.size) : loadB s r.base k = some (s.buf.readByte (r.base + k)) := by
  have hin := hchk.region_inside hr (by omega)
  exact loadB_eq_some.2 ⟨by omega, rfl⟩

/-- A byte 0 or 1 is its bit 0 (00_scope.md R9). -/
theorem eq_zero_or_one_of_toNat_le_one {b : Byte} (h : b.toNat ≤ 1) : b = 0 ∨ b = 1 := by
  rcases Nat.le_one_iff_eq_zero_or_eq_one.1 h with h | h
  · exact .inl (BitVec.eq_of_toNat_eq h)
  · exact .inr (BitVec.eq_of_toNat_eq h)

section SourceByte
variable {i : Instr} {s : State} {e : Engine} {l : CrcLoop} (hi : i = .crcchk ∨ i = .crcenc)
  (hr : RunningAt i s e (.crc l)) (hchk : Checked i s e) (hst : l.stage = .divide) (hlt : l.i < e.count)
include hi hr hchk hst hlt

/-- Both commands read and validate a source byte alike. -/
theorem exec_crc_source :
    exec i s = if 1 < (s.buf.readByte (e.src + l.i)).toNat then .next (takeError .crcBitval e s)
      else crcAdvance e l ((s.buf.readByte (e.src + l.i)).getLsbD 0) s := by
  have hsrc : (⟨e.src, e.count, .bit, .read⟩ : Region) ∈ (planOf i e).regions := by
    rcases hi with rfl | rfl
    · exact List.mem_cons_self
    · exact List.mem_cons_self
  have hfeed : crcFeedBit e l s = _ := congrArg (orFault · _) (hchk.loadB_eq hsrc hlt)
  rw [orFault_some] at hfeed
  rw [← hfeed]
  rcases hi with rfl | rfl
  · rw [exec_crcchk_running hr, hst]
    exact if_pos hlt
  · rw [exec_crcenc_running hr, hst]
    exact if_pos hlt

/-- A byte other than 0 and 1 ends the command (46_crc.md R314). -/
theorem exec_crc_refuses (hb : 1 < (s.buf.readByte (e.src + l.i)).toNat) :
    exec i s = .next (takeError .crcBitval e s) :=
  (exec_crc_source hi hr hchk hst hlt).trans (if_pos hb)

theorem exec_crc_feeds (hb : (s.buf.readByte (e.src + l.i)).toNat ≤ 1) :
    exec i s = crcAdvance e l ((s.buf.readByte (e.src + l.i)).getLsbD 0) s :=
  (exec_crc_source hi hr hchk hst hlt).trans (if_neg hb.not_gt)

end SourceByte

/-! ### Runs -/

/-- A run goes on from the state that its first part reaches. -/
theorem run_trans {j : Nat} {s t : State} (h : core.run j s = .next t) (k : Nat) :
    core.run (j + k) s = core.run k t := by
  induction j generalizing s with
  | zero =>
    obtain rfl : s = t := Host.Outcome.next.inj h
    rw [Nat.zero_add]
  | succ j ih =>
    rw [Nat.succ_add]
    cases hstep : step s with
    | next u =>
      rw [run_succ hstep] at h ⊢
      exact ih h
    | fault f =>
      have hstop : core.step s = .fault f := hstep
      simp [Host.Core.run, hstop] at h
    | refused f =>
      have hstop : core.step s = .refused f := hstep
      simp [Host.Core.run, hstop] at h

/-- A run of one step more, at its end. -/
theorem run_snoc {j : Nat} {s t u : State} (h : core.run j s = .next t) (hstep : step t = .next u) :
    core.run (j + 1) s = .next u := (run_trans h 1).trans (run_succ hstep 0)

/-! ### The loop state, by the bits fed -/

/-- The loop state of the division pass when `bits` have been fed (46_crc.md R313). -/
def divideAt (e : Engine) (bits : List Bool) : CrcLoop :=
  ⟨.divide, bits.length, crcFeedAll e.cfg.keyLen e.cfg.key 0 bits, 0⟩

/-- The loop state with the remainder of `bits` taken and `j` elements of the output written (46_crc.md R316, R317). -/
def outputAt (e : Engine) (bits : List Bool) (j : Nat) : CrcLoop :=
  ⟨.output, j, crcFeedAll e.cfg.keyLen e.cfg.key 0 bits, crcRem e.cfg.keyLen e.cfg.key bits⟩

/-- The state with the engine of `e` at CRC loop state `l`. -/
def State.crcAt (s : State) (e : Engine) (l : CrcLoop) : State := s.withEng (e.goto (.crc l))

/-- Feeding a bit appends it to the bits fed. -/
theorem crcAdvance_divideAt (s : State) (e : Engine) (bits : List Bool) (b : Bool) :
    crcAdvance (e.goto (.crc (divideAt e bits))) (divideAt e bits) b (s.crcAt e (divideAt e bits)) =
      .next (s.crcAt e (divideAt e (bits ++ [b]))) := by
  have hloop : divideAt e (bits ++ [b]) =
      { divideAt e bits with i := bits.length + 1, r := crcFeed e.cfg.keyLen e.cfg.key (divideAt e bits).r b } := by
    rw [divideAt, crcFeedAll_append, List.length_append]
    rfl
  rw [hloop]
  rfl

theorem crcTakeRemainder_divideAt (s : State) (e : Engine) (bits : List Bool) :
    crcTakeRemainder (e.goto (.crc (divideAt e bits))) (divideAt e bits) (s.crcAt e (divideAt e bits)) =
      .next (s.crcAt e (outputAt e bits 0)) := rfl

theorem length_bitsAt (m : Memory) (base n : Nat) : (bitsAt m base n).length = n := by
  induction n with
  | zero => rfl
  | succ n ih => rw [bitsAt, List.length_append, ih, List.length_singleton]

/-! ### The run of the division pass -/

/-- The engine, with record `e`, runs a checked CRCCHK or CRCENC, no abort is pending and only the engine moves. -/
structure CrcRuns (i : Instr) (s : State) (e : Engine) : Prop where
  isCrc : i = .crcchk ∨ i = .crcenc
  cmd : e.cmd = encode i
  noAbort : e.abortReq = false
  checked : Checked i s e
  noReset : s.resetAsserted = false
  noTurns : s.agenda = []

section Division
variable {i : Instr} {s : State} {e : Engine} (h : CrcRuns i s e)
include h

theorem CrcRuns.port : i.port = .cmd := by rcases h.isCrc with rfl | rfl <;> rfl

theorem CrcRuns.running (l : CrcLoop) : RunningAt i (s.crcAt e l) (e.goto (.crc l)) (.crc l) :=
  ⟨⟨rfl, h.cmd⟩, rfl, h.noAbort⟩

theorem CrcRuns.step_crcAt (l : CrcLoop) : step (s.crcAt e l) = exec i (s.crcAt e l) :=
  step_inFlight h.port h.noReset h.noTurns (h.running l).1

theorem CrcRuns.checkedAt (l : CrcLoop) : Checked i (s.crcAt e l) (e.goto (.crc l)) := by
  rw [Checked, planOf_congr i (e' := e.goto (.crc l)) rfl rfl]
  exact h.checked

/-- The check step, which passes, starts the division with no bit fed. -/
theorem CrcRuns.step_check (heng : s.eng = some e) (hp : e.progress = .check) :
    step s = .next (s.crcAt e (divideAt e [])) := by
  have hstart : startOf i e = .crc (divideAt e []) := by rcases h.isCrc with rfl | rfl <;> rfl
  have hchk : (planOf i e).firstError s.params.bufBytes = none := h.checked
  rw [step_inFlight h.port h.noReset h.noTurns ⟨heng, h.cmd⟩, exec_check h.port ⟨heng, h.cmd⟩ hp, checkStep, hchk, hstart]
  rfl

theorem CrcRuns.step_source {bits : List Bool} (hlt : bits.length < e.count)
    (hb : (s.buf.readByte (e.src + bits.length)).toNat ≤ 1) :
    step (s.crcAt e (divideAt e bits)) =
      .next (s.crcAt e (divideAt e (bits ++ [(s.buf.readByte (e.src + bits.length)).getLsbD 0]))) := by
  rw [h.step_crcAt, exec_crc_feeds h.isCrc (h.running (divideAt e bits)) (h.checkedAt _) rfl hlt hb]
  exact crcAdvance_divideAt s e bits _

theorem CrcRuns.step_refused {bits : List Bool} (hlt : bits.length < e.count)
    (hb : 1 < (s.buf.readByte (e.src + bits.length)).toNat) :
    step (s.crcAt e (divideAt e bits)) =
      .next (takeError .crcBitval (e.goto (.crc (divideAt e bits))) (s.crcAt e (divideAt e bits))) := by
  rw [h.step_crcAt, exec_crc_refuses h.isCrc (h.running (divideAt e bits)) (h.checkedAt _) rfl hlt hb]

/-- The check step and the first `k` source bytes, by induction on them. -/
theorem CrcRuns.run_source (heng : s.eng = some e) (hp : e.progress = .check) (k : Nat) (hk : k ≤ e.count)
    (hbits : ∀ j, j < k → (s.buf.readByte (e.src + j)).toNat ≤ 1) :
    core.run (k + 1) s = .next (s.crcAt e (divideAt e (bitsAt s.buf e.src k))) := by
  induction k with
  | zero => exact run_succ (h.step_check heng hp) 0
  | succ k ih =>
    have hbyte := h.step_source (bits := bitsAt s.buf e.src k)
    rw [length_bitsAt] at hbyte
    exact run_snoc (ih (by omega) fun j hj => hbits j (by omega)) (hbyte hk (hbits k (by omega)))

end Division

/-! ### CRCCHK to its end -/

/-- CRC_RES in terms of the remainder (10_state.md R72). -/
theorem crcResWord_beq_zero (rem : Word) : crcResWord (rem == 0) = if rem = 0 then 1 else 0 := by
  by_cases hrem : rem = 0
  · rw [if_pos hrem, hrem]
    rfl
  · rw [if_neg hrem, beq_false_of_ne hrem]
    rfl

theorem exec_crcchk_complete {s : State} {e : Engine} {l : CrcLoop} (hr : RunningAt .crcchk s e (.crc l))
    (hst : l.stage = .output) : exec .crcchk s = .next (complete (crcchkResults l) e s) := by
  rw [exec_crcchk_running hr, hst]

theorem crcchk_ends (s : State) (e : Engine) (l : CrcLoop) :
    EndsWell { s.results with crcRem := l.rem, crcRes := if l.rem = 0 then 1 else 0 } e.written s
      (complete (crcchkResults l) e s) := by
  rw [← crcResWord_beq_zero]
  exact complete_ends (crcchkResults l) e s

section Crcchk
variable {s : State} {e : Engine} (h : CrcRuns .crcchk s e)
include h

theorem step_crcchk_remainder {bits : List Bool} (hlen : bits.length = e.count) :
    step (s.crcAt e (divideAt e bits)) = .next (s.crcAt e (outputAt e bits 0)) := by
  rw [h.step_crcAt, exec_crcchk_running (h.running _)]
  exact (if_neg hlen.not_lt).trans (crcTakeRemainder_divideAt s e bits)

/-- CRCCHK from its check step to its end (R316): the check, a step for each bit, the remainder, the completion. -/
theorem run_crcchk (heng : s.eng = some e) (hp : e.progress = .check)
    (hbits : ∀ j, j < e.count → (s.buf.readByte (e.src + j)).toNat ≤ 1) :
    ∃ t, core.run (e.count + 3) s = .next t ∧
      EndsWell { s.results with
        crcRem := crcRem e.cfg.keyLen e.cfg.key (bitsAt s.buf e.src e.count)
        crcRes := if crcRem e.cfg.keyLen e.cfg.key (bitsAt s.buf e.src e.count) = 0 then 1 else 0 } e.written s t := by
  have hfed := h.run_source heng hp e.count le_rfl hbits
  have hdivided := run_snoc hfed (step_crcchk_remainder h (length_bitsAt _ _ _))
  have hend := (h.step_crcAt _).trans (exec_crcchk_complete (h.running (outputAt e (bitsAt s.buf e.src e.count) 0)) rfl)
  exact ⟨_, run_snoc hdivided hend, crcchk_ends (s.crcAt e _) (e.goto (.crc (outputAt e _ 0))) _⟩

end Crcchk
end Sys2Proof.Machine

namespace Sys2Proof.Proofs
open Sys2Proof Sys2Proof.Machine

/-- Settles O49, by `exec_crc_refuses` and `exec_crc_feeds`. -/
theorem crcBitIsFedOrRefused : Obligations.CrcBitIsFedOrRefused := by
  intro i s e l hi hr hchk hst hlt b m shifted
  refine ⟨fun hb => ?_, fun hb => ?_⟩
  · exact ⟨_, exec_crc_refuses hi hr hchk hst hlt hb, takeError_ends .crcBitval e s, fun _ => rfl⟩
  have hbit : (BitVec.ofBool (b.getLsbD 0)).setWidth 32 = b.setWidth 32 := by
    rcases eq_zero_or_one_of_toNat_le_one hb with h | h <;> rw [h] <;> rfl
  have hm : e.cfg.keyLen = m := e.cfg.keyLen_eq
  have hexec : exec i s = crcAdvance e l (b.getLsbD 0) s := exec_crc_feeds hi hr hchk hst hlt hb
  rw [crcAdvance, crcFeed, ConfigRegs.key, hbit, hm] at hexec
  exact hexec

/-- Settles O47, by `run_crcchk`. -/
theorem crcchkRuns : Obligations.CrcchkRuns := by
  refine ⟨?_, fun s e l hr hst => ⟨_, exec_crcchk_complete hr hst, crcchk_ends s e l⟩⟩
  intro s e hf hp hab hw hchk hr ha hbits m rem
  have hm : e.cfg.keyLen = m := e.cfg.keyLen_eq
  have hrun := run_crcchk ⟨.inl rfl, hf.2, hab, hchk, hr, ha⟩ hf.1 hp hbits
  rw [ConfigRegs.key, hm, hw] at hrun
  exact hrun

end Sys2Proof.Proofs
end

section
/-!
CRCENC after the source bits (46_crc.md R317): the appended zeros, the remainder, the codeword's bytes one by one, the completion.
-/
namespace Sys2Proof.Machine

/-! ### A run of bytes in BUF -/

/-- The memory with bytes `f 0` to `f (j - 1)` stored in order from `base` on. -/
def putBytes (m : Memory) (base : Nat) (f : Nat → Byte) : Nat → Memory
  | 0 => m
  | j + 1 => (putBytes m base f j).writeByte (base + j) (f j)

section PutBytes
variable (m : Memory) (base : Nat) (f : Nat → Byte)

theorem readByte_putBytes_outside {j a : Nat} (ha : a < base ∨ base + j ≤ a) :
    (putBytes m base f j).readByte a = m.readByte a := by
  induction j with
  | zero => rfl
  | succ j ih => exact (Memory.readByte_writeByte_other _ _ (by omega)).trans (ih (by omega))

theorem readByte_putBytes_inside {j k : Nat} (hk : k < j) : (putBytes m base f j).readByte (base + k) = f k := by
  induction j with
  | zero => exact absurd hk k.not_lt_zero
  | succ j ih =>
    rcases Nat.lt_succ_iff_lt_or_eq.1 hk with hlt | rfl
    · exact (Memory.readByte_writeByte_other _ _ (by omega)).trans (ih hlt)
    · exact Memory.readByte_writeByte_same _ _ _

end PutBytes

theorem bitsAt_eq_map (m : Memory) (base n : Nat) :
    bitsAt m base n = (List.range n).map fun k => (m.readByte (base + k)).getLsbD 0 := by
  induction n with
  | zero => rfl
  | succ n ih => rw [bitsAt, ih, List.range_succ, List.map_append, List.map_singleton]

/-! ### Regions -/

/-- The regions of a checked command overlap only as R136 of 40_command.md allows. -/
theorem Checked.compatible {i : Instr} {s : State} {e : Engine} (h : Checked i s e) :
    (planOf i e).regions.Pairwise (Region.Compatible (planOf i e).inPlace) := by
  rw [← anyClash_eq_false_iff]
  unfold Checked CheckPlan.firstError at h
  split_ifs at h with _ _ _ hclash
  exact Bool.eq_false_iff.2 hclash

section Regions
variable {s : State} {e : Engine} (hchk : Checked .crcenc s e)
include hchk

/-- No source byte of CRCENC lies in its destination. -/
theorem crcenc_source_outside {k : Nat} (hk : k < e.count) :
    e.src + k < e.dst ∨ e.dst + (e.count + e.cfg.keyLen - 1) ≤ e.src + k := by
  by_contra hin
  have hpair : Region.Compatible false ⟨e.src, e.count, .bit, .read⟩ ⟨e.dst, e.count + e.cfg.keyLen - 1, .bit, .write⟩ :=
    (List.pairwise_cons.1 hchk.compatible).1 _ List.mem_cons_self
  exact Bool.false_ne_true (hpair ⟨e.src + k, ⟨by dsimp only; omega, by dsimp only; omega⟩, by dsimp only; omega⟩).1

theorem crcenc_dst_inside {k : Nat} (hk : k < e.count + e.cfg.keyLen - 1) : e.dst + k < s.params.bufBytes := by
  have hin := hchk.region_inside (r := ⟨e.dst, e.count + e.cfg.keyLen - 1, .bit, .write⟩)
    (List.mem_cons_of_mem _ List.mem_cons_self) (by dsimp only; omega)
  dsimp only at hin
  omega

end Regions

/-! ### The codeword -/

/-- Byte `k` of the codeword in BUF: the source byte itself, then the remainder's bits, highest power first (R317). -/
def codewordByte (s : State) (e : Engine) (rem : Word) (k : Nat) : Byte :=
  if k < e.count then s.buf.readByte (e.src + k)
  else (BitVec.ofBool (rem.getLsbD (e.cfg.keyLen - 2 - (k - e.count)))).setWidth 8

theorem codewordByte_le_one {s : State} {e : Engine} (hbits : ∀ j, j < e.count → (s.buf.readByte (e.src + j)).toNat ≤ 1)
    (rem : Word) (k : Nat) : (codewordByte s e rem k).toNat ≤ 1 := by
  unfold codewordByte
  split
  · exact hbits k ‹_›
  · cases rem.getLsbD (e.cfg.keyLen - 2 - (k - e.count)) <;> decide

/-- The bits of those bytes are the source's, then the remainder's. -/
theorem map_codewordByte {s : State} {e : Engine} {rem : Word} (hkey : 1 ≤ e.cfg.keyLen) :
    ((List.range (e.count + e.cfg.keyLen - 1)).map fun k => (codewordByte s e rem k).getLsbD 0) =
      bitsAt s.buf e.src e.count ++ remainderBits e.cfg.keyLen rem := by
  have hbit (b : Bool) : ((BitVec.ofBool b).setWidth 8 : Byte).getLsbD 0 = b := by cases b <;> rfl
  rw [Nat.add_sub_assoc hkey, List.range_add, List.map_append, List.map_map, bitsAt_eq_map, remainderBits]
  congr 1
  · refine List.map_congr_left fun k hk => ?_
    rw [codewordByte, if_pos (List.mem_range.1 hk)]
  · refine List.map_congr_left fun k _ => ?_
    rw [Function.comp, codewordByte, if_neg (by omega), hbit, Nat.add_sub_cancel_left]

/-- A step of a checked CRCENC's output stores the next byte of the codeword and counts it (R317; 40_command.md R141). -/
theorem crcencOutput_stores {s : State} {e : Engine} {l : CrcLoop} (hchk : Checked .crcenc s e)
    (hlt : l.i < e.count + e.cfg.keyLen - 1) :
    crcencOutput e l s =
      .next (State.withEng { s with buf := s.buf.writeByte (e.dst + l.i) (codewordByte s e l.rem l.i) }
        ((e.wrote 1).goto (.crc { l with i := l.i + 1 }))) := by
  have hdst := crcenc_dst_inside hchk hlt
  rw [crcencOutput, codewordByte]
  by_cases hi : l.i < e.count
  · have hload := hchk.loadB_eq (r := ⟨e.src, e.count, .bit, .read⟩) List.mem_cons_self hi
    rw [if_pos hi, if_pos hi, hload, orFault_some, crcencStore, copyByte_eq_some.2 ⟨hdst, rfl⟩, orFault_some]
  · rw [if_neg hi, if_neg hi, if_pos hlt, crcencStore, storeB_eq_some.2 ⟨hdst, rfl⟩, orFault_some]

/-- The state of CRCENC with `j` bytes of the codeword of `bits` written. -/
def State.crcWriting (s : State) (e : Engine) (bits : List Bool) (j : Nat) : State :=
  State.crcAt { s with buf := putBytes s.buf e.dst (codewordByte s e (crcRem e.cfg.keyLen e.cfg.key bits)) j } (e.wrote j)
    (outputAt e bits j)

/-- The bits that CRCENC divides: the data, then `m - 1` zeros (R317). -/
def crcencDividend (s : State) (e : Engine) : List Bool :=
  bitsAt s.buf e.src e.count ++ List.replicate (e.cfg.keyLen - 1) false

/-- The state that CRCENC ends in (R317). -/
def State.afterCrcenc (s : State) (e : Engine) : State :=
  let rem := crcRem e.cfg.keyLen e.cfg.key (crcencDividend s e)
  { s with
    results := { s.results with
      crcRem := rem, crcRes := 0, outLen := BitVec.ofNat 32 (e.written + (e.count + e.cfg.keyLen - 1)) }
    status := s.status.completed
    buf := putBytes s.buf e.dst (codewordByte s e rem) (e.count + e.cfg.keyLen - 1)
    eng := none }

theorem exec_crcenc_complete {s : State} {e : Engine} {l : CrcLoop} (hr : RunningAt .crcenc s e (.crc l))
    (hst : l.stage = .output) (hkey : 1 ≤ e.cfg.keyLen) (hend : ¬ l.i < e.count + e.cfg.keyLen - 1) :
    exec .crcenc s = .next (complete (crcencResults l) e s) := by
  have hcopied : ¬ l.i < e.count := by omega
  rw [exec_crcenc_running hr, hst]
  exact (if_neg hcopied).trans (if_neg hend)

/-! ### The steps after the source bits -/

section Crcenc
variable {s : State} {e : Engine} (h : CrcRuns .crcenc s e)
include h

theorem CrcRuns.keyLen_pos : 1 ≤ e.cfg.keyLen := by
  have hkey := (keyLen_of_not_bad (c := e.cfg) h.checked.argOk).1
  omega

/-- What CRCENC writes leaves it a checked, running command. -/
theorem CrcRuns.wrote (m : Memory) (j : Nat) : CrcRuns .crcenc { s with buf := m } (e.wrote j) :=
  ⟨h.isCrc, h.cmd, h.noAbort, h.checked, h.noReset, h.noTurns⟩

theorem step_crcenc_zero {bits : List Bool} (hdone : e.count ≤ bits.length)
    (hlt : bits.length < e.count + e.cfg.keyLen - 1) :
    step (s.crcAt e (divideAt e bits)) = .next (s.crcAt e (divideAt e (bits ++ [false]))) := by
  rw [h.step_crcAt, exec_crcenc_running (h.running _)]
  exact ((if_neg hdone.not_gt).trans (if_pos hlt)).trans (crcAdvance_divideAt s e bits false)

theorem step_crcenc_remainder {bits : List Bool} (hlen : e.count + e.cfg.keyLen - 1 = bits.length) :
    step (s.crcAt e (divideAt e bits)) = .next (s.crcWriting e bits 0) := by
  have hpos := h.keyLen_pos
  have hdone : ¬ bits.length < e.count := by omega
  rw [h.step_crcAt, exec_crcenc_running (h.running _)]
  exact ((if_neg hdone).trans (if_neg hlen.not_gt)).trans (crcTakeRemainder_divideAt s e bits)

/-- The appended zero bits, by induction on them. -/
theorem run_crcenc_zeros {bits : List Bool} (hlen : bits.length = e.count) (k : Nat) (hk : k ≤ e.cfg.keyLen - 1) :
    core.run k (s.crcAt e (divideAt e bits)) = .next (s.crcAt e (divideAt e (bits ++ List.replicate k false))) := by
  induction k with
  | zero => rw [List.replicate_zero, List.append_nil]; rfl
  | succ k ih =>
    have hfed : (bits ++ List.replicate k false).length = e.count + k := by
      rw [List.length_append, List.length_replicate, hlen]
    have hstep := step_crcenc_zero h (bits := bits ++ List.replicate k false) (by omega) (by omega)
    rw [List.append_assoc, ← List.replicate_succ'] at hstep
    exact run_snoc (ih (by omega)) hstep

/-- The next byte of the codeword is what it was before the bytes already stored: none of them is a source byte. -/
theorem step_crcenc_store {bits : List Bool} {j : Nat} (hj : j < e.count + e.cfg.keyLen - 1) :
    step (s.crcWriting e bits j) = .next (s.crcWriting e bits (j + 1)) := by
  have hw := h.wrote (putBytes s.buf e.dst (codewordByte s e (crcRem e.cfg.keyLen e.cfg.key bits)) j) j
  have hbyte : codewordByte (s.crcWriting e bits j) e (outputAt e bits j).rem j =
      codewordByte s e (crcRem e.cfg.keyLen e.cfg.key bits) j := by
    unfold codewordByte
    split
    · next hi =>
      have hout := crcenc_source_outside h.checked hi
      exact readByte_putBytes_outside _ _ _ (by omega)
    · rfl
  have houtput := crcencOutput_stores (hw.checkedAt (outputAt e bits j)) (l := outputAt e bits j) hj
  rw [State.crcWriting, hw.step_crcAt, exec_crcenc_running (hw.running _)]
  refine houtput.trans ?_
  rw [State.crcWriting, putBytes, ← hbyte]
  rfl

/-- The whole output, by induction on its bytes. -/
theorem run_crcenc_output (bits : List Bool) (j : Nat) (hj : j ≤ e.count + e.cfg.keyLen - 1) :
    core.run j (s.crcWriting e bits 0) = .next (s.crcWriting e bits j) := by
  induction j with
  | zero => rfl
  | succ j ih => exact run_snoc (ih (by omega)) (step_crcenc_store h hj)

theorem step_crcenc_complete :
    step (s.crcWriting e (crcencDividend s e) (e.count + e.cfg.keyLen - 1)) = .next (s.afterCrcenc e) := by
  have hw := h.wrote (s.afterCrcenc e).buf (e.count + e.cfg.keyLen - 1)
  exact (hw.step_crcAt _).trans (exec_crcenc_complete (hw.running (outputAt e _ _)) rfl h.keyLen_pos (lt_irrefl _))

/-- CRCENC from its check step to its end: the check, the source bits, the zeros, the remainder, the output, the completion. -/
theorem run_crcenc (heng : s.eng = some e) (hp : e.progress = .check)
    (hbits : ∀ j, j < e.count → (s.buf.readByte (e.src + j)).toNat ≤ 1) :
    core.run (2 * e.count + 2 * e.cfg.keyLen + 1) s = .next (s.afterCrcenc e) := by
  have hpos := h.keyLen_pos
  have hdata := length_bitsAt s.buf e.src e.count
  have hlen : e.count + e.cfg.keyLen - 1 = (crcencDividend s e).length := by
    rw [crcencDividend, List.length_append, List.length_replicate, hdata]
    omega
  have hsource := h.run_source heng hp e.count le_rfl hbits
  have hzeros := (run_trans hsource _).trans (run_crcenc_zeros h hdata (e.cfg.keyLen - 1) le_rfl)
  have hdivided := run_snoc hzeros (step_crcenc_remainder h hlen)
  have hstored := (run_trans hdivided _).trans (run_crcenc_output h _ (e.count + e.cfg.keyLen - 1) le_rfl)
  have hrun := run_snoc hstored (step_crcenc_complete h)
  rwa [show e.count + 1 + (e.cfg.keyLen - 1) + 1 + (e.count + e.cfg.keyLen - 1) + 1 = 2 * e.count + 2 * e.cfg.keyLen + 1 by
    omega] at hrun

end Crcenc

/-- The destination holds the codeword (46_crc.md R317). -/
theorem bitsAt_afterCrcenc (s : State) {e : Engine} (hkey : 1 ≤ e.cfg.keyLen) :
    bitsAt (s.afterCrcenc e).buf e.dst (e.count + e.cfg.keyLen - 1) =
      crcCodeword e.cfg.keyLen e.cfg.key (bitsAt s.buf e.src e.count) := by
  rw [crcCodeword, ← map_codewordByte hkey, bitsAt_eq_map]
  refine List.map_congr_left fun k hk => ?_
  rw [State.afterCrcenc, readByte_putBytes_inside _ _ _ (List.mem_range.1 hk), crcencDividend]

theorem afterCrcenc_byte_le_one {s : State} {e : Engine}
    (hbits : ∀ j, j < e.count → (s.buf.readByte (e.src + j)).toNat ≤ 1) {k : Nat} (hk : k < e.count + e.cfg.keyLen - 1) :
    ((s.afterCrcenc e).buf.readByte (e.dst + k)).toNat ≤ 1 := by
  rw [State.afterCrcenc, readByte_putBytes_inside _ _ _ hk]
  exact codewordByte_le_one hbits _ k

theorem sameBufOutside_afterCrcenc (s : State) (e : Engine) :
    SameBufOutside s (s.afterCrcenc e) e.dst (e.count + e.cfg.keyLen - 1) :=
  fun _ ha => readByte_putBytes_outside _ _ _ ha

end Sys2Proof.Machine

namespace Sys2Proof.Proofs
open Sys2Proof Sys2Proof.Machine

/-- Settles O48: `run_crcenc` gives the end state, the lemmas about `State.afterCrcenc` what BUF holds there. -/
theorem crcencRuns : Obligations.CrcencRuns := by
  constructor
  · intro s e hf hp hab hw hchk hr ha hbits n m key data
    have hm : e.cfg.keyLen = m := e.cfg.keyLen_eq
    have hkey : e.cfg.key = key := by rw [ConfigRegs.key, hm]; rfl
    have h : CrcRuns .crcenc s e := ⟨.inr rfl, hf.2, hab, hchk, hr, ha⟩
    have hres : (s.afterCrcenc e).results = { s.results with
        crcRem := crcRem e.cfg.keyLen e.cfg.key (data ++ List.replicate (e.cfg.keyLen - 1) false), crcRes := 0
        outLen := BitVec.ofNat 32 (n + e.cfg.keyLen - 1) } := by
      rw [State.afterCrcenc, hw, Nat.zero_add]
      rfl
    rw [← hkey, ← hm]
    exact ⟨_, run_crcenc h hf.1 hp hbits, ⟨rfl, rfl, rfl, rfl, rfl, rfl, rfl, rfl⟩, rfl, hres, rfl,
      bitsAt_afterCrcenc s h.keyLen_pos, fun _ => afterCrcenc_byte_le_one hbits, sameBufOutside_afterCrcenc s e⟩
  · intro s e l hr hchk hst hend
    rw [← ConfigRegs.keyLen_eq] at hend
    have hkey := (keyLen_of_not_bad (c := e.cfg) hchk.argOk).1
    exact ⟨_, exec_crcenc_complete hr hst (by omega) hend, complete_ends (crcencResults l) e s⟩

end Sys2Proof.Proofs
end

section
/-!
CRCCHK of what CRCENC wrote (46_crc.md R319). With only the engine moving a run has one idle state at most, so a CRCENC that ended
without an error ended as `run_crcenc` says.
-/
namespace Sys2Proof.Machine

/-! ### The one idle state of a run -/

theorem SameHostSide.refl (s : State) : SameHostSide s s := ⟨rfl, rfl, rfl, rfl, rfl, rfl, rfl, rfl⟩

theorem State.Stored.sameHostSide {s t : State} (h : s.Stored t) : SameHostSide s t := by
  obtain ⟨m, -, rfl⟩ := h
  exact .refl s

/-- No engine step moves the host's side (40_command.md R144). -/
theorem EngineStep.sameHostSide {i : Instr} {s t : State} {e : Engine} (h : EngineStep i s e t) : SameHostSide s t := by
  cases h with
  | error c e' hs =>
    have hsame := hs.sameHostSide
    exact hsame
  | moves hs he hl =>
    have hsame := hs.sameHostSide
    exact hsame
  | completes hown hres => exact .refl s

/-- A state of the invariant in which only the engine moves. -/
structure State.EngineOnly (s : State) : Prop where
  good : s.Good
  noReset : s.resetAsserted = false
  noTurns : s.agenda = []

section EngineOnly
variable {s t u : State} (hs : s.EngineOnly)
include hs

theorem State.EngineOnly.step_eq : step s = engineTurn s := by
  have hsame : { s with agenda := [] } = s := by rw [← hs.noTurns]
  rw [step_engineTurn hs.noReset (.inr ⟨hs.noTurns, rfl⟩), hsame]

theorem State.EngineOnly.step_idle (hidle : s.eng = none) : step s = .next s := by
  rw [hs.step_eq, engineTurn, hidle]

theorem State.EngineOnly.sameHostSide_of_step (h : step s = .next t) : SameHostSide s t := by
  rw [hs.step_eq] at h
  cases he : s.eng with
  | none =>
    rw [engineTurn, he] at h
    cases h
    exact .refl s
  | some e =>
    cases hd : decodeCmd e.cmd with
    | ok i =>
      obtain ⟨hi, hcmd⟩ := (decodeCmd_eq_ok_iff e.cmd i).1 hd
      rw [engineTurn_legal he hd] at h
      exact (engineStep_of_exec hi hs.good ⟨he, hcmd⟩ h).1.sameHostSide
    | error r =>
      rw [engineTurn_illegal he hd] at h
      cases h
      exact .refl s

theorem State.EngineOnly.of_step (h : step s = .next t) : t.EngineOnly := by
  obtain ⟨-, -, -, -, -, hreset, hagenda, -⟩ := hs.sameHostSide_of_step h
  exact ⟨hs.good.step h, hreset.trans hs.noReset, hagenda.trans hs.noTurns⟩

theorem State.EngineOnly.of_run {k : Nat} (h : core.run k s = .next t) : t.EngineOnly := by
  induction k generalizing s with
  | zero => exact Host.Outcome.next.inj h ▸ hs
  | succ k ih =>
    obtain ⟨v, hv⟩ := step_goes_on hs.good
    exact ih (hs.of_step hv) ((run_succ hv k).symm.trans h)

theorem State.EngineOnly.run_idle (hidle : s.eng = none) (k : Nat) : core.run k s = .next s := by
  induction k with
  | zero => rfl
  | succ k ih => exact (run_succ (hs.step_idle hidle) k).trans ih

/-- Two idle states of one run are the same. -/
theorem State.EngineOnly.idle_unique {j k : Nat} (ht : core.run j s = .next t) (hu : core.run k s = .next u)
    (htidle : t.eng = none) (huidle : u.eng = none) : t = u := by
  have hfromT := (run_trans ht k).trans ((hs.of_run ht).run_idle htidle k)
  have hfromU := (run_trans hu j).trans ((hs.of_run hu).run_idle huidle j)
  rw [Nat.add_comm] at hfromU
  exact Host.Outcome.next.inj (hfromT.symm.trans hfromU)

end EngineOnly

/-! ### What a run without an error tells -/

/-- Nothing is written before the check step (40_command.md R132). -/
theorem State.Good.written_of_check {s : State} {e : Engine} (hg : s.Good) (heng : s.eng = some e)
    (hp : e.progress = .check) : e.written = 0 := by
  have hok := (hg.engine e heng).progress
  rw [Engine.progressOk, hp] at hok
  exact beq_iff_eq.1 hok

section NoError
variable {s t : State} {e : Engine} {k : Nat} (hs : s.EngineOnly) (hrun : core.run k s = .next t) (hidle : t.eng = none)
  (herr : t.status.err = false) (heng : s.eng = some e) (hp : e.progress = .check)
include hs hrun hidle herr

theorem run_ne_takeError (j : Nat) (c : ErrCode) (e' : Engine) (s' : State) :
    core.run j s ≠ .next (takeError c e' s') := by
  intro hj
  obtain rfl := hs.idle_unique hrun hj hidle rfl
  exact Bool.false_ne_true herr.symm

include heng hp

/-- The check step passed. -/
theorem checked_of_no_error {i : Instr} (hi : i.port = .cmd) (hcmd : e.cmd = encode i) : Checked i s e := by
  have hcheck := (step_inFlight hi hs.noReset hs.noTurns ⟨heng, hcmd⟩).trans (exec_check hi ⟨heng, hcmd⟩ hp)
  obtain ⟨c, -, hfail⟩ | ⟨hpass, -⟩ := checkStep_eq (planOf i e) (startOf i e) s e
  · exact absurd (run_succ (hcheck.trans hfail) 0) (run_ne_takeError hs hrun hidle herr 1 c e s)
  · exact hpass

/-- No source byte was refused: the first to be so would have ended the run. -/
theorem source_bits_of_no_error {i : Instr} (h : CrcRuns i s e) (j : Nat) (hj : j < e.count) :
    (s.buf.readByte (e.src + j)).toNat ≤ 1 := by
  induction j using Nat.strongRecOn with
  | ind j ih =>
    by_contra hb
    have hfed := h.run_source heng hp j hj.le fun j' hj' => ih j' hj' (hj'.trans hj)
    have hrefused := h.step_refused (bits := bitsAt s.buf e.src j)
    rw [length_bitsAt] at hrefused
    exact run_ne_takeError hs hrun hidle herr _ _ _ _ (run_snoc hfed (hrefused hj (not_le.1 hb)))

/-- So CRCENC ended as `run_crcenc` says. -/
theorem crcenc_end_of_no_error (h : CrcRuns .crcenc s e) : t = s.afterCrcenc e :=
  hs.idle_unique hrun (run_crcenc h heng hp (source_bits_of_no_error hs hrun hidle herr heng hp h)) hidle rfl

end NoError

/-! ### CRCCHK of the codeword -/

/-- A legal key and a source inside BUF are all that CRCCHK's checks ask for (46_crc.md R311, R316). -/
theorem checked_crcchk {s : State} {e : Engine} (hkey : keyLenBad e.cfg = false)
    (hin : e.src + e.count ≤ s.params.bufBytes) : Checked .crcchk s e := by
  simp [Checked, planOf, crcchkPlan, CheckPlan.firstError, anyClash, Region.misaligned, Region.outOfRange, hkey, hin]

/-- OUT_LEN holds the codeword's length: BUF has less than 2^32 bytes (00_scope.md R6). -/
theorem crcenc_length {s : State} {e : Engine} (hwf : s.params.wf = true) (hchk : Checked .crcenc s e) :
    e.dst + (e.count + e.cfg.keyLen - 1) ≤ s.params.bufBytes ∧ e.count + e.cfg.keyLen - 1 < 2 ^ 32 := by
  have hkey := (keyLen_of_not_bad (c := e.cfg) hchk.argOk).1
  have hin := hchk.region_inside (r := ⟨e.dst, e.count + e.cfg.keyLen - 1, .bit, .write⟩)
    (List.mem_cons_of_mem _ List.mem_cons_self) (by dsimp only; omega)
  simp only [Params.wf, Bool.and_eq_true] at hwf
  obtain ⟨⟨-, hfits⟩, -⟩ := hwf
  have hsize : s.params.bufBytes ≤ 0x00F00000 := of_decide_eq_true hfits
  dsimp only at hin
  omega

/-- CRCCHK of the codeword that CRCENC left in BUF finds no remainder (R319). -/
theorem run_crcchk_afterCrcenc {s s2 : State} {e e2 : Engine} (h2 : CrcRuns .crcchk s2 e2) (heng : s2.eng = some e2)
    (hp : e2.progress = .check) (hbits : ∀ j, j < e.count → (s.buf.readByte (e.src + j)).toNat ≤ 1)
    (hchk : Checked .crcenc s e) (hbuf : s2.buf = (s.afterCrcenc e).buf) (hkey : e2.cfg.crcKey = e.cfg.crcKey)
    (hcfg : e2.cfg.crcCfg = e.cfg.crcCfg) (hsrc : e2.src = e.dst) (hcount : e2.count = e.count + e.cfg.keyLen - 1) :
    ∃ t, core.run (e2.count + 3) s2 = .next t ∧
      EndsWell { s2.results with crcRem := 0, crcRes := 1 } e2.written s2 t := by
  obtain ⟨hpos, hmax⟩ := keyLen_of_not_bad (c := e.cfg) hchk.argOk
  have hlen : e2.cfg.keyLen = e.cfg.keyLen := by rw [ConfigRegs.keyLen, hcfg, ConfigRegs.keyLen]
  have hword : e2.cfg.key = e.cfg.key := by rw [ConfigRegs.key, hkey, hlen, ConfigRegs.key]
  have hrem : crcRem e2.cfg.keyLen e2.cfg.key (bitsAt s2.buf e2.src e2.count) = 0 := by
    rw [hlen, hword, hbuf, hsrc, hcount, bitsAt_afterCrcenc s (by omega)]
    exact crcRem_crcCodeword (by omega) hmax _ _
  have hrun := run_crcchk h2 heng hp fun j hj => by
    rw [hbuf, hsrc]
    exact afterCrcenc_byte_le_one hbits (hcount ▸ hj)
  rw [hrem] at hrun
  exact hrun

end Sys2Proof.Machine

namespace Sys2Proof.Proofs
open Sys2Proof Sys2Proof.Machine

/-- Settles O52: the CRCENC ended in `State.afterCrcenc`, whose codeword the CRCCHK divides. -/
theorem encodedThenCheckedPasses : Obligations.EncodedThenCheckedPasses := by
  intro s s1 s2 e e2 k hgood hf hp hab hr ha hrun hidle herr hf2 hp2 hab2 hw2 hr2 ha2 hbuf hparams hkey hcfg hsrc hcount
  have hs : s.EngineOnly := ⟨(good_iff s).1 hgood, hr, ha⟩
  have hchk : Checked .crcenc s e := checked_of_no_error hs hrun hidle herr hf.1 hp rfl hf.2
  have h : CrcRuns .crcenc s e := ⟨.inr rfl, hf.2, hab, hchk, hr, ha⟩
  have hbits := source_bits_of_no_error hs hrun hidle herr hf.1 hp h
  obtain rfl := crcenc_end_of_no_error hs hrun hidle herr hf.1 hp h
  obtain ⟨hin, hfits⟩ := crcenc_length hs.good.params hchk
  have hw : e.written = 0 := hs.good.written_of_check hf.1 hp
  have hsrc' : e2.src = e.dst := congrArg BitVec.toNat hsrc
  have hcount' : e2.count = e.count + e.cfg.keyLen - 1 := by
    rw [Engine.count, hcount, State.afterCrcenc, hw, Nat.zero_add]
    exact Nat.mod_eq_of_lt hfits
  have hbad : keyLenBad e2.cfg = false := by
    rw [keyLenBad, ConfigRegs.keyLen, hcfg]
    exact hchk.argOk
  have hchk2 : Checked .crcchk s2 e2 := checked_crcchk hbad (by rw [hparams, hsrc', hcount']; exact hin)
  have hends := run_crcchk_afterCrcenc ⟨.inl rfl, hf2.2, hab2, hchk2, hr2, ha2⟩ hf2.1 hp2 hbits hchk hbuf hkey hcfg hsrc'
    hcount'
  rw [hw2] at hends
  exact hends

end Sys2Proof.Proofs
end

section
/-!
Every command ends within the bound of 70_reset_and_hazards.md R466: the steps that are left at each loop state go down with every
step that leaves the command in flight.
-/
namespace Sys2Proof.Machine

/-! ### The steps that are left -/

/-- IQCORR, of `n` samples: both passes, the estimate between them and the completion (43_iq_imbalance.md R231). -/
def iqStepsLeft (n : Nat) (l : IqLoop) : Nat :=
  match l.stage with
  | .empty => 1
  | .estimate => (n - l.k) + 1 + (n + 1)
  | .correct => (n - l.k) + 1

/-- FSYNC's two copies at their longest, the step between them and the completion (44_preamble_correlator.md R259 to R261). -/
def copySteps (e : Engine) : Nat := (e.cfg.preLen + e.scalar) + 1 + (e.scalar + 1)

/-- FSYNC's lag sums, the start of the scan, the scan of the other lags, the window and all that follows (R257 to R259). -/
def lagSteps (e : Engine) : Nat := lagCount e + 1 + (lagCount e + copySteps e)

/-- FSYNC, by its stage (44_preamble_correlator.md R262). -/
def fsStepsLeft (e : Engine) (l : FsLoop) : Nat :=
  match l.stage with
  | .magnitude => (e.count - l.i) + 1 + (e.count + lagSteps e)
  | .rescale => (e.count - l.i) + lagSteps e
  | .lags => (lagCount e - l.i) + 1 + (lagCount e + copySteps e)
  | .scan => (lagCount e - l.i) + 1 + copySteps e
  | .copyFull => (l.full - l.i) + 1 + (l.full - e.cfg.preLen + 1)
  | .copyPay => (l.pay - l.i) + 1
  | .degenerate => 1

/-- A division of `fed` bits, then `out` elements of output and the completion (46_crc.md R316, R317). -/
def crcStepsLeft (fed out : Nat) (l : CrcLoop) : Nat :=
  match l.stage with
  | .divide => (fed - l.i) + 1 + (out + 1)
  | .output => (out - l.i) + 1

/-- The most steps that command `i` can still take from `p`, its completion included. -/
def Engine.stepsAt (i : Instr) (e : Engine) : Progress → Nat
  | .check => stepBound e
  | .nop => 1
  | .trMm l => (e.count - l.iOut) + 1
  | .costas l => (e.count - l.i) + 1
  | .iqcorr l => iqStepsLeft e.count l
  | .fsync l => fsStepsLeft e l
  | .demap l => (e.count - l.i) + 1
  | .crc l =>
    if i = .crcenc then crcStepsLeft (e.count + e.cfg.keyLen - 1) (e.count + e.cfg.keyLen - 1) l
    else crcStepsLeft e.count 0 l

/-- The most steps that command `i` in flight with record `e` can still take. -/
def Engine.stepsLeft (i : Instr) (e : Engine) : Nat := e.stepsAt i e.progress

/-- They are counted from the captured operands and the loop state. -/
theorem Engine.SameCommand.stepsAt_eq {e e' : Engine} (h : e.SameCommand e') (i : Instr) (p : Progress) :
    e'.stepsAt i p = e.stepsAt i p := by
  obtain ⟨c, a, cf, ab, w, q⟩ := e
  obtain ⟨c', a', cf', ab', w', q'⟩ := e'
  obtain ⟨rfl, rfl, rfl⟩ := h
  cases p <;> rfl

theorem Engine.SameCommand.goto {e e' : Engine} (h : e.SameCommand e') (p : Progress) : e.SameCommand (e'.goto p) :=
  ⟨h.cmd, h.args, h.cfg⟩

theorem Engine.SameCommand.wrote (e : Engine) (n : Nat) : e.SameCommand (e.wrote n) := ⟨rfl, rfl, rfl⟩

theorem Engine.SameCommand.refl (e : Engine) : e.SameCommand e := ⟨rfl, rfl, rfl⟩

/-! ### The bound of R466 at the check step -/

theorem stepBound_of_decode {e : Engine} {i : Instr} (h : decodeCmd e.cmd = .ok i) :
    stepBound e = match i with
      | .nop => 2
      | .trMm => (e.count - 2) + 2
      | .costas | .demapOok | .demapBpsk | .demapQpsk | .demapQam16 => e.count + 2
      | .iqcorr => 2 * e.count + 3
      | .fsync => 4 * e.count + 3 * e.cfg.preLen + 2 * e.scalar + 6
      | .crcchk => e.count + 3
      | .crcenc => 2 * e.count + 2 * e.cfg.keyLen + 1
      | .srst | .abort => 0 := by
  cases i <;> simp only [stepBound, h]

theorem stepBound_of_illegal {e : Engine} {r : DecodeError} (h : decodeCmd e.cmd = .error r) : stepBound e = 1 := by
  rw [stepBound, h]

/-- Where a command starts, fewer steps are left than the bound allows it with its check step. -/
theorem stepsAt_startOf_lt {i : Instr} {s : State} {e : Engine} (hi : i.port = .cmd) (hc : e.cmd = encode i)
    (hchk : Checked i s e) : e.stepsAt i (startOf i e) < stepBound e := by
  rw [stepBound_of_decode (hc ▸ decodeCmd_encode hi)]
  cases i with
  | nop => exact Nat.lt_succ_self 1
  | trMm => exact Nat.lt_succ_self (e.count - 2 + 1)
  | costas | demapOok | demapBpsk | demapQpsk | demapQam16 => exact Nat.lt_succ_self (e.count + 1)
  | iqcorr =>
    by_cases hn : e.count = 0
    · simp only [Engine.stepsAt, startOf, iqStepsLeft, IqLoop.initial, hn, if_true]
      omega
    · simp only [Engine.stepsAt, startOf, iqStepsLeft, IqLoop.initial, hn, if_false]
      omega
  | fsync =>
    by_cases hn : e.count = 0
    · simp only [Engine.stepsAt, startOf, fsStepsLeft, FsLoop.initial, hn, if_true]
      omega
    · simp only [Engine.stepsAt, startOf, fsStepsLeft, FsLoop.initial, hn, if_false, lagSteps, copySteps, lagCount]
      omega
  | crcchk =>
    simp only [Engine.stepsAt, startOf, crcStepsLeft, CrcLoop.initial, reduceCtorEq, if_false]
    omega
  | crcenc =>
    have hkey : 2 ≤ e.cfg.keyLen := (keyLen_of_not_bad hchk.argOk).1
    simp only [Engine.stepsAt, startOf, crcStepsLeft, CrcLoop.initial, if_true]
    omega
  | srst | abort => cases hi

/-- A command in flight has a step left. -/
theorem stepsLeft_pos {i : Instr} {e : Engine} (hi : i.port = .cmd) (hc : e.cmd = encode i) : 0 < e.stepsLeft i := by
  unfold Engine.stepsLeft
  cases e.progress with
  | check =>
    show 0 < stepBound e
    rw [stepBound_of_decode (hc ▸ decodeCmd_encode hi)]
    cases i with
    | srst | abort => cases hi
    | _ => exact Nat.succ_pos _
  | nop | trMm | costas | demap => exact Nat.succ_pos _
  | iqcorr l =>
    simp only [Engine.stepsAt, iqStepsLeft]
    split <;> omega
  | fsync l =>
    simp only [Engine.stepsAt, fsStepsLeft, lagSteps]
    split <;> omega
  | crc l =>
    simp only [Engine.stepsAt, crcStepsLeft]
    split <;> split <;> omega

/-! ### A step that leaves fewer -/

/-- Wherever `o` leaves command `i` in flight, fewer than `n` steps are left. -/
def StepsWithin (i : Instr) (n : Nat) (o : Out) : Prop :=
  ∀ t e, o = .next t → t.eng = some e → e.stepsLeft i < n

namespace StepsWithin
variable {i : Instr} {n : Nat} {s : State} {e e' : Engine}

theorem idle {t : State} (h : t.eng = none := by rfl) : StepsWithin i n (.next t) := by
  rintro _ e ⟨⟩ he
  cases h.symm.trans he

theorem fault (f : Fault) : StepsWithin i n (.fault f) := fun _ _ h => by cases h

/-- An access to BUF changes nothing here. -/
theorem access {α : Type} {o : Option α} {k : α → Out} (hk : ∀ a, o = some a → StepsWithin i n (k a)) :
    StepsWithin i n (orFault o k) := by
  intro t e' ht he'
  obtain ⟨a, ha, ht⟩ := orFault_eq_next.1 ht
  exact hk a ha t e' ht he'

theorem moves {p : Progress} (he : e.SameCommand e') (h : e.stepsAt i p < n) :
    StepsWithin i n (.next (s.withEng (e'.goto p))) := by
  rintro _ e'' ⟨⟩ he''
  obtain rfl : e'.goto p = e'' := Option.some.inj he''
  rwa [Engine.stepsLeft, (he.goto p).stepsAt_eq]

theorem fsGoto {l : FsLoop} (he : e.SameCommand e') (h : fsStepsLeft e l < n) :
    StepsWithin .fsync n (Machine.fsGoto e' l s) := moves he h

end StepsWithin

/-! ### Each command -/

section Commands
variable {s : State} {e : Engine}

theorem nop_stepsWithin (hr : RunningAt .nop s e .nop) : StepsWithin .nop 1 (exec .nop s) := by
  rw [exec_nop_running hr]
  exact .idle

theorem trMm_stepsWithin {l : TrLoop} (hr : RunningAt .trMm s e (.trMm l)) :
    StepsWithin .trMm ((e.count - l.iOut) + 1) (exec .trMm s) := by
  rw [exec_trMm_running hr]
  split
  case isFalse => exact .idle
  next hrun =>
  have hless : e.count - (l.iOut + 1) + 1 < e.count - l.iOut + 1 := by
    have hlt := (TrLoop.running_iff.1 hrun).1
    omega
  unfold trMmIteration
  split
  · split
    · exact .idle
    · refine .access fun z _ => .access fun s1 _ => ?_
      unfold trMmUpdate
      dsimp only
      split
      · exact .access fun s2 _ => .moves (.wrote e 1) hless
      · exact .idle
  · exact .fault _

theorem costas_stepsWithin {l : CoLoop} (hr : RunningAt .costas s e (.costas l)) :
    StepsWithin .costas ((e.count - l.i) + 1) (exec .costas s) := by
  rw [exec_costas_running hr]
  split
  case isFalse => exact .idle
  next hi =>
  have hless : e.count - (l.i + 1) + 1 < e.count - l.i + 1 := by omega
  refine .access fun z _ => .access fun s1 _ => .access fun s2 _ => ?_
  unfold costasFinish
  split
  · split
    · exact .moves (.wrote e 1) hless
    · exact .idle
  · exact .idle

theorem iqEstimate_stepsWithin {l : IqLoop} (hst : l.stage = .estimate) :
    StepsWithin .iqcorr (iqStepsLeft e.count l) (iqEstimate e l s) := by
  have hless : e.count - 0 + 1 < iqStepsLeft e.count l := by
    simp only [iqStepsLeft, hst]
    omega
  unfold iqEstimate
  dsimp only
  iterate 5
    split
    · exact .idle
  exact .moves (.refl e) hless

theorem iqCorrectIteration_stepsWithin {l : IqLoop} (hst : l.stage = .correct) (hk : l.k < e.count) :
    StepsWithin .iqcorr (iqStepsLeft e.count l) (iqCorrectIteration e l s) := by
  have hless : iqStepsLeft e.count { l with k := l.k + 1 } < iqStepsLeft e.count l := by
    simp only [iqStepsLeft, hst]
    omega
  unfold iqCorrectIteration iqSource
  split
  · split
    · exact .access fun s1 _ => .moves (.wrote e 1) hless
    · exact .fault _
  · exact .access fun x _ => .access fun s1 _ => .moves (.wrote e 1) hless

theorem iqcorr_stepsWithin {l : IqLoop} (hr : RunningAt .iqcorr s e (.iqcorr l)) :
    StepsWithin .iqcorr (iqStepsLeft e.count l) (exec .iqcorr s) := by
  rw [exec_iqcorr_running hr]
  split
  · exact .idle
  · next hst =>
    split
    · next hk =>
      refine .access fun x _ => .moves (.refl e) ?_
      simp only [Engine.stepsAt, iqStepsLeft, hst]
      omega
    · exact iqEstimate_stepsWithin hst
  · next hst =>
    split
    · next hk => exact iqCorrectIteration_stepsWithin hst hk
    · exact .idle

/-- The window has at most `L + M` samples, so the copies take `copySteps` at most (44_preamble_correlator.md R259). -/
theorem fsWindowStep_stepsWithin {l : FsLoop} (hst : l.stage = .scan) (hidx : l.idx < lagCount e) :
    StepsWithin .fsync (fsStepsLeft e l) (fsWindowStep e l s) := by
  obtain ⟨-, hsize⟩ := fsWindow_bounds (m := e.scalar) hidx
  refine .fsGoto (.refl e) ?_
  simp only [fsStepsLeft, hst, copySteps]
  omega

theorem fsyncStep_stepsWithin {l : FsLoop} (hchk : Checked .fsync s e) (hl : fsLoopOk e l = true) :
    StepsWithin .fsync (fsStepsLeft e l) (fsyncStep e l s) := by
  cases hst : l.stage with
  | magnitude =>
    rw [fsyncStep_magnitude hst]
    split
    · next hi =>
      refine .access fun x _ => .fsGoto (.refl e) ?_
      simp only [fsStepsLeft, hst]
      omega
    · unfold fsScaleStep
      dsimp only
      split
      · refine .fsGoto (.refl e) ?_
        simp only [fsStepsLeft, hst, lagSteps]
        omega
      · refine .fsGoto (.refl e) ?_
        simp only [fsStepsLeft, hst]
        omega
  | rescale =>
    have hi : l.i < e.count := by
      simp only [fsLoopOk, hst, Bool.and_eq_true, decide_eq_true_eq] at hl
      exact hl.1.1.1
    rw [fsyncStep_rescale hst]
    refine .access fun x _ => ?_
    dsimp only
    split
    · split
      · refine .fsGoto (.refl e) ?_
        simp only [fsStepsLeft, hst]
        omega
      · refine .fsGoto (.refl e) ?_
        simp only [fsStepsLeft, hst, lagSteps]
        omega
    · refine .fsGoto (.refl e) ?_
      simp only [fsStepsLeft, hst, lagSteps]
      omega
  | lags =>
    have hlags : 0 < lagCount e := by
      have hcount := (count_pos_and_length_c_of_lags hl hst).1
      have hpre := preLen_pos_of_checked hchk
      unfold lagCount
      omega
    simp only [fsyncStep, hst]
    split
    · refine .fsGoto (.refl e) ?_
      simp only [fsStepsLeft, hst]
      omega
    · unfold fsScanStart
      split
      · refine .fsGoto (.refl e) ?_
        simp only [fsStepsLeft, hst]
        omega
      · exact .fault _
  | scan =>
    have hless {l' : FsLoop} (hst' : l'.stage = .scan) (hi' : l'.i = l.i + 1) (hi : l.i < lagCount e) :
        fsStepsLeft e l' < fsStepsLeft e l := by
      simp only [fsStepsLeft, hst, hst', hi']
      omega
    simp only [fsyncStep, hst]
    split
    · next hi =>
      unfold fsScan
      split
      · split
        · exact .fsGoto (.refl e) (hless hst rfl hi)
        · exact .fsGoto (.refl e) (hless hst rfl hi)
      · exact .fault _
    · refine fsWindowStep_stepsWithin hst ?_
      simp only [fsLoopOk, hst, Bool.and_eq_true, decide_eq_true_eq] at hl
      obtain ⟨⟨⟨⟨-, hi⟩, -⟩, hidx⟩, -⟩ := hl
      exact lt_of_lt_of_le hidx hi
  | copyFull =>
    simp only [fsyncStep, hst]
    split
    · refine .access fun x _ => .access fun s1 _ => .fsGoto (.wrote e 1) ?_
      simp only [fsStepsLeft, hst]
      omega
    · refine .fsGoto (.refl e) ?_
      simp only [fsStepsLeft, hst]
      omega
  | copyPay =>
    simp only [fsyncStep, hst]
    split
    · refine .access fun x _ => .access fun s1 _ => .fsGoto (.refl e) ?_
      simp only [fsStepsLeft, hst]
      omega
    · exact .idle
  | degenerate =>
    simp only [fsyncStep, hst]
    exact .idle

theorem fsync_stepsWithin {l : FsLoop} (hr : RunningAt .fsync s e (.fsync l)) (hchk : Checked .fsync s e)
    (hl : fsLoopOk e l = true) : StepsWithin .fsync (fsStepsLeft e l) (exec .fsync s) := by
  rw [exec_fsync_running hr]
  exact fsyncStep_stepsWithin hchk hl

theorem demap_stepsWithin (hs : s.buf.Fits s.params.bufBytes) {sch : Scheme} {l : DmLoop}
    (hr : RunningAt sch.instr s e (.demap l)) : StepsWithin sch.instr ((e.count - l.i) + 1) (exec sch.instr s) := by
  rw [exec_demap_running hr]
  split
  case isFalse => exact .idle
  next hi =>
  have hless : e.count - (l.i + 1) + 1 < e.count - l.i + 1 := by omega
  refine .access fun z _ => ?_
  dsimp only
  split
  · refine .access fun out hemit => ?_
    obtain ⟨-, k, hwrote, -⟩ := emitBits_stored (e' := out.1) (s' := out.2) hs hemit
    exact .moves (hwrote ▸ .wrote e k) hless
  · exact .idle

section Crc
variable {l : CrcLoop} {i : Instr} {n : Nat}

theorem crcAdvance_stepsWithin (h : ∀ r, e.stepsAt i (.crc { l with i := l.i + 1, r := r }) < n) (b : Bool) :
    StepsWithin i n (crcAdvance e l b s) := .moves (.refl e) (h _)

theorem crcFeedBit_stepsWithin (h : ∀ r, e.stepsAt i (.crc { l with i := l.i + 1, r := r }) < n) :
    StepsWithin i n (crcFeedBit e l s) := by
  refine .access fun b _ => ?_
  split
  · exact .idle
  · exact crcAdvance_stepsWithin h _

theorem crcchk_stepsWithin (hr : RunningAt .crcchk s e (.crc l)) :
    StepsWithin .crcchk (crcStepsLeft e.count 0 l) (exec .crcchk s) := by
  rw [exec_crcchk_running hr]
  split
  · next hst =>
    split
    · refine crcFeedBit_stepsWithin fun r => ?_
      simp only [Engine.stepsAt, reduceCtorEq, if_false, crcStepsLeft, hst]
      omega
    · refine .moves (.refl e) ?_
      simp only [Engine.stepsAt, reduceCtorEq, if_false, crcStepsLeft, hst]
      omega
  · exact .idle

theorem crcenc_stepsWithin (hr : RunningAt .crcenc s e (.crc l)) (hkey : 2 ≤ e.cfg.keyLen) :
    StepsWithin .crcenc (crcStepsLeft (e.count + e.cfg.keyLen - 1) (e.count + e.cfg.keyLen - 1) l) (exec .crcenc s) := by
  have hnext (hlt : l.i < e.count + e.cfg.keyLen - 1) (r : Word) :
      e.stepsAt .crcenc (.crc { l with i := l.i + 1, r := r }) <
        crcStepsLeft (e.count + e.cfg.keyLen - 1) (e.count + e.cfg.keyLen - 1) l := by
    simp only [Engine.stepsAt, if_true, crcStepsLeft]
    split <;> omega
  rw [exec_crcenc_running hr]
  split
  · next hst =>
    unfold crcencDivide
    split
    · exact crcFeedBit_stepsWithin (hnext (by omega))
    split
    · next hlt => exact crcAdvance_stepsWithin (hnext hlt) false
    · refine .moves (.refl e) ?_
      simp only [Engine.stepsAt, if_true, crcStepsLeft, hst]
      omega
  · unfold crcencOutput
    split
    · exact .access fun b _ => .access fun s1 _ => .moves (.wrote e 1) (hnext (by omega) l.r)
    split
    · next hlt => exact .access fun s1 _ => .moves (.wrote e 1) (hnext hlt l.r)
    · exact .idle

end Crc
end Commands

/-! ### A command in flight -/

section InFlight
variable {i : Instr} {s : State} {e : Engine} (hi : i.port = .cmd) (hg : s.Good) (hf : InFlight i s e)
include hi hg hf

theorem exec_stepsWithin_of_running (hp : e.progress ≠ .check) (ha : e.abortReq = false) :
    StepsWithin i (e.stepsLeft i) (exec i s) := by
  obtain ⟨hchk, hl⟩ := hg.loop hi hf hp
  have hr {p : Progress} (hp : e.progress = p) : RunningAt i s e p := ⟨hf, hp, ha⟩
  have hdemap (sch : Scheme) (hsch : i = sch.instr) : StepsWithin i (e.stepsLeft i) (exec i s) := by
    subst hsch
    obtain ⟨l, hp, -⟩ := loopOk_demap_inv hl
    rw [Engine.stepsLeft, hp]
    exact demap_stepsWithin hg.buf (hr hp)
  cases i with
  | nop =>
    have hp := loopOk_nop_inv hl
    rw [Engine.stepsLeft, hp]
    exact nop_stepsWithin (hr hp)
  | trMm =>
    obtain ⟨l, hp, -⟩ := loopOk_trMm_inv hl
    rw [Engine.stepsLeft, hp]
    exact trMm_stepsWithin (hr hp)
  | costas =>
    obtain ⟨l, hp, -⟩ := loopOk_costas_inv hl
    rw [Engine.stepsLeft, hp]
    exact costas_stepsWithin (hr hp)
  | iqcorr =>
    obtain ⟨l, hp, -⟩ := loopOk_iqcorr_inv hl
    rw [Engine.stepsLeft, hp]
    exact iqcorr_stepsWithin (hr hp)
  | fsync =>
    obtain ⟨l, hp, hl⟩ := loopOk_fsync_inv hl
    rw [Engine.stepsLeft, hp]
    exact fsync_stepsWithin (hr hp) hchk hl
  | demapOok => exact hdemap .ook rfl
  | demapBpsk => exact hdemap .bpsk rfl
  | demapQpsk => exact hdemap .qpsk rfl
  | demapQam16 => exact hdemap .qam16 rfl
  | crcchk =>
    obtain ⟨l, hp, -⟩ := loopOk_crcchk_inv hl
    rw [Engine.stepsLeft, hp]
    exact crcchk_stepsWithin (hr hp)
  | crcenc =>
    obtain ⟨l, hp, -⟩ := loopOk_crcenc_inv hl
    rw [Engine.stepsLeft, hp]
    exact crcenc_stepsWithin (hr hp) (keyLen_of_not_bad hchk.argOk).1
  | srst | abort => cases hi

/-- Every step that leaves the command in flight leaves fewer steps. -/
theorem exec_stepsWithin : StepsWithin i (e.stepsLeft i) (exec i s) := by
  by_cases hp : e.progress = .check
  · rw [exec_check hi hf hp, Engine.stepsLeft, hp]
    obtain ⟨c, -, hfail⟩ | ⟨hpass, hstart⟩ := checkStep_eq (planOf i e) (startOf i e) s e
    · rw [hfail]
      exact .idle
    · rw [hstart]
      exact .moves (.refl e) (stepsAt_startOf_lt hi hf.2 hpass)
  cases ha : e.abortReq with
  | false => exact exec_stepsWithin_of_running hi hg hf hp ha
  | true =>
    rw [exec_aborted hi hf hp ha]
    exact .idle

end InFlight

/-! ### The run to the end -/

theorem SameHostSide.trans {s t u : State} (h : SameHostSide s t) (h' : SameHostSide t u) : SameHostSide s u := by
  obtain ⟨h1, h2, h3, h4, h5, h6, h7, h8⟩ := h
  obtain ⟨h1', h2', h3', h4', h5', h6', h7', h8'⟩ := h'
  exact ⟨h1'.trans h1, h2'.trans h2, h3'.trans h3, h4'.trans h4, h5'.trans h5, h6'.trans h6, h7'.trans h7, h8'.trans h8⟩

/-- An engine step ends the command with DONE set, or leaves the same command in flight. -/
theorem EngineStep.done_or_inFlight {i : Instr} {s t : State} {e : Engine} (h : EngineStep i s e t) :
    (t.eng = none ∧ t.status.done = true) ∨ ∃ e', t.eng = some e' ∧ e'.cmd = e.cmd := by
  cases h with
  | error c e' hs => exact .inl ⟨rfl, rfl⟩
  | moves hs he hl => exact .inr ⟨_, rfl, he.cmd⟩
  | completes hown hres => exact .inl ⟨rfl, rfl⟩

/-- With only the engine moving, a command in flight ends within the steps it has left. -/
theorem State.EngineOnly.finishes {i : Instr} (hi : i.port = .cmd) (n : Nat) {s : State} {e : Engine} (hs : s.EngineOnly)
    (hf : InFlight i s e) (hn : e.stepsLeft i ≤ n) :
    ∃ k t, k ≤ n ∧ core.run k s = .next t ∧ t.eng = none ∧ t.status.done = true ∧ SameHostSide s t := by
  induction n generalizing s e with
  | zero => exact absurd hn (Nat.not_le.2 (stepsLeft_pos hi hf.2))
  | succ n ih =>
    obtain ⟨t, ht⟩ := step_goes_on hs.good
    have hsame := hs.sameHostSide_of_step ht
    have hexec : exec i s = .next t := (step_inFlight hi hs.noReset hs.noTurns hf).symm.trans ht
    obtain ⟨hidle, hdone⟩ | ⟨e', he', hcmd⟩ := (engineStep_of_exec hi hs.good hf hexec).1.done_or_inFlight
    · exact ⟨1, t, Nat.succ_pos n, run_succ ht 0, hidle, hdone, hsame⟩
    · have hless := exec_stepsWithin hi hs.good hf t e' hexec he'
      obtain ⟨k, u, hk, hrun, hidle, hdone, hsame'⟩ := ih (hs.of_step ht) ⟨he', hcmd.trans hf.2⟩ (by omega)
      exact ⟨k + 1, u, Nat.succ_le_succ hk, (run_succ ht k).trans hrun, hidle, hdone, hsame.trans hsame'⟩

end Sys2Proof.Machine

namespace Sys2Proof.Proofs
open Sys2Proof Sys2Proof.Machine

/-- Settles O60: `State.EngineOnly.finishes` for a legal word, whose steps left at the check step are the bound; an illegal word ends
in one step. -/
theorem commandFinishes : Obligations.CommandFinishes := by
  intro s e hgood he hp hr ha
  have hs : s.EngineOnly := ⟨(good_iff s).1 hgood, hr, ha⟩
  cases hd : decodeCmd e.cmd with
  | ok i =>
    obtain ⟨hi, hcmd⟩ := (decodeCmd_eq_ok_iff e.cmd i).1 hd
    have hbound : e.stepsLeft i = stepBound e := by rw [Engine.stepsLeft, hp, Engine.stepsAt]
    exact hs.finishes hi (stepBound e) ⟨he, hcmd⟩ hbound.le
  | error r =>
    have hstep : step s = .next (takeError .illegalCmd e s) := hs.step_eq.trans (engineTurn_illegal he hd)
    exact ⟨1, _, (stepBound_of_illegal hd).ge, run_succ hstep 0, rfl, rfl, .refl s⟩

end Sys2Proof.Proofs
end

section
/-!
Bus errors, acknowledgement, illegal words and the two resets (60_exceptions.md R401, R405, R407; 70_reset_and_hazards.md R450 to R452).
-/
namespace Sys2Proof.Machine

/-! ### The acknowledgement -/

/-- A bit of STATUS that a write of 1 clears (60_exceptions.md R405). -/
theorem and_not_eq_ite (b c : Bool) : (b && !c) = if c then false else b := by cases c <;> simp

/-- A host write of STATUS clears by its own bits 1 to 3. -/
theorem clear_setWidth (st : Status) (data : BitVec 64) :
    st.clear (data.setWidth 32) =
      { done := if data.getLsbD 1 then false else st.done
        err := if data.getLsbD 2 then false else st.err
        hostconf := if data.getLsbD 3 then false else st.hostconf
        errcode := if data.getLsbD 2 then 0 else st.errcode } := by
  have hbit (k : Nat) (hk : k < 32) : (data.setWidth 32).getLsbD k = data.getLsbD k := by
    rw [BitVec.getLsbD_setWidth, decide_eq_true hk, Bool.true_and]
  simp only [Status.clear, and_not_eq_ite, hbit 1 (by decide), hbit 2 (by decide), hbit 3 (by decide)]

/-! ### Illegal words -/

/-- Opcode 0x08 is the slot reserved for the Gardner loop (30_encoding.md R116). -/
theorem decodeCmd_gardnerSlot {w : Word} (h : w &&& 0xFF = 0x08) : ∃ err, decodeCmd w = .error err := by
  refine (decodeCmd_eq_error_iff w).2 (.inr (.inr (.inr (.inl ?_))))
  apply BitVec.eq_of_toNat_eq
  rw [← toNat_and_opcode, h]
  rfl

/-- The engine's turn with an illegal word in flight, or a step with nothing on the agenda, ends it (60_exceptions.md R401). -/
theorem step_engine_illegal {s : State} {rest : List Turn} {e : Engine} {r : DecodeError} (hr : s.resetAsserted = false)
    (he : s.eng = some e) (hd : decodeCmd e.cmd = .error r)
    (ha : s.agenda = .engine :: rest ∨ (s.agenda = [] ∧ rest = [])) :
    step s = .next (takeError .illegalCmd e { s with agenda := rest }) :=
  (step_engineTurn hr ha).trans (engineTurn_illegal (s := { s with agenda := rest }) he hd)

/-! ### Reset -/

/-- A host write of CTRL with bit 0 = 1 is SRST, whatever its other bits (10_state.md R34). -/
theorem decodeCtrl_srst {data : BitVec 64} (h : data.getLsbD 0 = true) : decodeCtrl (data.setWidth 32) = .ok .srst := by
  have hbit : (data.setWidth 32).getLsbD 0 = true := by
    rw [BitVec.getLsbD_setWidth, h]
    rfl
  rw [decodeCtrl, if_pos hbit]

/-- A change of the reset input is taken whether or not it is asserted (70_reset_and_hazards.md R450). -/
theorem step_resetPin {s : State} {b : Bool} {rest : List Turn} (ha : s.agenda = .resetPin b :: rest) :
    step s = .next (setResetPin b { s with agenda := rest }) := by
  simp only [step, transition, ha, takeTurn]

section Asserted
variable {s : State} (hr : s.resetAsserted = true)
include hr

/-- While reset is asserted every other turn is dropped (70_reset_and_hazards.md R450). -/
theorem step_asserted {u : Turn} {rest : List Turn} (hu : ∀ b, u ≠ .resetPin b) (ha : s.agenda = u :: rest) :
    step s = .next { s with agenda := rest } := by
  rw [step, transition, ha]
  cases u with
  | resetPin b => exact absurd rfl (hu b)
  | host | engine | wait => exact if_pos hr

theorem step_asserted_noTurns (ha : s.agenda = []) : step s = .next s := by
  rw [step, transition, ha]
  exact if_pos hr

/-- Deassertion gives the state after reset, with the parameters, BUF and the host's side kept (R450, R451). -/
theorem setResetPin_deassert : setResetPin false s = { State.reset with
    params := s.params, buf := s.buf, resetAsserted := false, agenda := s.agenda, responses := s.responses } := by
  rw [setResetPin, if_neg Bool.false_ne_true, if_pos hr]
  rfl

end Asserted

end Sys2Proof.Machine

namespace Sys2Proof.Proofs
open Sys2Proof Sys2Proof.Machine

/-- Settles O14: the issue of the word, then the engine's step that ends it; the slot 0x08 by its opcode field. -/
theorem illegalWordEnds : Obligations.IllegalWordEnds := by
  refine ⟨fun s data err hr hidle ha hd => ?_, fun s e err hr he hw hd => ?_, fun w => decodeCmd_gardnerSlot⟩
  · have hissue := step_cmd_write hr hidle ha
    have hends := step_engine_illegal
      (s := issue (data.setWidth 32) { s with agenda := [.engine], responses := .writeOkay :: s.responses })
      (by exact hr) rfl hd (.inl rfl)
    exact ⟨_, (run_succ hissue 1).trans (run_succ hends 0), rfl, rfl, rfl, rfl, rfl, fun _ => rfl, rfl⟩
  · have hends (u : State) : EndsInError .illegalCmd 0 u (takeError .illegalCmd e u) :=
      hw ▸ takeError_ends .illegalCmd e u
    refine ⟨fun ha => ?_, fun rest ha => ?_⟩
    · have hsame : { s with agenda := [] } = s := by rw [← ha]
      have hstep := step_engine_illegal hr he hd (.inr ⟨ha, rfl⟩)
      rw [hsame] at hstep
      exact ⟨_, hstep, hends s, rfl, fun _ => rfl⟩
    · exact ⟨_, step_engine_illegal hr he hd (.inl ha), hends _, rfl, fun _ => rfl⟩

/-- Settles O22: the three kinds are neither a legal access of a register nor one of BUF. -/
theorem busErrors : Obligations.BusErrors := by
  intro s a rest hr ha hbad
  have hcsr : ¬ LegalCsr a.offset.toNat a.width.bytes := by
    rintro ⟨hlow, hn, h4⟩
    omega
  have hbuf : ¬ LegalBuf s.params.bufBytes a.offset.toNat a.width.bytes := by
    rintro ⟨hlow, halign, hin⟩
    omega
  cases a with
  | read off w => exact step_read hr ha (hostRead_of_illegal hcsr hbuf)
  | write off w d => exact step_write hr ha (hostWrite_of_illegal hcsr hbuf)

/-- Settles O19: the write is `acknowledge`, bit by bit. -/
theorem acknowledgeClears : Obligations.AcknowledgeClears := by
  intro s rest data hr ha
  rw [← clear_setWidth]
  exact step_csr_write hr (o := 0x008) rfl (by decide) ha (c := .status) rfl

/-- Settles O16: SRST is `resetBlock`, and the CTRL write decodes to it. -/
theorem softReset : Obligations.SoftReset :=
  ⟨fun s => ⟨resetBlock s, rfl, rfl, rfl, rfl, rfl, rfl, rfl, rfl, rfl, rfl, fun _ => rfl, rfl, rfl, rfl⟩,
    fun _ _ _ hr hbit ha => step_port_write (p := .ctrl) hr (fun h => by cases h) ha (decodeCtrl_srst hbit)⟩

/-- Settles O17: a change of the reset input, every other turn while it is asserted, and its deassertion. -/
theorem hardwareReset : Obligations.HardwareReset := by
  refine ⟨fun s rest ha => step_resetPin ha, fun s a rest hr => ⟨?_, ?_, ?_⟩, fun s rest hr ha => ?_⟩
  · exact step_asserted hr (fun _ => Turn.noConfusion)
  · exact step_asserted hr (fun _ => Turn.noConfusion)
  · exact step_asserted_noTurns hr
  · exact (step_resetPin ha).trans (congrArg _ (setResetPin_deassert (s := { s with agenda := rest }) hr))

end Sys2Proof.Proofs
end
